-- ==== Sys2Proof/Word.lean ====
section
/-! DEFINITION. The small words of the Scajro 4120: bytes, station numbers, stream numbers, sequence numbers,
station sets, and the indices of the stream table and of the notice items. -/

namespace Sys2Proof

/-- One byte of buffer memory, one byte of the host port, or the eight data bits of a line character. -/
abbrev Byte := BitVec 8

/-- A station number, 0 to 31 (00_scope.md, Section 6). -/
abbrev Station := BitVec 5

/-- A rate code RS1:RS0 (R174). -/
abbrev RateCode := BitVec 2

/-- A stream number, 0 to 63 (R1). -/
abbrev StreamNo := BitVec 6

/-- A sequence number, 0 to 255; all its arithmetic is modulo 256 (00_scope.md, Section 5). -/
abbrev Seq := BitVec 8

/-- A set of station numbers, held as the 32-bit mask in which bit n stands for station n (00_scope.md, Section 5). -/
abbrev StationSet := BitVec 32

/-- The index of a stream table entry, 0 to 11 (R1). -/
abbrev EntryIdx := Fin 12

/-- The index of a notice item: 0 to 11 for the entries, 12 for the station record (R110). -/
abbrev ItemIdx := Fin 13

end Sys2Proof
end

