-- ==== Sys2Proof/Syntax.lean ====
section
/-! DEFINITION. The commands and events of the block: one constructor of Instr for each row of
spec/opcode_table.json. A host command carries the bytes of its framing after the code byte, so that the
length check of R182 and the byte order of R194 belong to its meaning; a frame event carries the fields of the
frame dispatched (R136); a reset that samples the straps carries the levels on the strap pins (R174). -/

namespace Sys2Proof

/-- The reason of a REFUSE (10.2). -/
inductive Reason where
  | full | closing | notSubscribed | size
  deriving DecidableEq, Repr

/-- A whole received frame with the fields of R130, as the receiver dispatches it (R136). -/
inductive Frame where
  | data (src : Station) (stream : StreamNo) (seq : Seq) (endFlag : Bool) (payload : List Byte)
  | hold (src : Station) (stream : StreamNo) (nextSeq : Seq)
  | ack (src : Station) (stream : StreamNo) (dest : Station) (ackSeq : Seq) (credit : Nat)
  | join (src : Station) (stream : StreamNo) (credit : Nat) (size : Nat)
  | accept (src : Station) (stream : StreamNo) (dest : Station) (start : Seq) (size : Nat)
  | refuse (src : Station) (stream : StreamNo) (dest : Station) (reason : Reason)
  | leave (src : Station) (stream : StreamNo)
  deriving DecidableEq, Repr

/-- What makes the line BUSY (R142). -/
inductive BusyCause where
  | startBit | csn | ownStart
  deriving DecidableEq, Repr

/-- Why a received character is a collision seen (R125). -/
inductive SeenCause where
  | framingError | csn
  deriving DecidableEq, Repr

/-- What the transmitter saw while it drove the line (R145). -/
inductive DriveCause where
  | csn | mismatch
  deriving DecidableEq, Repr

/-- The commands and events of the block, in the table's order. -/
inductive Instr where
  /-- READ_STATUS: a framing of the code byte 10h (R186). -/
  | readStatus
  /-- STATUS_RELATCH: the host clocks past the last byte of a status word (R186). -/
  | statusRelatch
  /-- READ_IDENTITY (R192). -/
  | readIdentity
  /-- READ_NOTICE (R118). -/
  | readNotice
  /-- READ_ENTRY with its entry index byte (R191). -/
  | readEntry (index : Byte)
  /-- READ_SUBSCRIBERS with its entry index byte (R78). -/
  | readSubscribers (index : Byte)
  /-- READ_BUFFER with its address bytes, high first (R188). -/
  | readBuffer (addrHigh addrLow : Byte)
  /-- HOST_BYTE_READ: one answer byte of READ_BUFFER is about to be shifted out (R188). -/
  | hostByteRead
  /-- READ_SLOT with its entry index byte (R189). -/
  | readSlot (index : Byte)
  /-- WRITE_BUFFER: the whole bytes after the code, and whether a partial byte remains at the SSN rise (R187). -/
  | writeBuffer (bytes : List Byte) (ragged : Bool)
  /-- SET_PARAMETERS: as for WRITE_BUFFER (R175). -/
  | setParameters (bytes : List Byte) (ragged : Bool)
  /-- GO_ONLINE (R166). -/
  | goOnline (bytes : List Byte) (ragged : Bool)
  /-- GO_OFFLINE (R171). -/
  | goOffline (bytes : List Byte) (ragged : Bool)
  /-- RESET, with the levels on the strap pins at its SSN rise (R179, R174). -/
  | reset (bytes : List Byte) (ragged : Bool) (sa : Station) (rs : RateCode)
  /-- OPEN_PRODUCE (R13, R18). -/
  | openProduce (bytes : List Byte) (ragged : Bool)
  /-- OPEN_CONSUME (R13, R19). -/
  | openConsume (bytes : List Byte) (ragged : Bool)
  /-- POST (R28). -/
  | post (bytes : List Byte) (ragged : Bool)
  /-- RELEASE (R99). -/
  | release (bytes : List Byte) (ragged : Bool)
  /-- CLOSE (R51, R105). -/
  | close (bytes : List Byte) (ragged : Bool)
  /-- ABORT (R22). -/
  | abort (bytes : List Byte) (ragged : Bool)
  /-- FREE (R21). -/
  | free (bytes : List Byte) (ragged : Bool)
  /-- UNKNOWN_COMMAND_CODE: the code byte of the framing; none for a framing of fewer than 8 bits (R184). -/
  | unknownCommandCode (code : Option Byte)
  /-- POWER_ON, with the levels on the strap pins at its release (R177). -/
  | powerOn (sa : Station) (rs : RateCode)
  /-- RSTN_LOW: RSTN goes low (R178). -/
  | rstnLow
  /-- RSTN_RELEASE: the rising edge of RSTN, with the levels on the strap pins (R178). -/
  | rstnRelease (sa : Station) (rs : RateCode)
  /-- MARKED_CHARACTER: a good marked character ends (R127). -/
  | markedCharacter (d : Byte)
  /-- UNMARKED_CHARACTER: a good unmarked character ends (R127). -/
  | unmarkedCharacter (d : Byte)
  /-- COLLISION_SEEN: a character with a framing error or with CSN asserted ends (R125). -/
  | collisionSeen (cause : SeenCause)
  /-- RECEIVER_IDLE_GAP: the idle gap passes at the receiver (R128). -/
  | receiverIdleGap
  /-- LINE_BUSY (R142). -/
  | lineBusy (cause : BusyCause)
  /-- LINE_IDLE: the idle gap passes at the line access controller (R142). -/
  | lineIdle
  /-- SLOT_END: a resolution slot ends (R149). -/
  | slotEnd
  /-- QUIET_TIMER_EXPIRY (R168). -/
  | quietTimerExpiry
  /-- ACK_TIMER_EXPIRY of an entry (R45). -/
  | ackTimerExpiry (e : EntryIdx)
  /-- HOLD_TIMER_EXPIRY of an entry (R48). -/
  | holdTimerExpiry (e : EntryIdx)
  /-- JOIN_TIMER_EXPIRY of an entry (R83). -/
  | joinTimerExpiry (e : EntryIdx)
  /-- SILENCE_TIMER_EXPIRY of an entry (R101). -/
  | silenceTimerExpiry (e : EntryIdx)
  /-- DATA_FRAME: a DATA frame is dispatched (R87, R56). -/
  | dataFrame (src : Station) (stream : StreamNo) (seq : Seq) (endFlag : Bool) (payload : List Byte)
  /-- HOLD_FRAME (R96, R56). -/
  | holdFrame (src : Station) (stream : StreamNo) (nextSeq : Seq)
  /-- ACK_FRAME (R38 to R40). -/
  | ackFrame (src : Station) (stream : StreamNo) (dest : Station) (ackSeq : Seq) (credit : Nat)
  /-- JOIN_FRAME (R62). -/
  | joinFrame (src : Station) (stream : StreamNo) (credit : Nat) (size : Nat)
  /-- ACCEPT_FRAME (R84, R56). -/
  | acceptFrame (src : Station) (stream : StreamNo) (dest : Station) (start : Seq) (size : Nat)
  /-- REFUSE_FRAME (R85, R104). -/
  | refuseFrame (src : Station) (stream : StreamNo) (dest : Station) (reason : Reason)
  /-- LEAVE_FRAME (R68, R69). -/
  | leaveFrame (src : Station) (stream : StreamNo)
  /-- SCHEDULER_CHOICE (R154). -/
  | schedulerChoice
  /-- TRANSMIT_START: the grant of the start (R144). -/
  | transmitStart
  /-- TRANSMIT_COLLISION: what the transmitter saw, and whether in the frame's first character (R145). -/
  | transmitCollision (cause : DriveCause) (firstChar : Bool)
  /-- NEW_FRAME_COMPLETE: a new frame or a zero-length END completes (R34). -/
  | newFrameComplete
  /-- RESEND_COMPLETE (R46). -/
  | resendComplete
  /-- HOLD_COMPLETE (R50). -/
  | holdComplete
  /-- JOIN_COMPLETE (R82). -/
  | joinComplete
  /-- ACK_COMPLETE (R94, R102). -/
  | ackComplete
  /-- LEAVE_COMPLETE (R106). -/
  | leaveComplete
  /-- REPLY_COMPLETE (R160). -/
  | replyComplete
  /-- READ_COMMAND_SHORT_FRAMING: the read-type code of the framing and the whole parameter bytes that came before
  the SSN rise, fewer than the command has (R183). -/
  | readCommandShortFraming (code : Byte) (bytes : List Byte)
  deriving DecidableEq, Repr

end Sys2Proof
end

