-- ==== Sys2Proof/Decode.lean ====
section
/-! DEFINITION. The host's words for the rows of spec/opcode_table.json. The table gives no bits for any of its 55 rows,
so no word spells a command (notes/assumptions/3.md). -/

namespace Sys2Proof

/-- The command that a word spells by the table's bits. No row of the table gives bits, so there is none. -/
def decodeTableWord (_nbits _w : Nat) : Option Instr := none

end Sys2Proof
end

