-- ==== Sys2Proof/Config.lean ====
section
/-! DEFINITION. The fixed numbers of the part (00_scope.md, Section 6; 10_formats_and_codes.md), and the one free
value: a bit on MISO that the spec does not state. -/

namespace Sys2Proof.Config

/-- Bytes of buffer memory (R8). -/
def memBytes : Nat := 8192

/-- Records of the subscriber pool (R58). -/
def poolSize : Nat := 48

/-- The outstanding window W: frame records of one producer entry (R36). -/
def window : Nat := 4

/-- The largest credit a consumer reports (R93). -/
def maxCredit : Nat := 4

/-- The largest frame payload size P (R15). -/
def maxPayload : Nat := 64

/-- Replies the reply queue holds (R158). -/
def replyCapacity : Nat := 8

/-- Places of the host write holding area and of the slot latch (R187, R189). -/
def portArea : Nat := 64

/-- Consecutive transmit failures that take the station to LINE_FAULT (R153). -/
def failureLimit : Nat := 8

/-- Slots of a resolution round (R146). -/
def roundSlots : Nat := 32

/-- Bit times of one character time c (10.1). -/
def charBits : Nat := 11

/-- The idle gap, 3 c, in bit times (R142). -/
def idleGapBits : Nat := 33

/-- A resolution slot, 2 c, in bit times (R149). -/
def slotBits : Nat := 22

/-- The quiet timer's interval, 64 c, in bit times (R167). -/
def quietBits : Nat := 704

/-- Default T_ack in milliseconds (R164). -/
def defaultTAck : Nat := 20

/-- Default retry limit N (R164). -/
def defaultN : Nat := 6

/-- Default T_hold in milliseconds (R164). -/
def defaultTHold : Nat := 250

/-- Bit times of one millisecond at a rate code: 125, 250, 500 or 1000 (R124's table of bit times). -/
def bitsPerMs (rate : BitVec 2) : Nat := 125 * 2 ^ rate.toNat

/-- The n-th bit that MISO shows, while SSN is low, where the answer of a read-type command that is not taken would stand: R180 has
the station drive MISO and states no value there (a free value, DESIGN CHOICE, notes/assumptions/27.md). -/
opaque untakenBit : Nat → Bool

end Sys2Proof.Config
end

