-- ==== Sys2Proof/Machine/State.lean ====
section
/-! DEFINITION. The state of the block as plain data: every register, queue, buffer, counter and mode that the spec
gives it (INVENTORY.md, "State"), the queue of waiting commands, and the state after reset. -/

namespace Sys2Proof.Machine

/-- Buffer memory as address and byte pairs with strictly rising addresses; an unlisted address reads 00h, the value
power-on clears it to (R9), and no listed byte is 00h. -/
abbrev Memory := List Host.Cell

/-! ## The stream table (01, 02, 04) -/

/-- Where an entry is in its life (R1). -/
inductive EntryState where
  | free | producing | closing | joining | receiving | leaving | ended
  deriving DecidableEq, Repr

/-- Which end of the stream an entry is; absent while FREE (R1). -/
inductive Role where
  | producer | consumer
  deriving DecidableEq, Repr

/-- How received frames are placed (R1). -/
inductive Mode where
  | advance | fixed
  deriving DecidableEq, Repr

/-- Why an entry ended (R4). -/
inductive Cause where
  | countDone | closed | byProducer | evicted | noProducer | refusedFull | refusedClosing | sizeMismatch
  | producerLost | conflict | aborted | offline
  deriving DecidableEq, Repr

/-- The entry timer: stopped, or running with its remaining time in milliseconds; a running timer is frozen while the
station is not ONLINE (R24, R25). -/
inductive Timer where
  | stopped
  | running (ms : Nat)
  deriving DecidableEq, Repr

/-- End pending of a producer entry (R52). -/
inductive EndPending where
  | clear | byCount | byClose
  deriving DecidableEq, Repr

/-- The ack owed flag of a consumer entry (R94). -/
inductive AckFlag where
  | clear | owed | inFlight | renewed
  deriving DecidableEq, Repr

/-- A subscriber record (R60). -/
structure SubRec where
  station : Station
  acked : Seq
  credit : Nat
  missed : Nat
  heard : Bool
  deriving DecidableEq, Repr

/-- A frame record of the outstanding ring (R36, R37); slot is absent for a zero-length END frame. -/
structure FrameRec where
  seq : Seq
  slot : Option Nat
  len : Nat
  endFlag : Bool
  owed : StationSet
  queued : Bool
  deriving DecidableEq, Repr

/-- The producer fields (R6). The fill index is computed: it always equals (send index + filled) mod slots (R27).
holdDue says that the hold timer has expired and the HOLD has not yet completed (R48). -/
structure Producer where
  nextSeq : Seq := 0
  sendIdx : Nat := 0
  filled : Nat := 0
  ring : List FrameRec := []
  endPending : EndPending := .clear
  subs : List SubRec := []
  holdDue : Bool := false
  deriving DecidableEq, Repr

/-- The consumer fields (R7). joinDue says that a JOIN is due (R81); endMark is the END mark of the last accepted
frame (R88). -/
structure Consumer where
  producer : Option Station := none
  expected : Seq := 0
  writeIdx : Nat := 0
  readIdx : Nat := 0
  held : Nat := 0
  joinAttempts : Nat := 0
  joinDue : Bool := false
  ack : AckFlag := .clear
  lastSeq : Option Seq := none
  endMark : Bool := false
  deriving DecidableEq, Repr

/-- One entry of the stream table: the common fields of R1 and the fields of both roles. The default values are those
of a FREE entry (R1). cause holds the stored cause while LEAVING (R4). -/
structure Entry where
  state : EntryState := .free
  role : Option Role := none
  stream : StreamNo := 0
  base : Nat := 0
  slots : Nat := 0
  size : Nat := 0
  mode : Mode := .advance
  count : Nat := 0
  remaining : Nat := 0
  threshold : Nat := 0
  timer : Timer := .stopped
  cause : Option Cause := none
  prod : Producer := {}
  cons : Consumer := {}
  deriving DecidableEq, Repr

/-! ## The notice unit (05) -/

/-- A notice kind (R111, R112), in the bit order of the notice record (10.8). -/
inductive Kind where
  | joined | departed | evicted | dataReady | spaceReady | ended | online | lineFault
  deriving DecidableEq, Repr

/-- A notice item (R110). Its pending kinds are a set, held as the mask of 10.8. -/
structure Item where
  kinds : BitVec 8 := 0
  cause : Option Cause := none
  joined : StationSet := 0
  departed : StationSet := 0
  evicted : StationSet := 0
  deriving DecidableEq, Repr

/-! ## The frame receiver (06) -/

/-- The receiver's states (R126). -/
inductive RxState where
  | off | sync | hunt | assembling | skipping | suspended
  deriving DecidableEq, Repr

/-- The character assembler (R124, R125). start says that a falling transition has been taken whose start bit is still to be
checked at its middle; bits are the levels sampled since the start bit was confirmed, high as true, and none with no character
in progress; csn says that CSN has been asserted since then; awaitStop says that the line has not stood at stop level for a
whole bit time since a framing error. Sampling by bit times is a DESIGN CHOICE (notes/assumptions/25.md). -/
structure Assembler where
  start : Bool := false
  bits : Option (List Bool) := none
  csn : Bool := false
  awaitStop : Bool := false
  deriving DecidableEq, Repr

/-- The frame receiver. hold is the receive holding area: in ASSEMBLING the characters of the frame so far; in HUNT
the characters of a complete frame whose CRC has passed and whose dispatch has not been taken (R130, R137), else
empty. The kind, the source and the length that ASSEMBLING holds (R127) are read from hold. gap is the time in bit
times since the last character ended, up to the idle gap; none while a character is on the line (R124). Its value where no
character has been taken, none after a reset and in OFF and 0 after SUSPENDED, is a DESIGN CHOICE
(notes/assumptions/22.md). -/
structure Receiver where
  state : RxState := .off
  hold : List Byte := []
  gap : Option Nat := none
  char : Assembler := {}
  deriving DecidableEq, Repr

/-! ## Line access and transmission (07) -/

/-- The line as this station sees it (R142). -/
inductive LineState where
  | idle | busy
  deriving DecidableEq, Repr

/-- The round state with its origin o, remaining slots r and slot index k (R147). elapsed is the bit times of the
running slot that have passed; source is the source of the activity once known (R150). -/
inductive Round where
  | contention
  | gap (o : Station) (r : Nat)
  | slot (o : Station) (r : Nat) (k : BitVec 5) (elapsed : Nat)
  | busy (o : Station) (r : Nat) (k : BitVec 5) (source : Option Station)
  deriving DecidableEq, Repr

/-- What a reply says: ACCEPT with its start sequence and P, or REFUSE with its reason (R158). -/
inductive ReplyBody where
  | accept (start : Seq) (size : Nat)
  | refuse (reason : Reason)
  deriving DecidableEq, Repr

/-- A reply of the reply queue (R158). -/
structure Reply where
  dest : Station
  stream : StreamNo
  body : ReplyBody
  inService : Bool
  deriving DecidableEq, Repr

/-- A chosen frame with the fields fixed at its choice (R156) and the entry that owns it; a reply is owned by the
reply queue. A data frame is a resend or a new frame; a zero-length END is a new frame without a slot. -/
inductive TxFrame where
  | data (entry : EntryIdx) (resend : Bool) (stream : StreamNo) (seq : Seq) (endFlag : Bool) (slot : Option Nat) (len : Nat)
  | hold (entry : EntryIdx) (stream : StreamNo) (nextSeq : Seq)
  | join (entry : EntryIdx) (stream : StreamNo) (credit : Nat) (size : Nat)
  | ack (entry : EntryIdx) (stream : StreamNo) (dest : Station) (ackSeq : Seq) (credit : Nat)
  | leave (entry : EntryIdx) (stream : StreamNo)
  | reply (dest : Station) (stream : StreamNo) (body : ReplyBody)
  deriving DecidableEq, Repr

/-- The transmitter (R143). In CHOSEN, granted says that a slot of this station started with the frame chosen, so that
the frame starts in that slot (R144). In SENDING, chars is the transmit holding area, bits the bit times driven so
far, inRound whether the frame started in a round slot (R152), and orphan whether its completion or failure reaches no
entry any more (R5, R21). -/
inductive Tx where
  | free
  | chosen (frame : TxFrame) (granted : Bool)
  | sending (frame : TxFrame) (chars : List Byte) (bits : Nat) (inRound : Bool) (orphan : Bool)
  deriving DecidableEq, Repr

/-! ## Station control (08) and the host port (09) -/

/-- The station state (R164). -/
inductive StationState where
  | offline | listening | online | lineFault
  deriving DecidableEq, Repr

/-- The protocol parameters (R164): T_ack and T_hold in milliseconds, and the retry limit N. -/
structure Params where
  tAck : Nat := Config.defaultTAck
  n : Nat := Config.defaultN
  tHold : Nat := Config.defaultTHold
  deriving DecidableEq, Repr

/-- The result codes (R185). -/
inductive ResultCode where
  | ok | badCommand | badLength | badEntry | refusedState | badParameter | overlap | streamInUse | noSpace | empty
  deriving DecidableEq, Repr

/-- The read-type commands (10.3). -/
inductive ReadCmd where
  | status | identity | notice | entry | subscribers | buffer | slot
  deriving DecidableEq, Repr

/-- The port's states (R181). A row of the table is a whole framing and passes CODE, WRITING and PARAMETERS at once; a
framing told by its edges stands in them (notes/assumptions/8.md). -/
inductive PortPhase where
  | idle | code | writing | parameters
  | answering (cmd : ReadCmd)
  | discarding
  deriving DecidableEq, Repr

/-- A change on a pin that no row of the table names: the edges of SSN and SCK, the latter with the level on MOSI (R180),
the levels on RXD, as the line has them apart from this station's own driving, and on CSN (R124, R142, R145), and the
supply: its rise, the release of power-on reset with the levels on the strap pins, and the end of the clearing of buffer memory
(R177). An SSN rise carries the levels on the strap pins, which a RESET samples (R174, R179). -/
inductive PinEvent where
  | ssnFall
  | sckRise (mosi : Bool)
  | sckFall
  | ssnRise (sa : Station) (rs : RateCode)
  | rxdFall
  | rxdReturn
  | csnAssert
  | csnRelease
  | supplyRise
  | powerRelease (sa : Station) (rs : RateCode)
  | clearingEnd
  deriving DecidableEq, Repr

/-- How far a framing that is not taken has come, by the bits clocked in it since SSN fell (R180, R181): in its code byte,
with the bits of it so far; in the parameter bytes of a read-type code, with the count of bits still to come; past the code of
a write-type command or one that names no command; or where a read-type command's answer would stand, with whether SCK has
fallen there (notes/assumptions/27.md). -/
inductive Untaken where
  | code (bits : List Bool)
  | parameters (left : Nat)
  | zeros
  | answer (shifting : Bool)
  deriving DecidableEq, Repr

/-- The host port. In a framing told by its edges bits are those of the byte being received, code its code byte and bytes
the whole bytes after it (R180, R181). answer holds the answer bytes latched or claimed last (R183); a byte clocked past
them reads 00h. out is the bit of the answer that MISO shows, absent until SCK first falls in ANSWERING. readAddr is
READ_BUFFER's read address, held within its framing (R188). ssnLow is the level on SSN. untaken follows a framing that is
not taken, which finds the port IDLE (R180, R181). -/
structure Port where
  ssnLow : Bool := false
  phase : PortPhase := .idle
  untaken : Untaken := .code []
  bits : List Bool := []
  code : Byte := 0
  bytes : List Byte := []
  out : Option Nat := none
  answer : List Byte := []
  readAddr : Option Nat := none
  writeHold : List Byte := []
  slotLatch : List Byte := List.replicate Config.portArea 0
  result : ResultCode := .ok
  deriving DecidableEq, Repr

/-- Power-on reset: held from the rise of the supply to its release; then buffer memory is cleared and the host port takes no
command; then the part is on (R177; DESIGN CHOICE, notes/assumptions/26.md). -/
inductive Power where
  | held | clearing | on
  deriving DecidableEq, Repr

/-! ## The machine -/

/-- The state of the block. pending is the queue of waiting commands and pins that of changes on pins which no row of the
table names, each first in, first out; every other field is the spec's own (INVENTORY.md names the rule of each).
csnAsserted and rxdLow are levels on the line, which hold the idle gap back (R142), and rxdSteady says that RXD has stood at stop
level for the whole bit time before (R124). handover is the completed frame whose owner has not yet taken its completion
(R161). misoDraws counts the falls of SCK where the answer of a command that is not taken would stand: MISO's
bits there are free (notes/assumptions/27.md). -/
@[ext]
structure State where
  mem : Memory := []
  entries : Vector Entry 12 := Vector.replicate 12 {}
  poolFree : Nat := Config.poolSize
  items : Vector Item 13 := Vector.replicate 13 {}
  noticeQueue : List ItemIdx := []
  rx : Receiver := {}
  line : LineState := .busy
  lineGap : Option Nat := none
  csnAsserted : Bool := false
  rxdLow : Bool := false
  rxdSteady : Bool := true
  round : Round := .contention
  failCount : Nat := 0
  tx : Tx := .free
  handover : Option TxFrame := none
  replies : List Reply := []
  rrConsumer : EntryIdx := 11
  rrProducer : EntryIdx := 11
  station : StationState := .offline
  params : Params := {}
  stationNo : Station := 0
  rate : RateCode := 0
  quiet : Option Nat := none
  msPhase : Nat := 0
  rstnLow : Bool := false
  power : Power := .on
  port : Port := {}
  misoDraws : Nat := 0
  pins : List PinEvent := []
  pending : List Instr := []
  deriving DecidableEq, Repr

/-- Reasons to stop with a fault. No command of this block stops: each has its effect, or an outcome the spec names
(a result code, a frame dropped, an event that does not occur), so the type has no constructor. -/
inductive Fault where
  deriving DecidableEq, Repr

/-- Reasons to refuse a command. -/
inductive Refusal where
  /-- Raised only by an arm of exec for a row without a meaning; there is none in this model. Safe: nothing follows. -/
  | notModelled (mnemonic : String)
  deriving DecidableEq, Repr

/-- What a meaning answers. -/
abbrev Outcome := Host.Outcome State Fault Refusal

/-- The machine right after power-on reset with the straps at 0 (R177 and the table of 8.8): every entry FREE, all
records free, buffer memory 00h, everything empty or stopped, the station OFFLINE. The strap levels, the levels on CSN,
RXD and SSN, the receiver's time since the last character and the count of free bits are the model's choices
(notes/assumptions/1.md, 9.md, 12.md, 22.md, 27.md). -/
def State.reset : State := {}

end Sys2Proof.Machine
end

