-- ==== Sys2Proof/Machine/Flags.lean ====
section
/-! DEFINITION. The flags and sets of the block: the ack owed flag's moves (R94), the bits of the notice kinds (10.8),
station sets, and the code values of 10.4. -/

namespace Sys2Proof.Machine

/-! ## Station sets -/

/-- The set that holds one station: bit n of the mask stands for station n (00_scope.md, Section 5). -/
def stationBit (n : Station) : StationSet := 1#32 <<< n.toNat

/-- Whether a set holds a station. -/
def inSet (n : Station) (t : StationSet) : Bool := t.getLsbD n.toNat

/-- The set of the stations of a list. -/
def stationsOf : List Station → StationSet
  | [] => 0
  | n :: ns => stationBit n ||| stationsOf ns

/-! ## The ack owed flag (R94) -/

/-- An ack-owing event (R94's first row). -/
def AckFlag.owe : AckFlag → AckFlag
  | .clear => .owed
  | .owed => .owed
  | .inFlight => .renewed
  | .renewed => .renewed

/-- The scheduler chooses an ACK of the entry (R94's second row). -/
def AckFlag.chosen : AckFlag → AckFlag
  | .owed => .inFlight
  | f => f

/-- The ACK completes (R94's third row). -/
def AckFlag.completed : AckFlag → AckFlag
  | .inFlight => .clear
  | .renewed => .owed
  | f => f

/-- The ACK's choice is undone, or its transmission fails (R94's fourth row). -/
def AckFlag.undone : AckFlag → AckFlag
  | .inFlight => .owed
  | .renewed => .owed
  | f => f

/-! ## Notice kinds (10.8) -/

/-- The bit of a kind in byte 1 of the notice record (10.8). -/
def Kind.bit : Kind → BitVec 8
  | .joined => 0x01#8
  | .departed => 0x02#8
  | .evicted => 0x04#8
  | .dataReady => 0x08#8
  | .spaceReady => 0x10#8
  | .ended => 0x20#8
  | .online => 0x40#8
  | .lineFault => 0x80#8

/-- Whether a kind is pending in an item. -/
def Item.has (t : Item) (k : Kind) : Bool := (t.kinds &&& k.bit) != 0

/-! ## Code values of the answers (10.4) -/

/-- Station state codes (10.4). -/
def StationState.code : StationState → Nat
  | .offline => 0
  | .listening => 1
  | .online => 2
  | .lineFault => 3

/-- Entry state codes (10.4). -/
def EntryState.code : EntryState → Nat
  | .free => 0
  | .producing => 1
  | .closing => 2
  | .joining => 3
  | .receiving => 4
  | .leaving => 5
  | .ended => 6

/-- Role codes (10.4). -/
def roleCode : Option Role → Nat
  | none => 0
  | some .producer => 1
  | some .consumer => 2

/-- Mode codes (10.3). -/
def Mode.code : Mode → Nat
  | .advance => 0
  | .fixed => 1

/-- Ack owed codes (10.4). -/
def AckFlag.code : AckFlag → Nat
  | .clear => 0
  | .owed => 1
  | .inFlight => 2
  | .renewed => 3

/-- End pending codes (10.4). -/
def EndPending.code : EndPending → Nat
  | .clear => 0
  | .byCount => 1
  | .byClose => 2

/-- End cause codes (10.4); 00h when absent. -/
def causeCode : Option Cause → Nat
  | none => 0
  | some .countDone => 1
  | some .closed => 2
  | some .byProducer => 3
  | some .evicted => 4
  | some .noProducer => 5
  | some .refusedFull => 6
  | some .refusedClosing => 7
  | some .sizeMismatch => 8
  | some .producerLost => 9
  | some .conflict => 10
  | some .aborted => 11
  | some .offline => 12

/-- Result codes (10.4). -/
def ResultCode.code : ResultCode → Nat
  | .ok => 0
  | .badCommand => 1
  | .badLength => 2
  | .badEntry => 3
  | .refusedState => 4
  | .badParameter => 5
  | .overlap => 6
  | .streamInUse => 7
  | .noSpace => 8
  | .empty => 9

/-- Reason codes of REFUSE (10.2). -/
def reasonCode : Reason → Byte
  | .full => 1#8
  | .closing => 2#8
  | .notSubscribed => 3#8
  | .size => 4#8

/-- The reason that a code names (10.2); none for a code that R131 makes malformed. -/
def reasonOf (c : Byte) : Option Reason :=
  if c = 1#8 then some .full
  else if c = 2#8 then some .closing
  else if c = 3#8 then some .notSubscribed
  else if c = 4#8 then some .size
  else none

/-- One byte whose bits stand for truth values, least significant first. -/
def flagByte (bits : List Bool) : Byte :=
  BitVec.ofNat 8 (bits.foldr (fun b n => b.toNat + 2 * n) 0)

end Sys2Proof.Machine
end

