-- ==== Sys2Proof/WellFormed.lean ====
section
/-! DEFINITION. Which terms of Instr stand for a command or event that can come to the block. A host command with any
bytes is one: the length check and the parameter checks belong to its meaning. -/

namespace Sys2Proof

/-- The command codes of 10.3. -/
def commandCodes : List Byte :=
  [0x10#8, 0x11#8, 0x12#8, 0x13#8, 0x14#8, 0x15#8, 0x16#8, 0x20#8, 0x30#8, 0x31#8, 0x32#8, 0x3C#8,
   0x40#8, 0x41#8, 0x42#8, 0x43#8, 0x44#8, 0x45#8, 0x46#8]

/-- The number of parameter bytes of a read-type command that has parameters (10.3); none for every other code. -/
def readParameterBytes (code : Byte) : Option Nat :=
  if code = 0x13#8 ∨ code = 0x14#8 ∨ code = 0x16#8 then some 1
  else if code = 0x15#8 then some 2
  else none

/-- The framing of a read-type command with parameters that ends before its last parameter byte (R183). -/
def isShortRead (code : Byte) (bytes : List Byte) : Bool :=
  match readParameterBytes code with
  | some n => decide (bytes.length < n)
  | none => false

/-- A frame whose field values R131 does not make malformed. -/
def Frame.wf : Frame → Bool
  | .data _ _ _ _ payload => decide (payload.length ≤ Config.maxPayload)
  | .hold _ _ _ => true
  | .ack _ _ _ _ credit => decide (credit ≤ Config.maxCredit)
  | .join _ _ credit size => decide (credit ≤ Config.maxCredit) && decide (1 ≤ size ∧ size ≤ Config.maxPayload)
  | .accept _ _ _ _ size => decide (1 ≤ size ∧ size ≤ Config.maxPayload)
  | .refuse _ _ _ _ => true
  | .leave _ _ => true

/-- The frame that a frame event carries. -/
def Instr.frame? : Instr → Option Frame
  | .dataFrame a b c d e => some (.data a b c d e)
  | .holdFrame a b c => some (.hold a b c)
  | .ackFrame a b c d e => some (.ack a b c d e)
  | .joinFrame a b c d => some (.join a b c d)
  | .acceptFrame a b c d e => some (.accept a b c d e)
  | .refuseFrame a b c d => some (.refuse a b c d)
  | .leaveFrame a b => some (.leave a b)
  | _ => none

/-- The checks of a term: a frame event's fields are in range, an unknown code is no command code, and a short framing
is short. -/
def Instr.wf (i : Instr) : Bool :=
  match i with
  | .unknownCommandCode (some c) => !commandCodes.contains c
  | .readCommandShortFraming c bytes => isShortRead c bytes
  | i => match i.frame? with
    | some f => f.wf
    | none => true

end Sys2Proof
end

