-- ==== Sys2Proof/Machine/Operands.lean ====
section
/-! DEFINITION. What commands, frames and answers carry: parameter bytes, sequence comparison, the computed fields of
an entry, the frame characters with their CRC (10.2, R134), the receiver's checks on a character (R131 to R133), and
the layouts of the answers (10.5 to 10.9). -/

namespace Sys2Proof.Machine

/-! ## Parameters -/

/-- The entry that an index byte names; none above 11 (R14). -/
def entryIdx? (b : Byte) : Option EntryIdx :=
  if h : b.toNat < 12 then some ⟨b.toNat, h⟩ else none

/-- A 16-bit parameter, most significant byte first (R194). -/
def word16 (high low : Byte) : Nat := high.toNat * 256 + low.toNat

/-- A 16-bit value as the station sends it, most significant byte first (R194). -/
def bytes16 (n : Nat) : List Byte := [BitVec.ofNat 8 (n / 256), BitVec.ofNat 8 n]

/-- A station mask as four bytes, stations 31 to 24 first (10.8). -/
def bytes32 (t : StationSet) : List Byte :=
  [t.extractLsb' 24 8, t.extractLsb' 16 8, t.extractLsb' 8 8, t.extractLsb' 0 8]

/-- All entry indices in ascending order. -/
def allEntries : List EntryIdx := List.finRange 12

/-! ## Sequence comparison (00_scope.md, Section 5) -/

/-- The named outcomes of comparing a received sequence with an expected one. -/
inductive SeqClass where
  | inOrder | ahead | behind | stale
  deriving DecidableEq, Repr

/-- d = (s - e) mod 256, named by the table of Section 5. -/
def seqClass (s e : Seq) : SeqClass :=
  let d := (s - e).toNat
  if d = 0 then .inOrder
  else if d ≤ 4 then .ahead
  else if 252 ≤ d then .behind
  else .stale

/-! ## Computed fields of an entry -/

/-- The number of outstanding records that hold a slot (R27). -/
def slotsOut (ring : List FrameRec) : Nat := ring.countP (fun r => r.slot.isSome)

/-- The free slots of a producer entry (R6, R27). -/
def Entry.freeSlots (e : Entry) : Nat := e.slots - e.prod.filled - slotsOut e.prod.ring

/-- The fill index, (send index + filled) mod slots (R27). -/
def Entry.fillIdx (e : Entry) : Nat := (e.prod.sendIdx + e.prod.filled) % e.slots

/-- A producer entry in PRODUCING or CLOSING. -/
def Entry.liveProducer (e : Entry) : Bool := e.state == .producing || e.state == .closing

/-- An entry in any state but FREE and ENDED. -/
def Entry.live (e : Entry) : Bool := e.state != .free && e.state != .ended

/-- A consumer entry's credit (R93). -/
def Entry.credit (e : Entry) : Nat :=
  if e.state = .joining ∨ e.state = .receiving then
    match e.mode with
    | .advance => min Config.maxCredit (e.slots - e.cons.held)
    | .fixed => Config.maxCredit
  else 0

/-- Whether any outstanding record is queued for resend (R46). -/
def anyQueued (ring : List FrameRec) : Bool := ring.any (fun r => r.queued)

/-- The credit gate for a sequence (R32). -/
def creditGate (subs : List SubRec) (s : Seq) : Bool :=
  subs.all (fun r => decide ((s - r.acked).toNat ≤ r.credit))

/-- Whether a station has a record on a subscriber list. -/
def isSubscriber (subs : List SubRec) (n : Station) : Bool := subs.any (fun r => r.station == n)

/-- The last address of a region plus one (R8). -/
def Entry.regionEnd (e : Entry) : Nat := e.base + e.slots * e.size

/-- The address of slot i of an entry's region (R8). -/
def Entry.slotAddr (e : Entry) (i : Nat) : Nat := e.base + i * e.size

/-- The consumer's silence timeout T_sil = T_hold × (N + 2) (R164). -/
def Params.tSil (p : Params) : Nat := p.tHold * (p.n + 2)

/-! ## Open parameters (1.6) -/

/-- The parameters of an open command, as they arrive; mode is the mode byte of OPEN_CONSUME. -/
structure OpenArgs where
  stream : Nat
  base : Nat
  slots : Nat
  size : Nat
  count : Nat
  threshold : Nat
  modeCode : Nat
  deriving DecidableEq, Repr

/-- The parameter bytes of OPEN_PRODUCE after the entry index, in the order of 10.3. -/
def produceArgs (st bh bl sl p fh fl th : Byte) : OpenArgs :=
  { stream := st.toNat, base := word16 bh bl, slots := sl.toNat, size := p.toNat, count := word16 fh fl,
    threshold := th.toNat, modeCode := 0 }

/-- The parameter bytes of OPEN_CONSUME after the entry index, in the order of 10.3. -/
def consumeArgs (st bh bl sl p fh fl th mode : Byte) : OpenArgs :=
  { produceArgs st bh bl sl p fh fl th with modeCode := mode.toNat }

/-- The mode that a mode byte names (10.3). -/
def modeOf (code : Nat) : Mode := if code = 1 then .fixed else .advance

/-- R15: some parameter is out of range. -/
def OpenArgs.bad (a : OpenArgs) : Bool :=
  decide (63 < a.stream) || decide (a.size = 0) || decide (Config.maxPayload < a.size) || decide (a.slots = 0)
  || decide (Config.memBytes ≤ a.base) || decide (Config.memBytes < a.base + a.slots * a.size)
  || decide (a.threshold = 0) || decide (a.slots < a.threshold) || decide (1 < a.modeCode)
  || (decide (a.modeCode = 1) && decide (a.slots ≠ 1))

/-- R17: the region shares a byte with an entry's region. -/
def OpenArgs.overlaps (a : OpenArgs) (e : Entry) : Bool :=
  decide (a.base < e.regionEnd) && decide (e.base < a.base + a.slots * a.size)

/-! ## The frame CRC (R134) -/

/-- One bit into the CRC register. -/
def crcBit (reg : BitVec 16) (b : Bool) : BitVec 16 :=
  if reg.msb != b then (reg <<< 1) ^^^ 0x1021#16 else reg <<< 1

/-- The eight data bits of a character, most significant first. -/
def crcByte (reg : BitVec 16) (d : Byte) : BitVec 16 :=
  [7, 6, 5, 4, 3, 2, 1, 0].foldl (fun r i => crcBit r (d.getLsbD i)) reg

/-- The CRC over a list of characters, the register preset to FFFFh. -/
def crc (chars : List Byte) : BitVec 16 := chars.foldl crcByte 0xFFFF#16

/-- Characters with their CRC appended, high character first. -/
def withCrc (chars : List Byte) : List Byte :=
  chars ++ [(crc chars).extractLsb' 8 8, (crc chars).extractLsb' 0 8]

/-- A complete frame's last two characters are the CRC of those before them (R135). -/
def crcPasses (chars : List Byte) : Bool := chars == withCrc (chars.take (chars.length - 2))

/-! ## Frame characters (10.2) -/

/-- The first character: the kind code in bits 7 to 5, the source in bits 4 to 0. -/
def firstChar (kind : BitVec 3) (src : Station) : Byte := kind ++ src

/-- The stream character: the reserved bit 0, the END flag, the stream number. -/
def streamChar (endFlag : Bool) (stream : StreamNo) : Byte :=
  (0#1 ++ BitVec.ofBool endFlag) ++ stream

/-- A destination character. -/
def destChar (dest : Station) : Byte := dest.setWidth 8

/-- The characters of a frame before its CRC (10.2, R129). -/
def frameBody : Frame → List Byte
  | .data src st seq e payload =>
      [firstChar 1 src, streamChar e st, seq, BitVec.ofNat 8 payload.length] ++ payload
  | .hold src st next => [firstChar 2 src, streamChar false st, next]
  | .ack src st dest a k => [firstChar 3 src, streamChar false st, destChar dest, a, BitVec.ofNat 8 k]
  | .join src st k p => [firstChar 4 src, streamChar false st, BitVec.ofNat 8 k, BitVec.ofNat 8 p]
  | .accept src st dest start p =>
      [firstChar 5 src, streamChar false st, destChar dest, start, BitVec.ofNat 8 p]
  | .refuse src st dest r => [firstChar 6 src, streamChar false st, destChar dest, reasonCode r]
  | .leave src st => [firstChar 7 src, streamChar false st]

/-- The characters of a frame as they cross the line (10.2, R134). -/
def frameChars (f : Frame) : List Byte := withCrc (frameBody f)

/-- The kind code of a first character (10.2). -/
def kindOf (c : Byte) : BitVec 3 := c.extractLsb' 5 3

/-- The source of a first character (10.2). -/
def srcOf (c : Byte) : Station := c.setWidth 5

/-- The stream number of a stream character (10.2). -/
def streamOf (c : Byte) : StreamNo := c.setWidth 6

/-- The length of the frame whose characters so far are given, once known (R127, R129). -/
def frameLength (chars : List Byte) : Option Nat :=
  match chars with
  | [] => none
  | c :: _ =>
    match (kindOf c).toNat with
    | 1 => (chars[3]?).map (fun l => 6 + l.toNat)
    | 2 => some 5
    | 3 => some 7
    | 4 => some 6
    | 5 => some 7
    | 6 => some 6
    | 7 => some 4
    | _ => none

/-- The fields of a complete frame, read from its stored characters as R129 and R130 place them. -/
def parseFrame (chars : List Byte) : Option Frame :=
  match chars with
  | c :: t :: rest =>
    match (kindOf c).toNat, rest with
    | 1, seq :: len :: more => some (.data (srcOf c) (streamOf t) seq (t.getLsbD 6) (more.take len.toNat))
    | 2, next :: _ => some (.hold (srcOf c) (streamOf t) next)
    | 3, d :: a :: k :: _ => some (.ack (srcOf c) (streamOf t) (d.setWidth 5) a k.toNat)
    | 4, k :: p :: _ => some (.join (srcOf c) (streamOf t) k.toNat p.toNat)
    | 5, d :: a :: p :: _ => some (.accept (srcOf c) (streamOf t) (d.setWidth 5) a p.toNat)
    | 6, d :: r :: _ => (reasonOf r).map (fun reason => .refuse (srcOf c) (streamOf t) (d.setWidth 5) reason)
    | 7, _ => some (.leave (srcOf c) (streamOf t))
    | _, _ => none
  | _ => none

/-- The stream number of a frame. -/
def frameStream : Frame → StreamNo
  | .data _ st _ _ _ => st
  | .hold _ st _ => st
  | .ack _ st _ _ _ => st
  | .join _ st _ _ => st
  | .accept _ st _ _ _ => st
  | .refuse _ st _ _ => st
  | .leave _ st => st

/-- The destination of a frame, for the kinds that carry one (10.2). -/
def frameDest? : Frame → Option Station
  | .ack _ _ d _ _ => some d
  | .accept _ _ d _ _ => some d
  | .refuse _ _ d _ => some d
  | _ => none

/-- The frame event that dispatches a frame. -/
def frameRow : Frame → Instr
  | .data a b c d e => .dataFrame a b c d e
  | .hold a b c => .holdFrame a b c
  | .ack a b c d e => .ackFrame a b c d e
  | .join a b c d => .joinFrame a b c d
  | .accept a b c d e => .acceptFrame a b c d e
  | .refuse a b c d => .refuseFrame a b c d
  | .leave a b => .leaveFrame a b

/-! ## The receiver's checks on a character (R131 to R133) -/

/-- R131: the character at a position of a frame of a kind holds a value that no sound station sends. -/
def charMalformed (kind : BitVec 3) (pos : Nat) (d : Byte) : Bool :=
  match pos, kind.toNat with
  | 0, k => k == 0
  | 1, k => d.getLsbD 7 || (d.getLsbD 6 && k != 1)
  | 2, 3 => decide (31 < d.toNat)
  | 2, 5 => decide (31 < d.toNat)
  | 2, 6 => decide (31 < d.toNat)
  | 2, 4 => decide (4 < d.toNat)
  | 3, 1 => decide (64 < d.toNat)
  | 3, 4 => decide (d.toNat = 0 ∨ 64 < d.toNat)
  | 3, 6 => (reasonOf d).isNone
  | 4, 3 => decide (4 < d.toNat)
  | 4, 5 => decide (d.toNat = 0 ∨ 64 < d.toNat)
  | _, _ => false

/-- R132 and R133: the character shows that the frame is of no interest. held says whether an entry that is not FREE
carries a stream number. -/
def charOfNoInterest (held : StreamNo → Bool) (own : Station) (kind : BitVec 3) (pos : Nat) (d : Byte) : Bool :=
  match pos, kind.toNat with
  | 1, 1 => !held (streamOf d)
  | 2, 3 => d != destChar own
  | 2, 5 => d != destChar own
  | 2, 6 => d != destChar own
  | _, _ => false

/-! ## Layouts of the answers (10.5 to 10.9) -/

/-- The two bytes of the status word (10.5, R186). -/
def statusWord (station : StationState) (pendingNotice : Bool) (result : ResultCode) : List Byte :=
  [BitVec.ofNat 8 (pendingNotice.toNat * 128 + station.code), BitVec.ofNat 8 result.code]

/-- The identity record (10.9, R192). -/
def identityRecord (stationNo : Station) (rate : RateCode) : List Byte :=
  [0xE7#8, 0xA1#8, 0x41#8, 0x20#8, 0x01#8, stationNo.setWidth 8, rate.setWidth 8]

/-- The EMPTY answer of READ_NOTICE: item 0Fh and every other byte 00h (R119, R196). -/
def emptyNotice : List Byte := 0x0F#8 :: List.replicate 14 0

/-- The notice record of an item: the end cause if ENDED is among its kinds, and the sets as it holds them, empty for item
12 (10.8, R118). -/
def noticeRecord (i : ItemIdx) (t : Item) : List Byte :=
  let set := fun (m : StationSet) => bytes32 (if i = Fin.last 12 then 0 else m)
  [BitVec.ofNat 8 i.val, t.kinds, BitVec.ofNat 8 (causeCode (if t.has .ended then t.cause else none))] ++ set t.joined
    ++ set t.departed ++ set t.evicted

/-- The remaining time that READ_ENTRY reports (R190). -/
def Timer.ms : Timer → Nat
  | .stopped => 0
  | .running ms => ms

/-- Whether READ_ENTRY reports the timer as running; a frozen timer is (R190). -/
def Timer.isRunning : Timer → Bool
  | .stopped => false
  | .running _ => true

/-- Bytes 16 to 27 of a producer's snapshot (10.6). -/
def producerPart (e : Entry) : List Byte :=
  [e.prod.nextSeq, BitVec.ofNat 8 e.fillIdx, BitVec.ofNat 8 e.prod.sendIdx, BitVec.ofNat 8 e.prod.filled,
   BitVec.ofNat 8 e.freeSlots, BitVec.ofNat 8 e.prod.ring.length,
   (match e.prod.ring with | [] => 0#8 | r :: _ => r.seq),
   BitVec.ofNat 8 (e.prod.ring.countP (fun r => r.queued)), BitVec.ofNat 8 e.prod.endPending.code,
   BitVec.ofNat 8 e.prod.subs.length, 0#8, 0#8]

/-- Bytes 16 to 27 of a consumer's snapshot (10.6). -/
def consumerPart (e : Entry) : List Byte :=
  [(e.cons.producer.getD 0).setWidth 8, e.cons.expected, BitVec.ofNat 8 e.cons.writeIdx,
   BitVec.ofNat 8 e.cons.readIdx, BitVec.ofNat 8 e.cons.held, BitVec.ofNat 8 e.credit,
   BitVec.ofNat 8 e.cons.joinAttempts, BitVec.ofNat 8 e.cons.ack.code, e.cons.lastSeq.getD 0, 0#8, 0#8, 0#8]

/-- Byte 13 of the snapshot (10.6). -/
def snapshotFlags (e : Entry) : Byte :=
  match e.role with
  | none => 0
  | some .producer =>
      flagByte [e.timer.isRunning, e.cause.isSome, !e.prod.ring.isEmpty, false, e.prod.ring.any (fun r => r.endFlag)]
  | some .consumer =>
      flagByte [e.timer.isRunning, e.cause.isSome, e.cons.producer.isSome, e.cons.lastSeq.isSome, e.cons.endMark]

/-- The 28-byte snapshot of an entry (10.6, R190). -/
def entrySnapshot (e : Entry) : List Byte :=
  if e.state = .free then List.replicate 28 0
  else
    [BitVec.ofNat 8 e.state.code, BitVec.ofNat 8 (roleCode e.role + 4 * e.mode.code), e.stream.setWidth 8]
    ++ bytes16 e.base ++ [BitVec.ofNat 8 e.slots, BitVec.ofNat 8 e.size] ++ bytes16 e.count ++ bytes16 e.remaining
    ++ [BitVec.ofNat 8 e.threshold, BitVec.ofNat 8 (causeCode e.cause), snapshotFlags e] ++ bytes16 e.timer.ms
    ++ (match e.role with
        | none => List.replicate 12 0
        | some .producer => producerPart e
        | some .consumer => consumerPart e)

/-- One record of the subscriber list answer (10.7). -/
def subscriberBytes (r : SubRec) : List Byte :=
  [r.station.setWidth 8, r.acked, BitVec.ofNat 8 r.credit, BitVec.ofNat 8 r.missed]

/-- The header and records of READ_SUBSCRIBERS (10.7, R78). -/
def subscriberAnswer (subs : List SubRec) (poolFree : Nat) : List Byte :=
  [BitVec.ofNat 8 subs.length, BitVec.ofNat 8 poolFree] ++ subs.flatMap subscriberBytes

/-- The subscriber list that READ_SUBSCRIBERS shows for an entry: empty for every entry but a live producer (R78). -/
def Entry.shownSubs (e : Entry) : List SubRec := if e.liveProducer then e.prod.subs else []

end Sys2Proof.Machine
end

