-- ==== Sys2Proof/Machine/Ops.lean ====
section
/-! DEFINITION. The shared operations over the state: claims on buffer memory, entry fields, notices, the reply queue,
the entry's ending, retirement, missed counting, the choice and its undoing, the line and the round, and resets. -/

namespace Sys2Proof.Machine

/-! ## Buffer memory (R8 to R12) -/

/-- The byte at an address; an unlisted address reads 00h (R9). -/
def Memory.read : Memory → Nat → Byte
  | [], _ => 0#8
  | (a, b) :: m, x => if a = x then b else Memory.read m x

/-- One byte written. The list keeps strictly rising addresses and no byte 00h. -/
def Memory.write : Memory → Nat → Byte → Memory
  | [], x, v => if v = 0#8 then [] else [(x, v)]
  | (a, b) :: m, x, v =>
    if x < a then (if v = 0#8 then (a, b) :: m else (x, v) :: (a, b) :: m)
    else if x = a then (if v = 0#8 then m else (a, v) :: m)
    else (a, b) :: Memory.write m x v

/-- The canonical form from an address on: rising addresses inside buffer memory, no byte 00h. -/
def Memory.wfFrom : Nat → Memory → Bool
  | _, [] => true
  | lo, (a, b) :: m =>
    decide (lo ≤ a) && decide (a < Config.memBytes) && decide (b ≠ 0#8) && Memory.wfFrom (a + 1) m

/-- The canonical form of buffer memory. -/
def Memory.wf (m : Memory) : Bool := Memory.wfFrom 0 m

/-- The address j bytes on from a, wrapping from 8191 to 0 (R10). -/
def addrAt (a j : Nat) : Nat := (a + j) % Config.memBytes

/-- One claim that reads n bytes at consecutive addresses (R10). -/
def Memory.readRun (m : Memory) (a n : Nat) : List Byte := (List.range n).map (fun j => Memory.read m (addrAt a j))

/-- One claim that writes bytes at consecutive addresses, wrapping from 8191 to 0 (R10). -/
def Memory.writeRun (m : Memory) (a : Nat) : List Byte → Memory
  | [] => m
  | b :: bs => Memory.writeRun (Memory.write m (addrAt a 0) b) (a + 1) bs

/-! ## Entries -/

/-- The entry at an index. -/
def State.entry (s : State) (i : EntryIdx) : Entry := s.entries[i]

/-- The state with one entry replaced. -/
def State.setEntry (s : State) (i : EntryIdx) (e : Entry) : State := { s with entries := s.entries.set i e }

/-- The state with one entry's producer fields replaced. -/
def State.setProd (s : State) (i : EntryIdx) (p : Producer) : State := s.setEntry i { s.entry i with prod := p }

/-- The state with one entry's consumer fields replaced. -/
def State.setCons (s : State) (i : EntryIdx) (c : Consumer) : State := s.setEntry i { s.entry i with cons := c }

/-- The entry of a stream: the entry that is not FREE and carries the stream number (R136). -/
def State.entryOf (s : State) (t : StreamNo) : Option EntryIdx :=
  allEntries.find? (fun j => (s.entry j).state != .free && (s.entry j).stream == t)

/-- The station is held: RSTN is low, power-on reset is held, or buffer memory is being cleared after it (R177, R178; the
clearing DESIGN CHOICE, notes/assumptions/26.md). -/
def State.held (s : State) : Bool := s.rstnLow || s.power != .on

/-- The one guard of every row: while the station is held nothing is taken (R177, R178). -/
def State.unlessHeld (s : State) (f : State → State) : Outcome := .next (if s.held then s else f s)

/-! ## Notices (R113 to R117) -/

/-- The notice item at an index. -/
def State.item (s : State) (i : ItemIdx) : Item := s.items[i]

/-- The item of an entry, with the same index (R1). -/
def itemOf (i : EntryIdx) : ItemIdx := i.castSucc

/-- The station record, item 12 (R110). -/
def stationItem : ItemIdx := Fin.last 12

/-- A raise: the kind joins the item's pending kinds, change merges what the kind carries, and an idle item joins the
queue at the tail (R113, R116). -/
def State.raise (s : State) (i : ItemIdx) (k : Kind) (change : Item → Item) : State :=
  let t := s.item i
  { s with
    items := s.items.set i { change t with kinds := t.kinds ||| k.bit }
    noticeQueue := if t.kinds = 0#8 then s.noticeQueue ++ [i] else s.noticeQueue }

/-- A raise of a kind that carries nothing (R111, R112). -/
def State.raiseKind (s : State) (i : ItemIdx) (k : Kind) : State := s.raise i k id

/-- A raise of JOINED with a station (R114). -/
def State.raiseJoined (s : State) (i : EntryIdx) (n : Station) : State :=
  s.raise (itemOf i) .joined (fun t => { t with joined := t.joined ||| stationBit n })

/-- A raise of DEPARTED with a station (R114). -/
def State.raiseDeparted (s : State) (i : EntryIdx) (n : Station) : State :=
  s.raise (itemOf i) .departed (fun t => { t with departed := t.departed ||| stationBit n })

/-- A raise of EVICTED with the stations evicted in one event (R73, R114). -/
def State.raiseEvicted (s : State) (i : EntryIdx) (set : StationSet) : State :=
  s.raise (itemOf i) .evicted (fun t => { t with evicted := t.evicted ||| set })

/-- A raise of ENDED with the end cause (R115). -/
def State.raiseEnded (s : State) (i : EntryIdx) (c : Cause) : State :=
  s.raise (itemOf i) .ended (fun t => { t with cause := some c })

/-- An item withdrawn: out of the queue, its kinds, cause and sets cleared (R121). -/
def State.withdrawItem (s : State) (i : ItemIdx) : State :=
  { s with items := s.items.set i {}, noticeQueue := s.noticeQueue.filter (fun j => j != i) }

/-! ## The transmitter's frame and its owner (R5, R156, R157) -/

/-- The entry that owns a frame; none for a reply. -/
def TxFrame.entry? : TxFrame → Option EntryIdx
  | .data i _ _ _ _ _ _ => some i
  | .hold i _ _ => some i
  | .join i _ _ _ => some i
  | .ack i _ _ _ _ => some i
  | .leave i _ => some i
  | .reply _ _ _ => none

/-- An entry ends or is freed: its chosen frame is withdrawn; its frame on the line is carried to its end, which
reaches no entry (R5, R21). -/
def Tx.disown (t : Tx) (i : EntryIdx) : Tx :=
  match t with
  | .free => .free
  | .chosen f g => if f.entry? = some i then .free else .chosen f g
  | .sending f cs b r o => if f.entry? = some i then .sending f cs b r true else .sending f cs b r o

/-- A JOIN of the entry that is chosen and not yet started is withdrawn (R81). -/
def Tx.withdrawJoin (t : Tx) (i : EntryIdx) : Tx :=
  match t with
  | .chosen (.join j st k p) g => if j = i then .free else .chosen (.join j st k p) g
  | t => t

/-- A resend that is chosen and not yet started is withdrawn when its record retires: a retired frame is not sent again
(R41, R47; DEDUCED, notes/assumptions/24.md). -/
def Tx.withdrawResend (t : Tx) (i : EntryIdx) (gone : List FrameRec) : Tx :=
  match t with
  | .chosen (.data j true st q e slot len) g =>
    if j = i ∧ gone.any (fun r => r.seq == q) then .free else .chosen (.data j true st q e slot len) g
  | t => t

/-- A completed frame of an entry that ends or is freed has no owner left to take it (R5, R21). -/
def disownDone (h : Option TxFrame) (i : EntryIdx) : Option TxFrame := h.filter (fun f => f.entry? != some i)

/-- The owner takes an undone choice: an ACK's flag returns to owed (R94), a reply's in-service mark is cleared
(R160), and nothing of any other owner changes (R35, R80). -/
def State.undoChoice (s : State) (f : TxFrame) : State :=
  match f with
  | .ack i _ _ _ _ => s.setCons i { (s.entry i).cons with ack := (s.entry i).cons.ack.undone }
  | .reply _ _ _ =>
    { s with replies := match s.replies with
        | [] => []
        | r :: rs => { r with inService := false } :: rs }
  | _ => s

/-! ## The reply queue (R158 to R160) -/

/-- A reply placed: contents replaced in place when one with the same destination and stream is queued, its in-service
mark then cleared (R160; DEDUCED, notes/assumptions/7.md); else at the tail if there is room; else dropped (R159). -/
def placeReply (q : List Reply) (dest : Station) (stream : StreamNo) (body : ReplyBody) : List Reply :=
  if q.any (fun r => r.dest == dest && r.stream == stream) then
    q.map (fun r => if r.dest == dest && r.stream == stream then { r with body := body, inService := false } else r)
  else if q.length < Config.replyCapacity then
    q ++ [{ dest := dest, stream := stream, body := body, inService := false }]
  else q

/-- A producer entry places a reply (R66). -/
def State.reply (s : State) (dest : Station) (stream : StreamNo) (body : ReplyBody) : State :=
  { s with replies := placeReply s.replies dest stream body }

/-! ## Ending an entry (R5) -/

/-- The entry's own part of its ending: timer stopped, candidates withdrawn, ring and subscriber list emptied, the ack
owed flag clear, the cause written; all else is kept (R4, R5, R94). -/
def Entry.ended (e : Entry) (c : Cause) : Entry :=
  { e with
    state := .ended
    timer := .stopped
    cause := some c
    prod := { e.prod with ring := [], subs := [], holdDue := false }
    cons := { e.cons with joinDue := false, ack := .clear } }

/-- An entry enters ENDED: its records go back to the pool, its frames are withdrawn or disowned, and ENDED is raised
with the cause (R5). -/
def State.endEntry (s : State) (i : EntryIdx) (c : Cause) : State :=
  let e := s.entry i
  let t := s.setEntry i (e.ended c)
  State.raiseEnded { t with
    poolFree := s.poolFree + e.prod.subs.length
    tx := s.tx.disown i
    handover := disownDone s.handover i } i c

/-! ## Retirement (R41 to R43) -/

/-- One run over the ring: the records removed, oldest first, and those that stay. It stops at the first record that is
still owed, and after a record that carries END (R41). -/
def retireRun : List FrameRec → List FrameRec × List FrameRec
  | [] => ([], [])
  | r :: rs =>
    if r.owed = 0#32 then
      if r.endFlag then ([r], rs)
      else
        let out := retireRun rs
        (r :: out.1, out.2)
    else ([], r :: rs)

/-- The end cause of a producer whose END record retires (R55); with end pending clear no record carries END
(DEDUCED, notes/assumptions/18.md). -/
def EndPending.cause : EndPending → Cause
  | .byCount => .countDone
  | .byClose => .closed
  | .clear => .closed

/-- The timer after a run that removed records, for the records that stay (R43). -/
def timerAfterRun (p : Params) (left : List FrameRec) : Timer :=
  if left.isEmpty then .running p.tHold
  else if anyQueued left then .stopped
  else .running p.tAck

/-- R42: the run freed a slot and lifted the free slots of a PRODUCING entry from below the threshold to it. -/
def crossesThreshold (before after : Entry) (gone : List FrameRec) : Bool :=
  gone.any (fun r => r.slot.isSome) && before.state == .producing
    && decide (before.freeSlots < before.threshold) && decide (before.threshold ≤ after.freeSlots)

/-- A retirement run at an entry (R41), with the ending of R55, the timer of R43, the withdrawal of a resend whose record
has gone (R47) and SPACE_READY of R42. -/
def State.retire (s : State) (i : EntryIdx) : State :=
  let e := s.entry i
  let out := retireRun e.prod.ring
  if out.1.isEmpty then s
  else
    let e1 : Entry := { e with prod := { e.prod with ring := out.2 } }
    if out.1.any (fun r => r.endFlag) then (s.setEntry i e1).endEntry i e.prod.endPending.cause
    else
      let t := { s.setEntry i { e1 with timer := timerAfterRun s.params out.2 } with
        tx := s.tx.withdrawResend i out.1 }
      if crossesThreshold e e1 out.1 then t.raiseKind (itemOf i) .spaceReady else t

/-! ## Subscribers (R58 to R76) -/

/-- A set of stations leaves every owed set of a ring (R37). -/
def dropOwed (ring : List FrameRec) (set : StationSet) : List FrameRec :=
  ring.map (fun r => { r with owed := r.owed &&& ~~~set })

/-- The record of a station changed in place (R61). -/
def updateSub (subs : List SubRec) (n : Station) (f : SubRec → SubRec) : List SubRec :=
  subs.map (fun r => if r.station == n then f r else r)

/-- A subscriber counted missed (R71). -/
def countMiss (counted : SubRec → Bool) (r : SubRec) : SubRec :=
  if counted r then { r with missed := r.missed + 1 } else r

/-- Whether a miss counted now evicts the subscriber: its count reaches N (R73). With N = 1 an ack expiry so evicts a subscriber
whose count an ACK has just set to 0, where R45 and R73 disagree with R75 (DESIGN CHOICE, notes/assumptions/28.md). -/
def evictedBy (n : Nat) (counted : SubRec → Bool) (r : SubRec) : Bool := counted r && decide (n ≤ r.missed + 1)

/-- Misses counted against the chosen subscribers, and those that reach N evicted: off the list and every owed set,
back on the free list, EVICTED raised with their set (R71, R73). -/
def State.countMisses (s : State) (i : EntryIdx) (counted : SubRec → Bool) : State :=
  let p := (s.entry i).prod
  let gone := p.subs.filter (evictedBy s.params.n counted)
  let stay := (p.subs.filter (fun r => !evictedBy s.params.n counted r)).map (countMiss counted)
  let set := stationsOf (gone.map (fun r => r.station))
  let t := s.setProd i { p with subs := stay, ring := dropOwed p.ring set }
  if gone.isEmpty then t
  else State.raiseEvicted { t with poolFree := s.poolFree + gone.length } i set

/-! ## The line, the round and the collision (R142 to R153) -/

/-- The line access controller watches the line in LISTENING, ONLINE and LINE_FAULT (R142). -/
def State.watching (s : State) : Bool := s.station != .offline

/-- The owner of slot k (R147). -/
def slotOwner (o : Station) (k : BitVec 5) : Station := o + k

/-- Line activity in a round (R149). -/
def Round.busied (source : Option Station) : Round → Round
  | .slot o r k _ => .busy o r k source
  | w => w

/-- A chosen frame whose slot is over waits for the next one (R144). -/
def Tx.ungrant : Tx → Tx
  | .chosen f _ => .chosen f false
  | t => t

/-- The line becomes BUSY: the quiet timer stops (R167) and slot counting pauses (R149). In OFFLINE the line is held
BUSY already (R142). -/
def State.busyLine (s : State) (source : Option Station) : State :=
  if s.watching then
    { s with line := .busy, lineGap := none, quiet := none, round := s.round.busied source, tx := s.tx.ungrant }
  else s

/-- The round state after a collision seen (R148). -/
def Round.collided : Round → Round
  | .contention => .gap 0 Config.roundSlots
  | .gap o r => .gap o r
  | .slot o _ k _ => .gap (slotOwner o k) Config.roundSlots
  | .busy o _ k _ => .gap (slotOwner o k) Config.roundSlots

/-- A collision taken by the line access controller; rounds run only while ONLINE (R147, R148). -/
def State.collide (s : State) : State :=
  if s.station = .online then { s with round := s.round.collided, tx := s.tx.ungrant } else s

/-- A slot starts: a chosen frame is granted its start if the slot is this station's (R144; the mark of the grant is a
DESIGN CHOICE, notes/assumptions/13.md). -/
def State.startSlot (s : State) (o : Station) (r : Nat) (k : BitVec 5) : State :=
  { s with
    round := .slot o r k 0
    tx := match s.tx with
      | .chosen f _ => .chosen f (slotOwner o k == s.stationNo)
      | t => t }

/-- A slot is used up: the round ends, or the next slot starts (R149, R150, R151). -/
def State.nextSlot (s : State) (o : Station) (r : Nat) (k : BitVec 5) : State :=
  if r ≤ 1 then { s with round := .contention, tx := s.tx.ungrant } else s.startSlot o (r - 1) k

/-- The line access controller counts a transmit failure; the eighth takes the station to LINE_FAULT (R152, R153,
R169). -/
def State.countFailure (s : State) : State :=
  let t := { s with failCount := s.failCount + 1 }
  if Config.failureLimit ≤ s.failCount + 1 then
    State.raiseKind { t with station := .lineFault, round := .contention } stationItem .lineFault
  else t

/-- The receiver takes up listening when the transmitter stops driving (R139). That its time since the last character
starts at 0 here is a DESIGN CHOICE (notes/assumptions/22.md). -/
def Receiver.resume (r : Receiver) : Receiver :=
  if r.state = .suspended then { state := .hunt, hold := [], gap := some 0 } else r

/-! ## The receiver and dispatch (R130, R137) -/

/-- The states in which the receiver takes characters (R124). -/
def Receiver.taking (r : Receiver) : Bool :=
  r.state == .hunt || r.state == .assembling || r.state == .skipping

/-- The complete frame whose dispatch has not been taken (R130). -/
def Receiver.ready (r : Receiver) : Option Frame :=
  if r.state = .hunt then parseFrame r.hold else none

/-! ## Timers -/

/-- A consumer's silence timer restarted (R101). -/
def State.restartSilence (s : State) (i : EntryIdx) : State :=
  s.setEntry i { s.entry i with timer := .running s.params.tSil }

/-- An ack-owing event of a consumer entry (R94, R95). -/
def State.oweAck (s : State) (i : EntryIdx) : State :=
  s.setCons i { (s.entry i).cons with ack := (s.entry i).cons.ack.owe }

/-! ## The host port (R182 to R185) -/

/-- The port when no framing is in progress, the last one ended by its SSN rise: SSN is high, the result code and the slot
latch stand (R181, R187, R188; the latch DESIGN CHOICE, notes/assumptions/23.md). -/
def Port.begun (p : Port) : Port := { slotLatch := p.slotLatch, result := p.result }

/-- A write-type command at its SSN rise: the length check, then the command's own checks and effect, then the result
code (R182, R185). -/
def State.writeType (s : State) (exact : Bool) (act : State → ResultCode × State) : State :=
  let s0 := { s with port := s.port.begun }
  if exact then
    let out := act s0
    { out.2 with port := { out.2.port.begun with result := out.1 } }
  else { s0 with port := { s0.port with result := .badLength } }

/-- A read-type command taken: its result code set and its answer latched, with SSN low until the framing ends (R183,
R185). -/
def State.answer (s : State) (cmd : ReadCmd) (rc : ResultCode) (bytes : List Byte) : State :=
  { s with port := { s.port.begun with ssnLow := true, phase := .answering cmd, answer := bytes, result := rc } }

/-! ## Reset (R177 and the table of 8.8) -/

/-- Where a framing stands with that many bits of its read-type command's parameters to come (R183). -/
def Untaken.withLeft (left : Nat) : Untaken := if left = 0 then .answer false else .parameters left

/-- Where the framing in progress stands once a reset has made it one that is not taken (R178, R181). -/
def Port.asUntaken (p : Port) : Untaken :=
  match p.phase with
  | .idle => p.untaken
  | .code => .code p.bits
  | .parameters => Untaken.withLeft (8 * ((readParameterBytes p.code).getD 0 - p.bytes.length) - p.bits.length)
  | .writing => .zeros
  | .discarding => .zeros
  | .answering _ => .answer p.out.isSome

/-- The reset values of every block, with buffer memory, the strap values and the level of RSTN given. The levels on CSN,
RXD and SSN are not the station's, power-on reset is moved by the supply alone, and the queues and the count of free bits are
not the spec's: they stand. A framing in progress goes on as one that is not taken (R181; DESIGN CHOICE,
notes/assumptions/27.md). -/
def State.resetTo (s : State) (mem : Memory) (sa : Station) (rs : RateCode) (low : Bool) : State :=
  { State.reset with
    mem := mem
    stationNo := sa
    rate := rs
    rstnLow := low
    csnAsserted := s.csnAsserted
    rxdLow := s.rxdLow
    rxdSteady := s.rxdSteady
    power := s.power
    port := { ssnLow := s.port.ssnLow, untaken := s.port.asUntaken }
    misoDraws := s.misoDraws
    pins := s.pins
    pending := s.pending }

end Sys2Proof.Machine
end

