-- ==== Sys2Proof/Machine/LineAccess.lean ====
section
/-! DEFINITION. The line state and the resolution round's slots (07, Sections 7.1 and 7.4). -/

namespace Sys2Proof.Machine

/-- The line becomes BUSY by a start bit, by CSN, or by this station's own start, which is one only while it is sending
(R142; DESIGN CHOICE, notes/assumptions/13.md). A confirmed start bit also ends the receiver's wait for the idle gap
until the character has ended (R128), and RXD stood at stop level before it (R124). CSN asserted holds the idle gap back
until it is negated, where the line is watched (R142), and makes a character in progress a collision seen (R125). R145 takes CSN asserted while the
station drives as a collision. Which row that is the spec leaves open: here LINE_BUSY by CSN is the line access controller's
part alone, so that one placed while SENDING leaves the frame going on, and TRANSMIT_COLLISION by CSN is the collision
(DESIGN CHOICE, notes/assumptions/13.md). -/
def State.lineBusied (s : State) (cause : BusyCause) : State :=
  match cause with
  | .startBit =>
    let t := s.busyLine none
    { t with
      rx :=
        if t.rx.state = .off ∨ t.rx.state = .suspended then t.rx
        else { t.rx with gap := none, char := { t.rx.char with awaitStop := false } } }
  | .csn =>
    { s.busyLine none with
      csnAsserted := true
      rx := { s.rx with char := { s.rx.char with csn := s.rx.char.csn || s.rx.char.bits.isSome } }
      lineGap := if s.watching ∧ (s.line = .idle ∨ s.lineGap.isSome) then some 0 else s.lineGap }
  | .ownStart =>
    match s.tx with
    | .sending _ _ _ _ _ => s.busyLine (some s.stationNo)
    | _ => s

/-- LINE_BUSY (R142, R149, R167). -/
def execLineBusy (cause : BusyCause) (s : State) : Outcome := s.unlessHeld fun s => s.lineBusied cause

/-- The next slot index after line activity in slot k: the slot after the source's, or after the slot in which the
activity began when no source is known (R150), modulo 32 (DEDUCED, notes/assumptions/19.md). -/
def resumeAt (o : Station) (k : BitVec 5) (source : Option Station) : BitVec 5 :=
  match source with
  | some n => n + 1 - o
  | none => k + 1

/-- The round when the line becomes IDLE: slot 0 starts after ROUND_GAP (R149), counting resumes after ROUND_BUSY
(R150). -/
def State.roundIdle (s : State) : State :=
  match s.round with
  | .gap o r => s.startSlot o r 0
  | .busy o r k source => s.nextSlot o r (resumeAt o k source)
  | _ => s

/-- Whether the idle gap has passed at the line access controller with RXD at stop level and CSN negated (R142). -/
def State.gapPassed (s : State) : Bool :=
  s.lineGap == some Config.idleGapBits && !s.csnAsserted && !s.rxdLow

/-- The idle gap has passed with the line quiet: IDLE; the quiet timer starts in LISTENING (R142, R167). A line that is
not watched, that this station drives, that is IDLE already, or whose gap has not passed does not become IDLE. -/
def State.lineIdled (s : State) : State :=
  match s.tx with
  | .sending _ _ _ _ _ => s
  | _ =>
    if s.watching ∧ s.line = .busy ∧ s.gapPassed then
      let t := { s with line := .idle, lineGap := none }
      if s.station = .listening then { t with quiet := some Config.quietBits } else t.roundIdle
    else s

/-- LINE_IDLE (R142, R149, R150, R167). -/
def execLineIdle (s : State) : Outcome := s.unlessHeld State.lineIdled

/-- A slot ends unused after its 2 c: r falls, and the next slot starts or the round ends (R149, R151). A slot in which
this station's frame has been granted its start does not end unused (R144; DESIGN CHOICE, notes/assumptions/13.md). -/
def State.slotEnded (s : State) : State :=
  match s.round, s.tx with
  | .slot _ _ _ _, .chosen _ true => s
  | .slot o r k elapsed, _ => if Config.slotBits ≤ elapsed then s.nextSlot o r (k + 1) else s
  | _, _ => s

/-- SLOT_END (R149, R151). Outside ROUND_SLOT no slot is running, and before its 2 c a slot does not end. -/
def execSlotEnd (s : State) : Outcome := s.unlessHeld State.slotEnded

end Sys2Proof.Machine
end

