-- ==== Sys2Proof/Machine/HostReads.lean ====
section
/-! DEFINITION. The read-type host commands, and the framings that carry no command or stop short (09_host_port.md). -/

namespace Sys2Proof.Machine

/-- The status word of the state (R186). -/
def State.statusBytes (s : State) : List Byte := statusWord s.station (!s.noticeQueue.isEmpty) s.port.result

/-- READ_STATUS latches the status word and leaves the result code (R185, R186). -/
def execReadStatus (s : State) : Outcome :=
  s.unlessHeld fun s => s.answer .status s.port.result s.statusBytes

/-- STATUS_RELATCH: with READ_STATUS being answered, a fresh copy is latched (R186); else the event does not occur
(DESIGN CHOICE, notes/assumptions/5.md). -/
def execStatusRelatch (s : State) : Outcome :=
  s.unlessHeld fun s =>
    if s.port.phase = .answering .status then { s with port := { s.port with answer := s.statusBytes } } else s

/-- READ_IDENTITY (R192). -/
def execReadIdentity (s : State) : Outcome :=
  s.unlessHeld fun s => s.answer .identity .ok (identityRecord s.stationNo s.rate)

/-- The pop of the head item (R118), or the EMPTY answer (R119). -/
def State.popNotice (s : State) : State :=
  match s.noticeQueue with
  | [] => s.answer .notice .empty emptyNotice
  | i :: rest =>
    State.answer { s with items := s.items.set i {}, noticeQueue := rest } .notice .ok (noticeRecord i (s.item i))

/-- READ_NOTICE (R118, R119). -/
def execReadNotice (s : State) : Outcome := s.unlessHeld State.popNotice

/-- READ_ENTRY latches the entry's snapshot; an index above 11 gives BAD_ENTRY and the snapshot of a FREE entry
(R190, R191). -/
def execReadEntry (index : Byte) (s : State) : Outcome :=
  s.unlessHeld fun s =>
    match entryIdx? index with
    | none => s.answer .entry .badEntry (List.replicate 28 0)
    | some i => s.answer .entry .ok (entrySnapshot (s.entry i))

/-- READ_SUBSCRIBERS snapshots the list and the free count together (R78, R79). -/
def execReadSubscribers (index : Byte) (s : State) : Outcome :=
  s.unlessHeld fun s =>
    match entryIdx? index with
    | none => s.answer .subscribers .badEntry (subscriberAnswer [] s.poolFree)
    | some i => s.answer .subscribers .ok (subscriberAnswer (s.entry i).shownSubs s.poolFree)

/-- READ_BUFFER checks the start address and sets the read address (R188). A refused one shifts out 00h, which an
empty answer reads as (R196). -/
def execReadBuffer (addrHigh addrLow : Byte) (s : State) : Outcome :=
  s.unlessHeld fun s =>
    if Config.memBytes ≤ word16 addrHigh addrLow then s.answer .buffer .badParameter []
    else
      let t := s.answer .buffer .ok []
      { t with port := { t.port with readAddr := some (word16 addrHigh addrLow) } }

/-- HOST_BYTE_READ: one claim at the read address, which then advances with wrap (R188, R10). Without a read address
(a refused READ_BUFFER, or no READ_BUFFER being answered) no claim is made. -/
def execHostByteRead (s : State) : Outcome :=
  s.unlessHeld fun s =>
    match s.port.readAddr with
    | none => s
    | some a =>
      { s with port := { s.port with answer := [Memory.read s.mem (addrAt a 0)], readAddr := some (addrAt a 1) } }

/-- The slot of a FIXED consumer in the 64-byte slot latch (R189). That the places after the Pth hold 00h is a DESIGN
CHOICE (notes/assumptions/23.md): no byte clocked shows them. -/
def State.latchSlot (s : State) (e : Entry) : List Byte :=
  let bytes := Memory.readRun s.mem (e.slotAddr 0) e.size
  bytes ++ List.replicate (Config.portArea - bytes.length) 0

/-- READ_SLOT: the entry's whole slot by one slot latch claim (R189). -/
def execReadSlot (index : Byte) (s : State) : Outcome :=
  s.unlessHeld fun s =>
    match entryIdx? index with
    | none => s.answer .slot .badEntry []
    | some i =>
      let e := s.entry i
      if e.role = some .consumer ∧ e.mode = .fixed ∧ e.state ≠ .free then
        let t := s.answer .slot .ok (Memory.readRun s.mem (e.slotAddr 0) e.size)
        { t with port := { t.port with slotLatch := s.latchSlot e } }
      else s.answer .slot .refusedState []

/-- A framing whose code byte names no command gives BAD_COMMAND and the rest of it is ignored; a framing of fewer than
8 bits carries no command and leaves the result code (R184). A command code is not this row's (DESIGN CHOICE,
notes/assumptions/8.md). -/
def execUnknownCommandCode (code : Option Byte) (s : State) : Outcome :=
  s.unlessHeld fun s =>
    match code with
    | none => { s with port := s.port.begun }
    | some c =>
      if commandCodes.contains c then s
      else { s with port := { s.port.begun with ssnLow := true, phase := .discarding, result := .badCommand } }

/-- A read-type command whose framing ends before its last parameter byte: BAD_LENGTH, and nothing taken (R183). -/
def execReadCommandShortFraming (code : Byte) (bytes : List Byte) (s : State) : Outcome :=
  s.unlessHeld fun s =>
    if isShortRead code bytes then { s with port := { s.port.begun with result := .badLength } } else s

end Sys2Proof.Machine
end

