-- ==== Sys2Proof/Machine/EntryCommands.lean ====
section
/-! DEFINITION. The host commands that name an entry and change it (01, 02, 04). -/

namespace Sys2Proof.Machine

/-- The checks of an open command after the index, in the order of R13. -/
def State.openCheck (s : State) (i : EntryIdx) (a : OpenArgs) : ResultCode :=
  if s.station = .offline ∨ (s.entry i).state ≠ .free then .refusedState
  else if a.bad then .badParameter
  else if allEntries.any (fun j => (s.entry j).state != .free && (s.entry j).stream.toNat == a.stream) then .streamInUse
  else if allEntries.any (fun j => (s.entry j).state != .free && a.overlaps (s.entry j)) then .overlap
  else .ok

/-- The common fields of an entry as an open command sets them (R18, R19). -/
def OpenArgs.entry (a : OpenArgs) : Entry :=
  { stream := BitVec.ofNat 6 a.stream, base := a.base, slots := a.slots, size := a.size, mode := modeOf a.modeCode,
    count := a.count, remaining := a.count, threshold := a.threshold }

/-- An entry opened as producer, its hold timer started (R18, R6). -/
def OpenArgs.producer (a : OpenArgs) (p : Params) : Entry :=
  { a.entry with state := .producing, role := some .producer, mode := .advance, timer := .running p.tHold }

/-- An entry opened as consumer, with a JOIN due and its timer stopped (R19, R7). -/
def OpenArgs.consumer (a : OpenArgs) : Entry :=
  { a.entry with state := .joining, role := some .consumer, cons := { joinDue := true } }

/-- An open command after the length check: the index, the checks of R13, the opening. -/
def State.openWith (s : State) (index : Byte) (a : OpenArgs) (e : Entry) : ResultCode × State :=
  match entryIdx? index with
  | none => (.badEntry, s)
  | some i =>
    let rc := s.openCheck i a
    if rc = .ok then (.ok, s.setEntry i e) else (rc, s)

/-- OPEN_PRODUCE (R13 to R18). -/
def execOpenProduce (bytes : List Byte) (ragged : Bool) (s : State) : Outcome :=
  s.unlessHeld fun s =>
    match bytes with
    | [e, st, bh, bl, sl, p, fh, fl, th] =>
      s.writeType (!ragged) (fun t =>
        let a := produceArgs st bh bl sl p fh fl th
        t.openWith e a (a.producer t.params))
    | _ => s.writeType false (fun t => (.badLength, t))

/-- OPEN_CONSUME (R13 to R17, R19). -/
def execOpenConsume (bytes : List Byte) (ragged : Bool) (s : State) : Outcome :=
  s.unlessHeld fun s =>
    match bytes with
    | [e, st, bh, bl, sl, p, fh, fl, th, mode] =>
      s.writeType (!ragged) (fun t =>
        let a := consumeArgs st bh bl sl p fh fl th mode
        t.openWith e a a.consumer)
    | _ => s.writeType false (fun t => (.badLength, t))

/-- A write-type command whose only parameter is the entry index: the length and index checks, then its own (R14). -/
def State.entryCommand (s : State) (bytes : List Byte) (ragged : Bool) (act : EntryIdx → State → ResultCode × State) :
    State :=
  match bytes with
  | [index] =>
    s.writeType (!ragged) (fun t =>
      match entryIdx? index with
      | none => (.badEntry, t)
      | some i => act i t)
  | _ => s.writeType false (fun t => (.badLength, t))

/-- A write-type command with an entry index and a frame count n (R28, R99). -/
def State.countCommand (s : State) (bytes : List Byte) (ragged : Bool)
    (act : EntryIdx → Nat → State → ResultCode × State) : State :=
  match bytes with
  | [index, n] =>
    s.writeType (!ragged) (fun t =>
      match entryIdx? index with
      | none => (.badEntry, t)
      | some i => act i n.toNat t)
  | _ => s.writeType false (fun t => (.badLength, t))

/-- The entry after an accepted POST of n frames: filled rises, the remaining count of a counted stream falls, and at 0
end pending is set by count (R28, R52). -/
def Entry.posted (e : Entry) (n : Nat) : Entry :=
  let rest := if e.count = 0 then e.remaining else e.remaining - n
  { e with
    remaining := rest
    prod := { e.prod with
      filled := e.prod.filled + n
      endPending := if e.count ≠ 0 ∧ rest = 0 ∧ e.prod.endPending = .clear then .byCount else e.prod.endPending } }

/-- POST's checks and effect (R28). -/
def State.post (i : EntryIdx) (n : Nat) (s : State) : ResultCode × State :=
  let e := s.entry i
  if e.state ≠ .producing then (.refusedState, s)
  else if n = 0 ∨ (e.count ≠ 0 ∧ e.remaining < n) then (.badParameter, s)
  else if e.freeSlots < n then (.noSpace, s)
  else (.ok, s.setEntry i (e.posted n))

/-- POST (R28). -/
def execPost (bytes : List Byte) (ragged : Bool) (s : State) : Outcome :=
  s.unlessHeld fun s => s.countCommand bytes ragged State.post

/-- The entry after an accepted RELEASE of n frames; a credit that rises from 0 in RECEIVING owes an ACK (R99). -/
def Entry.released (e : Entry) (n : Nat) : Entry :=
  { e with cons := { e.cons with
      held := e.cons.held - n
      readIdx := (e.cons.readIdx + n) % e.slots
      ack := if e.state = .receiving ∧ e.credit = 0 then e.cons.ack.owe else e.cons.ack } }

/-- RELEASE's checks and effect (R99). -/
def State.release (i : EntryIdx) (n : Nat) (s : State) : ResultCode × State :=
  let e := s.entry i
  if ¬(e.role = some .consumer ∧ (e.state = .receiving ∨ e.state = .leaving ∨ e.state = .ended) ∧ e.mode = .advance)
  then (.refusedState, s)
  else if n = 0 ∨ e.cons.held < n then (.badParameter, s)
  else (.ok, s.setEntry i (e.released n))

/-- RELEASE (R99). -/
def execRelease (bytes : List Byte) (ragged : Bool) (s : State) : Outcome :=
  s.unlessHeld fun s => s.countCommand bytes ragged State.release

/-- A producer entry closed: CLOSING, and end pending set by CLOSE if it was clear (R51). -/
def Entry.closedProducer (e : Entry) : Entry :=
  { e with
    state := .closing
    prod := { e.prod with endPending := if e.prod.endPending = .clear then .byClose else e.prod.endPending } }

/-- A consumer entry that enters LEAVING with its stored cause; timer stopped, a due JOIN withdrawn (R103, R105). -/
def Entry.leavingWith (e : Entry) (c : Cause) : Entry :=
  { e with state := .leaving, timer := .stopped, cause := some c, cons := { e.cons with joinDue := false } }

/-- CLOSE's check and effect (R51, R105). -/
def State.close (i : EntryIdx) (s : State) : ResultCode × State :=
  let e := s.entry i
  match e.state with
  | .producing => (.ok, s.setEntry i e.closedProducer)
  | .joining => (.ok, { s.setEntry i (e.leavingWith .closed) with tx := s.tx.withdrawJoin i })
  | .receiving => (.ok, { s.setEntry i (e.leavingWith .closed) with tx := s.tx.withdrawJoin i })
  | _ => (.refusedState, s)

/-- CLOSE (R51, R105). -/
def execClose (bytes : List Byte) (ragged : Bool) (s : State) : Outcome :=
  s.unlessHeld fun s => s.entryCommand bytes ragged State.close

/-- ABORT's check and effect (R22). -/
def State.abort (i : EntryIdx) (s : State) : ResultCode × State :=
  if (s.entry i).live then (.ok, s.endEntry i .aborted) else (.refusedState, s)

/-- ABORT (R22). -/
def execAbort (bytes : List Byte) (ragged : Bool) (s : State) : Outcome :=
  s.unlessHeld fun s => s.entryCommand bytes ragged State.abort

/-- FREE's check and effect: the FREE values, the item withdrawn, the entry's frame withdrawn or disowned (R21,
R121). -/
def State.freeEntry (i : EntryIdx) (s : State) : ResultCode × State :=
  if (s.entry i).state = .ended then
    (.ok, State.withdrawItem { s.setEntry i {} with
      tx := s.tx.disown i, handover := disownDone s.handover i } (itemOf i))
  else (.refusedState, s)

/-- FREE (R21). -/
def execFree (bytes : List Byte) (ragged : Bool) (s : State) : Outcome :=
  s.unlessHeld fun s => s.entryCommand bytes ragged State.freeEntry

end Sys2Proof.Machine
end

