-- ==== Sys2Proof/Machine/Frames.lean ====
section
/-! DEFINITION. The frames dispatched to entries (R136, R137): what a producer entry and a consumer entry do with each
kind, and the frame events. -/

namespace Sys2Proof.Machine

/-! ## Producer entries -/

/-- DATA, HOLD or ACCEPT heard for a stream that this entry produces: CONFLICT (R56); ENDED takes no action (R57). -/
def State.conflict (s : State) (i : EntryIdx) : State :=
  if (s.entry i).liveProducer then s.endEntry i .conflict else s

/-- R39: the acknowledged sequence lies outside the span from acked through the newest sequence sent. -/
def ackIsStale (nextSeq acked a : Seq) : Bool := decide ((nextSeq - 1 - acked).toNat < (a - acked).toNat)

/-- A subscriber heard by an ACK (R39, R40). -/
def SubRec.hearAck (r : SubRec) : SubRec := { r with missed := 0, heard := true }

/-- A subscriber record after a valid ACK (step 1 of R40). -/
def SubRec.takeAck (r : SubRec) (a : Seq) (k : Nat) : SubRec := { r with acked := a, credit := k, missed := 0, heard := true }

/-- Step 2 of R40: the station leaves the owed set of every record from the oldest through the one whose seq is a.
When no record has that seq (a is the old acked, or lies before the oldest record), no owed set changes
(notes/assumptions/6.md). -/
def ackRing (ring : List FrameRec) (n : Station) (a : Seq) : List FrameRec :=
  match ring with
  | [] => []
  | o :: rest =>
    if (o :: rest).any (fun r => r.seq == a) then
      (o :: rest).map (fun r =>
        if (r.seq - o.seq).toNat ≤ (a - o.seq).toNat then { r with owed := r.owed &&& ~~~stationBit n } else r)
    else o :: rest

/-- An ACK at a producer entry: a non-subscriber draws REFUSE NOT_SUBSCRIBED (R38); a stale one shows only that the
subscriber is alive (R39); a valid one takes the three steps of R40. -/
def State.producerAck (s : State) (i : EntryIdx) (n : Station) (a : Seq) (k : Nat) : State :=
  let e := s.entry i
  if e.liveProducer then
    match e.prod.subs.find? (fun r => r.station == n) with
    | none => s.reply n e.stream (.refuse .notSubscribed)
    | some r =>
      if ackIsStale e.prod.nextSeq r.acked a then
        s.setProd i { e.prod with subs := updateSub e.prod.subs n SubRec.hearAck }
      else
        (s.setProd i { e.prod with
          subs := updateSub e.prod.subs n (fun r => r.takeAck a k)
          ring := ackRing e.prod.ring n a }).retire i
  else s

/-- The record of a new subscriber (R60, R62). -/
def newSub (n : Station) (nextSeq : Seq) (k : Nat) : SubRec :=
  { station := n, acked := nextSeq - 1, credit := k, missed := 0, heard := true }

/-- A JOIN at a producer entry, by the rows of R62's table. -/
def State.producerJoin (s : State) (i : EntryIdx) (n : Station) (k size : Nat) : State :=
  let e := s.entry i
  if !e.liveProducer then s
  else if n = s.stationNo then s
  else if e.state = .closing then s.reply n e.stream (.refuse .closing)
  else if size ≠ e.size then s.reply n e.stream (.refuse .size)
  else
    match e.prod.subs.find? (fun r => r.station == n) with
    | some r =>
      (s.setProd i { e.prod with subs := updateSub e.prod.subs n (fun r => { r with credit := k, heard := true }) }).reply
        n e.stream (.accept (r.acked + 1) e.size)
    | none =>
      if s.poolFree = 0 then s.reply n e.stream (.refuse .full)
      else
        let t := s.setProd i { e.prod with subs := e.prod.subs ++ [newSub n e.prod.nextSeq k] }
        (State.reply { t with poolFree := s.poolFree - 1 } n e.stream (.accept e.prod.nextSeq e.size)).raiseJoined i n

/-- A LEAVE at a producer entry: the four steps of R68, or nothing from a non-subscriber (R69). -/
def State.producerLeave (s : State) (i : EntryIdx) (n : Station) : State :=
  let e := s.entry i
  if e.liveProducer && isSubscriber e.prod.subs n then
    let t := s.setProd i { e.prod with
      subs := e.prod.subs.filter (fun r => r.station != n)
      ring := dropOwed e.prod.ring (stationBit n) }
    (State.raiseDeparted { t with poolFree := s.poolFree + 1 } i n).retire i
  else s

/-! ## Consumer entries -/

/-- An ACCEPT at a consumer entry in JOINING binds it, provided its frame size is the entry's P (R84). -/
def State.consumerAccept (s : State) (i : EntryIdx) (src : Station) (start : Seq) (size : Nat) : State :=
  let e := s.entry i
  if e.state = .joining ∧ size = e.size then
    let t := s.setEntry i { e with
      state := .receiving
      timer := .running s.params.tSil
      cons := { e.cons with producer := some src, expected := start, joinDue := false } }
    State.raiseJoined { t with tx := s.tx.withdrawJoin i } i src
  else s

/-- The cause with which a refusal ends a joining entry (R85); none for NOT_SUBSCRIBED. -/
def refusalCause : Reason → Option Cause
  | .full => some .refusedFull
  | .closing => some .refusedClosing
  | .size => some .sizeMismatch
  | .notSubscribed => none

/-- A REFUSE at a consumer entry: in JOINING by its reason (R85); in RECEIVING NOT_SUBSCRIBED from the recorded
producer ends it EVICTED (R104). -/
def State.consumerRefuse (s : State) (i : EntryIdx) (src : Station) (reason : Reason) : State :=
  let e := s.entry i
  if e.state = .joining then
    match refusalCause reason with
    | some c => s.endEntry i c
    | none => s
  else if e.state = .receiving ∧ reason = .notSubscribed ∧ e.cons.producer = some src then s.endEntry i .evicted
  else s

/-- A HOLD at a consumer entry in RECEIVING from its producer (R96, R102). -/
def State.consumerHold (s : State) (i : EntryIdx) (src : Station) (next : Seq) : State :=
  let e := s.entry i
  if e.state = .receiving ∧ e.cons.producer = some src ∧ seqClass next e.cons.expected ≠ .stale then
    let t := s.restartSilence i
    if e.cons.endMark then t else t.oweAck i
  else s

/-- The remaining count after one accepted full-size frame: a counted stream's falls by 1 (R88, R89). -/
def Entry.remainingAfter (e : Entry) : Nat := if e.count = 0 then e.remaining else e.remaining - 1

/-- The entry after it accepts a full-size frame of sequence s (step 2 of R88, R89), its silence timer restarted
(R101); the frame that brings a counted stream's remaining to 0 without END takes it to LEAVING (R103). -/
def Entry.accepted (e : Entry) (p : Params) (s : Seq) (endFlag : Bool) : Entry :=
  let e1 : Entry := { e with
    timer := .running p.tSil
    remaining := e.remainingAfter
    cons := { e.cons with
      writeIdx := if e.mode = .advance then (e.cons.writeIdx + 1) % e.slots else e.cons.writeIdx
      held := if e.mode = .advance then e.cons.held + 1 else e.cons.held
      expected := e.cons.expected + 1
      lastSeq := some s
      endMark := endFlag
      ack := e.cons.ack.owe } }
  if e.count ≠ 0 ∧ e.remainingAfter = 0 ∧ endFlag = false then e1.leavingWith .countDone else e1

/-- The slot that the next accepted frame fills (R8). -/
def Entry.fillSlot (e : Entry) : Nat := if e.mode = .advance then e.cons.writeIdx else 0

/-- Whether the acceptance of a full-size frame raises DATA_READY (R98). -/
def Entry.raisesDataReady (e : Entry) : Bool := e.mode == .fixed || e.cons.held + 1 == e.threshold

/-- A full-size frame accepted in order: the receive copy, the fields, DATA_READY (R88, R89, R98). -/
def State.acceptFull (s : State) (i : EntryIdx) (seq : Seq) (endFlag : Bool) (payload : List Byte) : State :=
  let e := s.entry i
  let t := s.setEntry i (e.accepted s.params seq endFlag)
  let t := { t with mem := Memory.writeRun s.mem (e.slotAddr e.fillSlot) payload }
  if e.raisesDataReady then t.raiseKind (itemOf i) .dataReady else t

/-- The entry after it accepts a zero-length END in order (R90). -/
def Entry.acceptedEnd (e : Entry) (p : Params) (s : Seq) : Entry :=
  { e with
    timer := .running p.tSil
    cons := { e.cons with expected := e.cons.expected + 1, lastSeq := some s, endMark := true, ack := e.cons.ack.owe } }

/-- DATA from the recorded producer at an entry in RECEIVING (R87), with the END mark set handled by R102. -/
def State.receivingData (s : State) (i : EntryIdx) (seq : Seq) (endFlag : Bool) (payload : List Byte) : State :=
  let e := s.entry i
  let full := payload.length == e.size
  let zeroEnd := payload.isEmpty && endFlag
  if !full && !zeroEnd then s
  else if seqClass seq e.cons.expected = .stale then s
  else if e.cons.endMark then
    let t := s.restartSilence i
    if e.cons.lastSeq = some seq then t.oweAck i else t
  else if seqClass seq e.cons.expected = .inOrder then
    if !full then s.setEntry i (e.acceptedEnd s.params seq)
    else if e.mode = .advance ∧ e.slots ≤ e.cons.held then (s.restartSilence i).oweAck i
    else s.acceptFull i seq endFlag payload
  else (s.restartSilence i).oweAck i

/-- The states in which a consumer entry gives lingering answers: LEAVING (R106), and ENDED with cause BY_PRODUCER or
COUNT_DONE (R107). The length of the frame is not looked at there (DEDUCED, notes/assumptions/15.md). -/
def Entry.lingers (e : Entry) : Bool :=
  e.state == .leaving || (e.state == .ended && (e.cause == some .byProducer || e.cause == some .countDone))

/-- DATA at a consumer entry, by its state (R87, R106, R107). -/
def State.consumerData (s : State) (i : EntryIdx) (src : Station) (seq : Seq) (endFlag : Bool) (payload : List Byte) :
    State :=
  let e := s.entry i
  if e.cons.producer ≠ some src then s
  else if e.state = .receiving then s.receivingData i seq endFlag payload
  else if e.lingers ∧ e.cons.lastSeq = some seq then s.oweAck i
  else s

/-! ## Dispatch (R136) -/

/-- The row of R136's table for a frame at the entry of its stream, by the entry's role. -/
def State.dispatchTo (s : State) (i : EntryIdx) (f : Frame) : State :=
  match (s.entry i).role, f with
  | some .producer, .data _ _ _ _ _ => s.conflict i
  | some .producer, .hold _ _ _ => s.conflict i
  | some .producer, .accept _ _ _ _ _ => s.conflict i
  | some .producer, .ack src _ _ a k => s.producerAck i src a k
  | some .producer, .join src _ k p => s.producerJoin i src k p
  | some .producer, .leave src _ => s.producerLeave i src
  | some .consumer, .data src _ seq e payload => s.consumerData i src seq e payload
  | some .consumer, .hold src _ next => s.consumerHold i src next
  | some .consumer, .accept src _ _ start p => s.consumerAccept i src start p
  | some .consumer, .refuse src _ _ reason => s.consumerRefuse i src reason
  | _, _ => s

/-- A dispatch: the entry of the stream is looked up when it is taken (R137); without one the frame is dropped. -/
def State.dispatch (s : State) (f : Frame) : State :=
  match s.entryOf (frameStream f) with
  | some i => s.dispatchTo i f
  | none => s

/-- A complete frame that still waits in the receiver is dispatched, and the holding area is emptied (R137). -/
def State.flush (s : State) : State :=
  match s.rx.ready with
  | some f => State.dispatch { s with rx := { s.rx with hold := [] } } f
  | none => s

/-- Whether the receiver hands a frame on: it is well formed (R131) and, if it names a destination, addressed to this
station (R133). -/
def State.hears (s : State) (f : Frame) : Bool :=
  f.wf && (match frameDest? f with | some d => d == s.stationNo | none => true)

/-- A frame event: with the receiver taking frames, any earlier complete frame is dispatched first, then this one; the
frame that waits in the receiver is the one dispatched when it is the same. OFF, SYNC and SUSPENDED take no frame
(R126, notes/assumptions/4.md). -/
def State.frameEvent (s : State) (f : Frame) : State :=
  if s.rx.taking then
    if s.rx.ready = some f then s.flush
    else
      let t := s.flush
      if t.hears f then t.dispatch f else t
  else s

/-- DATA_FRAME (R87, R56). -/
def execDataFrame (src : Station) (stream : StreamNo) (seq : Seq) (endFlag : Bool) (payload : List Byte) (s : State) :
    Outcome :=
  s.unlessHeld fun s => s.frameEvent (.data src stream seq endFlag payload)

/-- HOLD_FRAME (R96, R56). -/
def execHoldFrame (src : Station) (stream : StreamNo) (nextSeq : Seq) (s : State) : Outcome :=
  s.unlessHeld fun s => s.frameEvent (.hold src stream nextSeq)

/-- ACK_FRAME (R38 to R40). -/
def execAckFrame (src : Station) (stream : StreamNo) (dest : Station) (ackSeq : Seq) (credit : Nat) (s : State) :
    Outcome :=
  s.unlessHeld fun s => s.frameEvent (.ack src stream dest ackSeq credit)

/-- JOIN_FRAME (R62). -/
def execJoinFrame (src : Station) (stream : StreamNo) (credit size : Nat) (s : State) : Outcome :=
  s.unlessHeld fun s => s.frameEvent (.join src stream credit size)

/-- ACCEPT_FRAME (R84, R56). -/
def execAcceptFrame (src : Station) (stream : StreamNo) (dest : Station) (start : Seq) (size : Nat) (s : State) :
    Outcome :=
  s.unlessHeld fun s => s.frameEvent (.accept src stream dest start size)

/-- REFUSE_FRAME (R85, R104). -/
def execRefuseFrame (src : Station) (stream : StreamNo) (dest : Station) (reason : Reason) (s : State) : Outcome :=
  s.unlessHeld fun s => s.frameEvent (.refuse src stream dest reason)

/-- LEAVE_FRAME (R68, R69). -/
def execLeaveFrame (src : Station) (stream : StreamNo) (s : State) : Outcome :=
  s.unlessHeld fun s => s.frameEvent (.leave src stream)

end Sys2Proof.Machine
end

