-- ==== Sys2Proof/Machine/Transmission.lean ====
section
/-! DEFINITION. The scheduler's choice, the start of a frame, what the transmitter sees, and the completions
(07_line_access_and_transmit_scheduling.md; R30 to R35, R46 to R50, R80 to R82, R94, R97, R102, R106). -/

namespace Sys2Proof.Machine

/-! ## Candidates (R30, R80) -/

/-- Whether the transmitter holds a frame of the entry that carries END (R54). -/
def Tx.holdsEnd (t : Tx) (i : EntryIdx) : Bool :=
  match t with
  | .chosen (.data j _ _ _ e _ _) _ => j == i && e
  | .sending (.data j _ _ _ e _ _) _ _ _ orphan => j == i && e && !orphan
  | _ => false

/-- The oldest record queued for resend (R46). -/
def oldestQueued (ring : List FrameRec) : Option FrameRec := ring.find? (fun r => r.queued)

/-- R31: the entry has a new frame to offer. -/
def Entry.offersNew (e : Entry) : Bool :=
  decide (0 < e.prod.filled) && decide (e.prod.ring.length < Config.window) && !anyQueued e.prod.ring
    && creditGate e.prod.subs e.prod.nextSeq

/-- R54: the entry has a zero-length END frame to offer. -/
def Entry.offersEnd (e : Entry) : Bool :=
  e.state == .closing && e.prod.endPending != .clear && e.prod.filled == 0
    && !e.prod.ring.any (fun r => r.endFlag) && decide (e.prod.ring.length < Config.window)
    && !anyQueued e.prod.ring

/-- The owner of a completed frame that has not taken its completion offers nothing: its one candidate was that frame
(R161). -/
def State.ownsDone (s : State) (i : EntryIdx) : Bool := s.handover.any (fun f => f.entry? == some i)

/-- The candidate of a producer entry, with its fields fixed: the oldest queued resend (R46), a new frame (R33, R53), a
zero-length END (R54), or a due HOLD (R49). -/
def State.producerCandidate (s : State) (i : EntryIdx) : Option TxFrame :=
  let e := s.entry i
  if e.role = some .producer ∧ e.liveProducer ∧ s.ownsDone i = false then
    match oldestQueued e.prod.ring with
    | some r => some (.data i true e.stream r.seq r.endFlag r.slot r.len)
    | none =>
      if e.offersNew then
        some (.data i false e.stream e.prod.nextSeq (e.prod.endPending != .clear && e.prod.filled == 1)
          (some e.prod.sendIdx) e.size)
      else if e.offersEnd && !s.tx.holdsEnd i then some (.data i false e.stream e.prod.nextSeq true none 0)
      else if e.prod.holdDue then some (.hold i e.stream e.prod.nextSeq)
      else none
  else none

/-- The ACK of a consumer entry, with its fields fixed (R97). -/
def Entry.ackFrame (e : Entry) (i : EntryIdx) : Option TxFrame :=
  e.cons.producer.map (fun n => .ack i e.stream n (e.cons.expected - 1) e.credit)

/-- The candidate of a consumer entry, by the table of R80. -/
def State.consumerCandidate (s : State) (i : EntryIdx) : Option TxFrame :=
  let e := s.entry i
  if e.role = some .consumer ∧ s.ownsDone i = false then
    match e.state with
    | .joining => if e.cons.joinDue then some (.join i e.stream e.credit e.size) else none
    | .receiving => if e.cons.ack = .owed then e.ackFrame i else none
    | .leaving =>
      if e.cons.ack = .owed then e.ackFrame i
      else if e.cons.ack = .clear then some (.leave i e.stream)
      else none
    | .ended => if e.lingers ∧ e.cons.ack = .owed then e.ackFrame i else none
    | _ => none
  else none

/-- The entries in the order in which a class is examined: from the one after the position, wrapping, through the
position itself (R155). -/
def turnOrder (position : EntryIdx) : List EntryIdx :=
  (List.range 12).map (fun j => Fin.ofNat 12 (position.val + 1 + j))

/-- The head reply, unless it is the reply whose completion the queue has not taken (R160, R161). -/
def State.replyCandidate (s : State) : Option TxFrame :=
  if s.handover.any (fun f => f.entry?.isNone) then none
  else s.replies.head?.map (fun r => .reply r.dest r.stream r.body)

/-- The candidate that a choice takes, by the classes of R154. -/
def State.candidate (s : State) : Option TxFrame :=
  match s.replyCandidate with
  | some f => some f
  | none =>
    match (turnOrder s.rrConsumer).findSome? s.consumerCandidate with
    | some f => some f
    | none => (turnOrder s.rrProducer).findSome? s.producerCandidate

/-- The owner takes the choice: an owed ACK is in flight (R94), the head reply is in service (R160). -/
def State.takeChoice (s : State) (f : TxFrame) : State :=
  match f with
  | .ack i _ _ _ _ => s.setCons i { (s.entry i).cons with ack := (s.entry i).cons.ack.chosen }
  | .reply _ _ _ =>
    { s with replies := match s.replies with
        | [] => []
        | r :: rs => { r with inService := true } :: rs }
  | _ => s

/-! ## The start (R144, R156) -/

/-- The grant of the start: ONLINE, a frame chosen, the line IDLE, and either no round in progress or the start of a
slot of this station (R144). The owner of a frame completed before has taken its completion by then, an idle gap later
(R161; DESIGN CHOICE, notes/assumptions/11.md). -/
def State.startable (s : State) : Option TxFrame :=
  match s.tx with
  | .chosen f granted =>
    if s.station = .online ∧ s.line = .idle ∧ (s.round = .contention ∨ granted = true) ∧ s.handover = none then some f
    else none
  | _ => none

/-- The payload of a data frame, by one transmit copy claim on its slot; a frame without a slot makes none (R10,
R54). -/
def State.payload (s : State) (i : EntryIdx) (slot : Option Nat) (len : Nat) : List Byte :=
  match slot with
  | some j => Memory.readRun s.mem ((s.entry i).slotAddr j) len
  | none => []

/-- The frame that a chosen frame puts on the line, with this station as its source (R156). -/
def State.onLine (s : State) (f : TxFrame) : Frame :=
  match f with
  | .data i _ st seq e slot len => .data s.stationNo st seq e (s.payload i slot len)
  | .hold _ st next => .hold s.stationNo st next
  | .join _ st k p => .join s.stationNo st k p
  | .ack _ st dest a k => .ack s.stationNo st dest a k
  | .leave _ st => .leave s.stationNo st
  | .reply dest st (.accept start p) => .accept s.stationNo st dest start p
  | .reply dest st (.refuse r) => .refuse s.stationNo st dest r

/-- The transmitter builds the frame and drives it: SENDING, the line BUSY by this station, the receiver SUSPENDED
(R144, R156, R139). -/
def State.start (s : State) (f : TxFrame) : State :=
  let inRound := decide (s.round ≠ .contention)
  { s.busyLine (some s.stationNo) with
    tx := .sending f (frameChars (s.onLine f)) 0 inRound false
    rx := { state := .suspended, hold := [], gap := none } }

/-- A start, with any dispatch still due taken first (R137: it is complete before the line can be IDLE). -/
def State.transmitStart (s : State) : State :=
  match s.startable with
  | none => s
  | some _ =>
    let t := s.flush
    match t.startable with
    | none => t
    | some f => t.start f

/-- TRANSMIT_START (R144). Where R144 gives no grant, nothing starts. -/
def execTransmitStart (s : State) : Outcome := s.unlessHeld State.transmitStart

/-! ## A collision seen by the transmitter (R145, R146, R152) -/

/-- The transmitter stops driving and passes to FREE; the receiver listens again and the idle gap counts from here
(R139, R142, R145; after a completion DEDUCED, notes/assumptions/12.md). After an early stop R142 leaves open whether another
station's character, its start bit confirmed while this station drove, holds the gap back until its stop bit: here it does
not, and RXD low or the row of a later character alone starts the gap anew (DESIGN CHOICE, notes/assumptions/12.md). -/
def State.stopDriving (s : State) : State := { s with tx := .free, rx := s.rx.resume, lineGap := some 0 }

/-- Whether a collision's position agrees with the bit times driven: in the first character or at its end, or past it
(DESIGN CHOICE, notes/assumptions/5.md). -/
def positionAgrees (first : Bool) (bits : Nat) : Bool :=
  if first then decide (bits ≤ Config.charBits) else decide (Config.charBits ≤ bits)

/-- A collision seen while sending: the choice undone, the round restarted (R148), and a failure counted unless it fell
in the first character of a frame started in CONTENTION (R146, R152). CSN asserted holds the idle gap back (R142). A
position that the bit times driven do not allow does not occur. -/
def State.txCollision (s : State) (cause : DriveCause) (first : Bool) : State :=
  match s.tx with
  | .sending f _ bits inRound orphan =>
    if positionAgrees first bits then
      let t := (if orphan then s else s.undoChoice f).stopDriving.collide
      let t := { t with csnAsserted := t.csnAsserted || cause == .csn }
      if inRound || !first then t.countFailure else t
    else s
  | _ => s

/-- TRANSMIT_COLLISION (R145). -/
def execTransmitCollision (cause : DriveCause) (first : Bool) (s : State) : Outcome :=
  s.unlessHeld fun s => s.txCollision cause first

/-! ## Completions (R161) -/

/-- The transmitter, the line access controller and the scheduler take a completion: the last stop bit has been read back at
stop level, FREE, the failure count 0, and the round-robin position of the frame's class at the entry (R145, R152, R155,
R161). -/
def State.sent (s : State) (f : TxFrame) : State :=
  let t := { s.stopDriving with failCount := 0, rxdLow := false }
  match f with
  | .data i _ _ _ _ _ _ => { t with rrProducer := i }
  | .hold i _ _ => { t with rrProducer := i }
  | .join i _ _ _ => { t with rrConsumer := i }
  | .ack i _ _ _ _ => { t with rrConsumer := i }
  | .leave i _ => { t with rrConsumer := i }
  | .reply _ _ _ => t

/-- The frame driven to the end of its last character, and whether it has lost its owner: it completes now (R145). -/
def State.driven (s : State) : Option (TxFrame × Bool) :=
  match s.tx with
  | .sending f chars bits _ orphan => if Config.charBits * chars.length ≤ bits then some (f, orphan) else none
  | _ => none

/-- The completion that can be taken now: its frame, whether an owner takes it, and the state in which the other blocks
have theirs. It is that of a frame handed over before a choice, or of the frame just driven (R161). -/
def State.completed (s : State) : Option (TxFrame × Bool × State) :=
  match s.handover with
  | some f => some (f, true, { s with handover := none })
  | none => s.driven.map (fun d => (d.1, !d.2, s.sent d.1))

/-! ## The choice (R154, R156, R161) -/

/-- The state in which a choice is made: with a frame just driven, the transmitter, the line access controller and the
scheduler have its completion, and its owner has not taken it (R161's second order). -/
def State.vacated (s : State) : State :=
  match s.handover, s.driven with
  | none, some d => { s.sent d.1 with handover := if d.2 then none else some d.1 }
  | _, _ => s

/-- The choice that can be taken now: the transmitter FREE, the station ONLINE, a candidate present (R154). -/
def State.choosable (s : State) : Option TxFrame :=
  if s.tx = .free ∧ s.station = .online then s.candidate else none

/-- A choice (R154, R156), which may come before the owner takes the completion of the frame just driven (R161). -/
def State.choose (s : State) : State :=
  match s.vacated.choosable with
  | some f => { s.vacated.takeChoice f with tx := .chosen f false }
  | none => s

/-- SCHEDULER_CHOICE (R154). Without a candidate, off the line, or with a frame held, no choice is made. -/
def execSchedulerChoice (s : State) : Outcome := s.unlessHeld State.choose

/-! ## The owner's part of a completion (R161) -/

/-- The frame record that a completed new frame leaves (R34). -/
def newRecord (subs : List SubRec) (seq : Seq) (endFlag : Bool) (slot : Option Nat) (len : Nat) : FrameRec :=
  { seq := seq, slot := slot, len := len, endFlag := endFlag, owed := stationsOf (subs.map (fun r => r.station)),
    queued := false }

/-- The entry after a new frame completes, before any retirement (R34). -/
def Entry.afterNew (e : Entry) (p : Params) (seq : Seq) (endFlag : Bool) (slot : Option Nat) (len : Nat) : Entry :=
  { e with
    state := if endFlag ∧ e.state = .producing then .closing else e.state
    timer := if e.prod.ring.isEmpty then .running p.tAck else e.timer
    prod := { e.prod with
      ring := e.prod.ring ++ [newRecord e.prod.subs seq endFlag slot len]
      nextSeq := e.prod.nextSeq + 1
      sendIdx := if slot.isSome then (e.prod.sendIdx + 1) % e.slots else e.prod.sendIdx
      filled := if slot.isSome then e.prod.filled - 1 else e.prod.filled
      holdDue := if e.prod.ring.isEmpty then false else e.prod.holdDue } }

/-- A new frame or zero-length END completes at its entry (R34); with no subscriber its record retires at once. -/
def State.newDone (s : State) (i : EntryIdx) (seq : Seq) (endFlag : Bool) (slot : Option Nat) (len : Nat) : State :=
  let e := s.entry i
  if e.liveProducer then
    let t := s.setEntry i (e.afterNew s.params seq endFlag slot len)
    if e.prod.subs.isEmpty then t.retire i else t
  else s

/-- NEW_FRAME_COMPLETE (R34, R161). A frame disowned since its start reaches no entry (R5, R21). -/
def execNewFrameComplete (s : State) : Outcome :=
  s.unlessHeld fun s =>
    match s.completed with
    | some (.data i false _ seq e slot len, owned, t) => if owned then t.newDone i seq e slot len else t
    | _ => s

/-- A resend completes at its entry: its record's mark is cleared, and with the last mark gone the ack timer starts
(R46). -/
def State.resendDone (s : State) (i : EntryIdx) (seq : Seq) : State :=
  let e := s.entry i
  if e.liveProducer && e.prod.ring.any (fun r => r.seq == seq && r.queued) then
    let ring := e.prod.ring.map (fun r => if r.seq == seq then { r with queued := false } else r)
    s.setEntry i { e with
      timer := if anyQueued ring then e.timer else .running s.params.tAck
      prod := { e.prod with ring := ring } }
  else s

/-- RESEND_COMPLETE (R46, R161). -/
def execResendComplete (s : State) : Outcome :=
  s.unlessHeld fun s =>
    match s.completed with
    | some (.data i true _ seq _ _ _, owned, t) => if owned then t.resendDone i seq else t
    | _ => s

/-- A HOLD completes at its entry: the three steps of R50. -/
def State.holdDone (s : State) (i : EntryIdx) : State :=
  if (s.entry i).liveProducer then
    let t := s.countMisses i (fun r => !r.heard)
    let e := t.entry i
    t.setEntry i { e with
      timer := .running s.params.tHold
      prod := { e.prod with subs := e.prod.subs.map (fun r => { r with heard := false }), holdDue := false } }
  else s

/-- HOLD_COMPLETE (R50, R161). -/
def execHoldComplete (s : State) : Outcome :=
  s.unlessHeld fun s =>
    match s.completed with
    | some (.hold i _ _, owned, t) => if owned then t.holdDone i else t
    | _ => s

/-- A JOIN completes at its entry: one more attempt and the join timer (R82). -/
def State.joinDone (s : State) (i : EntryIdx) : State :=
  let e := s.entry i
  if e.state = .joining then
    s.setEntry i { e with
      timer := .running s.params.tAck
      cons := { e.cons with joinAttempts := e.cons.joinAttempts + 1, joinDue := false } }
  else s

/-- JOIN_COMPLETE (R82, R161). -/
def execJoinComplete (s : State) : Outcome :=
  s.unlessHeld fun s =>
    match s.completed with
    | some (.join i _ _ _, owned, t) => if owned then t.joinDone i else t
    | _ => s

/-- An ACK completes at its entry: the flag moves on (R94), and from in flight with the END mark set in RECEIVING the
entry ends BY_PRODUCER (R102). -/
def State.ackDone (s : State) (i : EntryIdx) : State :=
  let e := s.entry i
  let t := s.setCons i { e.cons with ack := e.cons.ack.completed }
  if e.cons.ack = .inFlight ∧ e.cons.endMark = true ∧ e.state = .receiving then t.endEntry i .byProducer else t

/-- ACK_COMPLETE (R94, R102, R161). -/
def execAckComplete (s : State) : Outcome :=
  s.unlessHeld fun s =>
    match s.completed with
    | some (.ack i _ _ _ _, owned, t) => if owned then t.ackDone i else t
    | _ => s

/-- A LEAVE completes at its entry: ENDED with the stored cause (R106, R4), which a LEAVING entry always has (DEDUCED,
notes/assumptions/18.md). -/
def State.leaveDone (s : State) (i : EntryIdx) : State :=
  let e := s.entry i
  if e.state = .leaving then s.endEntry i (e.cause.getD .closed) else s

/-- LEAVE_COMPLETE (R106, R161). -/
def execLeaveComplete (s : State) : Outcome :=
  s.unlessHeld fun s =>
    match s.completed with
    | some (.leave i _, owned, t) => if owned then t.leaveDone i else t
    | _ => s

/-- The reply queue after the head reply's transmission completes: the head leaves if its in-service mark is still
set (R160). -/
def replySent : List Reply → List Reply
  | [] => []
  | r :: rs => if r.inService then rs else r :: rs

/-- REPLY_COMPLETE (R160, R161). -/
def execReplyComplete (s : State) : Outcome :=
  s.unlessHeld fun s =>
    match s.completed with
    | some (.reply _ _ _, _, t) => { t with replies := replySent t.replies }
    | _ => s

end Sys2Proof.Machine
end

