-- ==== Sys2Proof/Machine/Pins.lean ====
section
/-! DEFINITION. The output pins, computed from the state (00_scope.md, Section 8; R122, R143, R180; DEDUCED,
notes/assumptions/17.md). -/

namespace Sys2Proof.Machine

/-- ATN pulled low: exactly while the notice queue is not empty (R122). -/
def State.atnLow (s : State) : Bool := !s.noticeQueue.isEmpty

/-- TXE asserted: while the transmitter drives a frame (R143). -/
def State.txe (s : State) : Bool :=
  match s.tx with
  | .sending _ _ _ _ _ => true
  | _ => false

/-- The level of one bit time of a character: start bit, data bits least significant first, mark bit, stop bit (10.1). -/
def charLevel (mark : Bool) (d : Byte) (bit : Nat) : Bool :=
  if bit = 0 then false
  else if bit ≤ 8 then d.getLsbD (bit - 1)
  else if bit = 9 then mark
  else true

/-- TXD high: the bit being driven, and stop level while TXE is negated (R143). -/
def State.txd (s : State) : Bool :=
  match s.tx with
  | .sending _ chars bits _ _ =>
    match chars[bits / Config.charBits]? with
    | some d => charLevel (bits / Config.charBits == 0) d (bits % Config.charBits)
    | none => true
  | _ => true

/-- MISO at high impedance: while SSN is high, while RSTN is held low, and while power-on reset is held (R177, R178, R180). -/
def State.misoHighZ (s : State) : Bool := s.rstnLow || s.power == .held || !s.port.ssnLow

/-- The n-th byte clocked from the latched answer; past its end the port shifts out 00h (R183, R196). -/
def State.misoByte (s : State) (n : Nat) : Byte := (s.port.answer[n]?).getD 0

/-- The n-th bit clocked from the latched answer, each byte most significant bit first (R180, R194). -/
def State.misoBit (s : State) (n : Nat) : Bool := (s.misoByte (n / 8)).getLsbD (7 - n % 8)

/-- MISO in a framing that is not taken, driven all the same: 0 through the code byte, the parameter bytes and every byte of a
write-type command or of a code that names none (R180, R184); where the answer of a read-type command would stand, which the
spec does not give, a free bit (DESIGN CHOICE, notes/assumptions/27.md). -/
def Untaken.miso (u : Untaken) (draws : Nat) : Bool :=
  match u with
  | .answer true => Config.untakenBit draws
  | _ => false

/-- MISO: absent at high impedance; the answer's bit once SCK has fallen in ANSWERING; 0 through the code byte, the parameter
bytes, every byte of a write-type command and a framing that is ignored (R180, R184); and its bit in a framing that is not
taken, which began before the release of a reset (R181). -/
def State.miso (s : State) : Option Bool :=
  if s.misoHighZ then none
  else
    match s.port.phase, s.port.out with
    | .answering _, some n => some (s.misoBit n)
    | .idle, _ => some (s.port.untaken.miso s.misoDraws)
    | _, _ => some false

end Sys2Proof.Machine
end

