-- ==== Sys2Proof/Machine/PortPins.lean ====
section
/-! DEFINITION. The changes on pins that no row of the table names: a framing of the host port edge by edge (R180 to R184),
which puts the row of its command in the queue; the levels on RXD and CSN (R124, R142, R145); and the supply (R177). The queue
of these changes is the model's own (DESIGN CHOICE, notes/assumptions/8.md). -/

namespace Sys2Proof.Machine

/-! ## The command codes (10.3) -/

/-- The row of a read-type command with its code byte and all of its parameter bytes; none for fewer bytes and for every
other code. -/
def readRow (code : Byte) (bytes : List Byte) : Option Instr :=
  match code.toNat, bytes with
  | 0x10, [] => some .readStatus
  | 0x11, [] => some .readIdentity
  | 0x12, [] => some .readNotice
  | 0x13, [index] => some (.readEntry index)
  | 0x14, [index] => some (.readSubscribers index)
  | 0x15, [high, low] => some (.readBuffer high low)
  | 0x16, [index] => some (.readSlot index)
  | _, _ => none

/-- The row of a write-type command with its code byte, the whole bytes after it, whether a partial byte remains, and the
strap levels at the SSN rise; none for every other code. -/
def writeRow (code : Byte) (bytes : List Byte) (ragged : Bool) (sa : Station) (rs : RateCode) : Option Instr :=
  match code.toNat with
  | 0x20 => some (.writeBuffer bytes ragged)
  | 0x30 => some (.setParameters bytes ragged)
  | 0x31 => some (.goOnline bytes ragged)
  | 0x32 => some (.goOffline bytes ragged)
  | 0x3C => some (.reset bytes ragged sa rs)
  | 0x40 => some (.openProduce bytes ragged)
  | 0x41 => some (.openConsume bytes ragged)
  | 0x42 => some (.post bytes ragged)
  | 0x43 => some (.release bytes ragged)
  | 0x44 => some (.close bytes ragged)
  | 0x45 => some (.abort bytes ragged)
  | 0x46 => some (.free bytes ragged)
  | _ => none

/-! ## MOSI (R180, R181) -/

/-- The byte of eight bits, most significant first (R180, R194). -/
def byteOfBits (bits : List Bool) : Byte := BitVec.ofNat 8 (bits.foldl (fun n b => 2 * n + b.toNat) 0)

/-- A row joins the queue of waiting commands. -/
def State.enqueue (s : State) (c : Instr) : State := { s with pending := s.pending ++ [c] }

/-- The code byte has arrived (R181's rows of CODE): a read-type command without parameters is taken, the parameters of
another or the bytes of a write-type command follow, and a code that names no command gives BAD_COMMAND. -/
def State.codeArrived (s : State) (c : Byte) : State :=
  let t := fun (phase : PortPhase) => { s with port := { s.port with phase := phase, bits := [], code := c } }
  match readRow c [] with
  | some row => (t .code).enqueue row
  | none =>
    if (readParameterBytes c).isSome then t .parameters
    else if commandCodes.contains c then t .writing
    else (t .code).enqueue (.unknownCommandCode (some c))

/-- A parameter byte of a read-type command has arrived: with the last one the command is taken (R183). -/
def State.parameterArrived (s : State) (b : Byte) : State :=
  let bytes := s.port.bytes ++ [b]
  let t := { s with port := { s.port with bits := [], bytes := bytes } }
  match readRow s.port.code bytes with
  | some row => t.enqueue row
  | none => t

/-- A byte of a write-type command has arrived: it is counted, and the first 64 data bytes of WRITE_BUFFER go to the write
holding area (R182, R187). -/
def State.writeArrived (s : State) (b : Byte) : State :=
  let bytes := s.port.bytes ++ [b]
  { s with port := { s.port with
      bits := []
      bytes := bytes
      writeHold := if s.port.code = 0x20#8 then (bytes.drop 2).take Config.portArea else s.port.writeHold } }

/-- A framing that is not taken, past its code byte: what stands next by the kind of the code (9.2). -/
def Untaken.ofCode (c : Byte) : Untaken :=
  if (readRow c []).isSome then .answer false
  else
    match readParameterBytes c with
    | some n => .parameters (8 * n)
    | none => .zeros

/-- One more bit clocked in a framing that is not taken (R180). -/
def Untaken.clocked (u : Untaken) (mosi : Bool) : Untaken :=
  match u with
  | .code bits =>
    let bits := bits ++ [mosi]
    if bits.length < 8 then .code bits else Untaken.ofCode (byteOfBits bits)
  | .parameters left => Untaken.withLeft (left - 1)
  | .zeros => .zeros
  | .answer shifting => .answer shifting

/-- SCK rises in a framing that is not taken: the port does nothing, and the framing is one bit further on. -/
def State.untakenRises (s : State) (mosi : Bool) : State :=
  { s with port := { s.port with untaken := s.port.untaken.clocked mosi } }

/-- SCK falls in a framing that is not taken: where an answer would stand, MISO goes on to its next free bit (DESIGN CHOICE,
notes/assumptions/27.md). -/
def State.untakenFalls (s : State) : State :=
  match s.port.untaken with
  | .answer _ => { s with port := { s.port with untaken := .answer true }, misoDraws := s.misoDraws + 1 }
  | _ => s

/-- SCK rises: MOSI is sampled, and the eighth bit ends a byte. With SSN high the edge is ignored, and so is MOSI while an
answer is shifted out, a framing ignored or one that is not taken (R180, R181, R183, R184). -/
def State.sckRises (s : State) (mosi : Bool) : State :=
  let bits := s.port.bits ++ [mosi]
  let held := { s with port := { s.port with bits := bits } }
  if s.port.ssnLow then
    match s.port.phase with
    | .code => if bits.length < 8 then held else s.codeArrived (byteOfBits bits)
    | .parameters => if bits.length < 8 then held else s.parameterArrived (byteOfBits bits)
    | .writing => if bits.length < 8 then held else s.writeArrived (byteOfBits bits)
    | .idle => s.untakenRises mosi
    | _ => s
  else s

/-! ## MISO (R180, R183) -/

/-- The bit of the answer that follows on MISO: the status word repeats (R186), READ_BUFFER has one byte at a time (R188),
and every other answer is followed by 00h. -/
def Port.nextOut (p : Port) (cmd : ReadCmd) : Nat :=
  match p.out with
  | none => 0
  | some n =>
    match cmd with
    | .status => (n + 1) % 16
    | .buffer => (n + 1) % 8
    | _ => min (n + 1) (8 * p.answer.length)

/-- SCK falls: MISO changes to the next bit of the answer. Past the last bit of a status word a fresh copy is latched
(R186), and a byte of READ_BUFFER is claimed as it is about to be shifted out (R188; the moment DESIGN CHOICE,
notes/assumptions/8.md). -/
def State.nextAnswerBit (s : State) (cmd : ReadCmd) : State :=
  let n := s.port.nextOut cmd
  let t := { s with port := { s.port with out := some n } }
  if cmd = .status ∧ n = 0 ∧ s.port.out.isSome then t.enqueue .statusRelatch
  else if cmd = .buffer ∧ n = 0 then t.enqueue .hostByteRead
  else t

/-- SCK falls. With SSN high the edge is ignored (R180). -/
def State.sckFalls (s : State) : State :=
  if s.port.ssnLow then
    match s.port.phase with
    | .answering cmd => s.nextAnswerBit cmd
    | .idle => s.untakenFalls
    | _ => s
  else s

/-! ## SSN (R181) -/

/-- SSN moves, and the port takes nothing of it: a framing that is not taken begins, or has ended. -/
def State.withSsn (s : State) (low : Bool) : State :=
  { s with port := { s.port with ssnLow := low, untaken := .code [] } }

/-- SSN falls: a framing begins (R180). -/
def State.ssnFalls (s : State) : State :=
  if s.port.ssnLow then s else { s with port := { s.port.begun with ssnLow := true, phase := .code } }

/-- The framing in progress ends (R181): a write-type command is taken, a read-type command short of its parameters and a
framing short of a code are ended by their rows, and an answer, an ignored framing or one that is not taken just ends. -/
def State.framingEnds (s : State) (sa : Station) (rs : RateCode) : State :=
  match s.port.phase with
  | .idle => s
  | .code => s.enqueue (.unknownCommandCode none)
  | .parameters => s.enqueue (.readCommandShortFraming s.port.code s.port.bytes)
  | .writing =>
    match writeRow s.port.code s.port.bytes (!s.port.bits.isEmpty) sa rs with
    | some row => s.enqueue row
    | none => { s with port := s.port.begun }
  | .answering _ => { s with port := s.port.begun }
  | .discarding => { s with port := s.port.begun }

/-- SSN rises, which ends a framing (R180, R181). -/
def State.ssnRises (s : State) (sa : Station) (rs : RateCode) : State :=
  if s.port.ssnLow then (s.withSsn false).framingEnds sa rs else s

/-! ## RXD and CSN (R124, R142, R145) -/

/-- RXD falls: the receiver takes it as the start of a character if the line has stood at stop level for a whole bit time and
no character is in progress (R124). -/
def State.rxdFalls (s : State) : State :=
  if s.rxdLow then s
  else
    let starts := s.rxdSteady && s.rx.char.bits.isNone && s.rx.state != .off && s.rx.state != .suspended
    { s with
      rxdLow := true
      rxdSteady := false
      rx := { s.rx with char := { s.rx.char with start := s.rx.char.start || starts } } }

/-- RXD returns to stop level. -/
def State.rxdReturns (s : State) : State := { s with rxdLow := false }

/-- What CSN asserted is: a collision seen by the transmitter while the station drives the line, in the first character or a
later one (R145), and else line activity (R142). -/
def State.csnRow (s : State) : Instr :=
  match s.tx with
  | .sending _ _ bits _ _ => .transmitCollision .csn (decide (bits < Config.charBits))
  | _ => .lineBusy .csn

/-- CSN is asserted; while the station is held, no block takes it (R178). -/
def State.csnAsserts (s : State) : State :=
  if s.csnAsserted then s
  else
    let t := { s with csnAsserted := true }
    if s.held then t else t.enqueue s.csnRow

/-- CSN is negated (R142). -/
def State.csnReleased (s : State) : State := { s with csnAsserted := false }

/-! ## The supply (R177; DESIGN CHOICE, notes/assumptions/26.md) -/

/-- The supply rises: power-on reset is held, with the reset values in force; buffer memory is not yet cleared. Until the
release samples the straps the station number and the rate code stand as they were (DESIGN CHOICE,
notes/assumptions/26.md). -/
def State.supplyRises (s : State) : State :=
  { s.resetTo s.mem s.stationNo s.rate s.rstnLow with power := .held }

/-- Power-on reset is released: the straps are sampled, and buffer memory is cleared, during which no command is taken. -/
def State.powerReleased (s : State) (sa : Station) (rs : RateCode) : State :=
  if s.power = .held then { s.resetTo [] sa rs s.rstnLow with power := .clearing } else s

/-- The clearing of buffer memory is complete. -/
def State.clearingEnds (s : State) : State := if s.power = .clearing then { s with power := .on } else s

/-! ## One change on a pin -/

/-- SSN falls while the station is held: the port takes no framing (R177, R178, R180). -/
def State.heldSsnFalls (s : State) : State := if s.port.ssnLow then s else s.withSsn true

/-- SCK rises while the station is held. The bit tells only how far the framing that is not taken has come (DESIGN CHOICE,
notes/assumptions/27.md). -/
def State.heldSckRises (s : State) (mosi : Bool) : State := if s.port.ssnLow then s.untakenRises mosi else s

/-- SCK falls while the station is held. -/
def State.heldSckFalls (s : State) : State := if s.port.ssnLow then s.untakenFalls else s

/-- A change on a pin. While the station is held no framing begins, goes on or ends at the port (R177, R178, R180), and State
keeps the level on SSN and how far the framing has come; one that falls into the clearing of buffer memory is not taken, and
MISO is driven in it (R180). -/
def State.pinEvent (s : State) (e : PinEvent) : State :=
  match e with
  | .ssnFall => if s.held then s.heldSsnFalls else s.ssnFalls
  | .sckRise mosi => if s.held then s.heldSckRises mosi else s.sckRises mosi
  | .sckFall => if s.held then s.heldSckFalls else s.sckFalls
  | .ssnRise sa rs => if s.held then s.withSsn false else s.ssnRises sa rs
  | .rxdFall => s.rxdFalls
  | .rxdReturn => s.rxdReturns
  | .csnAssert => s.csnAsserts
  | .csnRelease => s.csnReleased
  | .supplyRise => s.supplyRises
  | .powerRelease sa rs => s.powerReleased sa rs
  | .clearingEnd => s.clearingEnds

end Sys2Proof.Machine
end

