-- ==== Sys2Proof/Machine/Reception.lean ====
section
/-! DEFINITION. Characters at the frame receiver (06_line_characters_and_frame_reception.md). -/

namespace Sys2Proof.Machine

/-- A character on the line: its start bit made the line BUSY (R142) and its end starts the idle gap anew, at the line
access controller and at the receiver, which waits for the next start bit (R124, R142; DESIGN CHOICE,
notes/assumptions/12.md). -/
def State.characterEnds (s : State) (source : Option Station) : State :=
  let t := s.busyLine none
  { t with
    rx := { t.rx with gap := some 0, char := {} }
    lineGap := some 0
    round := match t.round with
      | .busy o r k none => .busy o r k source
      | w => w }

/-- A good character: its stop bit was read at stop level, and CSN was not asserted from its start bit to there (R124,
R125). -/
def State.goodCharacter (s : State) (source : Option Station) : State :=
  { s.characterEnds source with csnAsserted := false, rxdLow := false }

/-- A collision seen: after a framing error RXD is low until it returns, and no start bit is taken before it has stood at stop
level for a whole bit time. That CSN was asserted in the character does not say that it still is at its end: the level on CSN
stays as it was told. The idle gap counts from there (R124, R125, R142; DESIGN CHOICE, notes/assumptions/12.md). -/
def State.badCharacter (s : State) (cause : SeenCause) : State :=
  let t := s.characterEnds none
  match cause with
  | .framingError =>
    { t with rxdLow := true, rxdSteady := false, rx := { t.rx with char := { t.rx.char with awaitStop := true } } }
  | .csn => t

/-- The receiver abandons or leaves a frame: the holding area is emptied (R126). -/
def State.rxTo (s : State) (r : RxState) : State := { s with rx := { s.rx with state := r, hold := [] } }

/-- A good marked character begins a new frame; kind 0 is malformed (R127, R131). Its source is the source of the line
activity if it is the activity's first (R150). -/
def State.marked (s : State) (d : Byte) : State :=
  if s.rx.taking then
    let t := s.flush.goodCharacter (some (srcOf d))
    if charMalformed (kindOf d) 0 d then t.rxTo .skipping
    else { t with rx := { t.rx with state := .assembling, hold := [d] } }
  else if s.rx.state = .sync then s.goodCharacter none
  else s

/-- MARKED_CHARACTER (R127). -/
def execMarkedCharacter (d : Byte) (s : State) : Outcome := s.unlessHeld fun s => s.marked d

/-- Whether an entry that is not FREE carries a stream number (R132). -/
def State.holdsStream (s : State) (t : StreamNo) : Bool := (s.entryOf t).isSome

/-- A good unmarked character in ASSEMBLING: checked and filtered (R131 to R133), stored, and with the frame's last
character the CRC check, after which a frame that passes waits in HUNT for its dispatch (R127, R130, R135). -/
def State.store (s : State) (d : Byte) : State :=
  let chars := s.rx.hold ++ [d]
  let kind := kindOf (chars.headD 0)
  let pos := s.rx.hold.length
  if charMalformed kind pos d || charOfNoInterest s.holdsStream s.stationNo kind pos d then s.rxTo .skipping
  else if frameLength chars = some chars.length then
    { s with rx := { s.rx with state := .hunt, hold := if crcPasses chars then chars else [] } }
  else { s with rx := { s.rx with hold := chars } }

/-- A good unmarked character, by the receiver's state (R127). -/
def State.unmarked (s : State) (d : Byte) : State :=
  if s.rx.state = .assembling then (s.goodCharacter none).store d
  else if s.rx.taking then s.flush.goodCharacter none
  else if s.rx.state = .sync then s.goodCharacter none
  else s

/-- UNMARKED_CHARACTER (R127). -/
def execUnmarkedCharacter (d : Byte) (s : State) : Outcome := s.unlessHeld fun s => s.unmarked d

/-- A collision seen: reported to the line access controller, any frame abandoned, the receiver in HUNT; in SYNC line
activity only (R125, R126). A line held low gives one framing error and no second one (R124). -/
def State.collisionSeen (s : State) (cause : SeenCause) : State :=
  if s.rx.char.awaitStop ∧ cause = .framingError then s
  else if s.rx.taking then ((s.flush.badCharacter cause).rxTo .hunt).collide
  else if s.rx.state = .sync then s.badCharacter cause
  else s

/-- COLLISION_SEEN (R125). A collision report carries no detail: the causes differ only in what
they show of the level on RXD, which holds the idle gap back (R142). -/
def execCollisionSeen (cause : SeenCause) (s : State) : Outcome := s.unlessHeld fun s => s.collisionSeen cause

/-- The idle gap at the receiver: a frame in assembly is abandoned, a skip or the SYNC wait ends (R128). Before the gap has
passed since the last character the event does not occur. -/
def State.receiverGap (s : State) : State :=
  if s.rx.gap = some Config.idleGapBits then
    match s.rx.state with
    | .assembling => s.rxTo .hunt
    | .skipping => s.rxTo .hunt
    | .sync => s.rxTo .hunt
    | .hunt => s.flush
    | _ => s
  else s

/-- RECEIVER_IDLE_GAP (R128). In HUNT it changes nothing but that a dispatch still due has been taken by then (R137). -/
def execReceiverIdleGap (s : State) : Outcome := s.unlessHeld State.receiverGap

end Sys2Proof.Machine
end

