-- ==== Sys2Proof/Machine/StationControl.lean ====
section
/-! DEFINITION. WRITE_BUFFER, the parameters, the station's life cycle and the resets (08, 09). -/

namespace Sys2Proof.Machine

/-- The host write claim of an accepted WRITE_BUFFER: the data bytes pass through the write holding area into buffer
memory, and the holding area is emptied at the SSN rise (R187). -/
def State.hostWrite (s : State) (addr : Nat) (data : List Byte) : State :=
  let t := { s with port := { s.port with writeHold := data.take Config.portArea } }
  { t with mem := Memory.writeRun t.mem addr t.port.writeHold }

/-- WRITE_BUFFER's checks and effect after the length check (R187). -/
def State.writeBuffer (bytes : List Byte) (s : State) : ResultCode × State :=
  match bytes with
  | high :: low :: data =>
    if Config.memBytes ≤ word16 high low then (.badParameter, s) else (.ok, s.hostWrite (word16 high low) data)
  | _ => (.badLength, s)

/-- WRITE_BUFFER: 1 to 64 whole data bytes after the two address bytes (R182, R187). -/
def execWriteBuffer (bytes : List Byte) (ragged : Bool) (s : State) : Outcome :=
  s.unlessHeld fun s =>
    s.writeType (!ragged && decide (3 ≤ bytes.length ∧ bytes.length ≤ 66)) (State.writeBuffer bytes)

/-- SET_PARAMETERS's checks and effect (R175). -/
def State.setParameters (tAck n steps : Byte) (s : State) : ResultCode × State :=
  if s.station ≠ .offline then (.refusedState, s)
  else if tAck.toNat < 2 ∨ n.toNat = 0 ∨ 15 < n.toNat ∨ steps.toNat = 0 then (.badParameter, s)
  else (.ok, { s with params := { tAck := tAck.toNat, n := n.toNat, tHold := 10 * steps.toNat } })

/-- SET_PARAMETERS (R175). -/
def execSetParameters (bytes : List Byte) (ragged : Bool) (s : State) : Outcome :=
  s.unlessHeld fun s =>
    match bytes with
    | [tAck, n, steps] => s.writeType (!ragged) (State.setParameters tAck n steps)
    | _ => s.writeType false (fun t => (.badLength, t))

/-- GO_ONLINE's check and effect (R166, R167, R140, R142). -/
def State.goOnline (s : State) : ResultCode × State :=
  match s.station with
  | .offline =>
    (.ok, { s with
      station := .listening
      rx := { state := .sync, hold := [], gap := some 0 }
      line := .busy
      lineGap := some 0
      failCount := 0 })
  | .lineFault =>
    (.ok, { s with
      station := .listening
      failCount := 0
      quiet := if s.line = .idle then some Config.quietBits else none })
  | _ => (.refusedState, s)

/-- GO_ONLINE (R166). -/
def execGoOnline (bytes : List Byte) (ragged : Bool) (s : State) : Outcome :=
  s.unlessHeld fun s => s.writeType (bytes.isEmpty && !ragged) State.goOnline

/-- The transmitter stopped at once, its frame discarded; a lingering ACK's choice is undone (R163). -/
def State.stopTransmitter (s : State) : State :=
  match s.tx with
  | .free => s
  | .chosen f _ => { s.undoChoice f with tx := .free }
  | .sending f _ _ _ orphan => { (if orphan then s else s.undoChoice f) with tx := .free }

/-- Every live entry ended with cause OFFLINE, in ascending order of index (R171, R117). -/
def State.endAllLive (s : State) : State :=
  allEntries.foldl (fun t i => if (t.entry i).live then t.endEntry i .offline else t) s

/-- GO_OFFLINE's effect (R171). -/
def State.goOffline (s : State) : ResultCode × State :=
  let t := s.stopTransmitter.endAllLive
  (.ok, { t with
    station := .offline
    replies := []
    rx := { state := .off, hold := [], gap := none }
    line := .busy
    lineGap := none
    round := .contention
    failCount := 0
    quiet := none })

/-- GO_OFFLINE (R171). -/
def execGoOffline (bytes : List Byte) (ragged : Bool) (s : State) : Outcome :=
  s.unlessHeld fun s => s.writeType (bytes.isEmpty && !ragged) State.goOffline

/-- RESET: through reset and out of it in one event, buffer memory kept, the straps sampled (R179, R174). -/
def execReset (bytes : List Byte) (ragged : Bool) (sa : Station) (rs : RateCode) (s : State) : Outcome :=
  s.unlessHeld fun s =>
    s.writeType (bytes.isEmpty && !ragged) (fun t => (.ok, t.resetTo t.mem sa rs false))

/-- POWER_ON: every reset value, buffer memory cleared to 00h, the straps sampled at the release (R177, R9). The level
on RSTN is the pin's: held low, it goes on holding the station in reset (DESIGN CHOICE, notes/assumptions/10.md). The row
stands for the release and the end of the clearing together (DESIGN CHOICE, notes/assumptions/26.md). -/
def execPowerOn (sa : Station) (rs : RateCode) (s : State) : Outcome :=
  .next { s.resetTo [] sa rs s.rstnLow with power := .on }

/-- RSTN_LOW: the reset values in force, buffer memory kept, the straps not yet sampled (R178). -/
def execRstnLow (s : State) : Outcome := .next (s.resetTo s.mem s.stationNo s.rate true)

/-- RSTN_RELEASE: at the rising edge the straps are sampled and the station leaves reset, OFFLINE (R178). With RSTN
high there is no rising edge. -/
def execRstnRelease (sa : Station) (rs : RateCode) (s : State) : Outcome :=
  .next (if s.rstnLow then s.resetTo s.mem sa rs false else s)

/-- The quiet timer's expiry, taken when its remaining time is 0: ONLINE, with no round, and ONLINE raised in item 12
(R167, R168, R147, R112). -/
def State.quietExpired (s : State) : State :=
  if s.station = .listening ∧ s.quiet = some 0 then
    State.raiseKind { s with station := .online, quiet := none, round := .contention } stationItem .online
  else s

/-- QUIET_TIMER_EXPIRY (R168). With the timer stopped, or with time left, the expiry does not occur. -/
def execQuietTimerExpiry (s : State) : Outcome := s.unlessHeld State.quietExpired

end Sys2Proof.Machine
end

