-- ==== Sys2Proof/Machine/Timers.lean ====
section
/-! DEFINITION. The expiries of the entry timer (R24, R25). An expiry is taken when the remaining time of a running timer
with the meaning of the row is 0 and the station is ONLINE; a timer that an earlier event stopped or restarted, or that is
frozen, does not expire (R25, R173). -/

namespace Sys2Proof.Machine

/-- Whether the entry's timer expires now: it runs, its remaining time is 0, and it is not frozen (R25). -/
def State.timerDone (s : State) (i : EntryIdx) : Bool :=
  s.station == .online && (s.entry i).timer == .running 0

/-- R45's steps 3 and 4: every remaining record queued for resend and the timer stopped, or the hold timer started when
none remain. -/
def State.goBack (s : State) (i : EntryIdx) : State :=
  let e := s.entry i
  if !e.liveProducer then s
  else if e.prod.ring.isEmpty then s.setEntry i { e with timer := .running s.params.tHold }
  else
    s.setEntry i { e with
      timer := .stopped
      prod := { e.prod with ring := e.prod.ring.map (fun r => { r with queued := true }) } }

/-- The ack timer's expiry: the four steps of R45. -/
def State.ackExpired (s : State) (i : EntryIdx) : State :=
  let e := s.entry i
  if s.timerDone i && e.liveProducer && !anyQueued e.prod.ring then
    match e.prod.ring with
    | [] => s
    | oldest :: _ => ((s.countMisses i (fun r => inSet r.station oldest.owed)).retire i).goBack i
  else s

/-- ACK_TIMER_EXPIRY (R45). -/
def execAckTimerExpiry (i : EntryIdx) (s : State) : Outcome := s.unlessHeld fun s => s.ackExpired i

/-- The hold timer's expiry: no deadline is left and a HOLD becomes due (R48). -/
def State.holdExpired (s : State) (i : EntryIdx) : State :=
  let e := s.entry i
  if s.timerDone i && e.liveProducer && e.prod.ring.isEmpty then
    s.setEntry i { e with timer := .stopped, prod := { e.prod with holdDue := true } }
  else s

/-- HOLD_TIMER_EXPIRY (R48). -/
def execHoldTimerExpiry (i : EntryIdx) (s : State) : Outcome := s.unlessHeld fun s => s.holdExpired i

/-- The join timer's expiry: NO_PRODUCER when the attempts have reached N, else a JOIN is due again (R83). -/
def State.joinExpired (s : State) (i : EntryIdx) : State :=
  let e := s.entry i
  if s.timerDone i && e.state == .joining then
    if s.params.n ≤ e.cons.joinAttempts then s.endEntry i .noProducer
    else s.setEntry i { e with timer := .stopped, cons := { e.cons with joinDue := true } }
  else s

/-- JOIN_TIMER_EXPIRY (R83). -/
def execJoinTimerExpiry (i : EntryIdx) (s : State) : Outcome := s.unlessHeld fun s => s.joinExpired i

/-- The silence timer's expiry: PRODUCER_LOST (R101). -/
def State.silenceExpired (s : State) (i : EntryIdx) : State :=
  if s.timerDone i && (s.entry i).state == .receiving then s.endEntry i .producerLost else s

/-- SILENCE_TIMER_EXPIRY (R101). -/
def execSilenceTimerExpiry (i : EntryIdx) (s : State) : Outcome := s.unlessHeld fun s => s.silenceExpired i

end Sys2Proof.Machine
end

