-- ==== Sys2Proof/Machine/Clock.lean ====
section
/-! DEFINITION. What the block does by itself when no command waits (notes/assumptions/2.md): an event that the spec
says comes at once is queued; else a change on a pin that waits is taken; else one bit time of the line rate passes (R173,
R124), and the events that are due at its end are queued. -/

namespace Sys2Proof.Machine

/-- The completion of a frame, by its kind (R161). -/
def TxFrame.completion : TxFrame → Instr
  | .data _ false _ _ _ _ _ => .newFrameComplete
  | .data _ true _ _ _ _ _ => .resendComplete
  | .hold _ _ _ => .holdComplete
  | .join _ _ _ _ => .joinComplete
  | .ack _ _ _ _ _ => .ackComplete
  | .leave _ _ => .leaveComplete
  | .reply _ _ _ => .replyComplete

/-- The event that comes at once: the completion that an owner has still to take (R161), the dispatch of a complete frame
(R137), a choice (R154), a granted start (R144). -/
def State.atOnce (s : State) : Option Instr :=
  match s.handover, s.rx.ready with
  | some f, _ => some f.completion
  | none, some f => some (frameRow f)
  | none, none =>
    if s.choosable.isSome then some .schedulerChoice
    else if s.startable.isSome then some .transmitStart
    else none

/-- The expiry of an entry's timer, by its meaning (R24). -/
def Entry.expiry (e : Entry) (i : EntryIdx) : Option Instr :=
  match e.state with
  | .producing => some (if e.prod.ring.isEmpty then .holdTimerExpiry i else .ackTimerExpiry i)
  | .closing => some (if e.prod.ring.isEmpty then .holdTimerExpiry i else .ackTimerExpiry i)
  | .joining => some (.joinTimerExpiry i)
  | .receiving => some (.silenceTimerExpiry i)
  | _ => none

/-- One millisecond off a running timer (R173). -/
def Timer.tick : Timer → Timer
  | .stopped => .stopped
  | .running ms => .running (ms - 1)

/-- A bit time ends a millisecond (R173). -/
def State.atMark (s : State) : Bool := decide (Config.bitsPerMs s.rate ≤ s.msPhase + 1)

/-- A counter of bit times one further, up to a limit. -/
def countUp (limit n : Nat) : Nat := if n < limit then n + 1 else n

/-- The bit times driven one further, up to the end of the frame (R143). -/
def Tx.tick : Tx → Tx
  | .sending f cs bits r o => .sending f cs (countUp (Config.charBits * cs.length) bits) r o
  | t => t

/-- The bit times of the running slot one further, up to its end (R149). -/
def Round.tick : Round → Round
  | .slot o r k elapsed => .slot o r k (countUp Config.slotBits elapsed)
  | w => w

/-- The receiver samples the levels of RXD and CSN in the middle of a bit time (R124, R125). A start bit that is back at stop
level is a glitch; a confirmed one is followed by eight data bits, the mark bit and the stop bit. A framing error is waited
out until a bit time at stop level has passed. -/
def Assembler.sample (a : Assembler) (low csn : Bool) : Assembler :=
  let rest : Assembler := { awaitStop := a.awaitStop && low }
  match a.bits with
  | some l => if l.length < 10 then { rest with bits := some (l ++ [!low]), csn := a.csn || csn } else rest
  | none => if a.start && low then { rest with bits := some [], csn := csn } else rest

/-- The receiver one bit time on: it samples RXD outside OFF and SUSPENDED (R124), and the time since the last character
grows. -/
def Receiver.advance (r : Receiver) (low csn : Bool) : Receiver :=
  { r with
    gap := r.gap.map (countUp Config.idleGapBits)
    char := if r.state = .off ∨ r.state = .suspended then r.char else r.char.sample low csn }

/-- The idle gap at the line access controller one bit time on: it counts with RXD at stop level and CSN negated, and starts
anew from the moment at which neither level holds it back (R142). -/
def State.gapAdvance (s : State) : Option Nat :=
  s.lineGap.map (fun n => if s.csnAsserted || s.rxdLow then 0 else countUp Config.idleGapBits n)

/-- The counters of the block one bit time on. The entry timers count at a millisecond mark while ONLINE (R173); the
quiet timer counts while it runs (R167). RXD has stood at stop level through the bit time if neither another driver nor this
station's own held it low (R124; DESIGN CHOICE, notes/assumptions/25.md). -/
def State.advance (s : State) : State :=
  { s with
    msPhase := if s.atMark then 0 else s.msPhase + 1
    entries :=
      if s.atMark && s.station == .online then s.entries.map (fun e => { e with timer := e.timer.tick }) else s.entries
    quiet := s.quiet.map (fun n => n - 1)
    lineGap := s.gapAdvance
    rx := s.rx.advance s.rxdLow s.csnAsserted
    rxdSteady := !s.rxdLow && s.txd
    round := s.round.tick
    tx := s.tx.tick }

/-! ## The events due in a state -/

/-- The completion due: the last bit of the frame has been driven (R145). -/
def State.completionDue (s : State) : List Instr :=
  match s.driven with
  | some d => [d.1.completion]
  | none => []

/-- The expiries due: the remaining time of a running timer is 0 while the station is ONLINE (R25, R173). -/
def State.expiriesDue (s : State) : List Instr :=
  allEntries.filterMap (fun i => if s.timerDone i then (s.entry i).expiry i else none)

/-- The idle gap has passed at a receiver that waits for it (R126, R128). -/
def State.receiverGapDue (s : State) : Bool :=
  s.rx.gap == some Config.idleGapBits
    && (s.rx.state == .assembling || s.rx.state == .skipping || s.rx.state == .sync)

/-- The running slot is at its end (R149). -/
def State.slotDue (s : State) : Bool :=
  match s.round with
  | .slot _ _ _ elapsed => decide (Config.slotBits ≤ elapsed)
  | _ => false

/-- A bit driven high in this bit time is read back low: a collision seen by the transmitter, in the first character or a
later one (R145; that RXD can differ from TXD in no other way is a DESIGN CHOICE, notes/assumptions/25.md). -/
def State.readbackDue (s : State) : List Instr :=
  match s.tx with
  | .sending _ chars bits _ _ =>
    if s.rxdLow && s.txd && decide (bits < Config.charBits * chars.length) then
      [.transmitCollision .mismatch (decide (bits < Config.charBits))]
    else []
  | _ => []

/-- What the receiver has just sampled: the start bit confirmed, or the stop bit of a character, which is a collision seen
with its stop bit low or CSN asserted in it, else a good character, marked or unmarked, with its data bits least significant
first (R124, R125). -/
def Assembler.due (a : Assembler) : List Instr :=
  match a.bits with
  | none => []
  | some [] => [.lineBusy .startBit]
  | some bits =>
    if bits.length = 10 then
      let d := byteOfBits (bits.take 8).reverse
      if bits[9]? = some false then [.collisionSeen .framingError]
      else if a.csn then [.collisionSeen .csn]
      else if bits[8]? = some true then [.markedCharacter d]
      else [.unmarkedCharacter d]
    else []

/-- The events due in a state, in the model's order (notes/assumptions/2.md). -/
def State.dueEvents (s : State) : List Instr :=
  s.completionDue
  ++ s.rx.char.due
  ++ s.expiriesDue
  ++ (if s.receiverGapDue then [.receiverIdleGap] else [])
  ++ (if s.gapPassed then [.lineIdle] else [])
  ++ (if s.slotDue then [.slotEnd] else [])
  ++ (if s.quiet == some 0 then [.quietTimerExpiry] else [])

/-- One step with no command waiting. While the station is held no time passes and nothing comes at once (R177, R178). -/
def State.idle (s : State) : State :=
  match (if s.held then none else s.atOnce), s.pins with
  | some c, _ => { s with pending := [c] }
  | none, e :: rest => State.pinEvent { s with pins := rest } e
  | none, [] => if s.held then s else { s.advance with pending := s.readbackDue ++ s.advance.dueEvents }

end Sys2Proof.Machine
end

