-- ==== Sys2Proof/Machine/Dispatch.lean ====
section
/-! DEFINITION. The command's effect on everything but the queue: one arm per row of spec/opcode_table.json. -/

namespace Sys2Proof.Machine

def exec (i : Instr) (s : State) : Host.Outcome State Fault Refusal :=
  match i with
  | .readStatus => Sys2Proof.Machine.execReadStatus s
  | .statusRelatch => Sys2Proof.Machine.execStatusRelatch s
  | .readIdentity => Sys2Proof.Machine.execReadIdentity s
  | .readNotice => Sys2Proof.Machine.execReadNotice s
  | .readEntry index => Sys2Proof.Machine.execReadEntry index s
  | .readSubscribers index => Sys2Proof.Machine.execReadSubscribers index s
  | .readBuffer addrHigh addrLow => Sys2Proof.Machine.execReadBuffer addrHigh addrLow s
  | .hostByteRead => Sys2Proof.Machine.execHostByteRead s
  | .readSlot index => Sys2Proof.Machine.execReadSlot index s
  | .writeBuffer bytes ragged => Sys2Proof.Machine.execWriteBuffer bytes ragged s
  | .setParameters bytes ragged => Sys2Proof.Machine.execSetParameters bytes ragged s
  | .goOnline bytes ragged => Sys2Proof.Machine.execGoOnline bytes ragged s
  | .goOffline bytes ragged => Sys2Proof.Machine.execGoOffline bytes ragged s
  | .reset bytes ragged sa rs => Sys2Proof.Machine.execReset bytes ragged sa rs s
  | .openProduce bytes ragged => Sys2Proof.Machine.execOpenProduce bytes ragged s
  | .openConsume bytes ragged => Sys2Proof.Machine.execOpenConsume bytes ragged s
  | .post bytes ragged => Sys2Proof.Machine.execPost bytes ragged s
  | .release bytes ragged => Sys2Proof.Machine.execRelease bytes ragged s
  | .close bytes ragged => Sys2Proof.Machine.execClose bytes ragged s
  | .abort bytes ragged => Sys2Proof.Machine.execAbort bytes ragged s
  | .free bytes ragged => Sys2Proof.Machine.execFree bytes ragged s
  | .unknownCommandCode code => Sys2Proof.Machine.execUnknownCommandCode code s
  | .powerOn sa rs => Sys2Proof.Machine.execPowerOn sa rs s
  | .rstnLow => Sys2Proof.Machine.execRstnLow s
  | .rstnRelease sa rs => Sys2Proof.Machine.execRstnRelease sa rs s
  | .markedCharacter d => Sys2Proof.Machine.execMarkedCharacter d s
  | .unmarkedCharacter d => Sys2Proof.Machine.execUnmarkedCharacter d s
  | .collisionSeen cause => Sys2Proof.Machine.execCollisionSeen cause s
  | .receiverIdleGap => Sys2Proof.Machine.execReceiverIdleGap s
  | .lineBusy cause => Sys2Proof.Machine.execLineBusy cause s
  | .lineIdle => Sys2Proof.Machine.execLineIdle s
  | .slotEnd => Sys2Proof.Machine.execSlotEnd s
  | .quietTimerExpiry => Sys2Proof.Machine.execQuietTimerExpiry s
  | .ackTimerExpiry e => Sys2Proof.Machine.execAckTimerExpiry e s
  | .holdTimerExpiry e => Sys2Proof.Machine.execHoldTimerExpiry e s
  | .joinTimerExpiry e => Sys2Proof.Machine.execJoinTimerExpiry e s
  | .silenceTimerExpiry e => Sys2Proof.Machine.execSilenceTimerExpiry e s
  | .dataFrame src stream seq endFlag payload => Sys2Proof.Machine.execDataFrame src stream seq endFlag payload s
  | .holdFrame src stream nextSeq => Sys2Proof.Machine.execHoldFrame src stream nextSeq s
  | .ackFrame src stream dest ackSeq credit => Sys2Proof.Machine.execAckFrame src stream dest ackSeq credit s
  | .joinFrame src stream credit size => Sys2Proof.Machine.execJoinFrame src stream credit size s
  | .acceptFrame src stream dest start size => Sys2Proof.Machine.execAcceptFrame src stream dest start size s
  | .refuseFrame src stream dest reason => Sys2Proof.Machine.execRefuseFrame src stream dest reason s
  | .leaveFrame src stream => Sys2Proof.Machine.execLeaveFrame src stream s
  | .schedulerChoice => Sys2Proof.Machine.execSchedulerChoice s
  | .transmitStart => Sys2Proof.Machine.execTransmitStart s
  | .transmitCollision cause firstChar => Sys2Proof.Machine.execTransmitCollision cause firstChar s
  | .newFrameComplete => Sys2Proof.Machine.execNewFrameComplete s
  | .resendComplete => Sys2Proof.Machine.execResendComplete s
  | .holdComplete => Sys2Proof.Machine.execHoldComplete s
  | .joinComplete => Sys2Proof.Machine.execJoinComplete s
  | .ackComplete => Sys2Proof.Machine.execAckComplete s
  | .leaveComplete => Sys2Proof.Machine.execLeaveComplete s
  | .replyComplete => Sys2Proof.Machine.execReplyComplete s
  | .readCommandShortFraming code bytes => Sys2Proof.Machine.execReadCommandShortFraming code bytes s

end Sys2Proof.Machine
end

