-- ==== Sys2Proof/Safety.lean ====
section
/-! DEFINITION. What counts as a sound state of the block: the facts that the spec's rules give of every state, in the
words the statements use. -/

namespace Sys2Proof.Safety

open Sys2Proof.Machine

/-- Buffer memory is in its canonical form. -/
def memorySafe (s : State) : Prop := Memory.wf s.mem = true

/-- The records on the subscriber lists of all entries. -/
def recordsHeld (s : State) : Nat := (allEntries.map (fun i => (s.entry i).prod.subs.length)).sum

/-- R58, R61: held and free records number 48; an entry that is not a live producer holds none; a list names each
station at most once and never this station's own number. -/
def poolSafe (s : State) : Prop :=
  s.poolFree + recordsHeld s = 48
  ∧ ∀ i, ((s.entry i).liveProducer = false → (s.entry i).prod.subs = [])
      ∧ ((s.entry i).prod.subs.map (fun r => r.station)).Nodup
      ∧ ∀ r ∈ (s.entry i).prod.subs, r.station ≠ s.stationNo

/-- R116: the notice queue holds each item at most once, and an item is queued exactly when a kind is pending in it. -/
def noticeSafe (s : State) : Prop :=
  s.noticeQueue.Nodup ∧ ∀ i, i ∈ s.noticeQueue ↔ (s.item i).kinds ≠ 0#8

/-- R114, R110: each station set of an item is non-empty exactly when its kind is pending, and the end cause is present
exactly when ENDED is. -/
def setsSafe (s : State) : Prop :=
  ∀ i, ((s.item i).joined ≠ 0#32 ↔ (s.item i).has .joined = true)
    ∧ ((s.item i).departed ≠ 0#32 ↔ (s.item i).has .departed = true)
    ∧ ((s.item i).evicted ≠ 0#32 ↔ (s.item i).has .evicted = true)
    ∧ ((s.item i).cause.isSome = true ↔ (s.item i).has .ended = true)

/-- R165, R147, R167: a frame is held only while ONLINE, rounds run only while ONLINE, and the quiet timer runs only in
LISTENING. -/
def onlineSafe (s : State) : Prop :=
  (s.tx ≠ .free → s.station = .online)
  ∧ (s.round ≠ .contention → s.station = .online)
  ∧ (s.quiet.isSome = true → s.station = .listening)

/-- R166: a station that is OFFLINE has no live entry. -/
def offlineSafe (s : State) : Prop := s.station = .offline → ∀ i, (s.entry i).live = false

/-- R158: the reply queue holds at most 8 replies, no two with the same destination and stream. -/
def replySafe (s : State) : Prop :=
  s.replies.length ≤ 8 ∧ (s.replies.map (fun r => (r.dest, r.stream))).Nodup

/-- R15: the region and the slot size of an entry that is not FREE are in range. -/
def regionInside (e : Entry) : Prop :=
  1 ≤ e.slots ∧ 1 ≤ e.size ∧ e.size ≤ 64 ∧ e.base + e.slots * e.size ≤ 8192 ∧ (e.mode = .fixed → e.slots = 1)

/-- R16, R17: no two entries that are not FREE carry the same stream or share a byte, and every region lies inside
buffer memory. -/
def tableSafe (s : State) : Prop :=
  (∀ i, (s.entry i).state ≠ .free → regionInside (s.entry i))
  ∧ ∀ i j, i ≠ j → (s.entry i).state ≠ .free → (s.entry j).state ≠ .free →
      (s.entry i).stream ≠ (s.entry j).stream
      ∧ ((s.entry i).regionEnd ≤ (s.entry j).base ∨ (s.entry j).regionEnd ≤ (s.entry i).base)

/-- The sequences of n consecutive frames, the last of them just before next. -/
def sequencesBefore (next : Seq) (n : Nat) : List Seq :=
  (List.range n).map (fun k => next - BitVec.ofNat 8 n + BitVec.ofNat 8 k)

/-- The new frame that the transmitter holds for an entry, with its sequence, slot and END flag. -/
def heldNewFrame (t : Tx) (i : EntryIdx) : Option (Seq × Option Nat × Bool) :=
  match t with
  | .chosen (.data j false _ seq e slot _) _ => if j = i then some (seq, slot, e) else none
  | .sending (.data j false _ seq e slot _) _ _ _ false => if j = i then some (seq, slot, e) else none
  | _ => none

/-- The completed new frame whose completion an entry has not taken, with its sequence, slot and END flag (R161). -/
def handedNewFrame (h : Option TxFrame) (i : EntryIdx) : Option (Seq × Option Nat × Bool) :=
  match h with
  | some (.data j false _ seq e slot _) => if j = i then some (seq, slot, e) else none
  | _ => none

/-- The entry that owns a frame; a reply is the reply queue's (R156, R158). -/
def ownerOf : TxFrame → Option EntryIdx
  | .data i _ _ _ _ _ _ => some i
  | .hold i _ _ => some i
  | .join i _ _ _ => some i
  | .ack i _ _ _ _ => some i
  | .leave i _ => some i
  | .reply _ _ _ => none

/-- R36, R27, R53, R161: an entry holds at most 4 outstanding records, with consecutive sequences that end just before
next_seq, and its filled and outstanding slots do not exceed its slots; a record carries END only with end pending set; a
new frame that the transmitter holds, or whose completion the entry has not taken, carries next_seq; and an entry with a
completion to take has no new frame at the transmitter. -/
def windowSafe (s : State) : Prop :=
  ∀ i, (s.entry i).prod.ring.length ≤ 4
    ∧ (s.entry i).prod.ring.map (fun r => r.seq) =
        sequencesBefore (s.entry i).prod.nextSeq (s.entry i).prod.ring.length
    ∧ (s.entry i).prod.filled + slotsOut (s.entry i).prod.ring ≤ (s.entry i).slots
    ∧ (∀ r ∈ (s.entry i).prod.ring, r.endFlag = true → (s.entry i).prod.endPending ≠ .clear)
    ∧ (∀ q slot e, heldNewFrame s.tx i = some (q, slot, e) ∨ handedNewFrame s.handover i = some (q, slot, e) →
        (s.entry i).liveProducer = true ∧ q = (s.entry i).prod.nextSeq ∧ (s.entry i).prod.ring.length < 4
        ∧ (slot.isSome = true → 0 < (s.entry i).prod.filled)
        ∧ (e = true → (s.entry i).prod.endPending ≠ .clear))
    ∧ ((∃ f, s.handover = some f ∧ ownerOf f = some i) → heldNewFrame s.tx i = none)

/-- R37: every station in the owed set of an outstanding record is a subscriber of that entry. -/
def owedSafe (s : State) : Prop :=
  ∀ i, ∀ r ∈ (s.entry i).prod.ring, ∀ n, inSet n r.owed = true → isSubscriber (s.entry i).prod.subs n = true

/-- R88, R7: in ADVANCE mode held is at most slots and write index is (read index + held) mod slots; in FIXED mode all
three stay 0. -/
def slotsSafe (s : State) : Prop :=
  ∀ i,
    ((s.entry i).mode = .advance →
      (s.entry i).cons.held ≤ (s.entry i).slots
      ∧ (s.entry i).cons.writeIdx = ((s.entry i).cons.readIdx + (s.entry i).cons.held) % (s.entry i).slots)
    ∧ ((s.entry i).mode = .fixed →
      (s.entry i).cons.held = 0 ∧ (s.entry i).cons.writeIdx = 0 ∧ (s.entry i).cons.readIdx = 0)

/-- R139, R140: the receiver is OFF exactly while the station is OFFLINE, and SUSPENDED exactly while the transmitter
is sending. -/
def receiverSafe (s : State) : Prop :=
  (s.rx.state = .off ↔ s.station = .offline) ∧ (s.rx.state = .suspended ↔ s.txe = true)

/-- An address inside the region of a consumer entry (R8). -/
def inConsumerRegion (s : State) (a : Nat) : Prop :=
  ∃ i, (s.entry i).role = some .consumer ∧ (s.entry i).state ≠ .free
    ∧ (s.entry i).base ≤ a ∧ a < (s.entry i).regionEnd

/-- The events by which RSTN or the supply moves: the only ones taken while the station is held (R177, R178). -/
def isResetEvent : Instr → Bool
  | .powerOn _ _ => true
  | .rstnLow => true
  | .rstnRelease _ _ => true
  | _ => false

/-! ## The words the statements use -/

/-- The values that every reset leaves, whatever the straps read and whatever buffer memory holds (the table of 8.8). -/
def resetValues (t : State) : Prop :=
  (∀ i, t.entry i = {}) ∧ t.poolFree = 48 ∧ (∀ k, t.item k = {}) ∧ t.noticeQueue = []
  ∧ t.rx = { state := .off, hold := [], gap := none }
  ∧ t.line = .busy ∧ t.round = .contention ∧ t.failCount = 0 ∧ t.tx = .free ∧ t.handover = none ∧ t.replies = []
  ∧ t.rrConsumer = 11 ∧ t.rrProducer = 11
  ∧ t.station = .offline ∧ t.params = { tAck := 20, n := 6, tHold := 250 } ∧ t.quiet = none
  ∧ t.port = { ssnLow := t.port.ssnLow, phase := .idle, untaken := t.port.untaken, bits := [], code := 0#8, bytes := [], out := none,
               answer := [], readAddr := none, writeHold := [], slotLatch := List.replicate 64 0#8, result := .ok }

/-- A write-type command whose framing does not have the byte count of 10.3, or that ends in a partial byte (R182). -/
def wrongLength : Instr → Bool
  | .writeBuffer b r => r || decide (b.length < 3) || decide (66 < b.length)
  | .setParameters b r => r || decide (b.length ≠ 3)
  | .goOnline b r => r || decide (b.length ≠ 0)
  | .goOffline b r => r || decide (b.length ≠ 0)
  | .reset b r _ _ => r || decide (b.length ≠ 0)
  | .openProduce b r => r || decide (b.length ≠ 9)
  | .openConsume b r => r || decide (b.length ≠ 10)
  | .post b r => r || decide (b.length ≠ 2)
  | .release b r => r || decide (b.length ≠ 2)
  | .close b r => r || decide (b.length ≠ 1)
  | .abort b r => r || decide (b.length ≠ 1)
  | .free b r => r || decide (b.length ≠ 1)
  | _ => false

/-- An open command with a right byte count: OPEN_PRODUCE, or OPEN_CONSUME with a mode byte. -/
def openCommand (mode : Option Byte) (e st bh bl sl p fh fl th : Byte) : Instr :=
  match mode with
  | none => .openProduce [e, st, bh, bl, sl, p, fh, fl, th] false
  | some m => .openConsume [e, st, bh, bl, sl, p, fh, fl, th, m] false

/-- R15: every parameter of an open command is in range. -/
def paramsInRange (mode : Option Byte) (stream base slots size threshold : Nat) : Prop :=
  stream ≤ 63 ∧ 1 ≤ size ∧ size ≤ 64 ∧ 1 ≤ slots ∧ base ≤ 8191 ∧ base + slots * size - 1 ≤ 8191
  ∧ 1 ≤ threshold ∧ threshold ≤ slots ∧ ∀ m, mode = some m → m.toNat ≤ 1 ∧ (m.toNat = 1 → slots = 1)

/-- R16: an entry that is not FREE carries the stream number. -/
def streamTaken (s : State) (stream : Nat) : Prop :=
  ∃ j, (s.entry j).state ≠ .free ∧ (s.entry j).stream.toNat = stream

/-- R17: a region shares a byte with the region of an entry that is not FREE. -/
def bytesTaken (s : State) (base len : Nat) : Prop :=
  ∃ j x, (s.entry j).state ≠ .free ∧ (s.entry j).base ≤ x ∧ x < (s.entry j).base + (s.entry j).slots * (s.entry j).size
    ∧ base ≤ x ∧ x < base + len

/-- The free slots of a producer entry: slots minus filled minus the outstanding records that hold a slot (R6). -/
def freeSlotsOf (e : Entry) : Nat := e.slots - e.prod.filled - (e.prod.ring.filter (fun r => r.slot.isSome)).length

/-- A notice item takes a new content and joins the queue if it was idle; every other item stays (R113). -/
def itemRaised (s t : State) (k : ItemIdx) (new : Item) : Prop :=
  t.item k = new ∧ (∀ j, j ≠ k → t.item j = s.item j)
  ∧ t.noticeQueue = if (s.item k).kinds = 0#8 then s.noticeQueue ++ [k] else s.noticeQueue

/-- Every entry but one reads as before. -/
def otherEntries (s t : State) (i : EntryIdx) : Prop := ∀ j, j ≠ i → t.entry j = s.entry j

/-- R94's row of an ack-owing event. -/
def owing : AckFlag → AckFlag
  | .clear => .owed
  | .owed => .owed
  | .inFlight => .renewed
  | .renewed => .renewed

/-- R94's row of a choice undone or a transmission that fails. -/
def undone : AckFlag → AckFlag
  | .clear => .clear
  | .owed => .owed
  | .inFlight => .owed
  | .renewed => .owed

/-- R5, R21: entry i ends or is freed. A chosen frame of it is withdrawn; one on the line goes on without an owner;
anything else stays. -/
def withoutOwner (x : Tx) (i : EntryIdx) : Tx :=
  match x with
  | .free => .free
  | .chosen f g => if ownerOf f = some i then .free else .chosen f g
  | .sending f cs b rd o => if ownerOf f = some i then .sending f cs b rd true else .sending f cs b rd o

/-- R144: the slot of a chosen frame that has not started is over; it waits for the next one. -/
def grantLost : Tx → Tx
  | .free => .free
  | .chosen f _ => .chosen f false
  | .sending f cs b rd o => .sending f cs b rd o

/-- R5: entry i of s enters ENDED with a cause, and nothing else of the notice unit, the pool or the table changes. -/
def endsAs (s t : State) (i : EntryIdx) (c : Cause) : Prop :=
  t.entry i = { s.entry i with
    state := .ended, timer := .stopped, cause := some c,
    prod := { (s.entry i).prod with ring := [], subs := [], holdDue := false },
    cons := { (s.entry i).cons with joinDue := false, ack := .clear } }
  ∧ otherEntries s t i
  ∧ t.poolFree = s.poolFree + (s.entry i).prod.subs.length
  ∧ t.tx = withoutOwner s.tx i
  ∧ t.handover = (if ∃ f, s.handover = some f ∧ ownerOf f = some i then none else s.handover)
  ∧ itemRaised s t (itemOf i) { s.item (itemOf i) with kinds := (s.item (itemOf i)).kinds ||| 0x20#8, cause := some c }

/-- The entry whose ACK the transmitter holds or sends, if that ACK still has its owner (R94, R163). -/
def ackOnHand : Tx → Option EntryIdx
  | .chosen (.ack i _ _ _ _) _ => some i
  | .sending (.ack i _ _ _ _) _ _ _ false => some i
  | _ => none

/-- Entry i is the station's entry of a stream (R136): it is not FREE, it carries the stream number, and no other such
entry does. -/
def isEntryOf (s : State) (st : StreamNo) (i : EntryIdx) : Prop :=
  (s.entry i).state ≠ .free ∧ (s.entry i).stream = st
  ∧ ∀ j, (s.entry j).state ≠ .free → (s.entry j).stream = st → j = i

/-- A frame that no earlier frame waits before, whose fields are in range and which is addressed to this station if it
names a destination, reaches the receiver of a station whose entry of the frame's stream is i. -/
def reaches (s : State) (f : Frame) (i : EntryIdx) : Prop :=
  s.held = false ∧ s.rx.taking = true ∧ s.rx.ready = none ∧ f.wf = true
  ∧ (∀ d, frameDest? f = some d → d = s.stationNo) ∧ isEntryOf s (frameStream f) i

/-- The retirement run of R41 with what follows it (R42, R43, R55): from the state m in which it starts to the state t
after it. A resend of a retired record that is chosen and not yet started is withdrawn (R47). The cause of an ending is
said only where end pending is set, as it is whenever a record carries END. -/
def retirementRun (m t : State) (i : EntryIdx) : Prop :=
  let e := m.entry i
  let gone := e.prod.ring.takeWhile (fun r => r.owed == 0#32)
  let left := e.prod.ring.dropWhile (fun r => r.owed == 0#32)
  let after := { e with prod := { e.prod with ring := left } }
  (gone = [] → t = m)
  ∧ ((∃ r ∈ gone, r.endFlag = true) →
      (∃ c, endsAs m t i c ∧ (e.prod.endPending = .byCount → c = .countDone) ∧ (e.prod.endPending = .byClose → c = .closed))
      ∧ t = { m with entries := t.entries, poolFree := t.poolFree, items := t.items, noticeQueue := t.noticeQueue,
                     tx := t.tx, handover := t.handover })
  ∧ (gone ≠ [] → (∀ r ∈ gone, r.endFlag = false) →
      t.entry i = { after with
        timer := if left = [] then .running m.params.tHold
          else if ∃ r ∈ left, r.queued = true then .stopped
          else .running m.params.tAck }
      ∧ otherEntries m t i
      ∧ ((∃ st q fin slot len g, m.tx = .chosen (.data i true st q fin slot len) g ∧ ∃ r ∈ gone, r.seq = q) → t.tx = .free)
      ∧ (¬(∃ st q fin slot len g, m.tx = .chosen (.data i true st q fin slot len) g ∧ ∃ r ∈ gone, r.seq = q) → t.tx = m.tx)
      ∧ ((∃ r ∈ gone, r.slot.isSome = true) ∧ e.state = .producing ∧ freeSlotsOf e < e.threshold
            ∧ e.threshold ≤ freeSlotsOf after →
          itemRaised m t (itemOf i) { m.item (itemOf i) with kinds := (m.item (itemOf i)).kinds ||| 0x10#8 })
      ∧ (¬((∃ r ∈ gone, r.slot.isSome = true) ∧ e.state = .producing ∧ freeSlotsOf e < e.threshold
            ∧ e.threshold ≤ freeSlotsOf after) → t.items = m.items ∧ t.noticeQueue = m.noticeQueue)
      ∧ t = { m with entries := t.entries, items := t.items, noticeQueue := t.noticeQueue, tx := t.tx })

/-- The producer fields after misses are counted against the chosen subscribers and those that reach the limit are
evicted (R71, R73). -/
def afterMisses (limit : Nat) (counted : SubRec → Bool) (p : Producer) : Producer :=
  let gone := p.subs.filter (fun r => counted r && decide (limit ≤ r.missed + 1))
  { p with
    subs := (p.subs.filter (fun r => !(counted r && decide (limit ≤ r.missed + 1)))).map
      (fun r => if counted r then { r with missed := r.missed + 1 } else r)
    ring := p.ring.map (fun r => { r with owed := r.owed &&& ~~~stationsOf (gone.map (fun g => g.station)) }) }

/-- The state after misses are counted at entry i: the evicted records back in the pool, and EVICTED raised with their
stations if there are any (R73). -/
def missesCounted (s m : State) (i : EntryIdx) (counted : SubRec → Bool) : Prop :=
  let p := (s.entry i).prod
  let gone := p.subs.filter (fun r => counted r && decide (s.params.n ≤ r.missed + 1))
  m.entry i = { s.entry i with prod := afterMisses s.params.n counted p }
  ∧ otherEntries s m i
  ∧ m.poolFree = s.poolFree + gone.length
  ∧ (gone ≠ [] → itemRaised s m (itemOf i) { s.item (itemOf i) with
        kinds := (s.item (itemOf i)).kinds ||| 0x04#8
        evicted := (s.item (itemOf i)).evicted ||| stationsOf (gone.map (fun g => g.station)) })
  ∧ (gone = [] → m.items = s.items ∧ m.noticeQueue = s.noticeQueue)
  ∧ m = { s with entries := m.entries, poolFree := m.poolFree, items := m.items, noticeQueue := m.noticeQueue }

/-- The line effects of a character that ends: its start bit made the line BUSY and its end starts the idle gap anew,
and it names the source of a round's activity if it is the activity's first good marked character (R142, R150). -/
def lineHeard (s t : State) (source : Option Station) : Prop :=
  t.line = .busy ∧ t.lineGap = some 0 ∧ t.quiet = none ∧ t.tx = grantLost s.tx
  ∧ t.round = (match s.round with
      | .slot o r k _ => .busy o r k source
      | .busy o r k none => .busy o r k source
      | w => w)

/-- R131: the character at a position of a frame of a kind holds a value that makes the frame malformed. -/
def malformedAt (kind pos : Nat) (d : Byte) : Prop :=
  pos = 1 ∧ (128 ≤ d.toNat ∨ 64 ≤ d.toNat ∧ kind ≠ 1)
  ∨ pos = 2 ∧ (kind = 3 ∨ kind = 5 ∨ kind = 6) ∧ 31 < d.toNat
  ∨ (pos = 2 ∧ kind = 4 ∨ pos = 4 ∧ kind = 3) ∧ 4 < d.toNat
  ∨ pos = 3 ∧ kind = 1 ∧ 64 < d.toNat
  ∨ (pos = 3 ∧ kind = 4 ∨ pos = 4 ∧ kind = 5) ∧ (d.toNat = 0 ∨ 64 < d.toNat)
  ∨ pos = 3 ∧ kind = 6 ∧ (d.toNat = 0 ∨ 4 < d.toNat)

/-- R132, R133: the character shows that the frame is of no interest to the station: DATA of a stream that no entry holds,
or an ACK, ACCEPT or REFUSE to another station. -/
def foreignAt (s : State) (kind pos : Nat) (d : Byte) : Prop :=
  pos = 1 ∧ kind = 1 ∧ (∀ j, (s.entry j).state = .free ∨ (s.entry j).stream.toNat ≠ d.toNat % 64)
  ∨ pos = 2 ∧ (kind = 3 ∨ kind = 5 ∨ kind = 6) ∧ d.toNat ≠ s.stationNo.toNat

/-- R129: the characters of a frame of a kind are all there. -/
def frameWhole (kind : Nat) (chars : List Byte) : Prop :=
  kind = 1 ∧ (∃ len, chars[3]? = some len ∧ chars.length = 6 + len.toNat)
  ∨ kind = 2 ∧ chars.length = 5
  ∨ (kind = 3 ∨ kind = 5) ∧ chars.length = 7
  ∨ (kind = 4 ∨ kind = 6) ∧ chars.length = 6
  ∨ kind = 7 ∧ chars.length = 4

/-- R135: the last two characters are the CRC of the others, high character first. -/
def crcAgrees (chars : List Byte) : Prop := ∃ body high low, chars = body ++ [high, low] ∧ high ++ low = crc body

/-- A byte as its bits cross the host port, most significant first (R180, R194). -/
def portBits (b : Byte) : List Bool := [7, 6, 5, 4, 3, 2, 1, 0].map (fun k => b.getLsbD k)

/-- A framing that is not taken, one bit of MOSI further on (R180, 9.2): the code byte, then the parameters of a read-type code,
then the place of its answer; past any other code it stays where it is. -/
def untakenNext (u : Untaken) (mosi : Bool) (v : Untaken) : Prop :=
  (∃ bits, u = .code bits ∧ bits.length < 7 ∧ v = .code (bits ++ [mosi]))
  ∨ (∃ bits b, u = .code bits ∧ bits ++ [mosi] = portBits b
      ∧ v = if b ∈ [0x10#8, 0x11#8, 0x12#8] then .answer false
            else if b ∈ [0x13#8, 0x14#8, 0x16#8] then .parameters 8
            else if b = 0x15#8 then .parameters 16
            else .zeros)
  ∨ (∃ n, u = .parameters n ∧ v = if n ≤ 1 then .answer false else .parameters (n - 1))
  ∨ (u = .zeros ∨ u = .answer false ∨ u = .answer true) ∧ v = u

/-- A framing in progress at the port p, which a reset has made one that is not taken, stands at v (R178, R181). -/
def becomesUntaken (p : Port) (v : Untaken) : Prop :=
  (p.phase = .idle → v = p.untaken)
  ∧ (p.phase = .code → v = .code p.bits)
  ∧ (p.phase = .parameters → p.code ∈ [0x13#8, 0x14#8, 0x16#8] → p.bytes = [] → p.bits.length < 8 →
      v = .parameters (8 - p.bits.length))
  ∧ (p.phase = .parameters → p.code = 0x15#8 → p.bytes.length < 2 → p.bits.length < 8 →
      v = .parameters (16 - 8 * p.bytes.length - p.bits.length))
  ∧ (p.phase = .writing ∨ p.phase = .discarding → v = .zeros)
  ∧ (∀ cmd, p.phase = .answering cmd → v = .answer p.out.isSome)

/-- A change on a pin, taken when nothing else waits, leads from s to t. -/
def onPin (s t : State) (e : PinEvent) : Prop :=
  ∀ rest, step { s with pending := [], pins := e :: rest } = .next { t with pins := rest }

/-- R124, R125: the levels of RXD and CSN at the middle of a bit time are taken. A start bit that is back at stop level is a
glitch; a confirmed one is followed by ten more bits; a framing error is waited out for a whole bit time at stop level. -/
def bitTaken (a : Assembler) (low csn : Bool) : Assembler :=
  let wait := a.awaitStop && low
  match a.start, a.bits with
  | _, some l =>
    if l.length < 10 then { start := false, bits := some (l ++ [!low]), csn := a.csn || csn, awaitStop := wait }
    else { start := false, bits := none, csn := false, awaitStop := wait }
  | true, none =>
    if low = true then { start := false, bits := some [], csn := csn, awaitStop := wait }
    else { start := false, bits := none, csn := false, awaitStop := wait }
  | false, none => { start := false, bits := none, csn := false, awaitStop := wait }

/-- R124, R125: what a bit just taken shows: the start bit confirmed, or the character that its ten bits spell, data bits
least significant first, then the mark bit, then the stop bit. -/
def characterTaken (a : Assembler) (c : Instr) : Prop :=
  a.bits = some [] ∧ c = .lineBusy .startBit
  ∨ ∃ (d : Byte) (mark stop : Bool), a.bits = some ((List.range 8).map (fun k => d.getLsbD k) ++ [mark, stop])
    ∧ c = (if stop = false then .collisionSeen .framingError
        else if a.csn = true then .collisionSeen .csn
        else if mark = true then .markedCharacter d
        else .unmarkedCharacter d)

/-- R148's table: the round state after a collision seen. -/
def roundAfterCollision : Round → Round
  | .contention => .gap 0 32
  | .gap o r => .gap o r
  | .slot o _ k _ => .gap (o + k) 32
  | .busy o _ k _ => .gap (o + k) 32

/-- The state in which the transmitter, the line access controller, the receiver and the scheduler have taken the
completion of a frame, and its owner has not: its last stop bit was read back at stop level (R161, R139, R142, R145, R152,
R155). -/
def sentOff (s : State) (f : TxFrame) : State :=
  { s with
    tx := .free, failCount := 0, lineGap := some 0, rxdLow := false,
    rx := if s.rx.state = .suspended then { state := .hunt, hold := [], gap := some 0 } else s.rx,
    rrProducer := match f with
      | .data i _ _ _ _ _ _ => i
      | .hold i _ _ => i
      | _ => s.rrProducer,
    rrConsumer := match f with
      | .join i _ _ _ => i
      | .ack i _ _ _ _ => i
      | .leave i _ => i
      | _ => s.rrConsumer }

/-- A frame's completion is there to be taken in s, and m is the state in which every block but its owner has taken it:
its last bit has been driven, or it was handed over before a choice (R145, R161). -/
def completes (s m : State) (f : TxFrame) : Prop :=
  s.handover = none ∧ (∃ cs b rd, s.tx = .sending f cs b rd false ∧ 11 * cs.length ≤ b) ∧ m = sentOff s f
  ∨ s.handover = some f ∧ m = { s with handover := none }

/-- The entry owns a completed frame whose completion it has not taken (R161). -/
def owesCompletion (s : State) (i : EntryIdx) : Prop := ∃ f, s.handover = some f ∧ ownerOf f = some i

/-- The transmitter holds a frame of the entry that carries END (R54). -/
def carriesEnd (s : State) (i : EntryIdx) : Prop :=
  ∃ again st q slot len, (∃ g, s.tx = .chosen (.data i again st q true slot len) g)
    ∨ ∃ cs b rd, s.tx = .sending (.data i again st q true slot len) cs b rd false

/-- R31 and R32: a producer entry has a new frame to offer. -/
def newFramePresent (e : Entry) : Prop :=
  0 < e.prod.filled ∧ e.prod.ring.length < 4 ∧ (∀ r ∈ e.prod.ring, r.queued = false)
  ∧ ∀ r ∈ e.prod.subs, (e.prod.nextSeq - r.acked).toNat ≤ r.credit

/-- R54: a producer entry has a zero-length END frame to offer. -/
def endFramePresent (s : State) (i : EntryIdx) : Prop :=
  let e := s.entry i
  e.state = .closing ∧ e.prod.endPending ≠ .clear ∧ e.prod.filled = 0 ∧ e.prod.ring.length < 4
  ∧ (∀ r ∈ e.prod.ring, r.queued = false ∧ r.endFlag = false) ∧ ¬carriesEnd s i

/-- What an entry offers to a choice, with its fields, by its rules: the oldest queued resend (R46), a new frame within the
window and every subscriber's credit (R31 to R33, R53), a zero-length END (R54), a due HOLD (R49), a due JOIN (R81), an owed
ACK (R94, R97, R106, R107), a LEAVE with no ACK owed (R106). -/
def offered (s : State) (i : EntryIdx) (f : TxFrame) : Prop :=
  let e := s.entry i
  let producing := e.role = some .producer ∧ (e.state = .producing ∨ e.state = .closing) ∧ ¬owesCompletion s i
  let consuming := e.role = some .consumer ∧ ¬owesCompletion s i
  let credit := if e.mode = .fixed then 4 else min 4 (e.slots - e.cons.held)
  match f with
  | .data j true st q fin slot len =>
    producing ∧ j = i ∧ st = e.stream ∧ ∃ before r later, e.prod.ring = before ++ r :: later
      ∧ (∀ b ∈ before, b.queued = false) ∧ r.queued = true ∧ q = r.seq ∧ fin = r.endFlag ∧ slot = r.slot ∧ len = r.len
  | .data j false st q fin (some slot) len =>
    producing ∧ j = i ∧ st = e.stream ∧ newFramePresent e ∧ q = e.prod.nextSeq ∧ slot = e.prod.sendIdx ∧ len = e.size
      ∧ (fin = true ↔ e.prod.endPending ≠ .clear ∧ e.prod.filled = 1)
  | .data j false st q fin none len =>
    producing ∧ j = i ∧ st = e.stream ∧ endFramePresent s i ∧ q = e.prod.nextSeq ∧ fin = true ∧ len = 0
  | .hold j st next =>
    producing ∧ j = i ∧ st = e.stream ∧ next = e.prod.nextSeq ∧ e.prod.holdDue = true
      ∧ (∀ r ∈ e.prod.ring, r.queued = false) ∧ ¬newFramePresent e ∧ ¬endFramePresent s i
  | .join j st k size =>
    consuming ∧ j = i ∧ st = e.stream ∧ e.state = .joining ∧ e.cons.joinDue = true ∧ size = e.size ∧ k = credit
  | .ack j st dest a k =>
    consuming ∧ j = i ∧ st = e.stream ∧ e.cons.ack = .owed ∧ e.cons.producer = some dest ∧ a = e.cons.expected - 1
      ∧ (e.state = .receiving ∧ k = credit
        ∨ (e.state = .leaving ∨ e.state = .ended ∧ (e.cause = some .byProducer ∨ e.cause = some .countDone)) ∧ k = 0)
  | .leave j st => consuming ∧ j = i ∧ st = e.stream ∧ e.state = .leaving ∧ e.cons.ack = .clear
  | .reply _ _ _ => False

/-- How many entries a class examines before entry i, from the one after its round-robin position (R155). -/
def turnsBefore (position i : EntryIdx) : Nat := (i.val + 11 - position.val) % 12

/-- The state after a list of commands taken in order; none if one of them stops. -/
def after : List Instr → State → Option State
  | [], s => some s
  | c :: cs, s =>
    match exec c s with
    | .next t => after cs t
    | _ => none

/-- A run of good characters on the line: the first marked, the others not (10.2). -/
def charactersOf : List Byte → List Instr
  | [] => []
  | d :: ds => .markedCharacter d :: ds.map Instr.unmarkedCharacter

end Sys2Proof.Safety
end

