-- ==== Sys2Proof/Certificates/Slice0/Obligations.lean ====
section
/-! DEFINITION. The statements for the provers. Each says of a command, or of every command, what the spec's rules say of
it: the next state of its own effect, what it leaves as it was, or an invariant that every step keeps. Where a
hypothesis names `held = false`, O4 covers the other case: while the station is held (RSTN low, power-on reset held, or buffer
memory being cleared) nothing is taken. -/

open Sys2Proof Sys2Proof.Machine Sys2Proof.Safety

/-! ## The queue and the steps -/

/-- A step runs the command at the front of the queue on the state with the queue's rest: events are taken one at a time and
whole (R2). That they come in one queue, and in its order, is the model's choice (notes/assumptions/20.md). -/
def Obligations.StepRunsFrontCommand : Prop :=
  ∀ (s : State) (c : Instr) (rest : List Instr), s.pending = c :: rest → step s = exec c { s with pending := rest }

/-- With no command waiting and the station not held, an event that comes at once is queued and no time passes: a completion
that its owner has still to take, the dispatch of a complete frame, a choice, a granted start. With none, and no change on
a pin waiting, one bit time passes: every counter of the block goes one further, the receiver takes one bit outside OFF and
SUSPENDED, and nothing else changes; the events due are queued, each once: a start bit confirmed or the character that the
bits taken spell, a completion at 11 bit times for each character, a readback mismatch, an expiry at 0 while ONLINE by the
meaning of the timer, the idle gaps at 33, which count with RXD at stop level and CSN negated, the end of a slot at 22, the
quiet timer's expiry at 0. That the block's own time is what a step on an empty queue does is the model's choice
(notes/assumptions/2.md), and so are the phase of the milliseconds (notes/assumptions/14.md), the sampling of RXD once a bit
time, and that a readback differs only where a bit driven high is read low (notes/assumptions/25.md). -/
def Obligations.EmptyQueueLetsTimePass : Prop :=
  ∀ s : State, s.pending = [] →
    let choice := s.tx = .free ∧ s.station = .online ∧ s.candidate ≠ none
    let grant := s.station = .online ∧ s.line = .idle ∧ ∃ f g, s.tx = .chosen f g ∧ (s.round = .contention ∨ g = true)
    let mark := 125 * 2 ^ s.rate.toNat ≤ s.msPhase + 1
    let further := fun (limit n : Nat) => if n < limit then n + 1 else n
    (s.held = true → s.pins = [] → step s = .next s)
    ∧ (s.held = false → ∀ f, s.handover = some f → step s = .next { s with pending := [f.completion] })
    ∧ (s.held = false → s.handover = none → ∀ f, s.rx.ready = some f →
        step s = .next { s with pending := [frameRow f] })
    ∧ (s.held = false → s.handover = none → s.rx.ready = none → choice →
        step s = .next { s with pending := [.schedulerChoice] })
    ∧ (s.held = false → s.handover = none → s.rx.ready = none → grant →
        step s = .next { s with pending := [.transmitStart] })
    ∧ (s.held = false → s.handover = none → s.rx.ready = none → ¬choice → ¬grant → s.pins = [] →
        ∃ t, step s = .next t
        ∧ t = { s with
            msPhase := if mark then 0 else s.msPhase + 1,
            entries := t.entries,
            quiet := s.quiet.map (fun n => n - 1),
            lineGap := match s.lineGap with
              | none => none
              | some n => some (if s.csnAsserted = true ∨ s.rxdLow = true then 0 else further 33 n),
            rxdSteady := !s.rxdLow && s.txd,
            rx := { s.rx with
              gap := s.rx.gap.map (further 33),
              char := if s.rx.state = .off ∨ s.rx.state = .suspended then s.rx.char
                else bitTaken s.rx.char s.rxdLow s.csnAsserted },
            round := match s.round with | .slot o r k elapsed => Round.slot o r k (further 22 elapsed) | w => w,
            tx := match s.tx with
              | .sending f cs bits rd o => Tx.sending f cs (further (11 * cs.length) bits) rd o
              | x => x,
            pending := t.pending }
        ∧ (∀ i, t.entry i = { s.entry i with
            timer := match (s.entry i).timer with
              | .stopped => Timer.stopped
              | .running ms => if s.station = .online ∧ mark then .running (ms - 1) else .running ms })
        ∧ t.pending.Nodup
        ∧ ∀ c, c ∈ t.pending ↔
            (∃ f cs bits rd o, t.tx = .sending f cs bits rd o ∧ 11 * cs.length ≤ bits ∧ c = f.completion)
            ∨ (∃ f cs bits rd o, s.tx = .sending f cs bits rd o ∧ bits < 11 * cs.length ∧ s.rxdLow = true
                ∧ s.txd = true ∧ c = .transmitCollision .mismatch (decide (bits < 11)))
            ∨ characterTaken t.rx.char c
            ∨ (∃ i, t.station = .online ∧ (t.entry i).timer = .running 0
                ∧ (((t.entry i).state = .producing ∨ (t.entry i).state = .closing)
                    ∧ (if (t.entry i).prod.ring = [] then c = .holdTimerExpiry i else c = .ackTimerExpiry i)
                  ∨ (t.entry i).state = .joining ∧ c = .joinTimerExpiry i
                  ∨ (t.entry i).state = .receiving ∧ c = .silenceTimerExpiry i))
            ∨ (t.rx.gap = some 33 ∧ (t.rx.state = .assembling ∨ t.rx.state = .skipping ∨ t.rx.state = .sync)
                ∧ c = .receiverIdleGap)
            ∨ (t.lineGap = some 33 ∧ t.csnAsserted = false ∧ t.rxdLow = false ∧ c = .lineIdle)
            ∨ (∃ o r k elapsed, t.round = .slot o r k elapsed ∧ 22 ≤ elapsed ∧ c = .slotEnd)
            ∨ (t.quiet = some 0 ∧ c = .quietTimerExpiry))

/-- Every command of the table answers a next state on every state, and none touches the queue of waiting commands. That a
command or event which cannot occur in a state has no effect there and does not stop the machine is the model's choice
(notes/assumptions/5.md), and so is the queue (notes/assumptions/20.md). -/
def Obligations.EveryCommandAnswersNext : Prop :=
  ∀ (c : Instr) (s : State), ∃ t, exec c s = .next t ∧ t.pending = s.pending

/-- While RSTN is held low, while power-on reset is held and while buffer memory is cleared after it nothing is taken but the
events of RSTN and the supply. SSN, SCK and MOSI are ignored: no framing begins, goes on or ends at the port and no row is
queued. Of the pins State keeps the level on SSN and how far the framing that is not taken has come. With RSTN low or power-on
reset held MISO is at high impedance; in the clearing it is driven, and carries 0 but where an answer would stand. The clearing as
a period, and the framing as it is followed, are the model's choice (notes/assumptions/26.md, 27.md). -/
def Obligations.NothingTakenWhileHeldInReset : Prop :=
  ∀ s : State,
    (s.held = true ↔ s.rstnLow = true ∨ s.power = .held ∨ s.power = .clearing)
    ∧ (s.rstnLow = true ∨ s.power = .held → s.miso = none)
    ∧ (s.rstnLow = false → s.power = .clearing → s.port.ssnLow = true → s.port.phase = .idle →
        s.port.untaken ≠ .answer true → s.miso = some false)
    ∧ (s.held = true →
      (∀ c, isResetEvent c = false → exec c s = .next s)
      ∧ (s.pending = [] →
        (s.port.ssnLow = false →
          onPin s { s with port := { s.port with ssnLow := true, untaken := .code [] } } .ssnFall
          ∧ (∀ mosi, onPin s s (.sckRise mosi)) ∧ onPin s s .sckFall)
        ∧ (s.port.ssnLow = true →
          onPin s s .ssnFall
          ∧ (∀ mosi v, untakenNext s.port.untaken mosi v →
              onPin s { s with port := { s.port with untaken := v } } (.sckRise mosi))
          ∧ (∀ shifting, s.port.untaken = .answer shifting →
              onPin s { s with port := { s.port with untaken := .answer true }, misoDraws := s.misoDraws + 1 } .sckFall)
          ∧ ((∀ shifting, s.port.untaken ≠ .answer shifting) → onPin s s .sckFall))
        ∧ (∀ sa rs, onPin s { s with port := { s.port with ssnLow := false, untaken := .code [] } } (.ssnRise sa rs))
        ∧ onPin s { s with csnAsserted := true } .csnAssert))

/-! ## Resets -/

/-- POWER_ON, RESET, RSTN_LOW and the release of RSTN leave every reset value; POWER_ON clears buffer memory and the
others keep it; POWER_ON, RESET and the release sample the straps; with RSTN high there is no rising edge. From the rise of
the supply power-on reset is held, with the part driving nothing and ATN released; its release clears buffer memory and
samples the straps, and commands are taken once the clearing is complete. The levels on CSN and RXD and on SSN stand, but for
the SSN rise that takes a RESET, and a framing in progress goes on as one that is not taken (the model's choice how far it has
come: notes/assumptions/27.md). That a reset carries the strap levels, and that POWER_ON leaves the level on RSTN, is the
model's choice (notes/assumptions/10.md), and so are the receiver's time since the last character, none
(notes/assumptions/22.md), and the pin changes of the supply (notes/assumptions/26.md). -/
def Obligations.ResetsLeaveTheResetValues : Prop :=
  ∀ (s : State) (sa : Station) (rs : RateCode),
    let stands := fun (t : State) => t.csnAsserted = s.csnAsserted ∧ t.rxdLow = s.rxdLow ∧ t.rxdSteady = s.rxdSteady
      ∧ t.misoDraws = s.misoDraws ∧ t.pins = s.pins ∧ t.pending = s.pending
    let framing := fun (t : State) => t.port.ssnLow = s.port.ssnLow ∧ becomesUntaken s.port t.port.untaken
    let sampled := fun (t : State) => t.stationNo = sa ∧ t.rate = rs
    let cleared := fun (t : State) => ∀ a, Memory.read t.mem a = 0#8
    (∃ t, exec (.powerOn sa rs) s = .next t ∧ resetValues t ∧ stands t ∧ sampled t ∧ cleared t
      ∧ t.rstnLow = s.rstnLow ∧ t.power = .on ∧ framing t)
    ∧ (s.held = false → ∃ t, exec (.reset [] false sa rs) s = .next t ∧ resetValues t ∧ stands t ∧ sampled t
      ∧ t.mem = s.mem ∧ t.rstnLow = false ∧ t.power = .on ∧ t.port.ssnLow = false ∧ t.port.untaken = .code [])
    ∧ (∃ t, exec .rstnLow s = .next t ∧ resetValues t ∧ stands t
      ∧ t.mem = s.mem ∧ t.rstnLow = true ∧ t.power = s.power ∧ framing t)
    ∧ (s.rstnLow = true → ∃ t, exec (.rstnRelease sa rs) s = .next t ∧ resetValues t ∧ stands t ∧ sampled t
      ∧ t.mem = s.mem ∧ t.rstnLow = false ∧ t.power = s.power ∧ framing t)
    ∧ (s.rstnLow = false → exec (.rstnRelease sa rs) s = .next s)
    ∧ (s.held = true ∨ s.atOnce = none → s.pending = [] →
      (∃ t, onPin s t .supplyRise ∧ resetValues t ∧ stands t ∧ t.mem = s.mem ∧ t.rstnLow = s.rstnLow ∧ t.power = .held
        ∧ framing t
        ∧ t.txe = false ∧ t.txd = true ∧ t.miso = none ∧ t.atnLow = false)
      ∧ (s.power = .held → ∃ t, onPin s t (.powerRelease sa rs) ∧ resetValues t ∧ stands t ∧ sampled t ∧ cleared t
        ∧ t.rstnLow = s.rstnLow ∧ t.power = .clearing ∧ framing t)
      ∧ (s.power = .clearing → onPin s { s with power := .on } .clearingEnd)
      ∧ (s.power ≠ .held → onPin s s (.powerRelease sa rs))
      ∧ (s.power ≠ .clearing → onPin s s .clearingEnd))

/-! ## The host port's reads -/

/-- READ_STATUS latches the two bytes of the status word and leaves the result code; STATUS_RELATCH latches them
afresh while the word is being answered, and does nothing otherwise (notes/assumptions/5.md, the model's choice). ATN
is low exactly while the notice queue is not empty, as the word's flag shows. -/
def Obligations.StatusWordIsLatched : Prop :=
  ∀ s : State, s.held = false →
    let word := [BitVec.ofNat 8 ((if s.noticeQueue = [] then 0 else 128)
        + (match s.station with | .offline => 0 | .listening => 1 | .online => 2 | .lineFault => 3)),
      BitVec.ofNat 8 s.port.result.code]
    (∃ t, exec .readStatus s = .next t ∧ t = { s with port := t.port }
      ∧ t.port.phase = .answering .status ∧ t.port.answer = word ∧ t.port.result = s.port.result)
    ∧ (s.port.phase = .answering .status →
        exec .statusRelatch s = .next { s with port := { s.port with answer := word } })
    ∧ (s.port.phase ≠ .answering .status → exec .statusRelatch s = .next s)
    ∧ (s.atnLow = true ↔ s.noticeQueue ≠ [])

/-- READ_IDENTITY shifts out the seven bytes of the identity record and then 00h, sets OK and changes nothing else. -/
def Obligations.IdentityRecordIsShiftedOut : Prop :=
  ∀ s : State, s.held = false → ∃ t, exec .readIdentity s = .next t ∧ t = { s with port := t.port }
    ∧ t.port.phase = .answering .identity ∧ t.port.result = .ok
    ∧ [0, 1, 2, 3, 4, 5, 6].map t.misoByte
        = [0xE7#8, 0xA1#8, 0x41#8, 0x20#8, 0x01#8, s.stationNo.setWidth 8, s.rate.setWidth 8]
    ∧ ∀ n, 7 ≤ n → t.misoByte n = 0#8

/-- READ_NOTICE pops the head item: its record is latched, with the end cause if ENDED is among its kinds and with the
sets as the item holds them (empty for item 12), it leaves the queue and it is cleared. On an empty queue it answers
item 15 with every other byte 00h and sets EMPTY, and no item changes. -/
def Obligations.ReadNoticePopsOrAnswersEmpty : Prop :=
  ∀ s : State, s.held = false →
    (∀ (k : ItemIdx) (rest : List ItemIdx), s.noticeQueue = k :: rest →
      ∃ t, exec .readNotice s = .next t
        ∧ t = { s with port := t.port, items := t.items, noticeQueue := rest }
        ∧ t.item k = {} ∧ (∀ j, j ≠ k → t.item j = s.item j)
        ∧ t.port.result = .ok ∧ t.port.phase = .answering .notice
        ∧ t.port.answer =
            [BitVec.ofNat 8 k.val, (s.item k).kinds,
             BitVec.ofNat 8 (if (s.item k).kinds.getLsbD 5 = true then causeCode (s.item k).cause else 0)]
            ++ (if k = 12 then [0#32, 0#32, 0#32]
                else [(s.item k).joined, (s.item k).departed, (s.item k).evicted]).flatMap
                (fun m => [m.extractLsb' 24 8, m.extractLsb' 16 8, m.extractLsb' 8 8, m.extractLsb' 0 8])
        ∧ ∀ n, 15 ≤ n → t.misoByte n = 0#8)
    ∧ (s.noticeQueue = [] → ∃ t, exec .readNotice s = .next t ∧ t = { s with port := t.port }
        ∧ t.port.result = .empty ∧ t.port.answer.length = 15 ∧ t.misoByte 0 = 0x0F#8
        ∧ ∀ n, 1 ≤ n → t.misoByte n = 0#8)

/-- READ_ENTRY answers the 28 bytes of 10.6 for a producer, for a consumer and for a FREE entry, and refuses an index
above 11 with the snapshot of a FREE entry; nothing but the port changes. -/
def Obligations.EntrySnapshotHasTheLayout : Prop :=
  ∀ (s : State) (index : Byte), s.held = false →
    ∃ t, exec (.readEntry index) s = .next t ∧ t = { s with port := t.port }
      ∧ (11 < index.toNat → t.port.result = .badEntry ∧ t.port.answer = List.replicate 28 0#8)
      ∧ ∀ i : EntryIdx, index.toNat = i.val → t.port.result = .ok
        ∧ ((s.entry i).state = .free → t.port.answer = List.replicate 28 0#8)
        ∧ ((s.entry i).state ≠ .free →
          let e := s.entry i
          let running := match e.timer with | .stopped => 0 | .running _ => 1
          let ms := match e.timer with | .stopped => 0 | .running n => n
          (e.role = some .producer → t.port.answer =
            [BitVec.ofNat 8 e.state.code, BitVec.ofNat 8 (1 + 4 * e.mode.code), e.stream.setWidth 8,
             BitVec.ofNat 8 (e.base / 256), BitVec.ofNat 8 e.base, BitVec.ofNat 8 e.slots, BitVec.ofNat 8 e.size,
             BitVec.ofNat 8 (e.count / 256), BitVec.ofNat 8 e.count,
             BitVec.ofNat 8 (e.remaining / 256), BitVec.ofNat 8 e.remaining,
             BitVec.ofNat 8 e.threshold, BitVec.ofNat 8 (causeCode e.cause),
             BitVec.ofNat 8 (running + 2 * e.cause.isSome.toNat + 4 * (!e.prod.ring.isEmpty).toNat
               + 16 * (e.prod.ring.any (fun r => r.endFlag)).toNat),
             BitVec.ofNat 8 (ms / 256), BitVec.ofNat 8 ms]
            ++ [e.prod.nextSeq, BitVec.ofNat 8 ((e.prod.sendIdx + e.prod.filled) % e.slots),
             BitVec.ofNat 8 e.prod.sendIdx, BitVec.ofNat 8 e.prod.filled, BitVec.ofNat 8 (freeSlotsOf e),
             BitVec.ofNat 8 e.prod.ring.length, (e.prod.ring.head?.map (fun r => r.seq)).getD 0#8,
             BitVec.ofNat 8 (e.prod.ring.filter (fun r => r.queued)).length,
             BitVec.ofNat 8 e.prod.endPending.code, BitVec.ofNat 8 e.prod.subs.length, 0#8, 0#8])
          ∧ (e.role = some .consumer → t.port.answer =
            [BitVec.ofNat 8 e.state.code, BitVec.ofNat 8 (2 + 4 * e.mode.code), e.stream.setWidth 8,
             BitVec.ofNat 8 (e.base / 256), BitVec.ofNat 8 e.base, BitVec.ofNat 8 e.slots, BitVec.ofNat 8 e.size,
             BitVec.ofNat 8 (e.count / 256), BitVec.ofNat 8 e.count,
             BitVec.ofNat 8 (e.remaining / 256), BitVec.ofNat 8 e.remaining,
             BitVec.ofNat 8 e.threshold, BitVec.ofNat 8 (causeCode e.cause),
             BitVec.ofNat 8 (running + 2 * e.cause.isSome.toNat + 4 * e.cons.producer.isSome.toNat
               + 8 * e.cons.lastSeq.isSome.toNat + 16 * e.cons.endMark.toNat),
             BitVec.ofNat 8 (ms / 256), BitVec.ofNat 8 ms]
            ++ [(e.cons.producer.getD 0#5).setWidth 8, e.cons.expected, BitVec.ofNat 8 e.cons.writeIdx,
             BitVec.ofNat 8 e.cons.readIdx, BitVec.ofNat 8 e.cons.held, BitVec.ofNat 8 e.credit,
             BitVec.ofNat 8 e.cons.joinAttempts, BitVec.ofNat 8 e.cons.ack.code, e.cons.lastSeq.getD 0#8,
             0#8, 0#8, 0#8]))

/-- READ_SUBSCRIBERS answers the header and, for a producer in PRODUCING or CLOSING, four bytes per record in list
order; every other entry shows an empty list, and an index above 11 gives BAD_ENTRY with the free count alone. -/
def Obligations.SubscriberListIsShown : Prop :=
  ∀ (s : State) (index : Byte), s.held = false →
    ∃ t, exec (.readSubscribers index) s = .next t ∧ t = { s with port := t.port }
      ∧ (11 < index.toNat → t.port.result = .badEntry ∧ t.port.answer = [0#8, BitVec.ofNat 8 s.poolFree])
      ∧ ∀ i : EntryIdx, index.toNat = i.val → t.port.result = .ok
        ∧ ((s.entry i).state = .producing ∨ (s.entry i).state = .closing → t.port.answer =
            [BitVec.ofNat 8 (s.entry i).prod.subs.length, BitVec.ofNat 8 s.poolFree]
            ++ (s.entry i).prod.subs.flatMap (fun r =>
                [r.station.setWidth 8, r.acked, BitVec.ofNat 8 r.credit, BitVec.ofNat 8 r.missed]))
        ∧ ((s.entry i).state ≠ .producing → (s.entry i).state ≠ .closing →
            t.port.answer = [0#8, BitVec.ofNat 8 s.poolFree])

/-- READ_BUFFER sets the read address, and the n-th byte read after it is the byte n places on, wrapping from 8191 to
0, each by one claim that changes no byte; an address above 8191 gives BAD_PARAMETER and 00h throughout. -/
def Obligations.ReadBufferWalksBufferMemory : Prop :=
  ∀ (s : State) (high low : Byte), s.held = false →
    (word16 high low ≤ 8191 → ∀ n,
      ∃ t, after (.readBuffer high low :: List.replicate (n + 1) .hostByteRead) s = some t
        ∧ t = { s with port := t.port } ∧ t.port.result = .ok
        ∧ t.port.answer = [Memory.read s.mem ((word16 high low + n) % 8192)]
        ∧ t.port.readAddr = some ((word16 high low + n + 1) % 8192))
    ∧ (∀ a, s.port.readAddr = some a → exec .hostByteRead s = .next { s with port := { s.port with
        answer := [Memory.read s.mem (a % 8192)], readAddr := some ((a + 1) % 8192) } })
    ∧ (8191 < word16 high low → ∃ t, exec (.readBuffer high low) s = .next t ∧ t = { s with port := t.port }
        ∧ t.port.result = .badParameter ∧ (∀ n, t.misoByte n = 0#8) ∧ exec .hostByteRead t = .next t)

/-- READ_SLOT latches the whole slot of a FIXED consumer, the places of the latch after it holding 00h (the model's
choice: notes/assumptions/23.md); any other entry gives REFUSED_STATE, an index above 11 BAD_ENTRY, and both shift out
00h. -/
def Obligations.ReadSlotLatchesTheFixedSlot : Prop :=
  ∀ (s : State) (index : Byte), s.held = false →
    ∃ t, exec (.readSlot index) s = .next t ∧ t = { s with port := t.port }
      ∧ (11 < index.toNat → t.port.result = .badEntry ∧ t.port.slotLatch = s.port.slotLatch
          ∧ ∀ n, t.misoByte n = 0#8)
      ∧ ∀ i : EntryIdx, index.toNat = i.val →
        (((s.entry i).role = some .consumer ∧ (s.entry i).mode = .fixed ∧ (s.entry i).state ≠ .free) →
          t.port.result = .ok
          ∧ (∀ n, n < (s.entry i).size → t.misoByte n = Memory.read s.mem (((s.entry i).base + n) % 8192))
          ∧ (∀ n, (s.entry i).size ≤ n → t.misoByte n = 0#8)
          ∧ ((s.entry i).size ≤ 64 → t.port.slotLatch = (List.range 64).map t.misoByte))
        ∧ (¬((s.entry i).role = some .consumer ∧ (s.entry i).mode = .fixed ∧ (s.entry i).state ≠ .free) →
          t.port.result = .refusedState ∧ t.port.slotLatch = s.port.slotLatch ∧ ∀ n, t.misoByte n = 0#8)

/-- A framing goes edge by edge through the port's states: it begins at the SSN fall, MOSI is sampled at SCK's rise,
most significant bit first, the eighth bit of a code or of the last parameter of a read-type command takes the
command, and a write-type command is taken at the SSN rise; with SSN high SCK is ignored. MISO is at high impedance with SSN
high, 0 while no answer is shifted out, and the answer's bit, most significant first, after each fall of SCK. In a framing
that began before a reset's release, which is not taken, it is 0 through the code byte, the parameter bytes and every byte of a
write-type command or an unknown code; where the answer of a read-type command would stand it is a free bit (the model's
choice: notes/assumptions/9.md, 27.md). A code
byte that names no command gives BAD_COMMAND and 00h until the SSN rise; a framing of fewer than 8 bits leaves the
result code; a read-type framing short of its parameters and a write-type framing of a wrong byte count or with a
partial byte give BAD_LENGTH; none changes anything but the port. The queue of edges, which row carries which framing,
and the edge at which a byte is claimed or a word latched afresh are the model's choice (notes/assumptions/8.md). -/
def Obligations.FramingsFollowThePortStates : Prop :=
  ∀ s : State, s.held = false →
    (∀ c : Byte, c ∉ [0x10#8, 0x11#8, 0x12#8, 0x13#8, 0x14#8, 0x15#8, 0x16#8, 0x20#8, 0x30#8, 0x31#8] →
      c ∉ [0x32#8, 0x3C#8, 0x40#8, 0x41#8, 0x42#8, 0x43#8, 0x44#8, 0x45#8, 0x46#8] →
      ∃ t, exec (.unknownCommandCode (some c)) s = .next t ∧ t = { s with port := t.port }
        ∧ t.port.result = .badCommand ∧ t.port.phase = .discarding ∧ t.miso = some false ∧ ∀ n, t.misoByte n = 0#8)
    ∧ (∃ t, exec (.unknownCommandCode none) s = .next t ∧ t = { s with port := t.port }
        ∧ t.port.result = s.port.result ∧ t.port.phase = .idle ∧ t.miso = none)
    ∧ (∀ (c : Byte) (bytes : List Byte),
        (c = 0x13#8 ∨ c = 0x14#8 ∨ c = 0x16#8) ∧ bytes.length < 1 ∨ c = 0x15#8 ∧ bytes.length < 2 →
        ∃ t, exec (.readCommandShortFraming c bytes) s = .next t ∧ t = { s with port := t.port }
          ∧ t.port.result = .badLength ∧ t.port.phase = .idle)
    ∧ (∀ c : Instr, wrongLength c = true →
        ∃ t, exec c s = .next t ∧ t = { s with port := t.port } ∧ t.port.result = .badLength ∧ t.port.phase = .idle)
    ∧ (s.atOnce = none → s.pending = [] →
      let p := s.port
      let ported := fun (q : Port) (row : List Instr) => { s with port := q, pending := row }
      let idle : Port := { slotLatch := p.slotLatch, result := p.result }
      (p.ssnLow = false → onPin s (ported { idle with ssnLow := true, phase := .code } []) .ssnFall
        ∧ (∀ mosi, onPin s s (.sckRise mosi)) ∧ onPin s s .sckFall ∧ ∀ sa rs, onPin s s (.ssnRise sa rs))
      ∧ (p.ssnLow = true → onPin s s .ssnFall)
      ∧ (p.ssnLow = true →
      (∀ mosi, p.phase = .discarding ∨ (∃ cmd, p.phase = .answering cmd) → onPin s s (.sckRise mosi))
      ∧ (p.phase = .idle →
          (∀ mosi v, untakenNext p.untaken mosi v → onPin s (ported { p with untaken := v } []) (.sckRise mosi))
          ∧ (∀ shifting, p.untaken = .answer shifting →
              onPin s { s with port := { p with untaken := .answer true }, misoDraws := s.misoDraws + 1 } .sckFall)
          ∧ ((∀ shifting, p.untaken ≠ .answer shifting) → onPin s s .sckFall))
      ∧ (∀ mosi, p.phase = .code ∨ p.phase = .writing ∨ p.phase = .parameters → p.bits.length < 7 →
          onPin s (ported { p with bits := p.bits ++ [mosi] } []) (.sckRise mosi))
      ∧ (∀ mosi b, p.bits ++ [mosi] = portBits b → p.phase = .code →
          let code := ported { p with bits := [], code := b }
          (b = 0x10#8 → onPin s (code [.readStatus]) (.sckRise mosi))
          ∧ (b = 0x11#8 → onPin s (code [.readIdentity]) (.sckRise mosi))
          ∧ (b = 0x12#8 → onPin s (code [.readNotice]) (.sckRise mosi))
          ∧ (b ∈ [0x13#8, 0x14#8, 0x15#8, 0x16#8] →
              onPin s (ported { p with bits := [], code := b, phase := .parameters } []) (.sckRise mosi))
          ∧ (b ∈ [0x20#8, 0x30#8, 0x31#8, 0x32#8, 0x3C#8, 0x40#8, 0x41#8, 0x42#8, 0x43#8, 0x44#8, 0x45#8, 0x46#8] →
              onPin s (ported { p with bits := [], code := b, phase := .writing } []) (.sckRise mosi))
          ∧ (b ∉ commandCodes → onPin s (code [.unknownCommandCode (some b)]) (.sckRise mosi)))
      ∧ (∀ mosi b, p.bits ++ [mosi] = portBits b → p.phase = .parameters →
          let more := ported { p with bits := [], bytes := p.bytes ++ [b] }
          (p.code = 0x13#8 → p.bytes = [] → onPin s (more [.readEntry b]) (.sckRise mosi))
          ∧ (p.code = 0x14#8 → p.bytes = [] → onPin s (more [.readSubscribers b]) (.sckRise mosi))
          ∧ (p.code = 0x16#8 → p.bytes = [] → onPin s (more [.readSlot b]) (.sckRise mosi))
          ∧ (p.code = 0x15#8 → p.bytes = [] → onPin s (more []) (.sckRise mosi))
          ∧ (∀ high, p.code = 0x15#8 → p.bytes = [high] → onPin s (more [.readBuffer high b]) (.sckRise mosi)))
      ∧ (∀ mosi b, p.bits ++ [mosi] = portBits b → p.phase = .writing →
          onPin s (ported { p with
            bits := [], bytes := p.bytes ++ [b],
            writeHold := if p.code = 0x20#8 then ((p.bytes ++ [b]).drop 2).take 64 else p.writeHold } []) (.sckRise mosi))
      ∧ (∀ sa rs,
          let up := { p with ssnLow := false, untaken := .code [] }
          (p.phase = .idle → onPin s (ported up []) (.ssnRise sa rs))
          ∧ (p.phase = .discarding ∨ (∃ cmd, p.phase = .answering cmd) → onPin s (ported idle []) (.ssnRise sa rs))
          ∧ (p.phase = .code → onPin s (ported up [.unknownCommandCode none]) (.ssnRise sa rs))
          ∧ (p.phase = .parameters →
              onPin s (ported up [.readCommandShortFraming p.code p.bytes]) (.ssnRise sa rs))
          ∧ (∀ row, p.phase = .writing →
              (let ragged := decide (p.bits ≠ [])
               (p.code, row) ∈ [(0x20#8, Instr.writeBuffer p.bytes ragged), (0x30#8, .setParameters p.bytes ragged),
                (0x31#8, .goOnline p.bytes ragged), (0x32#8, .goOffline p.bytes ragged),
                (0x3C#8, .reset p.bytes ragged sa rs), (0x40#8, .openProduce p.bytes ragged),
                (0x41#8, .openConsume p.bytes ragged), (0x42#8, .post p.bytes ragged),
                (0x43#8, .release p.bytes ragged), (0x44#8, .close p.bytes ragged), (0x45#8, .abort p.bytes ragged),
                (0x46#8, .free p.bytes ragged)]) →
              onPin s (ported up [row]) (.ssnRise sa rs)))
      ∧ (∀ cmd, p.phase = .answering cmd →
          (p.out = none → cmd ≠ .buffer → onPin s (ported { p with out := some 0 } []) .sckFall)
          ∧ (p.out = none → cmd = .buffer → onPin s (ported { p with out := some 0 } [.hostByteRead]) .sckFall)
          ∧ (∀ n, p.out = some n →
              (cmd = .status → n < 15 → onPin s (ported { p with out := some (n + 1) } []) .sckFall)
              ∧ (cmd = .status → n = 15 → onPin s (ported { p with out := some 0 } [.statusRelatch]) .sckFall)
              ∧ (cmd = .buffer → n < 7 → onPin s (ported { p with out := some (n + 1) } []) .sckFall)
              ∧ (cmd = .buffer → n = 7 → onPin s (ported { p with out := some 0 } [.hostByteRead]) .sckFall)
              ∧ (cmd ≠ .status → cmd ≠ .buffer → n < 8 * p.answer.length →
                  onPin s (ported { p with out := some (n + 1) } []) .sckFall)))
      ∧ (p.phase = .code ∨ p.phase = .parameters ∨ p.phase = .writing ∨ p.phase = .discarding → onPin s s .sckFall)))
    ∧ (s.miso = none ↔ s.port.ssnLow = false)
    ∧ (s.port.ssnLow = true → s.port.phase ≠ .idle → (∀ cmd, s.port.phase ≠ .answering cmd) ∨ s.port.out = none →
        s.miso = some false)
    ∧ (s.port.ssnLow = true → s.port.phase = .idle →
        (s.port.untaken ≠ .answer true → s.miso = some false)
        ∧ (s.port.untaken = .answer true → s.miso = some (Config.untakenBit s.misoDraws)))
    ∧ (∀ cmd n b, s.port.ssnLow = true → s.port.phase = .answering cmd → s.port.out = some n →
        s.port.answer[n / 8]? = some b → s.miso = (portBits b)[n % 8]?)
    ∧ (∀ cmd n, s.port.ssnLow = true → s.port.phase = .answering cmd → s.port.out = some n →
        8 * s.port.answer.length ≤ n → s.miso = some false)

/-! ## Station commands -/

/-- WRITE_BUFFER stores its 1 to 64 data bytes at consecutive addresses from the start address, wrapping from 8191 to
0, and changes no other byte; an address above 8191 gives BAD_PARAMETER and changes none. -/
def Obligations.WriteBufferStoresItsBytes : Prop :=
  ∀ (s : State) (high low : Byte) (data : List Byte), s.held = false → memorySafe s →
    1 ≤ data.length → data.length ≤ 64 →
    ∃ t, exec (.writeBuffer (high :: low :: data) false) s = .next t
      ∧ t = { s with mem := t.mem, port := t.port } ∧ memorySafe t ∧ t.port.writeHold = []
      ∧ (word16 high low ≤ 8191 → t.port.result = .ok
          ∧ (∀ (j : Nat) (hj : j < data.length), Memory.read t.mem ((word16 high low + j) % 8192) = data[j])
          ∧ ∀ a, (∀ j < data.length, a ≠ (word16 high low + j) % 8192) → Memory.read t.mem a = Memory.read s.mem a)
      ∧ (8191 < word16 high low → t.port.result = .badParameter ∧ t.mem = s.mem)

/-- SET_PARAMETERS: REFUSED_STATE outside OFFLINE, then BAD_PARAMETER for T_ack below 2, N of 0 or above 15, or a
T_hold count of 0, each with no effect; else all three parameters are replaced, T_sil follows as T_hold × (N + 2), and
the defaults after a reset are 20 ms, 6, 250 ms and 2000 ms. -/
def Obligations.SetParametersReplacesAllThree : Prop :=
  (State.reset.params = { tAck := 20, n := 6, tHold := 250 } ∧ State.reset.params.tSil = 2000)
  ∧ ∀ (s : State) (tAck n steps : Byte), s.held = false →
    ∃ t, exec (.setParameters [tAck, n, steps] false) s = .next t ∧ t = { s with params := t.params, port := t.port }
      ∧ (s.station ≠ .offline → t.port.result = .refusedState ∧ t.params = s.params)
      ∧ (s.station = .offline → tAck.toNat < 2 ∨ n.toNat = 0 ∨ 15 < n.toNat ∨ steps.toNat = 0 →
          t.port.result = .badParameter ∧ t.params = s.params)
      ∧ (s.station = .offline → ¬(tAck.toNat < 2 ∨ n.toNat = 0 ∨ 15 < n.toNat ∨ steps.toNat = 0) →
          t.port.result = .ok ∧ t.params = { tAck := tAck.toNat, n := n.toNat, tHold := 10 * steps.toNat }
          ∧ t.params.tSil = 10 * steps.toNat * (n.toNat + 2))

/-- GO_ONLINE from OFFLINE and from LINE_FAULT takes the station to LISTENING with the effects of each column of 8.2;
in LISTENING and ONLINE it is refused. -/
def Obligations.GoOnlineEntersListening : Prop :=
  ∀ s : State, s.held = false →
    ∃ t, exec (.goOnline [] false) s = .next t
      ∧ (s.station = .offline → t.port.result = .ok ∧ t = { s with
          port := t.port, station := .listening, rx := { state := .sync, hold := [], gap := some 0 }, line := .busy,
          lineGap := some 0, failCount := 0 })
      ∧ (s.station = .lineFault → t.port.result = .ok ∧ t = { s with
          port := t.port, station := .listening, failCount := 0,
          quiet := if s.line = .idle then some 704 else none })
      ∧ (s.station = .listening ∨ s.station = .online →
          t.port.result = .refusedState ∧ t = { s with port := t.port })

/-- GO_OFFLINE ends every live entry with cause OFFLINE in ascending order, each losing a completion it had still to
take, returns an ENDED entry's chosen or sent ACK to owed, stops the transmitter, empties the replies and takes the
line blocks to their OFFLINE values. The receiver's time since the last character is then none (the model's choice:
notes/assumptions/22.md). -/
def Obligations.GoOfflineEndsEveryLiveEntry : Prop :=
  ∀ s : State, s.held = false →
    ∃ t, exec (.goOffline [] false) s = .next t
      ∧ t = { s with
          port := t.port, entries := t.entries, poolFree := t.poolFree, items := t.items, noticeQueue := t.noticeQueue,
          station := .offline, tx := .free, handover := t.handover, replies := [],
          rx := { state := .off, hold := [], gap := none },
          line := .busy, lineGap := none, round := .contention, failCount := 0, quiet := none }
      ∧ t.port.result = .ok
      ∧ (∀ i, (s.entry i).live = true →
          t.entry i = { s.entry i with
            state := .ended, timer := .stopped, cause := some .offline,
            prod := { (s.entry i).prod with ring := [], subs := [], holdDue := false },
            cons := { (s.entry i).cons with joinDue := false, ack := .clear } }
          ∧ t.item (itemOf i) = { s.item (itemOf i) with
            kinds := (s.item (itemOf i)).kinds ||| 0x20#8, cause := some .offline })
      ∧ (∀ i, (s.entry i).live = false →
          t.entry i = { s.entry i with cons := { (s.entry i).cons with
            ack := if ackOnHand s.tx = some i then undone (s.entry i).cons.ack else (s.entry i).cons.ack } }
          ∧ t.item (itemOf i) = s.item (itemOf i))
      ∧ ((∃ f i, s.handover = some f ∧ ownerOf f = some i ∧ (s.entry i).live = true) → t.handover = none)
      ∧ (¬(∃ f i, s.handover = some f ∧ ownerOf f = some i ∧ (s.entry i).live = true) → t.handover = s.handover)
      ∧ t.item stationItem = s.item stationItem
      ∧ t.noticeQueue = s.noticeQueue
          ++ (allEntries.filter (fun i => (s.entry i).live && (s.item (itemOf i)).kinds == 0#8)).map itemOf
      ∧ t.poolFree = s.poolFree
          + ((allEntries.filter (fun i => (s.entry i).live)).map (fun i => (s.entry i).prod.subs.length)).sum

/-! ## Entry commands -/

/-- An open command is checked in the order of R13, the first failing check decides the result code, and a refused
command changes nothing but the port; when every check passes the entry is opened. -/
def Obligations.OpenCommandsAreCheckedInOrder : Prop :=
  ∀ (s : State) (mode : Option Byte) (e st bh bl sl p fh fl th : Byte), s.held = false → tableSafe s →
    ∃ t, exec (openCommand mode e st bh bl sl p fh fl th) s = .next t
      ∧ t = { s with entries := t.entries, port := t.port }
      ∧ (11 < e.toNat → t.port.result = .badEntry ∧ t.entries = s.entries)
      ∧ ∀ i : EntryIdx, e.toNat = i.val →
        let shut := s.station = .offline ∨ (s.entry i).state ≠ .free
        let fits := paramsInRange mode st.toNat (word16 bh bl) sl.toNat p.toNat th.toNat
        let inUse := streamTaken s st.toNat
        let overlap := bytesTaken s (word16 bh bl) (sl.toNat * p.toNat)
        (shut → t.port.result = .refusedState ∧ t.entries = s.entries)
        ∧ (¬shut → ¬fits → t.port.result = .badParameter ∧ t.entries = s.entries)
        ∧ (¬shut → fits → inUse → t.port.result = .streamInUse ∧ t.entries = s.entries)
        ∧ (¬shut → fits → ¬inUse → overlap → t.port.result = .overlap ∧ t.entries = s.entries)
        ∧ (¬shut → fits → ¬inUse → ¬overlap → t.port.result = .ok
            ∧ (t.entry i).state = (if mode = none then .producing else .joining) ∧ otherEntries s t i)

/-- An accepted OPEN_PRODUCE leaves the fields of R18 and R6, an accepted OPEN_CONSUME those of R19 and R7; no other
entry changes. -/
def Obligations.OpenedEntriesHoldTheirOpeningValues : Prop :=
  ∀ (s : State) (i : EntryIdx) (e st bh bl sl p fh fl th : Byte) (mode : Option Byte),
    s.held = false → tableSafe s → e.toNat = i.val → s.station ≠ .offline → (s.entry i).state = .free →
    paramsInRange mode st.toNat (word16 bh bl) sl.toNat p.toNat th.toNat → ¬streamTaken s st.toNat →
    ¬bytesTaken s (word16 bh bl) (sl.toNat * p.toNat) →
    ∃ t, exec (openCommand mode e st bh bl sl p fh fl th) s = .next t
      ∧ t = { s with entries := t.entries, port := t.port } ∧ t.port.result = .ok ∧ otherEntries s t i
      ∧ (t.entry i).stream = st.setWidth 6 ∧ (t.entry i).base = word16 bh bl ∧ (t.entry i).slots = sl.toNat
      ∧ (t.entry i).size = p.toNat ∧ (t.entry i).count = word16 fh fl ∧ (t.entry i).remaining = word16 fh fl
      ∧ (t.entry i).threshold = th.toNat ∧ (t.entry i).cause = none
      ∧ (mode = none →
          (t.entry i).state = .producing ∧ (t.entry i).role = some .producer ∧ (t.entry i).mode = .advance
          ∧ (t.entry i).timer = .running s.params.tHold
          ∧ (t.entry i).prod = { nextSeq := 0, sendIdx := 0, filled := 0, ring := [], endPending := .clear,
                                 subs := [], holdDue := false }
          ∧ (t.entry i).fillIdx = 0 ∧ freeSlotsOf (t.entry i) = sl.toNat)
      ∧ (∀ m, mode = some m →
          (t.entry i).state = .joining ∧ (t.entry i).role = some .consumer
          ∧ (t.entry i).mode = (if m.toNat = 1 then .fixed else .advance) ∧ (t.entry i).timer = .stopped
          ∧ (t.entry i).cons = { producer := none, expected := 0, writeIdx := 0, readIdx := 0, held := 0,
                                 joinAttempts := 0, joinDue := true, ack := .clear, lastSeq := none, endMark := false })

/-- POST: its four checks in order, then filled, the fill index, remaining and end pending as R28 gives. -/
def Obligations.PostFollowsItsChecks : Prop :=
  ∀ (s : State) (index n : Byte), s.held = false →
    ∃ t, exec (.post [index, n] false) s = .next t ∧ t = { s with entries := t.entries, port := t.port }
      ∧ (11 < index.toNat → t.port.result = .badEntry ∧ t.entries = s.entries)
      ∧ ∀ i : EntryIdx, index.toNat = i.val →
        let e := s.entry i
        let bad := n.toNat = 0 ∨ e.count ≠ 0 ∧ e.remaining < n.toNat
        (e.state ≠ .producing → t.port.result = .refusedState ∧ t.entries = s.entries)
        ∧ (e.state = .producing → bad → t.port.result = .badParameter ∧ t.entries = s.entries)
        ∧ (e.state = .producing → ¬bad → freeSlotsOf e < n.toNat → t.port.result = .noSpace ∧ t.entries = s.entries)
        ∧ (e.state = .producing → ¬bad → n.toNat ≤ freeSlotsOf e → t.port.result = .ok ∧ otherEntries s t i
            ∧ t.entry i = { e with
                remaining := if e.count = 0 then e.remaining else e.remaining - n.toNat,
                prod := { e.prod with
                  filled := e.prod.filled + n.toNat,
                  endPending := if e.count ≠ 0 ∧ e.remaining = n.toNat ∧ e.prod.endPending = .clear then .byCount
                    else e.prod.endPending } }
            ∧ (t.entry i).fillIdx = (e.fillIdx + n.toNat) % e.slots)

/-- RELEASE: its three checks in order, then held, read index and, for a credit that rises from 0 in RECEIVING, an
ack-owing event; buffer memory is not changed. -/
def Obligations.ReleaseFollowsItsChecks : Prop :=
  ∀ (s : State) (index n : Byte), s.held = false →
    ∃ t, exec (.release [index, n] false) s = .next t ∧ t = { s with entries := t.entries, port := t.port }
      ∧ (11 < index.toNat → t.port.result = .badEntry ∧ t.entries = s.entries)
      ∧ ∀ i : EntryIdx, index.toNat = i.val →
        let e := s.entry i
        let shut := ¬(e.role = some .consumer ∧ (e.state = .receiving ∨ e.state = .leaving ∨ e.state = .ended))
          ∨ e.mode = .fixed
        let bad := n.toNat = 0 ∨ e.cons.held < n.toNat
        (shut → t.port.result = .refusedState ∧ t.entries = s.entries)
        ∧ (¬shut → bad → t.port.result = .badParameter ∧ t.entries = s.entries)
        ∧ (¬shut → ¬bad → t.port.result = .ok ∧ otherEntries s t i
            ∧ t.entry i = { e with cons := { e.cons with
                held := e.cons.held - n.toNat,
                readIdx := (e.cons.readIdx + n.toNat) % e.slots,
                ack := if e.state = .receiving ∧ min 4 (e.slots - e.cons.held) = 0 then owing e.cons.ack
                  else e.cons.ack } })

/-- CLOSE: a producer in PRODUCING moves to CLOSING with end pending set; a consumer in JOINING or RECEIVING moves to
LEAVING with the stored cause CLOSED, its timer stopped and its JOIN withdrawn; every other state is refused. -/
def Obligations.CloseMovesToClosingOrLeaving : Prop :=
  ∀ (s : State) (index : Byte), s.held = false →
    ∃ t, exec (.close [index] false) s = .next t ∧ t = { s with entries := t.entries, tx := t.tx, port := t.port }
      ∧ (11 < index.toNat → t.port.result = .badEntry ∧ t = { s with port := t.port })
      ∧ ∀ i : EntryIdx, index.toNat = i.val →
        let e := s.entry i
        (e.state = .producing → t.port.result = .ok ∧ t.tx = s.tx ∧ otherEntries s t i
          ∧ t.entry i = { e with
              state := .closing,
              prod := { e.prod with
                endPending := if e.prod.endPending = .clear then .byClose else e.prod.endPending } })
        ∧ (e.state = .joining ∨ e.state = .receiving → t.port.result = .ok ∧ otherEntries s t i
          ∧ t.entry i = { e with
              state := .leaving, timer := .stopped, cause := some .closed,
              cons := { e.cons with joinDue := false } }
          ∧ (∀ st k p g, s.tx = .chosen (.join i st k p) g → t.tx = .free)
          ∧ ((∀ st k p g, s.tx ≠ Tx.chosen (TxFrame.join i st k p) g) → t.tx = s.tx))
        ∧ (e.state ≠ .producing → e.state ≠ .joining → e.state ≠ .receiving →
          t.port.result = .refusedState ∧ t = { s with port := t.port })

/-- ABORT ends a live entry with cause ABORTED and is refused for a FREE or ENDED one. FREE returns an ENDED entry to
the FREE values, withdraws its notice item and its frame, keeps buffer memory, and is refused in every other state. -/
def Obligations.AbortEndsAndFreeReturnsAnEntry : Prop :=
  ∀ (s : State) (index : Byte), s.held = false →
    (∃ t, exec (.abort [index] false) s = .next t
      ∧ t = { s with entries := t.entries, poolFree := t.poolFree, tx := t.tx, handover := t.handover, items := t.items,
                     noticeQueue := t.noticeQueue, port := t.port }
      ∧ (11 < index.toNat → t.port.result = .badEntry ∧ t = { s with port := t.port })
      ∧ ∀ i : EntryIdx, index.toNat = i.val →
        ((s.entry i).state ≠ .free → (s.entry i).state ≠ .ended → t.port.result = .ok ∧ endsAs s t i .aborted)
        ∧ ((s.entry i).state = .free ∨ (s.entry i).state = .ended →
            t.port.result = .refusedState ∧ t = { s with port := t.port }))
    ∧ ∃ t, exec (.free [index] false) s = .next t
      ∧ t = { s with entries := t.entries, tx := t.tx, handover := t.handover, items := t.items,
                     noticeQueue := t.noticeQueue, port := t.port }
      ∧ (11 < index.toNat → t.port.result = .badEntry ∧ t = { s with port := t.port })
      ∧ ∀ i : EntryIdx, index.toNat = i.val →
        ((s.entry i).state = .ended → t.port.result = .ok ∧ otherEntries s t i
          ∧ t.entry i = { state := .free, role := none, stream := 0, base := 0, slots := 0, size := 0, mode := .advance,
                          count := 0, remaining := 0, threshold := 0, timer := .stopped, cause := none,
                          prod := {}, cons := {} }
          ∧ t.item (itemOf i) = {} ∧ (∀ k, k ≠ itemOf i → t.item k = s.item k)
          ∧ t.noticeQueue = s.noticeQueue.filter (fun k => k ≠ itemOf i)
          ∧ t.tx = withoutOwner s.tx i
          ∧ t.handover = if ∃ f, s.handover = some f ∧ ownerOf f = some i then none else s.handover)
        ∧ ((s.entry i).state ≠ .ended → t.port.result = .refusedState ∧ t = { s with port := t.port })

/-! ## Timers -/

/-- The ack timer's expiry, at 0, takes the four steps of R45: misses and evictions, a retirement run, and for what
remains the go-back or the hold timer. Retirement withdraws a chosen resend of a retired record (DEDUCED:
notes/assumptions/24.md). That with N = 1 a subscriber is evicted here although its ACK has just been taken is the model's
choice between R45 with R73 and R75 (notes/assumptions/28.md). -/
def Obligations.AckExpiryCountsRetiresAndGoesBack : Prop :=
  ∀ (s : State) (i : EntryIdx) (oldest : FrameRec) (rest : List FrameRec),
    s.held = false → s.station = .online → (s.entry i).timer = .running 0 →
    (s.entry i).state = .producing ∨ (s.entry i).state = .closing →
    (s.entry i).prod.ring = oldest :: rest → (∀ r ∈ (s.entry i).prod.ring, r.queued = false) →
    ∃ m1 m2 t, exec (.ackTimerExpiry i) s = .next t
      ∧ missesCounted s m1 i (fun r => inSet r.station oldest.owed)
      ∧ retirementRun m1 m2 i
      ∧ ((m2.entry i).state = .ended → t = m2)
      ∧ ((m2.entry i).state ≠ .ended → t = { m2 with entries := t.entries } ∧ otherEntries m2 t i
          ∧ ((m2.entry i).prod.ring = [] → t.entry i = { m2.entry i with timer := .running s.params.tHold })
          ∧ ((m2.entry i).prod.ring ≠ [] → t.entry i = { m2.entry i with
              timer := .stopped,
              prod := { (m2.entry i).prod with
                ring := (m2.entry i).prod.ring.map (fun r => { r with queued := true }) } }))

/-- At 0 and while ONLINE the hold timer's expiry leaves no deadline and makes a HOLD due, and the silence timer's
expiry ends the entry PRODUCER_LOST; with time left, stopped by an earlier event, or off ONLINE no timer of an entry
expires (that such an event has no effect is the model's choice: notes/assumptions/5.md). -/
def Obligations.HoldAndSilenceTimersExpire : Prop :=
  ∀ (s : State) (i : EntryIdx), s.held = false →
    let now := s.station = .online ∧ (s.entry i).timer = .running 0
    (now → (s.entry i).state = .producing ∨ (s.entry i).state = .closing → (s.entry i).prod.ring = [] →
      ∃ t, exec (.holdTimerExpiry i) s = .next t ∧ t = { s with entries := t.entries } ∧ otherEntries s t i
        ∧ t.entry i = { s.entry i with timer := .stopped, prod := { (s.entry i).prod with holdDue := true } })
    ∧ (now → (s.entry i).state = .receiving →
      ∃ t, exec (.silenceTimerExpiry i) s = .next t ∧ endsAs s t i .producerLost
        ∧ t = { s with entries := t.entries, poolFree := t.poolFree, items := t.items, noticeQueue := t.noticeQueue,
                       tx := t.tx, handover := t.handover })
    ∧ (¬now → exec (.ackTimerExpiry i) s = .next s ∧ exec (.holdTimerExpiry i) s = .next s
        ∧ exec (.joinTimerExpiry i) s = .next s ∧ exec (.silenceTimerExpiry i) s = .next s)

/-- The join timer's expiry, at 0, ends the entry NO_PRODUCER when join attempts equals N; below N it makes a JOIN due
again and leaves the timer stopped; outside ONLINE the timer is frozen and does not expire (that such an event has no
effect is the model's choice: notes/assumptions/5.md). -/
def Obligations.JoinExpiryRetriesUpToN : Prop :=
  ∀ (s : State) (i : EntryIdx), s.held = false → (s.entry i).state = .joining →
    (s.entry i).timer = .running 0 →
    (s.station = .online → (s.entry i).cons.joinAttempts = s.params.n →
      ∃ t, exec (.joinTimerExpiry i) s = .next t ∧ endsAs s t i .noProducer
        ∧ t = { s with entries := t.entries, poolFree := t.poolFree, items := t.items, noticeQueue := t.noticeQueue,
                       tx := t.tx, handover := t.handover })
    ∧ (s.station = .online → (s.entry i).cons.joinAttempts < s.params.n →
      ∃ t, exec (.joinTimerExpiry i) s = .next t ∧ t = { s with entries := t.entries } ∧ otherEntries s t i
        ∧ t.entry i = { s.entry i with timer := .stopped, cons := { (s.entry i).cons with joinDue := true } })
    ∧ (s.station ≠ .online → exec (.joinTimerExpiry i) s = .next s)

/-- The quiet timer's expiry, at 0, takes a LISTENING station ONLINE with no round and raises ONLINE in item 12;
stopped or with time left it does not expire (that such an event has no effect is the model's choice:
notes/assumptions/5.md). -/
def Obligations.QuietExpiryGoesOnline : Prop :=
  ∀ s : State, s.held = false →
    (s.station = .listening → s.quiet = some 0 →
      ∃ t, exec .quietTimerExpiry s = .next t
        ∧ t = { s with station := .online, quiet := none, round := .contention, items := t.items,
                       noticeQueue := t.noticeQueue }
        ∧ itemRaised s t stationItem { s.item stationItem with kinds := (s.item stationItem).kinds ||| 0x40#8 })
    ∧ (s.quiet ≠ some 0 → exec .quietTimerExpiry s = .next s)

/-! ## Frames -/

/-- A complete frame that waits in the receiver is dispatched before another one, and only once; a receiver that takes
no frames takes none, and a frame that is malformed or addressed elsewhere changes nothing. That a frame event carries
its frame is the model's choice (notes/assumptions/4.md). -/
def Obligations.FramesAreDispatchedInOrder : Prop :=
  ∀ (s : State) (f : Frame), s.held = false →
    (s.rx.taking = false → exec (frameRow f) s = .next s)
    ∧ (s.rx.taking = true → s.rx.ready = none → s.hears f = false → exec (frameRow f) s = .next s)
    ∧ (s.rx.ready = some f → s.hears f = true →
        exec (frameRow f) s = exec (frameRow f) { s with rx := { s.rx with hold := [] } })
    ∧ (∀ g, s.rx.ready = some g → g ≠ f →
        ∃ t, exec (frameRow g) s = .next t ∧ exec (frameRow f) s = exec (frameRow f) t)

/-- A frame with no owner in its row of 6.8 is dropped: no entry of the stream, an ACK, JOIN or LEAVE at a consumer, a
REFUSE at a producer, or any frame at an ENDED producer. -/
def Obligations.FramesWithoutAnOwnerAreDropped : Prop :=
  ∀ (s : State) (f : Frame), s.held = false → s.rx.ready = none →
    ((∀ j, (s.entry j).state = .free ∨ (s.entry j).stream ≠ frameStream f) → exec (frameRow f) s = .next s)
    ∧ ∀ i, reaches s f i →
        ((s.entry i).role = some .producer → (s.entry i).state = .ended → exec (frameRow f) s = .next s)
        ∧ ((s.entry i).role = some .producer → (∃ n st d r, f = .refuse n st d r) → exec (frameRow f) s = .next s)
        ∧ ((s.entry i).role = some .consumer → (∃ n st d a k, f = .ack n st d a k) → exec (frameRow f) s = .next s)
        ∧ ((s.entry i).role = some .consumer → (∃ n st k p, f = .join n st k p) → exec (frameRow f) s = .next s)
        ∧ ((s.entry i).role = some .consumer → (∃ n st, f = .leave n st) → exec (frameRow f) s = .next s)

/-- DATA in order from the producer is accepted: a full-size frame is copied into the slot at write index (ADVANCE,
with room) or over the one slot (FIXED), and no other byte changes; expected, held, last accepted seq, remaining and
the ack owed flag move on; DATA_READY is raised at the threshold (ADVANCE) or always (FIXED); a counted stream's last
frame without END takes the entry to LEAVING. -/
def Obligations.DataInOrderIsAccepted : Prop :=
  ∀ (s : State) (i : EntryIdx) (n : Station) (st : StreamNo) (q : Seq) (fin : Bool) (payload : List Byte),
    reaches s (.data n st q fin payload) i → memorySafe s → (s.entry i).role = some .consumer →
    (s.entry i).state = .receiving → (s.entry i).cons.producer = some n → (s.entry i).cons.endMark = false →
    q = (s.entry i).cons.expected → payload.length = (s.entry i).size →
    ((s.entry i).mode = .advance → (s.entry i).cons.held < (s.entry i).slots) →
    let e := s.entry i
    let slot := if e.mode = .advance then e.cons.writeIdx else 0
    let first := e.base + slot * e.size
    let left := if e.count = 0 then e.remaining else e.remaining - 1
    let leaves := e.count ≠ 0 ∧ left = 0 ∧ fin = false
    ∃ t, exec (.dataFrame n st q fin payload) s = .next t
      ∧ t = { s with mem := t.mem, entries := t.entries, items := t.items, noticeQueue := t.noticeQueue }
      ∧ (∀ (j : Nat) (hj : j < payload.length), Memory.read t.mem ((first + j) % 8192) = payload[j])
      ∧ (∀ a, (∀ j < payload.length, a ≠ (first + j) % 8192) → Memory.read t.mem a = Memory.read s.mem a)
      ∧ otherEntries s t i
      ∧ t.entry i = { e with
          state := if leaves then .leaving else .receiving,
          timer := if leaves then .stopped else .running (s.params.tHold * (s.params.n + 2)),
          remaining := left,
          cause := if leaves then some .countDone else e.cause,
          cons := { e.cons with
            writeIdx := if e.mode = .advance then (e.cons.writeIdx + 1) % e.slots else e.cons.writeIdx,
            held := if e.mode = .advance then e.cons.held + 1 else e.cons.held,
            expected := e.cons.expected + 1,
            lastSeq := some q,
            endMark := fin,
            ack := owing e.cons.ack,
            joinDue := if leaves then false else e.cons.joinDue } }
      ∧ (e.mode = .fixed ∨ e.cons.held + 1 = e.threshold →
          itemRaised s t (itemOf i) { s.item (itemOf i) with kinds := (s.item (itemOf i)).kinds ||| 0x08#8 })
      ∧ (¬(e.mode = .fixed ∨ e.cons.held + 1 = e.threshold) → t.items = s.items ∧ t.noticeQueue = s.noticeQueue)

/-- DATA that an entry in RECEIVING does not take as a full-size acceptance: a zero-length END in order is accepted
without a copy; in order and full, behind and ahead owe an ACK and restart the silence timer; stale, wrong-length and
foreign frames, and any frame in JOINING, change nothing. -/
def Obligations.DataOutOfOrderIsAnsweredOrIgnored : Prop :=
  ∀ (s : State) (i : EntryIdx) (n : Station) (st : StreamNo) (q : Seq) (fin : Bool) (payload : List Byte),
    reaches s (.data n st q fin payload) i → (s.entry i).role = some .consumer →
    let e := s.entry i
    let d := (q - e.cons.expected).toNat
    let full := payload.length = e.size
    let zeroEnd := payload.length = 0 ∧ fin = true
    let silence := Timer.running (s.params.tHold * (s.params.n + 2))
    (e.state = .joining ∨ e.cons.producer ≠ some n → exec (.dataFrame n st q fin payload) s = .next s)
    ∧ (e.state = .receiving → e.cons.producer = some n → ¬full ∧ ¬zeroEnd ∨ 5 ≤ d ∧ d ≤ 251 →
        exec (.dataFrame n st q fin payload) s = .next s)
    ∧ (e.state = .receiving → e.cons.producer = some n → e.cons.endMark = false → ¬full → zeroEnd → d = 0 →
        ∃ t, exec (.dataFrame n st q fin payload) s = .next t ∧ t = { s with entries := t.entries }
          ∧ otherEntries s t i
          ∧ t.entry i = { e with
              timer := silence,
              cons := { e.cons with
                expected := e.cons.expected + 1, lastSeq := some q, endMark := true, ack := owing e.cons.ack } })
    ∧ (e.state = .receiving → e.cons.producer = some n → e.cons.endMark = false →
        (d = 0 ∧ full ∧ e.mode = .advance ∧ e.slots ≤ e.cons.held
          ∨ (full ∨ zeroEnd) ∧ (1 ≤ d ∧ d ≤ 4 ∨ 252 ≤ d)) →
        ∃ t, exec (.dataFrame n st q fin payload) s = .next t ∧ t = { s with entries := t.entries }
          ∧ otherEntries s t i
          ∧ t.entry i = { e with timer := silence, cons := { e.cons with ack := owing e.cons.ack } })

/-- DATA after END was accepted, and at a LEAVING or ENDED entry: only the last accepted seq from the producer owes an
ACK (in ENDED only with cause BY_PRODUCER or COUNT_DONE), and nothing else moves but, in RECEIVING, the silence timer.
In LEAVING and ENDED the length of the frame is not looked at (DEDUCED: notes/assumptions/15.md). -/
def Obligations.DataAfterTheLastFrameLingers : Prop :=
  ∀ (s : State) (i : EntryIdx) (n : Station) (st : StreamNo) (q : Seq) (fin : Bool) (payload : List Byte),
    reaches s (.data n st q fin payload) i → (s.entry i).role = some .consumer →
    (s.entry i).cons.producer = some n →
    let e := s.entry i
    let d := (q - e.cons.expected).toNat
    let lingers := e.state = .leaving ∨ e.state = .ended ∧ (e.cause = some .byProducer ∨ e.cause = some .countDone)
    (e.state = .receiving → e.cons.endMark = true →
        (payload.length = e.size ∨ payload.length = 0 ∧ fin = true) → (d ≤ 4 ∨ 252 ≤ d) →
        ∃ t, exec (.dataFrame n st q fin payload) s = .next t ∧ t = { s with entries := t.entries }
          ∧ otherEntries s t i
          ∧ t.entry i = { e with
              timer := .running (s.params.tHold * (s.params.n + 2)),
              cons := { e.cons with ack := if e.cons.lastSeq = some q then owing e.cons.ack else e.cons.ack } })
    ∧ (lingers → e.cons.lastSeq = some q →
        ∃ t, exec (.dataFrame n st q fin payload) s = .next t ∧ t = { s with entries := t.entries }
          ∧ otherEntries s t i ∧ t.entry i = { e with cons := { e.cons with ack := owing e.cons.ack } })
    ∧ (e.state = .leaving ∨ e.state = .ended → ¬(lingers ∧ e.cons.lastSeq = some q) →
        exec (.dataFrame n st q fin payload) s = .next s)

/-- DATA, HOLD or ACCEPT for its stream ends a producer in PRODUCING or CLOSING with cause CONFLICT. -/
def Obligations.ForeignProducerCausesConflict : Prop :=
  ∀ (s : State) (i : EntryIdx) (f : Frame), reaches s f i → (s.entry i).role = some .producer →
    (s.entry i).state = .producing ∨ (s.entry i).state = .closing →
    (match f with | .data _ _ _ _ _ => True | .hold _ _ _ => True | .accept _ _ _ _ _ => True | _ => False) →
    ∃ t, exec (frameRow f) s = .next t ∧ endsAs s t i .conflict
      ∧ t = { s with entries := t.entries, poolFree := t.poolFree, items := t.items, noticeQueue := t.noticeQueue,
                     tx := t.tx, handover := t.handover }

/-- A HOLD that is not stale from the producer restarts the silence timer of an entry in RECEIVING and owes an ACK,
except while the END mark is set; a stale one, one from another station, and one in any other state change nothing. -/
def Obligations.HoldDrawsAnAckInReceiving : Prop :=
  ∀ (s : State) (i : EntryIdx) (n : Station) (st : StreamNo) (next : Seq),
    reaches s (.hold n st next) i → (s.entry i).role = some .consumer →
    let e := s.entry i
    let d := (next - e.cons.expected).toNat
    let taken := e.state = .receiving ∧ e.cons.producer = some n ∧ (d ≤ 4 ∨ 252 ≤ d)
    (taken → ∃ t, exec (.holdFrame n st next) s = .next t ∧ t = { s with entries := t.entries } ∧ otherEntries s t i
        ∧ t.entry i = { e with
            timer := .running (s.params.tHold * (s.params.n + 2)),
            cons := { e.cons with ack := if e.cons.endMark = true then e.cons.ack else owing e.cons.ack } })
    ∧ (¬taken → exec (.holdFrame n st next) s = .next s)

/-- An ACK from a station that is no subscriber places REFUSE NOT_SUBSCRIBED and changes no field of the entry; a
stale ACK from a subscriber sets missed to 0 and heard to true and changes nothing else. -/
def Obligations.StrangeAndStaleAcks : Prop :=
  ∀ (s : State) (i : EntryIdx) (n : Station) (st : StreamNo) (d : Station) (a : Seq) (k : Nat),
    reaches s (.ack n st d a k) i → (s.entry i).role = some .producer →
    (s.entry i).state = .producing ∨ (s.entry i).state = .closing →
    ((∀ r ∈ (s.entry i).prod.subs, r.station ≠ n) →
      exec (.ackFrame n st d a k) s = .next { s with replies := placeReply s.replies n st (.refuse .notSubscribed) })
    ∧ (∀ r ∈ (s.entry i).prod.subs, r.station = n →
        ((s.entry i).prod.subs.map (fun r => r.station)).Nodup →
        ((s.entry i).prod.nextSeq - 1 - r.acked).toNat < (a - r.acked).toNat →
        ∃ t, exec (.ackFrame n st d a k) s = .next t ∧ t = { s with entries := t.entries } ∧ otherEntries s t i
          ∧ t.entry i = { s.entry i with prod := { (s.entry i).prod with
              subs := (s.entry i).prod.subs.map (fun r =>
                if r.station = n then { r with missed := 0, heard := true } else r) } })

/-- A valid ACK sets acked, credit, missed and heard, takes the station out of the owed set of every record from the
oldest through the acknowledged one (of none, if no record has that sequence: notes/assumptions/6.md), and runs
retirement, which withdraws a chosen resend of a retired record (DEDUCED: notes/assumptions/24.md). -/
def Obligations.ValidAckRunsRetirement : Prop :=
  ∀ (s : State) (i : EntryIdx) (n : Station) (st : StreamNo) (d : Station) (a : Seq) (k : Nat) (r : SubRec),
    reaches s (.ack n st d a k) i → (s.entry i).role = some .producer →
    (s.entry i).state = .producing ∨ (s.entry i).state = .closing →
    r ∈ (s.entry i).prod.subs → r.station = n → ((s.entry i).prod.subs.map (fun r => r.station)).Nodup →
    (a - r.acked).toNat ≤ ((s.entry i).prod.nextSeq - 1 - r.acked).toNat →
    let p := (s.entry i).prod
    let oldest := (p.ring.head?.map (fun r => r.seq)).getD 0#8
    let m := s.setEntry i { s.entry i with prod := { p with
      subs := p.subs.map (fun r =>
        if r.station = n then { r with acked := a, credit := k, missed := 0, heard := true } else r),
      ring := p.ring.map (fun r =>
        if (∃ q ∈ p.ring, q.seq = a) ∧ (r.seq - oldest).toNat ≤ (a - oldest).toNat
        then { r with owed := r.owed &&& ~~~stationBit n } else r) } }
    ∃ t, exec (.ackFrame n st d a k) s = .next t ∧ retirementRun m t i

/-- A JOIN at a producer entry is answered by the first row of R62's table that applies. -/
def Obligations.JoinIsAnsweredByTheFirstRow : Prop :=
  ∀ (s : State) (i : EntryIdx) (n : Station) (st : StreamNo) (k size : Nat),
    reaches s (.join n st k size) i → (s.entry i).role = some .producer →
    ((s.entry i).prod.subs.map (fun r => r.station)).Nodup →
    let e := s.entry i
    let answer := fun (b : ReplyBody) => placeReply s.replies n st b
    let known := ∃ r ∈ e.prod.subs, r.station = n
    (e.state = .ended ∨ n = s.stationNo → exec (.joinFrame n st k size) s = .next s)
    ∧ (e.state = .closing → n ≠ s.stationNo →
        exec (.joinFrame n st k size) s = .next { s with replies := answer (.refuse .closing) })
    ∧ (e.state = .producing → n ≠ s.stationNo → size ≠ e.size →
        exec (.joinFrame n st k size) s = .next { s with replies := answer (.refuse .size) })
    ∧ (∀ r ∈ e.prod.subs, r.station = n → e.state = .producing → n ≠ s.stationNo → size = e.size →
        ∃ t, exec (.joinFrame n st k size) s = .next t
          ∧ t = { s with entries := t.entries, replies := answer (.accept (r.acked + 1) e.size) }
          ∧ otherEntries s t i
          ∧ t.entry i = { e with prod := { e.prod with subs := e.prod.subs.map (fun r =>
              if r.station = n then { r with credit := k, heard := true } else r) } })
    ∧ (e.state = .producing → n ≠ s.stationNo → size = e.size → ¬known → s.poolFree = 0 →
        exec (.joinFrame n st k size) s = .next { s with replies := answer (.refuse .full) })
    ∧ (e.state = .producing → n ≠ s.stationNo → size = e.size → ¬known → 0 < s.poolFree →
        ∃ t, exec (.joinFrame n st k size) s = .next t
          ∧ t = { s with entries := t.entries, poolFree := s.poolFree - 1, items := t.items,
                         noticeQueue := t.noticeQueue, replies := answer (.accept e.prod.nextSeq e.size) }
          ∧ otherEntries s t i
          ∧ t.entry i = { e with prod := { e.prod with subs := e.prod.subs ++
              [{ station := n, acked := e.prod.nextSeq - 1, credit := k, missed := 0, heard := true }] } }
          ∧ itemRaised s t (itemOf i) { s.item (itemOf i) with
              kinds := (s.item (itemOf i)).kinds ||| 0x01#8,
              joined := (s.item (itemOf i)).joined ||| stationBit n })

/-- A reply with the same destination and stream is replaced in place and its in-service mark cleared (R160, against
the words of R159: notes/assumptions/7.md), whatever the length; else it joins the tail of fewer than 8 replies; else
it is dropped. -/
def Obligations.RepliesReplaceJoinOrDrop : Prop :=
  ∀ (q : List Reply) (n : Station) (st : StreamNo) (b : ReplyBody),
    ((∃ r ∈ q, r.dest = n ∧ r.stream = st) → (placeReply q n st b).length = q.length
      ∧ ∀ (j : Nat) (hj : j < q.length) (hj' : j < (placeReply q n st b).length), (placeReply q n st b)[j] =
          if q[j].dest = n ∧ q[j].stream = st then { dest := n, stream := st, body := b, inService := false } else q[j])
    ∧ ((∀ r ∈ q, ¬(r.dest = n ∧ r.stream = st)) → q.length < 8 →
        placeReply q n st b = q ++ [{ dest := n, stream := st, body := b, inService := false }])
    ∧ ((∀ r ∈ q, ¬(r.dest = n ∧ r.stream = st)) → 8 ≤ q.length → placeReply q n st b = q)

/-- An ACCEPT with the entry's P binds an entry in JOINING to its source: RECEIVING, the start sequence expected, the
silence timer started, the JOIN withdrawn and JOINED raised; any other ACCEPT at a consumer changes nothing. -/
def Obligations.AcceptBindsAJoiningEntry : Prop :=
  ∀ (s : State) (i : EntryIdx) (n : Station) (st : StreamNo) (d : Station) (start : Seq) (size : Nat),
    reaches s (.accept n st d start size) i → (s.entry i).role = some .consumer →
    let e := s.entry i
    (e.state = .joining → size = e.size →
      ∃ t, exec (.acceptFrame n st d start size) s = .next t
        ∧ t = { s with entries := t.entries, tx := t.tx, items := t.items, noticeQueue := t.noticeQueue }
        ∧ otherEntries s t i
        ∧ t.entry i = { e with
            state := .receiving,
            timer := .running (s.params.tHold * (s.params.n + 2)),
            cons := { e.cons with producer := some n, expected := start, joinDue := false } }
        ∧ (∀ js k p g, s.tx = .chosen (.join i js k p) g → t.tx = .free)
        ∧ ((∀ js k p g, s.tx ≠ Tx.chosen (TxFrame.join i js k p) g) → t.tx = s.tx)
        ∧ itemRaised s t (itemOf i) { s.item (itemOf i) with
            kinds := (s.item (itemOf i)).kinds ||| 0x01#8,
            joined := (s.item (itemOf i)).joined ||| stationBit n })
    ∧ (e.state ≠ .joining ∨ size ≠ e.size → exec (.acceptFrame n st d start size) s = .next s)

/-- A REFUSE ends an entry in JOINING with the cause of its reason, and NOT_SUBSCRIBED from the recorded producer ends
one in RECEIVING with cause EVICTED; every other REFUSE at a consumer changes nothing. -/
def Obligations.RefuseEndsAConsumer : Prop :=
  ∀ (s : State) (i : EntryIdx) (n : Station) (st : StreamNo) (d : Station) (reason : Reason),
    reaches s (.refuse n st d reason) i → (s.entry i).role = some .consumer →
    let e := s.entry i
    let evicts := e.state = .receiving ∧ reason = .notSubscribed ∧ e.cons.producer = some n
    (∀ c, e.state = .joining →
        (reason = .full ∧ c = .refusedFull ∨ reason = .closing ∧ c = .refusedClosing
          ∨ reason = .size ∧ c = .sizeMismatch) →
        ∃ t, exec (.refuseFrame n st d reason) s = .next t ∧ endsAs s t i c
          ∧ t = { s with entries := t.entries, poolFree := t.poolFree, items := t.items, noticeQueue := t.noticeQueue,
                         tx := t.tx, handover := t.handover })
    ∧ (evicts → ∃ t, exec (.refuseFrame n st d reason) s = .next t ∧ endsAs s t i .evicted
          ∧ t = { s with entries := t.entries, poolFree := t.poolFree, items := t.items, noticeQueue := t.noticeQueue,
                         tx := t.tx, handover := t.handover })
    ∧ (¬(e.state = .joining ∧ reason ≠ .notSubscribed) → ¬evicts → exec (.refuseFrame n st d reason) s = .next s)

/-- A LEAVE from a subscriber gives its record back, takes the station out of every owed set, raises DEPARTED and runs
retirement, which withdraws a chosen resend of a retired record (DEDUCED: notes/assumptions/24.md); from any other
station it changes nothing. -/
def Obligations.LeaveGivesTheRecordBack : Prop :=
  ∀ (s : State) (i : EntryIdx) (n : Station) (st : StreamNo),
    reaches s (.leave n st) i → (s.entry i).role = some .producer →
    (s.entry i).state = .producing ∨ (s.entry i).state = .closing →
    let p := (s.entry i).prod
    ((∃ r ∈ p.subs, r.station = n) →
      ∃ m t, exec (.leaveFrame n st) s = .next t
        ∧ m = { s with entries := m.entries, poolFree := s.poolFree + 1, items := m.items,
                       noticeQueue := m.noticeQueue }
        ∧ otherEntries s m i
        ∧ m.entry i = { s.entry i with prod := { p with
            subs := p.subs.filter (fun r => r.station ≠ n),
            ring := p.ring.map (fun r => { r with owed := r.owed &&& ~~~stationBit n }) } }
        ∧ itemRaised s m (itemOf i) { s.item (itemOf i) with
            kinds := (s.item (itemOf i)).kinds ||| 0x02#8,
            departed := (s.item (itemOf i)).departed ||| stationBit n }
        ∧ retirementRun m t i)
    ∧ ((∀ r ∈ p.subs, r.station ≠ n) → exec (.leaveFrame n st) s = .next s)

/-! ## Characters and the line -/

/-- A good marked character begins a frame, or a skip for kind 0; a good unmarked one is ignored in HUNT and SKIPPING
and in ASSEMBLING stored, unless it makes the frame malformed by the table of R131 or of no interest by R132 and R133;
the frame's last character sends it to the CRC check; in SYNC every character only restarts the wait; OFF, which is the state of
an OFFLINE station (O56), and SUSPENDED take none. Each character taken makes the line BUSY until an idle gap after it and finds RXD at stop level
and CSN negated (the model's choice: notes/assumptions/12.md), and the receiver then waits for the next start bit. The
idle gap at the receiver ends an assembly, a skip and the SYNC wait, and comes only once it has passed
(notes/assumptions/5.md). A complete frame that waits is dispatched first (notes/assumptions/4.md). -/
def Obligations.CharactersMoveTheReceiver : Prop :=
  ∀ (s : State) (d : Byte), s.held = false →
    let heard := fun (t : State) (source : Option Station) => lineHeard s t source
      ∧ t = { s with rx := t.rx, line := t.line, lineGap := t.lineGap, csnAsserted := false, rxdLow := false,
                     quiet := t.quiet, round := t.round, tx := t.tx }
    (∀ w, s.rx.ready = some w → ∃ t, exec (frameRow w) s = .next t
        ∧ exec (.markedCharacter d) s = exec (.markedCharacter d) t
        ∧ exec (.unmarkedCharacter d) s = exec (.unmarkedCharacter d) t
        ∧ (s.rx.gap = some 33 → exec .receiverIdleGap s = .next t))
    ∧ (s.station ≠ .offline → s.rx.ready = none → s.rx.taking = true → ∃ t, exec (.markedCharacter d) s = .next t
        ∧ heard t (some (d.setWidth 5))
        ∧ t.rx = if d.toNat / 32 = 0 then { state := .skipping, hold := [], gap := some 0, char := {} }
            else { state := .assembling, hold := [d], gap := some 0, char := {} })
    ∧ (s.station ≠ .offline → s.rx.ready = none → s.rx.state = .hunt ∨ s.rx.state = .skipping →
        ∃ t, exec (.unmarkedCharacter d) s = .next t ∧ heard t none ∧ t.rx = { s.rx with gap := some 0, char := {} })
    ∧ (∀ first more, s.station ≠ .offline → s.rx.state = .assembling → s.rx.hold = first :: more →
        let chars := s.rx.hold ++ [d]
        let kind := first.toNat / 32
        let dropped := malformedAt kind s.rx.hold.length d ∨ foreignAt s kind s.rx.hold.length d
        ∃ t, exec (.unmarkedCharacter d) s = .next t ∧ heard t none
          ∧ (dropped → t.rx = { state := .skipping, hold := [], gap := some 0 })
          ∧ (¬dropped → ¬frameWhole kind chars → t.rx = { state := .assembling, hold := chars, gap := some 0 })
          ∧ (¬dropped → frameWhole kind chars → crcAgrees chars → t.rx = { state := .hunt, hold := chars, gap := some 0 })
          ∧ (¬dropped → frameWhole kind chars → ¬crcAgrees chars →
              t.rx = { state := .hunt, hold := [], gap := some 0 }))
    ∧ (s.station ≠ .offline → s.rx.state = .sync →
        ∃ t, exec (.markedCharacter d) s = .next t ∧ exec (.unmarkedCharacter d) s = .next t ∧ heard t none ∧ t.rx = { s.rx with gap := some 0, char := {} })
    ∧ (s.rx.state = .off ∨ s.rx.state = .suspended →
        exec (.markedCharacter d) s = .next s ∧ exec (.unmarkedCharacter d) s = .next s)
    ∧ (s.rx.gap = some 33 → s.rx.state = .assembling ∨ s.rx.state = .skipping ∨ s.rx.state = .sync →
        exec .receiverIdleGap s = .next { s with rx := { s.rx with state := .hunt, hold := [] } })
    ∧ (s.rx.ready = none → s.rx.state = .hunt ∨ s.rx.state = .off ∨ s.rx.state = .suspended →
        exec .receiverIdleGap s = .next s)
    ∧ (s.rx.gap ≠ some 33 → exec .receiverIdleGap s = .next s)

/-- Every whole frame that concerns the station (DATA of a stream that some entry holds, a frame addressed here, or a
kind that names no destination), sent character by character with its CRC, is read back with every field as it was
sent and waits for its dispatch; with any other two characters in place of its CRC it is dropped; either way nothing
but the receiver and the line changes. -/
def Obligations.WholeFramesAreReadBackAsSent : Prop :=
  ∀ (s : State) (f : Frame), s.held = false → s.station ≠ .offline → s.rx.taking = true → s.rx.ready = none →
    f.wf = true → (∀ d, frameDest? f = some d → d = s.stationNo) →
    (∀ n st q fin payload, f = .data n st q fin payload →
      ∃ j, (s.entry j).state ≠ .free ∧ (s.entry j).stream = frameStream f) →
    (∃ t, after (charactersOf (frameChars f)) s = some t
      ∧ t.rx = { state := .hunt, hold := frameChars f, gap := some 0 } ∧ t.rx.ready = some f
      ∧ t = { s with rx := t.rx, line := t.line, lineGap := t.lineGap, csnAsserted := false, rxdLow := false,
                     quiet := t.quiet, round := t.round, tx := t.tx })
    ∧ ∀ high low : Byte, frameBody f ++ [high, low] ≠ frameChars f →
      ∃ t, after (charactersOf (frameBody f ++ [high, low])) s = some t
        ∧ t.rx = { state := .hunt, hold := [], gap := some 0 } ∧ t.rx.ready = none
        ∧ t = { s with rx := t.rx, line := t.line, lineGap := t.lineGap, csnAsserted := false, rxdLow := false,
                       quiet := t.quiet, round := t.round, tx := t.tx }

/-- A collision seen in HUNT, ASSEMBLING or SKIPPING abandons any frame and, while ONLINE, moves the round by the
table of R148; off ONLINE the round stays CONTENTION; in SYNC it is line activity only; OFF, which is the state of an OFFLINE
station (O56), and SUSPENDED see none.
After a framing error RXD is low, the idle gap waits for its return, and a second framing error is not seen before the line
has stood at stop level for a whole bit time; one by CSN leaves both levels as they were told, and while CSN stands asserted
the gap waits for its negation (that the event shows these levels is the model's choice: notes/assumptions/12.md). A complete frame that waits is dispatched first
(notes/assumptions/4.md). -/
def Obligations.CollisionSeenMovesTheRound : Prop :=
  ∀ (s : State) (cause : SeenCause), s.held = false →
    let again := s.rx.char.awaitStop = true ∧ cause = .framingError
    let levels := fun (t : State) =>
      (cause = .framingError → t.rxdLow = true ∧ t.rxdSteady = false
        ∧ t.rx.char = { start := false, bits := none, csn := false, awaitStop := true })
      ∧ (cause = .csn → t.rxdLow = s.rxdLow ∧ t.rxdSteady = s.rxdSteady ∧ t.rx.char = {})
    (again → exec (.collisionSeen cause) s = .next s)
    ∧ (∀ w, s.rx.ready = some w → ¬again → ∃ t, exec (frameRow w) s = .next t
        ∧ exec (.collisionSeen cause) s = exec (.collisionSeen cause) t)
    ∧ (s.station ≠ .offline → s.rx.ready = none → s.rx.taking = true → ¬again →
      ∃ t, exec (.collisionSeen cause) s = .next t
      ∧ t = { s with rx := t.rx, line := .busy, lineGap := some 0, rxdLow := t.rxdLow, rxdSteady := t.rxdSteady,
                     quiet := none, round := t.round, tx := grantLost s.tx }
      ∧ levels t
      ∧ t.rx = { state := .hunt, hold := [], gap := some 0, char := t.rx.char }
      ∧ (s.station = .online → t.round = roundAfterCollision s.round)
      ∧ (s.station ≠ .online → s.round = .contention → t.round = .contention))
    ∧ (s.station ≠ .offline → s.rx.state = .sync → s.round = .contention → ¬again →
      ∃ t, exec (.collisionSeen cause) s = .next t
      ∧ t = { s with rx := { s.rx with gap := some 0, char := t.rx.char }, line := .busy, lineGap := some 0,
                     rxdLow := t.rxdLow, rxdSteady := t.rxdSteady, quiet := none, tx := grantLost s.tx }
      ∧ levels t)
    ∧ (s.rx.state = .off ∨ s.rx.state = .suspended → exec (.collisionSeen cause) s = .next s)

/-- LINE_BUSY stops the quiet timer and pauses a running slot; asserted, CSN holds the idle gap back until it is
negated, and makes a character in progress a collision seen (R125, R142). A fall of RXD is taken as a start bit if the
line has stood at stop level for a whole bit time and no character is in progress (R124); CSN asserted is a collision
seen by the transmitter while the station drives (R145), and LINE_BUSY by CSN otherwise (that LINE_BUSY by CSN placed
while it drives is the line access controller's part alone is the model's choice: notes/assumptions/13.md). LINE_IDLE,
once the gap has passed, starts the quiet timer in LISTENING, slot 0 after the gap of a round, and the slot after the
source once a used slot is over; SLOT_END, once the slot is over, passes to the next slot; a round ends when its last
slot is gone; and a frame is granted its start exactly in a slot of this station. In OFFLINE the line is not watched: LINE_BUSY
and LINE_IDLE change nothing there, but that the level on CSN is kept as it was told, and with no slot running SLOT_END changes
nothing. The mark of the grant, that a start
bit stops the gap and that an event before its time has no effect are the model's choice (notes/assumptions/5.md,
12.md, 13.md). -/
def Obligations.LineEventsDriveSlotsAndQuietTimer : Prop :=
  ∀ s : State, s.held = false →
    let busied := fun (source : Option Station) => { s with
      line := .busy, lineGap := none, quiet := none, tx := grantLost s.tx,
      round := match s.round with | .slot o r k _ => Round.busy o r k source | w => w }
    let slotFrom := fun (t : State) (o : Station) (r : Nat) (k : BitVec 5) =>
      (r = 0 → t.round = .contention ∧ t.tx = grantLost s.tx)
      ∧ (0 < r → t.round = .slot o r k 0 ∧ (∀ f g, s.tx = .chosen f g → t.tx = .chosen f (o + k == s.stationNo))
          ∧ ((∀ f g, s.tx ≠ Tx.chosen f g) → t.tx = s.tx))
    let sending := ∃ f cs b rd o, s.tx = .sending f cs b rd o
    let passed := s.lineGap = some 33 ∧ s.csnAsserted = false ∧ s.rxdLow = false
    let anew := if s.lineGap = none then none else some 0
    let inCharacter := { s.rx with char := { s.rx.char with csn := s.rx.char.csn || decide (s.rx.char.bits ≠ none) } }
    (s.atOnce = none → s.pending = [] →
      let free := s.rx.state ≠ .off ∧ s.rx.state ≠ .suspended ∧ s.rx.char.bits = none
      onPin s { s with csnAsserted := false } .csnRelease
      ∧ (s.csnAsserted = true → onPin s s .csnAssert)
      ∧ (s.csnAsserted = false → ¬sending →
          onPin s { s with csnAsserted := true, pending := [.lineBusy .csn] } .csnAssert)
      ∧ (∀ f cs b rd o, s.csnAsserted = false → s.tx = .sending f cs b rd o →
          onPin s { s with csnAsserted := true, pending := [.transmitCollision .csn (decide (b < 11))] } .csnAssert)
      ∧ onPin s { s with rxdLow := false } .rxdReturn
      ∧ (s.rxdLow = true → onPin s s .rxdFall)
      ∧ (s.rxdLow = false → s.rxdSteady = true → free → onPin s { s with
          rxdLow := true, rxdSteady := false, rx := { s.rx with char := { s.rx.char with start := true } } } .rxdFall)
      ∧ (s.rxdLow = false → ¬(s.rxdSteady = true ∧ free) →
          onPin s { s with rxdLow := true, rxdSteady := false } .rxdFall))
    ∧ (s.station ≠ .offline →
      (∃ t, exec (.lineBusy .startBit) s = .next t
        ∧ t = { busied none with
            rx := if s.rx.state = .off ∨ s.rx.state = .suspended then s.rx
              else { s.rx with gap := none, char := { s.rx.char with awaitStop := false } } })
      ∧ exec (.lineBusy .csn) s = .next { busied none with
          csnAsserted := true, lineGap := if s.line = .idle then some 0 else anew,
          rx := inCharacter }
      ∧ (sending → exec (.lineBusy .ownStart) s = .next (busied (some s.stationNo)))
      ∧ (¬sending → s.line = .busy → passed → s.station = .listening →
          exec .lineIdle s = .next { s with line := .idle, lineGap := none, quiet := some 704 })
      ∧ (¬sending → s.line = .busy → passed → s.station ≠ .listening →
          ∃ t, exec .lineIdle s = .next t
            ∧ t = { s with line := .idle, lineGap := none, round := t.round, tx := t.tx }
            ∧ (s.round = .contention → t.round = .contention ∧ t.tx = s.tx)
            ∧ (∀ o r, s.round = .gap o r → 0 < r → slotFrom t o r 0)
            ∧ (∀ o r k, s.round = .busy o r k none → slotFrom t o (r - 1) (k + 1))
            ∧ (∀ o r k n, s.round = .busy o r k (some n) → slotFrom t o (r - 1) (n + 1 - o)))
      ∧ (¬passed → exec .lineIdle s = .next s))
    ∧ (s.station = .offline →
      (s.rx.state = .off → exec (.lineBusy .startBit) s = .next s)
      ∧ exec (.lineBusy .csn) s = .next { s with csnAsserted := true, rx := inCharacter }
      ∧ (s.rx.char.bits = none → exec (.lineBusy .csn) s = .next { s with csnAsserted := true })
      ∧ exec (.lineBusy .ownStart) s = .next s
      ∧ exec .lineIdle s = .next s)
    ∧ (∀ o r k el, s.round = .slot o r k el → 22 ≤ el → (∀ f, s.tx ≠ Tx.chosen f true) →
        ∃ t, exec .slotEnd s = .next t ∧ t = { s with round := t.round, tx := t.tx } ∧ slotFrom t o (r - 1) (k + 1))
    ∧ (∀ o r k el, s.round = .slot o r k el → el < 22 → exec .slotEnd s = .next s)
    ∧ ((∀ o r k el, s.round ≠ .slot o r k el) → exec .slotEnd s = .next s)

/-! ## Transmission -/

/-- A choice takes the head reply; without a reply to offer, the candidate of the first consumer entry in round-robin
order that has one; without one, that of the first producer entry; and with no candidate nothing is chosen. With a
frame driven to its end the choice may come before its owner takes the completion: every other block then has the
completion, the choice is that of the state so left, and the completion stays for the owner to take (R161). That the head
reply, and with it the class of replies, is not offered while a reply's completion is still to be taken is the model's choice
(notes/assumptions/11.md). -/
def Obligations.ChoiceTakesTheFirstClass : Prop :=
  ∀ s : State, s.held = false → s.station = .online →
    let noReply := s.replies = [] ∨ ∃ d st b, s.handover = some (.reply d st b)
    (∀ r rs, s.tx = .free → s.replies = r :: rs → ¬noReply → exec .schedulerChoice s = .next { s with
        replies := { r with inService := true } :: rs, tx := .chosen (.reply r.dest r.stream r.body) false })
    ∧ (∀ i f, s.tx = .free → noReply → s.consumerCandidate i = some f →
        (∀ j, turnsBefore s.rrConsumer j < turnsBefore s.rrConsumer i → s.consumerCandidate j = none) →
        ∃ t, exec .schedulerChoice s = .next t ∧ t = { s with entries := t.entries, tx := .chosen f false }
          ∧ otherEntries s t i
          ∧ t.entry i = { s.entry i with cons := { (s.entry i).cons with
              ack := if (s.entry i).cons.ack = .owed ∧ (s.entry i).state ≠ .joining then .inFlight
                else (s.entry i).cons.ack } })
    ∧ (∀ i f, s.tx = .free → noReply → (∀ j, s.consumerCandidate j = none) → s.producerCandidate i = some f →
        (∀ j, turnsBefore s.rrProducer j < turnsBefore s.rrProducer i → s.producerCandidate j = none) →
        exec .schedulerChoice s = .next { s with tx := .chosen f false })
    ∧ (s.tx = .free → noReply → (∀ j, s.consumerCandidate j = none) → (∀ j, s.producerCandidate j = none) →
        exec .schedulerChoice s = .next s)
    ∧ (∀ f g, s.tx = .chosen f g → exec .schedulerChoice s = .next s)
    ∧ (∀ f cs b rd orphan, s.tx = .sending f cs b rd orphan → s.handover = none →
        let m := { sentOff s f with handover := if orphan = true then none else some f }
        (11 * cs.length ≤ b → exec .schedulerChoice m ≠ .next m → exec .schedulerChoice s = exec .schedulerChoice m)
        ∧ (11 * cs.length ≤ b → exec .schedulerChoice m = .next m → exec .schedulerChoice s = .next s)
        ∧ (b < 11 * cs.length → exec .schedulerChoice s = .next s))

/-- An entry has a candidate exactly when its rules say so, with the fields of its rule: a new frame within every
subscriber's credit and the window, a zero-length END, the oldest queued resend, a due HOLD or JOIN, an owed ACK, a
LEAVE with no ACK owed; and every frame that a choice passes to a FREE transmitter is such a candidate or the head
reply. That an entry offers nothing while it has a completion to take is read from R161 (DEDUCED:
notes/assumptions/11.md). -/
def Obligations.ChosenFramesFollowTheirRules : Prop :=
  (∀ (s : State) (i : EntryIdx) (f : TxFrame),
    s.producerCandidate i = some f ∨ s.consumerCandidate i = some f ↔ offered s i f)
  ∧ ∀ (s t : State) (f : TxFrame) (g : Bool), s.tx = .free → exec .schedulerChoice s = .next t → t.tx = .chosen f g →
    g = false
    ∧ ((∃ i, offered s i f) ∨ ∃ r rs, s.replies = r :: rs ∧ f = .reply r.dest r.stream r.body)

/-- The grant of a start puts the chosen frame on the line with this station as its source and, for DATA, the slot's
bytes as they stand at the start: the transmitter sends its characters with their CRC, the receiver is SUSPENDED and
the line BUSY. Without a grant nothing starts, and a frame that waits for its dispatch is dispatched first (the
model's choice: notes/assumptions/4.md); a frame whose completion its owner has still to take keeps the start back
(the model's choice: notes/assumptions/11.md), and so is that a SUSPENDED receiver counts no time
(notes/assumptions/22.md). TXE is asserted exactly while a frame is driven, and TXD then shows start bit, data bits
least significant first, mark bit and stop bit of each character, and stop level otherwise. -/
def Obligations.GrantedFramesGoOnTheLine : Prop :=
  (∀ s : State,
    (s.txe = true ↔ ∃ f cs b rd o, s.tx = .sending f cs b rd o)
    ∧ (∀ f cs b rd o d, s.tx = .sending f cs b rd o → cs[b / 11]? = some d →
        s.txd = ([false] ++ (List.range 8).map (fun k => d.getLsbD k) ++ [decide (b / 11 = 0), true])[b % 11]!)
    ∧ (s.txe = false → s.txd = true))
  ∧ ∀ (s : State) (f : TxFrame) (g : Bool), s.held = false → s.tx = .chosen f g →
    let granted := s.station = .online ∧ s.line = .idle ∧ (s.round = .contention ∨ g = true) ∧ s.handover = none
    let frame : Frame := match f with
      | .data i _ st q e slot len => .data s.stationNo st q e (match slot with
          | some j => (List.range len).map (fun k =>
              Memory.read s.mem (((s.entry i).base + j * (s.entry i).size + k) % 8192))
          | none => [])
      | .hold _ st next => .hold s.stationNo st next
      | .join _ st k size => .join s.stationNo st k size
      | .ack _ st dest a k => .ack s.stationNo st dest a k
      | .leave _ st => .leave s.stationNo st
      | .reply dest st (.accept start size) => .accept s.stationNo st dest start size
      | .reply dest st (.refuse reason) => .refuse s.stationNo st dest reason
    (granted → s.rx.ready = none → exec .transmitStart s = .next { s with
        tx := .sending f (frameChars frame) 0 (decide (s.round ≠ .contention)) false,
        rx := { state := .suspended, hold := [], gap := none },
        line := .busy, lineGap := none, quiet := none,
        round := match s.round with | .slot o r k _ => Round.busy o r k (some s.stationNo) | w => w })
    ∧ (¬granted → exec .transmitStart s = .next s)
    ∧ (∀ w, granted → s.rx.ready = some w →
        ∃ t, exec (frameRow w) s = .next t ∧ exec .transmitStart s = exec .transmitStart t)

/-- A collision seen while sending stops the transmitter and undoes the choice; it moves the round by R148's table and
is a failure unless it fell in the first character of a frame started in CONTENTION; the eighth failure takes the
station to LINE_FAULT, with no round, and raises LINE_FAULT in item 12. By CSN it leaves CSN asserted, and a position
that does not agree with the bit times driven does not occur (the model's choices: notes/assumptions/12.md, 5.md); the
receiver's time since the last character starts at 0 (notes/assumptions/22.md). -/
def Obligations.TransmitCollisionUndoesAndCounts : Prop :=
  ∀ (s : State) (cause : DriveCause) (first : Bool) (f : TxFrame) (cs : List Byte) (b : Nat) (inRound orphan : Bool),
    s.held = false → s.station = .online → s.tx = .sending f cs b inRound orphan → s.rx.state = .suspended →
    let failure := inRound = true ∨ first = false
    let agrees := (first = true → b ≤ 11) ∧ (first = false → 11 ≤ b)
    (¬agrees → exec (.transmitCollision cause first) s = .next s)
    ∧ (agrees → ∃ t, exec (.transmitCollision cause first) s = .next t
      ∧ t = { s with entries := t.entries, replies := t.replies, tx := .free,
                     rx := { state := .hunt, hold := [], gap := some 0 }, lineGap := some 0,
                     csnAsserted := s.csnAsserted || decide (cause = .csn),
                     round := t.round, failCount := t.failCount, station := t.station, items := t.items,
                     noticeQueue := t.noticeQueue }
      ∧ (∀ i, t.entry i = { s.entry i with cons := { (s.entry i).cons with
          ack := if ackOnHand s.tx = some i then undone (s.entry i).cons.ack else (s.entry i).cons.ack } })
      ∧ ((∀ d st body, f ≠ TxFrame.reply d st body) → t.replies = s.replies)
      ∧ (∀ d st body r rs, f = .reply d st body → orphan = false → s.replies = r :: rs →
          t.replies = { r with inService := false } :: rs)
      ∧ (¬failure → t.failCount = s.failCount ∧ t.station = .online ∧ t.round = roundAfterCollision s.round
          ∧ t.items = s.items ∧ t.noticeQueue = s.noticeQueue)
      ∧ (failure → s.failCount < 7 → t.failCount = s.failCount + 1 ∧ t.station = .online
          ∧ t.round = roundAfterCollision s.round ∧ t.items = s.items ∧ t.noticeQueue = s.noticeQueue)
      ∧ (failure → s.failCount = 7 → t.failCount = 8 ∧ t.station = .lineFault ∧ t.round = .contention
          ∧ itemRaised s t stationItem { s.item stationItem with
              kinds := (s.item stationItem).kinds ||| 0x80#8 }))

/-- A new frame that completes leaves its record with every subscriber owing it, moves next_seq and, with a slot, send
index and filled, takes a PRODUCING entry to CLOSING if it carries END, and starts the ack timer if the ring was
empty; with no subscriber retirement runs at once (a chosen resend of a retired record, if there could be one, is
withdrawn: DEDUCED, notes/assumptions/24.md). A completion that finds the entry ENDED changes no entry. The same
holds whether its owner takes it with the other blocks or after the next choice (R161). The gap counts from the
completion event (the model's choice: notes/assumptions/12.md), as does the receiver's time since the last character
(notes/assumptions/22.md). -/
def Obligations.NewFrameCompletionAddsItsRecord : Prop :=
  ∀ (s m : State) (i : EntryIdx) (st : StreamNo) (q : Seq) (e : Bool) (slot : Option Nat) (len : Nat),
    s.held = false → completes s m (.data i false st q e slot len) →
    let p := (s.entry i).prod
    ∃ n t, exec .newFrameComplete s = .next t
      ∧ n = { m with entries := n.entries }
      ∧ otherEntries s n i
      ∧ ((s.entry i).state = .ended → n.entry i = s.entry i ∧ t = n)
      ∧ ((s.entry i).state = .producing ∨ (s.entry i).state = .closing →
          n.entry i = { s.entry i with
            state := if e = true then .closing else (s.entry i).state,
            timer := if p.ring = [] then .running s.params.tAck else (s.entry i).timer,
            prod := { p with
              ring := p.ring ++ [{ seq := q, slot := slot, len := len, endFlag := e,
                                   owed := stationsOf (p.subs.map (fun r => r.station)), queued := false }],
              nextSeq := p.nextSeq + 1,
              sendIdx := if slot.isSome = true then (p.sendIdx + 1) % (s.entry i).slots else p.sendIdx,
              filled := if slot.isSome = true then p.filled - 1 else p.filled,
              holdDue := if p.ring = [] then false else p.holdDue } }
          ∧ (p.subs ≠ [] → t = n) ∧ (p.subs = [] → retirementRun n t i))

/-- The other completions at their owners: a resend clears its record's mark, the last mark starting the ack timer; a
HOLD counts misses, clears the heard flags and restarts the hold timer; a JOIN counts an attempt and starts the join
timer; an ACK moves the ack owed flag and, from in flight with the END mark in RECEIVING, ends the entry BY_PRODUCER;
a LEAVE ends the entry with its stored cause; a reply leaves the queue if its mark is still set. The same holds
whether the owner takes it with the other blocks or after the next choice (R161). Of a disowned frame only the
transmitter, the failure count and the round-robin position take the completion, and before its last bit has been
driven no frame completes (that such an event has no effect, and that the gaps count from the completion event, is the
model's choice: notes/assumptions/5.md, 12.md, 22.md). -/
def Obligations.CompletionsReachTheirOwners : Prop :=
  ∀ (s m : State) (f : TxFrame), s.held = false →
    (∀ cs b rd o, s.handover = none → s.tx = .sending f cs b rd o → b < 11 * cs.length → exec f.completion s = .next s)
    ∧ (∀ cs b rd, s.handover = none → s.tx = .sending f cs b rd true → 11 * cs.length ≤ b →
        (∀ d st body, f ≠ TxFrame.reply d st body) → exec f.completion s = .next (sentOff s f))
    ∧ (completes s m f → ∃ t, exec f.completion s = .next t
      ∧ (match f with
          | .data _ false _ _ _ _ _ => True
          | .data i true _ q _ _ _ =>
            let ring := (s.entry i).prod.ring
            let cleared := ring.map (fun r => if r.seq = q then { r with queued := false } else r)
            ((s.entry i).state = .producing ∨ (s.entry i).state = .closing →
              (∃ r ∈ ring, r.seq = q ∧ r.queued = true) →
              t = { m with entries := t.entries } ∧ otherEntries s t i
              ∧ t.entry i = { s.entry i with
                  timer := if ∃ r ∈ cleared, r.queued = true then (s.entry i).timer else .running s.params.tAck,
                  prod := { (s.entry i).prod with ring := cleared } })
            ∧ ((∀ r ∈ ring, ¬(r.seq = q ∧ r.queued = true)) → t = m)
          | .hold i _ _ =>
            ((s.entry i).state = .producing ∨ (s.entry i).state = .closing →
              ∃ m1, missesCounted m m1 i (fun r => !r.heard)
                ∧ t = { m1 with entries := t.entries } ∧ otherEntries m1 t i
                ∧ t.entry i = { m1.entry i with
                    timer := .running s.params.tHold,
                    prod := { (m1.entry i).prod with
                      subs := (m1.entry i).prod.subs.map (fun r => { r with heard := false }), holdDue := false } })
          | .join i _ _ _ =>
            ((s.entry i).state = .joining →
              t = { m with entries := t.entries } ∧ otherEntries s t i
              ∧ t.entry i = { s.entry i with
                  timer := .running s.params.tAck,
                  cons := { (s.entry i).cons with
                    joinAttempts := (s.entry i).cons.joinAttempts + 1, joinDue := false } })
            ∧ ((s.entry i).state ≠ .joining → t = m)
          | .ack i _ _ _ _ =>
            let c := (s.entry i).cons
            let ends := c.ack = .inFlight ∧ c.endMark = true ∧ (s.entry i).state = .receiving
            (ends → endsAs m t i .byProducer
              ∧ t = { m with entries := t.entries, poolFree := t.poolFree, items := t.items,
                             noticeQueue := t.noticeQueue, tx := t.tx, handover := t.handover })
            ∧ (¬ends → t = { m with entries := t.entries } ∧ otherEntries s t i
              ∧ t.entry i = { s.entry i with cons := { c with ack :=
                  match c.ack with | .inFlight => .clear | .renewed => .owed | a => a } })
          | .leave i _ =>
            (∀ c, (s.entry i).state = .leaving → (s.entry i).cause = some c → endsAs m t i c
              ∧ t = { m with entries := t.entries, poolFree := t.poolFree, items := t.items,
                             noticeQueue := t.noticeQueue, tx := t.tx, handover := t.handover })
            ∧ ((s.entry i).state ≠ .leaving → t = m)
          | .reply _ _ _ =>
            ∀ r rs, s.replies = r :: rs → t = { m with replies := if r.inService = true then rs else r :: rs }))

/-! ## Invariants that every step keeps -/

/-- The state after reset is sound in every sense of the invariants below. The strap values in it are the model's
choice (notes/assumptions/1.md); nothing here rests on them. -/
def Obligations.ResetStateIsSound : Prop :=
  memorySafe State.reset ∧ poolSafe State.reset ∧ noticeSafe State.reset ∧ setsSafe State.reset
  ∧ onlineSafe State.reset ∧ offlineSafe State.reset ∧ receiverSafe State.reset ∧ replySafe State.reset
  ∧ tableSafe State.reset ∧ slotsSafe State.reset ∧ windowSafe State.reset ∧ owedSafe State.reset

/-- Every step keeps buffer memory in its canonical form. -/
def Obligations.StepKeepsMemoryCanonical : Prop :=
  ∀ s t : State, memorySafe s → step s = .next t → memorySafe t

/-- Every step keeps 48 subscriber records between the pool and the live producers' lists, and each list names a
station at most once and never this station. -/
def Obligations.StepKeepsThePoolWhole : Prop :=
  ∀ s t : State, poolSafe s → step s = .next t → poolSafe t

/-- Every step keeps each notice item in the queue exactly while a kind is pending in it, and at most once, and each
set and end cause of an item present exactly with its kind. -/
def Obligations.StepKeepsTheNoticeQueueExact : Prop :=
  ∀ s t : State, noticeSafe s → setsSafe s → step s = .next t → noticeSafe t ∧ setsSafe t

/-- Every step keeps what the station state says: frames and rounds only while ONLINE, the quiet timer only in
LISTENING, no live entry while OFFLINE, the receiver OFF exactly in OFFLINE and SUSPENDED exactly while sending. -/
def Obligations.StepKeepsTheStationStateInCharge : Prop :=
  ∀ s t : State, onlineSafe s → offlineSafe s → receiverSafe s → step s = .next t →
    onlineSafe t ∧ offlineSafe t ∧ receiverSafe t

/-- Every step keeps at most 8 replies, no two with the same destination and stream. -/
def Obligations.StepKeepsTheReplyQueue : Prop :=
  ∀ s t : State, replySafe s → step s = .next t → replySafe t

/-- Every step keeps streams distinct and regions disjoint and inside buffer memory, and each consumer's write index
at read index plus held. -/
def Obligations.StepKeepsRegionsAndSlotsApart : Prop :=
  ∀ s t : State, tableSafe s → slotsSafe s → step s = .next t → tableSafe t ∧ slotsSafe t

/-- Every step keeps each producer within its window of 4 consecutive sequences and its slots, and every owed set
within its subscriber list. -/
def Obligations.StepKeepsTheWindowAndOwedSets : Prop :=
  ∀ s t : State, windowSafe s → owedSafe s → step s = .next t → windowSafe t ∧ owedSafe t

/-- A command other than WRITE_BUFFER and POWER_ON changes no byte outside the regions of the station's consumer
entries: the station writes nothing of its own anywhere else. -/
def Obligations.OnlyConsumerRegionsAreWritten : Prop :=
  ∀ (c : Instr) (s t : State) (a : Nat), memorySafe s → tableSafe s → slotsSafe s →
    (∀ bytes ragged, c ≠ Instr.writeBuffer bytes ragged) → (∀ sa rs, c ≠ Instr.powerOn sa rs) →
    exec c s = .next t → ¬inConsumerRegion s a → Memory.read t.mem a = Memory.read s.mem a
end

