-- ==== Sys2Proof/Laws/State.lean ====
section
/-! SUPPORT. The state record: what each update leaves as it was, one lemma per field, and what reading an entry or an
item gives after an update. -/

namespace Sys2Proof.Machine

/-! ## Entries and items -/

@[simp] theorem State.entry_setEntry_self (s : State) (i : EntryIdx) (e : Entry) : (s.setEntry i e).entry i = e := by
  simp [State.entry, State.setEntry]

theorem State.entry_setEntry_of_ne (s : State) {i j : EntryIdx} (e : Entry) (h : j ≠ i) :
    (s.setEntry i e).entry j = s.entry j := by
  have : i.val ≠ j.val := fun hv => h (Fin.ext hv.symm)
  simp [State.entry, State.setEntry, this]

theorem State.entry_setEntry (s : State) (i j : EntryIdx) (e : Entry) :
    (s.setEntry i e).entry j = if j = i then e else s.entry j := by
  by_cases h : j = i
  · subst h; simp
  · simp [h, State.entry_setEntry_of_ne s e h]

/-- An entry of a state that takes its entries from another is read from that one. -/
@[simp] theorem State.entry_mk
    (t : State)
    (f1 f3 f4 f5 f6 f7 f8 f9 f10 f11 f12 f13 f14 f15 f16 f17 f18 f19 f20 f21 f22 f23 f24 f25 f26 f27 f28 f29
     f30) (z : EntryIdx) :
    State.entry (.mk f1 t.entries f3 f4 f5 f6 f7 f8 f9 f10 f11 f12 f13 f14 f15 f16 f17 f18 f19 f20 f21 f22 f23 f24 f25 f26 f27
      f28 f29 f30) z = t.entry z := rfl

/-- An item of a state that takes its items from another is read from that one. -/
@[simp] theorem State.item_mk
    (t : State)
    (f1 f2 f3 f5 f6 f7 f8 f9 f10 f11 f12 f13 f14 f15 f16 f17 f18 f19 f20 f21 f22 f23 f24 f25 f26 f27 f28 f29
     f30) (z : ItemIdx) :
    State.item (.mk f1 f2 f3 t.items f5 f6 f7 f8 f9 f10 f11 f12 f13 f14 f15 f16 f17 f18 f19 f20 f21 f22 f23 f24 f25 f26 f27
      f28 f29 f30) z = t.item z := rfl

/-- Two states with the same entries read the same at every index. -/
theorem State.entry_congr {s t : State} (h : t.entries = s.entries) (i : EntryIdx) : t.entry i = s.entry i := by
  simp [State.entry, h]

/-- States whose entries read alike at every index have the same entries. -/
theorem State.entries_ext {s t : State} (h : ∀ i, t.entry i = s.entry i) : t.entries = s.entries := by
  apply Vector.ext
  intro n hn
  exact h ⟨n, hn⟩

/-- Two states with the same items read the same at every index. -/
theorem State.item_congr {s t : State} (h : t.items = s.items) (i : ItemIdx) : t.item i = s.item i := by
  simp [State.item, h]

theorem itemOf_injective {i j : EntryIdx} : itemOf i = itemOf j ↔ i = j := by
  simp [itemOf]

theorem itemOf_ne_stationItem (i : EntryIdx) : itemOf i ≠ stationItem := by
  simpa [itemOf, stationItem] using (Fin.castSucc_lt_last i).ne

/-! ## The record updates -/

@[simp] theorem State.setEntry_mem (s : State) (i : EntryIdx) (e : Entry) : (s.setEntry i e).mem = s.mem := rfl
@[simp] theorem State.setEntry_poolFree (s : State) (i : EntryIdx) (e : Entry) : (s.setEntry i e).poolFree = s.poolFree := rfl
@[simp] theorem State.setEntry_items (s : State) (i : EntryIdx) (e : Entry) : (s.setEntry i e).items = s.items := rfl
@[simp] theorem State.setEntry_noticeQueue (s : State) (i : EntryIdx) (e : Entry) : (s.setEntry i e).noticeQueue = s.noticeQueue := rfl
@[simp] theorem State.setEntry_rx (s : State) (i : EntryIdx) (e : Entry) : (s.setEntry i e).rx = s.rx := rfl
@[simp] theorem State.setEntry_line (s : State) (i : EntryIdx) (e : Entry) : (s.setEntry i e).line = s.line := rfl
@[simp] theorem State.setEntry_lineGap (s : State) (i : EntryIdx) (e : Entry) : (s.setEntry i e).lineGap = s.lineGap := rfl
@[simp] theorem State.setEntry_round (s : State) (i : EntryIdx) (e : Entry) : (s.setEntry i e).round = s.round := rfl
@[simp] theorem State.setEntry_failCount (s : State) (i : EntryIdx) (e : Entry) : (s.setEntry i e).failCount = s.failCount := rfl
@[simp] theorem State.setEntry_tx (s : State) (i : EntryIdx) (e : Entry) : (s.setEntry i e).tx = s.tx := rfl
@[simp] theorem State.setEntry_replies (s : State) (i : EntryIdx) (e : Entry) : (s.setEntry i e).replies = s.replies := rfl
@[simp] theorem State.setEntry_rrConsumer (s : State) (i : EntryIdx) (e : Entry) : (s.setEntry i e).rrConsumer = s.rrConsumer := rfl
@[simp] theorem State.setEntry_rrProducer (s : State) (i : EntryIdx) (e : Entry) : (s.setEntry i e).rrProducer = s.rrProducer := rfl
@[simp] theorem State.setEntry_station (s : State) (i : EntryIdx) (e : Entry) : (s.setEntry i e).station = s.station := rfl
@[simp] theorem State.setEntry_params (s : State) (i : EntryIdx) (e : Entry) : (s.setEntry i e).params = s.params := rfl
@[simp] theorem State.setEntry_stationNo (s : State) (i : EntryIdx) (e : Entry) : (s.setEntry i e).stationNo = s.stationNo := rfl
@[simp] theorem State.setEntry_rate (s : State) (i : EntryIdx) (e : Entry) : (s.setEntry i e).rate = s.rate := rfl
@[simp] theorem State.setEntry_quiet (s : State) (i : EntryIdx) (e : Entry) : (s.setEntry i e).quiet = s.quiet := rfl
@[simp] theorem State.setEntry_msPhase (s : State) (i : EntryIdx) (e : Entry) : (s.setEntry i e).msPhase = s.msPhase := rfl
@[simp] theorem State.setEntry_rstnLow (s : State) (i : EntryIdx) (e : Entry) : (s.setEntry i e).rstnLow = s.rstnLow := rfl
@[simp] theorem State.setEntry_rxdSteady (s : State) (i : EntryIdx) (e : Entry) : (s.setEntry i e).rxdSteady = s.rxdSteady := rfl
@[simp] theorem State.setEntry_power (s : State) (i : EntryIdx) (e : Entry) : (s.setEntry i e).power = s.power := rfl
@[simp] theorem State.setEntry_misoDraws (s : State) (i : EntryIdx) (e : Entry) : (s.setEntry i e).misoDraws = s.misoDraws := rfl
@[simp] theorem State.setEntry_port (s : State) (i : EntryIdx) (e : Entry) : (s.setEntry i e).port = s.port := rfl
@[simp] theorem State.setEntry_csnAsserted (s : State) (i : EntryIdx) (e : Entry) : (s.setEntry i e).csnAsserted = s.csnAsserted := rfl
@[simp] theorem State.setEntry_rxdLow (s : State) (i : EntryIdx) (e : Entry) : (s.setEntry i e).rxdLow = s.rxdLow := rfl
@[simp] theorem State.setEntry_handover (s : State) (i : EntryIdx) (e : Entry) : (s.setEntry i e).handover = s.handover := rfl
@[simp] theorem State.setEntry_pins (s : State) (i : EntryIdx) (e : Entry) : (s.setEntry i e).pins = s.pins := rfl
@[simp] theorem State.setEntry_pending (s : State) (i : EntryIdx) (e : Entry) : (s.setEntry i e).pending = s.pending := rfl

@[simp] theorem State.setProd_mem (s : State) (i : EntryIdx) (p : Producer) : (s.setProd i p).mem = s.mem := rfl
@[simp] theorem State.setProd_poolFree (s : State) (i : EntryIdx) (p : Producer) : (s.setProd i p).poolFree = s.poolFree := rfl
@[simp] theorem State.setProd_items (s : State) (i : EntryIdx) (p : Producer) : (s.setProd i p).items = s.items := rfl
@[simp] theorem State.setProd_noticeQueue (s : State) (i : EntryIdx) (p : Producer) : (s.setProd i p).noticeQueue = s.noticeQueue := rfl
@[simp] theorem State.setProd_rx (s : State) (i : EntryIdx) (p : Producer) : (s.setProd i p).rx = s.rx := rfl
@[simp] theorem State.setProd_line (s : State) (i : EntryIdx) (p : Producer) : (s.setProd i p).line = s.line := rfl
@[simp] theorem State.setProd_lineGap (s : State) (i : EntryIdx) (p : Producer) : (s.setProd i p).lineGap = s.lineGap := rfl
@[simp] theorem State.setProd_round (s : State) (i : EntryIdx) (p : Producer) : (s.setProd i p).round = s.round := rfl
@[simp] theorem State.setProd_failCount (s : State) (i : EntryIdx) (p : Producer) : (s.setProd i p).failCount = s.failCount := rfl
@[simp] theorem State.setProd_tx (s : State) (i : EntryIdx) (p : Producer) : (s.setProd i p).tx = s.tx := rfl
@[simp] theorem State.setProd_replies (s : State) (i : EntryIdx) (p : Producer) : (s.setProd i p).replies = s.replies := rfl
@[simp] theorem State.setProd_rrConsumer (s : State) (i : EntryIdx) (p : Producer) : (s.setProd i p).rrConsumer = s.rrConsumer := rfl
@[simp] theorem State.setProd_rrProducer (s : State) (i : EntryIdx) (p : Producer) : (s.setProd i p).rrProducer = s.rrProducer := rfl
@[simp] theorem State.setProd_station (s : State) (i : EntryIdx) (p : Producer) : (s.setProd i p).station = s.station := rfl
@[simp] theorem State.setProd_params (s : State) (i : EntryIdx) (p : Producer) : (s.setProd i p).params = s.params := rfl
@[simp] theorem State.setProd_stationNo (s : State) (i : EntryIdx) (p : Producer) : (s.setProd i p).stationNo = s.stationNo := rfl
@[simp] theorem State.setProd_rate (s : State) (i : EntryIdx) (p : Producer) : (s.setProd i p).rate = s.rate := rfl
@[simp] theorem State.setProd_quiet (s : State) (i : EntryIdx) (p : Producer) : (s.setProd i p).quiet = s.quiet := rfl
@[simp] theorem State.setProd_msPhase (s : State) (i : EntryIdx) (p : Producer) : (s.setProd i p).msPhase = s.msPhase := rfl
@[simp] theorem State.setProd_rstnLow (s : State) (i : EntryIdx) (p : Producer) : (s.setProd i p).rstnLow = s.rstnLow := rfl
@[simp] theorem State.setProd_rxdSteady (s : State) (i : EntryIdx) (p : Producer) : (s.setProd i p).rxdSteady = s.rxdSteady := rfl
@[simp] theorem State.setProd_power (s : State) (i : EntryIdx) (p : Producer) : (s.setProd i p).power = s.power := rfl
@[simp] theorem State.setProd_misoDraws (s : State) (i : EntryIdx) (p : Producer) : (s.setProd i p).misoDraws = s.misoDraws := rfl
@[simp] theorem State.setProd_port (s : State) (i : EntryIdx) (p : Producer) : (s.setProd i p).port = s.port := rfl
@[simp] theorem State.setProd_csnAsserted (s : State) (i : EntryIdx) (p : Producer) : (s.setProd i p).csnAsserted = s.csnAsserted := rfl
@[simp] theorem State.setProd_rxdLow (s : State) (i : EntryIdx) (p : Producer) : (s.setProd i p).rxdLow = s.rxdLow := rfl
@[simp] theorem State.setProd_handover (s : State) (i : EntryIdx) (p : Producer) : (s.setProd i p).handover = s.handover := rfl
@[simp] theorem State.setProd_pins (s : State) (i : EntryIdx) (p : Producer) : (s.setProd i p).pins = s.pins := rfl
@[simp] theorem State.setProd_pending (s : State) (i : EntryIdx) (p : Producer) : (s.setProd i p).pending = s.pending := rfl

@[simp] theorem State.setCons_mem (s : State) (i : EntryIdx) (c : Consumer) : (s.setCons i c).mem = s.mem := rfl
@[simp] theorem State.setCons_poolFree (s : State) (i : EntryIdx) (c : Consumer) : (s.setCons i c).poolFree = s.poolFree := rfl
@[simp] theorem State.setCons_items (s : State) (i : EntryIdx) (c : Consumer) : (s.setCons i c).items = s.items := rfl
@[simp] theorem State.setCons_noticeQueue (s : State) (i : EntryIdx) (c : Consumer) : (s.setCons i c).noticeQueue = s.noticeQueue := rfl
@[simp] theorem State.setCons_rx (s : State) (i : EntryIdx) (c : Consumer) : (s.setCons i c).rx = s.rx := rfl
@[simp] theorem State.setCons_line (s : State) (i : EntryIdx) (c : Consumer) : (s.setCons i c).line = s.line := rfl
@[simp] theorem State.setCons_lineGap (s : State) (i : EntryIdx) (c : Consumer) : (s.setCons i c).lineGap = s.lineGap := rfl
@[simp] theorem State.setCons_round (s : State) (i : EntryIdx) (c : Consumer) : (s.setCons i c).round = s.round := rfl
@[simp] theorem State.setCons_failCount (s : State) (i : EntryIdx) (c : Consumer) : (s.setCons i c).failCount = s.failCount := rfl
@[simp] theorem State.setCons_tx (s : State) (i : EntryIdx) (c : Consumer) : (s.setCons i c).tx = s.tx := rfl
@[simp] theorem State.setCons_replies (s : State) (i : EntryIdx) (c : Consumer) : (s.setCons i c).replies = s.replies := rfl
@[simp] theorem State.setCons_rrConsumer (s : State) (i : EntryIdx) (c : Consumer) : (s.setCons i c).rrConsumer = s.rrConsumer := rfl
@[simp] theorem State.setCons_rrProducer (s : State) (i : EntryIdx) (c : Consumer) : (s.setCons i c).rrProducer = s.rrProducer := rfl
@[simp] theorem State.setCons_station (s : State) (i : EntryIdx) (c : Consumer) : (s.setCons i c).station = s.station := rfl
@[simp] theorem State.setCons_params (s : State) (i : EntryIdx) (c : Consumer) : (s.setCons i c).params = s.params := rfl
@[simp] theorem State.setCons_stationNo (s : State) (i : EntryIdx) (c : Consumer) : (s.setCons i c).stationNo = s.stationNo := rfl
@[simp] theorem State.setCons_rate (s : State) (i : EntryIdx) (c : Consumer) : (s.setCons i c).rate = s.rate := rfl
@[simp] theorem State.setCons_quiet (s : State) (i : EntryIdx) (c : Consumer) : (s.setCons i c).quiet = s.quiet := rfl
@[simp] theorem State.setCons_msPhase (s : State) (i : EntryIdx) (c : Consumer) : (s.setCons i c).msPhase = s.msPhase := rfl
@[simp] theorem State.setCons_rstnLow (s : State) (i : EntryIdx) (c : Consumer) : (s.setCons i c).rstnLow = s.rstnLow := rfl
@[simp] theorem State.setCons_rxdSteady (s : State) (i : EntryIdx) (c : Consumer) : (s.setCons i c).rxdSteady = s.rxdSteady := rfl
@[simp] theorem State.setCons_power (s : State) (i : EntryIdx) (c : Consumer) : (s.setCons i c).power = s.power := rfl
@[simp] theorem State.setCons_misoDraws (s : State) (i : EntryIdx) (c : Consumer) : (s.setCons i c).misoDraws = s.misoDraws := rfl
@[simp] theorem State.setCons_port (s : State) (i : EntryIdx) (c : Consumer) : (s.setCons i c).port = s.port := rfl
@[simp] theorem State.setCons_csnAsserted (s : State) (i : EntryIdx) (c : Consumer) : (s.setCons i c).csnAsserted = s.csnAsserted := rfl
@[simp] theorem State.setCons_rxdLow (s : State) (i : EntryIdx) (c : Consumer) : (s.setCons i c).rxdLow = s.rxdLow := rfl
@[simp] theorem State.setCons_handover (s : State) (i : EntryIdx) (c : Consumer) : (s.setCons i c).handover = s.handover := rfl
@[simp] theorem State.setCons_pins (s : State) (i : EntryIdx) (c : Consumer) : (s.setCons i c).pins = s.pins := rfl
@[simp] theorem State.setCons_pending (s : State) (i : EntryIdx) (c : Consumer) : (s.setCons i c).pending = s.pending := rfl

@[simp] theorem State.raise_mem (s : State) (i : ItemIdx) (k : Kind) (f : Item → Item) : (s.raise i k f).mem = s.mem := rfl
@[simp] theorem State.raise_entries (s : State) (i : ItemIdx) (k : Kind) (f : Item → Item) : (s.raise i k f).entries = s.entries := rfl
@[simp] theorem State.raise_poolFree (s : State) (i : ItemIdx) (k : Kind) (f : Item → Item) : (s.raise i k f).poolFree = s.poolFree := rfl
@[simp] theorem State.raise_rx (s : State) (i : ItemIdx) (k : Kind) (f : Item → Item) : (s.raise i k f).rx = s.rx := rfl
@[simp] theorem State.raise_line (s : State) (i : ItemIdx) (k : Kind) (f : Item → Item) : (s.raise i k f).line = s.line := rfl
@[simp] theorem State.raise_lineGap (s : State) (i : ItemIdx) (k : Kind) (f : Item → Item) : (s.raise i k f).lineGap = s.lineGap := rfl
@[simp] theorem State.raise_round (s : State) (i : ItemIdx) (k : Kind) (f : Item → Item) : (s.raise i k f).round = s.round := rfl
@[simp] theorem State.raise_failCount (s : State) (i : ItemIdx) (k : Kind) (f : Item → Item) : (s.raise i k f).failCount = s.failCount := rfl
@[simp] theorem State.raise_tx (s : State) (i : ItemIdx) (k : Kind) (f : Item → Item) : (s.raise i k f).tx = s.tx := rfl
@[simp] theorem State.raise_replies (s : State) (i : ItemIdx) (k : Kind) (f : Item → Item) : (s.raise i k f).replies = s.replies := rfl
@[simp] theorem State.raise_rrConsumer (s : State) (i : ItemIdx) (k : Kind) (f : Item → Item) : (s.raise i k f).rrConsumer = s.rrConsumer := rfl
@[simp] theorem State.raise_rrProducer (s : State) (i : ItemIdx) (k : Kind) (f : Item → Item) : (s.raise i k f).rrProducer = s.rrProducer := rfl
@[simp] theorem State.raise_station (s : State) (i : ItemIdx) (k : Kind) (f : Item → Item) : (s.raise i k f).station = s.station := rfl
@[simp] theorem State.raise_params (s : State) (i : ItemIdx) (k : Kind) (f : Item → Item) : (s.raise i k f).params = s.params := rfl
@[simp] theorem State.raise_stationNo (s : State) (i : ItemIdx) (k : Kind) (f : Item → Item) : (s.raise i k f).stationNo = s.stationNo := rfl
@[simp] theorem State.raise_rate (s : State) (i : ItemIdx) (k : Kind) (f : Item → Item) : (s.raise i k f).rate = s.rate := rfl
@[simp] theorem State.raise_quiet (s : State) (i : ItemIdx) (k : Kind) (f : Item → Item) : (s.raise i k f).quiet = s.quiet := rfl
@[simp] theorem State.raise_msPhase (s : State) (i : ItemIdx) (k : Kind) (f : Item → Item) : (s.raise i k f).msPhase = s.msPhase := rfl
@[simp] theorem State.raise_rstnLow (s : State) (i : ItemIdx) (k : Kind) (f : Item → Item) : (s.raise i k f).rstnLow = s.rstnLow := rfl
@[simp] theorem State.raise_rxdSteady (s : State) (i : ItemIdx) (k : Kind) (f : Item → Item) : (s.raise i k f).rxdSteady = s.rxdSteady := rfl
@[simp] theorem State.raise_power (s : State) (i : ItemIdx) (k : Kind) (f : Item → Item) : (s.raise i k f).power = s.power := rfl
@[simp] theorem State.raise_misoDraws (s : State) (i : ItemIdx) (k : Kind) (f : Item → Item) : (s.raise i k f).misoDraws = s.misoDraws := rfl
@[simp] theorem State.raise_port (s : State) (i : ItemIdx) (k : Kind) (f : Item → Item) : (s.raise i k f).port = s.port := rfl
@[simp] theorem State.raise_csnAsserted (s : State) (i : ItemIdx) (k : Kind) (f : Item → Item) : (s.raise i k f).csnAsserted = s.csnAsserted := rfl
@[simp] theorem State.raise_rxdLow (s : State) (i : ItemIdx) (k : Kind) (f : Item → Item) : (s.raise i k f).rxdLow = s.rxdLow := rfl
@[simp] theorem State.raise_handover (s : State) (i : ItemIdx) (k : Kind) (f : Item → Item) : (s.raise i k f).handover = s.handover := rfl
@[simp] theorem State.raise_pins (s : State) (i : ItemIdx) (k : Kind) (f : Item → Item) : (s.raise i k f).pins = s.pins := rfl
@[simp] theorem State.raise_pending (s : State) (i : ItemIdx) (k : Kind) (f : Item → Item) : (s.raise i k f).pending = s.pending := rfl

@[simp] theorem State.raiseKind_mem (s : State) (i : ItemIdx) (k : Kind) : (s.raiseKind i k).mem = s.mem := rfl
@[simp] theorem State.raiseKind_entries (s : State) (i : ItemIdx) (k : Kind) : (s.raiseKind i k).entries = s.entries := rfl
@[simp] theorem State.raiseKind_poolFree (s : State) (i : ItemIdx) (k : Kind) : (s.raiseKind i k).poolFree = s.poolFree := rfl
@[simp] theorem State.raiseKind_rx (s : State) (i : ItemIdx) (k : Kind) : (s.raiseKind i k).rx = s.rx := rfl
@[simp] theorem State.raiseKind_line (s : State) (i : ItemIdx) (k : Kind) : (s.raiseKind i k).line = s.line := rfl
@[simp] theorem State.raiseKind_lineGap (s : State) (i : ItemIdx) (k : Kind) : (s.raiseKind i k).lineGap = s.lineGap := rfl
@[simp] theorem State.raiseKind_round (s : State) (i : ItemIdx) (k : Kind) : (s.raiseKind i k).round = s.round := rfl
@[simp] theorem State.raiseKind_failCount (s : State) (i : ItemIdx) (k : Kind) : (s.raiseKind i k).failCount = s.failCount := rfl
@[simp] theorem State.raiseKind_tx (s : State) (i : ItemIdx) (k : Kind) : (s.raiseKind i k).tx = s.tx := rfl
@[simp] theorem State.raiseKind_replies (s : State) (i : ItemIdx) (k : Kind) : (s.raiseKind i k).replies = s.replies := rfl
@[simp] theorem State.raiseKind_rrConsumer (s : State) (i : ItemIdx) (k : Kind) : (s.raiseKind i k).rrConsumer = s.rrConsumer := rfl
@[simp] theorem State.raiseKind_rrProducer (s : State) (i : ItemIdx) (k : Kind) : (s.raiseKind i k).rrProducer = s.rrProducer := rfl
@[simp] theorem State.raiseKind_station (s : State) (i : ItemIdx) (k : Kind) : (s.raiseKind i k).station = s.station := rfl
@[simp] theorem State.raiseKind_params (s : State) (i : ItemIdx) (k : Kind) : (s.raiseKind i k).params = s.params := rfl
@[simp] theorem State.raiseKind_stationNo (s : State) (i : ItemIdx) (k : Kind) : (s.raiseKind i k).stationNo = s.stationNo := rfl
@[simp] theorem State.raiseKind_rate (s : State) (i : ItemIdx) (k : Kind) : (s.raiseKind i k).rate = s.rate := rfl
@[simp] theorem State.raiseKind_quiet (s : State) (i : ItemIdx) (k : Kind) : (s.raiseKind i k).quiet = s.quiet := rfl
@[simp] theorem State.raiseKind_msPhase (s : State) (i : ItemIdx) (k : Kind) : (s.raiseKind i k).msPhase = s.msPhase := rfl
@[simp] theorem State.raiseKind_rstnLow (s : State) (i : ItemIdx) (k : Kind) : (s.raiseKind i k).rstnLow = s.rstnLow := rfl
@[simp] theorem State.raiseKind_rxdSteady (s : State) (i : ItemIdx) (k : Kind) : (s.raiseKind i k).rxdSteady = s.rxdSteady := rfl
@[simp] theorem State.raiseKind_power (s : State) (i : ItemIdx) (k : Kind) : (s.raiseKind i k).power = s.power := rfl
@[simp] theorem State.raiseKind_misoDraws (s : State) (i : ItemIdx) (k : Kind) : (s.raiseKind i k).misoDraws = s.misoDraws := rfl
@[simp] theorem State.raiseKind_port (s : State) (i : ItemIdx) (k : Kind) : (s.raiseKind i k).port = s.port := rfl
@[simp] theorem State.raiseKind_csnAsserted (s : State) (i : ItemIdx) (k : Kind) : (s.raiseKind i k).csnAsserted = s.csnAsserted := rfl
@[simp] theorem State.raiseKind_rxdLow (s : State) (i : ItemIdx) (k : Kind) : (s.raiseKind i k).rxdLow = s.rxdLow := rfl
@[simp] theorem State.raiseKind_handover (s : State) (i : ItemIdx) (k : Kind) : (s.raiseKind i k).handover = s.handover := rfl
@[simp] theorem State.raiseKind_pins (s : State) (i : ItemIdx) (k : Kind) : (s.raiseKind i k).pins = s.pins := rfl
@[simp] theorem State.raiseKind_pending (s : State) (i : ItemIdx) (k : Kind) : (s.raiseKind i k).pending = s.pending := rfl

@[simp] theorem State.raiseJoined_mem (s : State) (i : EntryIdx) (n : Station) : (s.raiseJoined i n).mem = s.mem := rfl
@[simp] theorem State.raiseJoined_entries (s : State) (i : EntryIdx) (n : Station) : (s.raiseJoined i n).entries = s.entries := rfl
@[simp] theorem State.raiseJoined_poolFree (s : State) (i : EntryIdx) (n : Station) : (s.raiseJoined i n).poolFree = s.poolFree := rfl
@[simp] theorem State.raiseJoined_rx (s : State) (i : EntryIdx) (n : Station) : (s.raiseJoined i n).rx = s.rx := rfl
@[simp] theorem State.raiseJoined_line (s : State) (i : EntryIdx) (n : Station) : (s.raiseJoined i n).line = s.line := rfl
@[simp] theorem State.raiseJoined_lineGap (s : State) (i : EntryIdx) (n : Station) : (s.raiseJoined i n).lineGap = s.lineGap := rfl
@[simp] theorem State.raiseJoined_round (s : State) (i : EntryIdx) (n : Station) : (s.raiseJoined i n).round = s.round := rfl
@[simp] theorem State.raiseJoined_failCount (s : State) (i : EntryIdx) (n : Station) : (s.raiseJoined i n).failCount = s.failCount := rfl
@[simp] theorem State.raiseJoined_tx (s : State) (i : EntryIdx) (n : Station) : (s.raiseJoined i n).tx = s.tx := rfl
@[simp] theorem State.raiseJoined_replies (s : State) (i : EntryIdx) (n : Station) : (s.raiseJoined i n).replies = s.replies := rfl
@[simp] theorem State.raiseJoined_rrConsumer (s : State) (i : EntryIdx) (n : Station) : (s.raiseJoined i n).rrConsumer = s.rrConsumer := rfl
@[simp] theorem State.raiseJoined_rrProducer (s : State) (i : EntryIdx) (n : Station) : (s.raiseJoined i n).rrProducer = s.rrProducer := rfl
@[simp] theorem State.raiseJoined_station (s : State) (i : EntryIdx) (n : Station) : (s.raiseJoined i n).station = s.station := rfl
@[simp] theorem State.raiseJoined_params (s : State) (i : EntryIdx) (n : Station) : (s.raiseJoined i n).params = s.params := rfl
@[simp] theorem State.raiseJoined_stationNo (s : State) (i : EntryIdx) (n : Station) : (s.raiseJoined i n).stationNo = s.stationNo := rfl
@[simp] theorem State.raiseJoined_rate (s : State) (i : EntryIdx) (n : Station) : (s.raiseJoined i n).rate = s.rate := rfl
@[simp] theorem State.raiseJoined_quiet (s : State) (i : EntryIdx) (n : Station) : (s.raiseJoined i n).quiet = s.quiet := rfl
@[simp] theorem State.raiseJoined_msPhase (s : State) (i : EntryIdx) (n : Station) : (s.raiseJoined i n).msPhase = s.msPhase := rfl
@[simp] theorem State.raiseJoined_rstnLow (s : State) (i : EntryIdx) (n : Station) : (s.raiseJoined i n).rstnLow = s.rstnLow := rfl
@[simp] theorem State.raiseJoined_rxdSteady (s : State) (i : EntryIdx) (n : Station) : (s.raiseJoined i n).rxdSteady = s.rxdSteady := rfl
@[simp] theorem State.raiseJoined_power (s : State) (i : EntryIdx) (n : Station) : (s.raiseJoined i n).power = s.power := rfl
@[simp] theorem State.raiseJoined_misoDraws (s : State) (i : EntryIdx) (n : Station) : (s.raiseJoined i n).misoDraws = s.misoDraws := rfl
@[simp] theorem State.raiseJoined_port (s : State) (i : EntryIdx) (n : Station) : (s.raiseJoined i n).port = s.port := rfl
@[simp] theorem State.raiseJoined_csnAsserted (s : State) (i : EntryIdx) (n : Station) : (s.raiseJoined i n).csnAsserted = s.csnAsserted := rfl
@[simp] theorem State.raiseJoined_rxdLow (s : State) (i : EntryIdx) (n : Station) : (s.raiseJoined i n).rxdLow = s.rxdLow := rfl
@[simp] theorem State.raiseJoined_handover (s : State) (i : EntryIdx) (n : Station) : (s.raiseJoined i n).handover = s.handover := rfl
@[simp] theorem State.raiseJoined_pins (s : State) (i : EntryIdx) (n : Station) : (s.raiseJoined i n).pins = s.pins := rfl
@[simp] theorem State.raiseJoined_pending (s : State) (i : EntryIdx) (n : Station) : (s.raiseJoined i n).pending = s.pending := rfl

@[simp] theorem State.raiseDeparted_mem (s : State) (i : EntryIdx) (n : Station) : (s.raiseDeparted i n).mem = s.mem := rfl
@[simp] theorem State.raiseDeparted_entries (s : State) (i : EntryIdx) (n : Station) : (s.raiseDeparted i n).entries = s.entries := rfl
@[simp] theorem State.raiseDeparted_poolFree (s : State) (i : EntryIdx) (n : Station) : (s.raiseDeparted i n).poolFree = s.poolFree := rfl
@[simp] theorem State.raiseDeparted_rx (s : State) (i : EntryIdx) (n : Station) : (s.raiseDeparted i n).rx = s.rx := rfl
@[simp] theorem State.raiseDeparted_line (s : State) (i : EntryIdx) (n : Station) : (s.raiseDeparted i n).line = s.line := rfl
@[simp] theorem State.raiseDeparted_lineGap (s : State) (i : EntryIdx) (n : Station) : (s.raiseDeparted i n).lineGap = s.lineGap := rfl
@[simp] theorem State.raiseDeparted_round (s : State) (i : EntryIdx) (n : Station) : (s.raiseDeparted i n).round = s.round := rfl
@[simp] theorem State.raiseDeparted_failCount (s : State) (i : EntryIdx) (n : Station) : (s.raiseDeparted i n).failCount = s.failCount := rfl
@[simp] theorem State.raiseDeparted_tx (s : State) (i : EntryIdx) (n : Station) : (s.raiseDeparted i n).tx = s.tx := rfl
@[simp] theorem State.raiseDeparted_replies (s : State) (i : EntryIdx) (n : Station) : (s.raiseDeparted i n).replies = s.replies := rfl
@[simp] theorem State.raiseDeparted_rrConsumer (s : State) (i : EntryIdx) (n : Station) : (s.raiseDeparted i n).rrConsumer = s.rrConsumer := rfl
@[simp] theorem State.raiseDeparted_rrProducer (s : State) (i : EntryIdx) (n : Station) : (s.raiseDeparted i n).rrProducer = s.rrProducer := rfl
@[simp] theorem State.raiseDeparted_station (s : State) (i : EntryIdx) (n : Station) : (s.raiseDeparted i n).station = s.station := rfl
@[simp] theorem State.raiseDeparted_params (s : State) (i : EntryIdx) (n : Station) : (s.raiseDeparted i n).params = s.params := rfl
@[simp] theorem State.raiseDeparted_stationNo (s : State) (i : EntryIdx) (n : Station) : (s.raiseDeparted i n).stationNo = s.stationNo := rfl
@[simp] theorem State.raiseDeparted_rate (s : State) (i : EntryIdx) (n : Station) : (s.raiseDeparted i n).rate = s.rate := rfl
@[simp] theorem State.raiseDeparted_quiet (s : State) (i : EntryIdx) (n : Station) : (s.raiseDeparted i n).quiet = s.quiet := rfl
@[simp] theorem State.raiseDeparted_msPhase (s : State) (i : EntryIdx) (n : Station) : (s.raiseDeparted i n).msPhase = s.msPhase := rfl
@[simp] theorem State.raiseDeparted_rstnLow (s : State) (i : EntryIdx) (n : Station) : (s.raiseDeparted i n).rstnLow = s.rstnLow := rfl
@[simp] theorem State.raiseDeparted_rxdSteady (s : State) (i : EntryIdx) (n : Station) : (s.raiseDeparted i n).rxdSteady = s.rxdSteady := rfl
@[simp] theorem State.raiseDeparted_power (s : State) (i : EntryIdx) (n : Station) : (s.raiseDeparted i n).power = s.power := rfl
@[simp] theorem State.raiseDeparted_misoDraws (s : State) (i : EntryIdx) (n : Station) : (s.raiseDeparted i n).misoDraws = s.misoDraws := rfl
@[simp] theorem State.raiseDeparted_port (s : State) (i : EntryIdx) (n : Station) : (s.raiseDeparted i n).port = s.port := rfl
@[simp] theorem State.raiseDeparted_csnAsserted (s : State) (i : EntryIdx) (n : Station) : (s.raiseDeparted i n).csnAsserted = s.csnAsserted := rfl
@[simp] theorem State.raiseDeparted_rxdLow (s : State) (i : EntryIdx) (n : Station) : (s.raiseDeparted i n).rxdLow = s.rxdLow := rfl
@[simp] theorem State.raiseDeparted_handover (s : State) (i : EntryIdx) (n : Station) : (s.raiseDeparted i n).handover = s.handover := rfl
@[simp] theorem State.raiseDeparted_pins (s : State) (i : EntryIdx) (n : Station) : (s.raiseDeparted i n).pins = s.pins := rfl
@[simp] theorem State.raiseDeparted_pending (s : State) (i : EntryIdx) (n : Station) : (s.raiseDeparted i n).pending = s.pending := rfl

@[simp] theorem State.raiseEvicted_mem (s : State) (i : EntryIdx) (t : StationSet) : (s.raiseEvicted i t).mem = s.mem := rfl
@[simp] theorem State.raiseEvicted_entries (s : State) (i : EntryIdx) (t : StationSet) : (s.raiseEvicted i t).entries = s.entries := rfl
@[simp] theorem State.raiseEvicted_poolFree (s : State) (i : EntryIdx) (t : StationSet) : (s.raiseEvicted i t).poolFree = s.poolFree := rfl
@[simp] theorem State.raiseEvicted_rx (s : State) (i : EntryIdx) (t : StationSet) : (s.raiseEvicted i t).rx = s.rx := rfl
@[simp] theorem State.raiseEvicted_line (s : State) (i : EntryIdx) (t : StationSet) : (s.raiseEvicted i t).line = s.line := rfl
@[simp] theorem State.raiseEvicted_lineGap (s : State) (i : EntryIdx) (t : StationSet) : (s.raiseEvicted i t).lineGap = s.lineGap := rfl
@[simp] theorem State.raiseEvicted_round (s : State) (i : EntryIdx) (t : StationSet) : (s.raiseEvicted i t).round = s.round := rfl
@[simp] theorem State.raiseEvicted_failCount (s : State) (i : EntryIdx) (t : StationSet) : (s.raiseEvicted i t).failCount = s.failCount := rfl
@[simp] theorem State.raiseEvicted_tx (s : State) (i : EntryIdx) (t : StationSet) : (s.raiseEvicted i t).tx = s.tx := rfl
@[simp] theorem State.raiseEvicted_replies (s : State) (i : EntryIdx) (t : StationSet) : (s.raiseEvicted i t).replies = s.replies := rfl
@[simp] theorem State.raiseEvicted_rrConsumer (s : State) (i : EntryIdx) (t : StationSet) : (s.raiseEvicted i t).rrConsumer = s.rrConsumer := rfl
@[simp] theorem State.raiseEvicted_rrProducer (s : State) (i : EntryIdx) (t : StationSet) : (s.raiseEvicted i t).rrProducer = s.rrProducer := rfl
@[simp] theorem State.raiseEvicted_station (s : State) (i : EntryIdx) (t : StationSet) : (s.raiseEvicted i t).station = s.station := rfl
@[simp] theorem State.raiseEvicted_params (s : State) (i : EntryIdx) (t : StationSet) : (s.raiseEvicted i t).params = s.params := rfl
@[simp] theorem State.raiseEvicted_stationNo (s : State) (i : EntryIdx) (t : StationSet) : (s.raiseEvicted i t).stationNo = s.stationNo := rfl
@[simp] theorem State.raiseEvicted_rate (s : State) (i : EntryIdx) (t : StationSet) : (s.raiseEvicted i t).rate = s.rate := rfl
@[simp] theorem State.raiseEvicted_quiet (s : State) (i : EntryIdx) (t : StationSet) : (s.raiseEvicted i t).quiet = s.quiet := rfl
@[simp] theorem State.raiseEvicted_msPhase (s : State) (i : EntryIdx) (t : StationSet) : (s.raiseEvicted i t).msPhase = s.msPhase := rfl
@[simp] theorem State.raiseEvicted_rstnLow (s : State) (i : EntryIdx) (t : StationSet) : (s.raiseEvicted i t).rstnLow = s.rstnLow := rfl
@[simp] theorem State.raiseEvicted_rxdSteady (s : State) (i : EntryIdx) (t : StationSet) : (s.raiseEvicted i t).rxdSteady = s.rxdSteady := rfl
@[simp] theorem State.raiseEvicted_power (s : State) (i : EntryIdx) (t : StationSet) : (s.raiseEvicted i t).power = s.power := rfl
@[simp] theorem State.raiseEvicted_misoDraws (s : State) (i : EntryIdx) (t : StationSet) : (s.raiseEvicted i t).misoDraws = s.misoDraws := rfl
@[simp] theorem State.raiseEvicted_port (s : State) (i : EntryIdx) (t : StationSet) : (s.raiseEvicted i t).port = s.port := rfl
@[simp] theorem State.raiseEvicted_csnAsserted (s : State) (i : EntryIdx) (t : StationSet) : (s.raiseEvicted i t).csnAsserted = s.csnAsserted := rfl
@[simp] theorem State.raiseEvicted_rxdLow (s : State) (i : EntryIdx) (t : StationSet) : (s.raiseEvicted i t).rxdLow = s.rxdLow := rfl
@[simp] theorem State.raiseEvicted_handover (s : State) (i : EntryIdx) (t : StationSet) : (s.raiseEvicted i t).handover = s.handover := rfl
@[simp] theorem State.raiseEvicted_pins (s : State) (i : EntryIdx) (t : StationSet) : (s.raiseEvicted i t).pins = s.pins := rfl
@[simp] theorem State.raiseEvicted_pending (s : State) (i : EntryIdx) (t : StationSet) : (s.raiseEvicted i t).pending = s.pending := rfl

@[simp] theorem State.raiseEnded_mem (s : State) (i : EntryIdx) (c : Cause) : (s.raiseEnded i c).mem = s.mem := rfl
@[simp] theorem State.raiseEnded_entries (s : State) (i : EntryIdx) (c : Cause) : (s.raiseEnded i c).entries = s.entries := rfl
@[simp] theorem State.raiseEnded_poolFree (s : State) (i : EntryIdx) (c : Cause) : (s.raiseEnded i c).poolFree = s.poolFree := rfl
@[simp] theorem State.raiseEnded_rx (s : State) (i : EntryIdx) (c : Cause) : (s.raiseEnded i c).rx = s.rx := rfl
@[simp] theorem State.raiseEnded_line (s : State) (i : EntryIdx) (c : Cause) : (s.raiseEnded i c).line = s.line := rfl
@[simp] theorem State.raiseEnded_lineGap (s : State) (i : EntryIdx) (c : Cause) : (s.raiseEnded i c).lineGap = s.lineGap := rfl
@[simp] theorem State.raiseEnded_round (s : State) (i : EntryIdx) (c : Cause) : (s.raiseEnded i c).round = s.round := rfl
@[simp] theorem State.raiseEnded_failCount (s : State) (i : EntryIdx) (c : Cause) : (s.raiseEnded i c).failCount = s.failCount := rfl
@[simp] theorem State.raiseEnded_tx (s : State) (i : EntryIdx) (c : Cause) : (s.raiseEnded i c).tx = s.tx := rfl
@[simp] theorem State.raiseEnded_replies (s : State) (i : EntryIdx) (c : Cause) : (s.raiseEnded i c).replies = s.replies := rfl
@[simp] theorem State.raiseEnded_rrConsumer (s : State) (i : EntryIdx) (c : Cause) : (s.raiseEnded i c).rrConsumer = s.rrConsumer := rfl
@[simp] theorem State.raiseEnded_rrProducer (s : State) (i : EntryIdx) (c : Cause) : (s.raiseEnded i c).rrProducer = s.rrProducer := rfl
@[simp] theorem State.raiseEnded_station (s : State) (i : EntryIdx) (c : Cause) : (s.raiseEnded i c).station = s.station := rfl
@[simp] theorem State.raiseEnded_params (s : State) (i : EntryIdx) (c : Cause) : (s.raiseEnded i c).params = s.params := rfl
@[simp] theorem State.raiseEnded_stationNo (s : State) (i : EntryIdx) (c : Cause) : (s.raiseEnded i c).stationNo = s.stationNo := rfl
@[simp] theorem State.raiseEnded_rate (s : State) (i : EntryIdx) (c : Cause) : (s.raiseEnded i c).rate = s.rate := rfl
@[simp] theorem State.raiseEnded_quiet (s : State) (i : EntryIdx) (c : Cause) : (s.raiseEnded i c).quiet = s.quiet := rfl
@[simp] theorem State.raiseEnded_msPhase (s : State) (i : EntryIdx) (c : Cause) : (s.raiseEnded i c).msPhase = s.msPhase := rfl
@[simp] theorem State.raiseEnded_rstnLow (s : State) (i : EntryIdx) (c : Cause) : (s.raiseEnded i c).rstnLow = s.rstnLow := rfl
@[simp] theorem State.raiseEnded_rxdSteady (s : State) (i : EntryIdx) (c : Cause) : (s.raiseEnded i c).rxdSteady = s.rxdSteady := rfl
@[simp] theorem State.raiseEnded_power (s : State) (i : EntryIdx) (c : Cause) : (s.raiseEnded i c).power = s.power := rfl
@[simp] theorem State.raiseEnded_misoDraws (s : State) (i : EntryIdx) (c : Cause) : (s.raiseEnded i c).misoDraws = s.misoDraws := rfl
@[simp] theorem State.raiseEnded_port (s : State) (i : EntryIdx) (c : Cause) : (s.raiseEnded i c).port = s.port := rfl
@[simp] theorem State.raiseEnded_csnAsserted (s : State) (i : EntryIdx) (c : Cause) : (s.raiseEnded i c).csnAsserted = s.csnAsserted := rfl
@[simp] theorem State.raiseEnded_rxdLow (s : State) (i : EntryIdx) (c : Cause) : (s.raiseEnded i c).rxdLow = s.rxdLow := rfl
@[simp] theorem State.raiseEnded_handover (s : State) (i : EntryIdx) (c : Cause) : (s.raiseEnded i c).handover = s.handover := rfl
@[simp] theorem State.raiseEnded_pins (s : State) (i : EntryIdx) (c : Cause) : (s.raiseEnded i c).pins = s.pins := rfl
@[simp] theorem State.raiseEnded_pending (s : State) (i : EntryIdx) (c : Cause) : (s.raiseEnded i c).pending = s.pending := rfl

@[simp] theorem State.withdrawItem_mem (s : State) (i : ItemIdx) : (s.withdrawItem i).mem = s.mem := rfl
@[simp] theorem State.withdrawItem_entries (s : State) (i : ItemIdx) : (s.withdrawItem i).entries = s.entries := rfl
@[simp] theorem State.withdrawItem_poolFree (s : State) (i : ItemIdx) : (s.withdrawItem i).poolFree = s.poolFree := rfl
@[simp] theorem State.withdrawItem_rx (s : State) (i : ItemIdx) : (s.withdrawItem i).rx = s.rx := rfl
@[simp] theorem State.withdrawItem_line (s : State) (i : ItemIdx) : (s.withdrawItem i).line = s.line := rfl
@[simp] theorem State.withdrawItem_lineGap (s : State) (i : ItemIdx) : (s.withdrawItem i).lineGap = s.lineGap := rfl
@[simp] theorem State.withdrawItem_round (s : State) (i : ItemIdx) : (s.withdrawItem i).round = s.round := rfl
@[simp] theorem State.withdrawItem_failCount (s : State) (i : ItemIdx) : (s.withdrawItem i).failCount = s.failCount := rfl
@[simp] theorem State.withdrawItem_tx (s : State) (i : ItemIdx) : (s.withdrawItem i).tx = s.tx := rfl
@[simp] theorem State.withdrawItem_replies (s : State) (i : ItemIdx) : (s.withdrawItem i).replies = s.replies := rfl
@[simp] theorem State.withdrawItem_rrConsumer (s : State) (i : ItemIdx) : (s.withdrawItem i).rrConsumer = s.rrConsumer := rfl
@[simp] theorem State.withdrawItem_rrProducer (s : State) (i : ItemIdx) : (s.withdrawItem i).rrProducer = s.rrProducer := rfl
@[simp] theorem State.withdrawItem_station (s : State) (i : ItemIdx) : (s.withdrawItem i).station = s.station := rfl
@[simp] theorem State.withdrawItem_params (s : State) (i : ItemIdx) : (s.withdrawItem i).params = s.params := rfl
@[simp] theorem State.withdrawItem_stationNo (s : State) (i : ItemIdx) : (s.withdrawItem i).stationNo = s.stationNo := rfl
@[simp] theorem State.withdrawItem_rate (s : State) (i : ItemIdx) : (s.withdrawItem i).rate = s.rate := rfl
@[simp] theorem State.withdrawItem_quiet (s : State) (i : ItemIdx) : (s.withdrawItem i).quiet = s.quiet := rfl
@[simp] theorem State.withdrawItem_msPhase (s : State) (i : ItemIdx) : (s.withdrawItem i).msPhase = s.msPhase := rfl
@[simp] theorem State.withdrawItem_rstnLow (s : State) (i : ItemIdx) : (s.withdrawItem i).rstnLow = s.rstnLow := rfl
@[simp] theorem State.withdrawItem_rxdSteady (s : State) (i : ItemIdx) : (s.withdrawItem i).rxdSteady = s.rxdSteady := rfl
@[simp] theorem State.withdrawItem_power (s : State) (i : ItemIdx) : (s.withdrawItem i).power = s.power := rfl
@[simp] theorem State.withdrawItem_misoDraws (s : State) (i : ItemIdx) : (s.withdrawItem i).misoDraws = s.misoDraws := rfl
@[simp] theorem State.withdrawItem_port (s : State) (i : ItemIdx) : (s.withdrawItem i).port = s.port := rfl
@[simp] theorem State.withdrawItem_csnAsserted (s : State) (i : ItemIdx) : (s.withdrawItem i).csnAsserted = s.csnAsserted := rfl
@[simp] theorem State.withdrawItem_rxdLow (s : State) (i : ItemIdx) : (s.withdrawItem i).rxdLow = s.rxdLow := rfl
@[simp] theorem State.withdrawItem_handover (s : State) (i : ItemIdx) : (s.withdrawItem i).handover = s.handover := rfl
@[simp] theorem State.withdrawItem_pins (s : State) (i : ItemIdx) : (s.withdrawItem i).pins = s.pins := rfl
@[simp] theorem State.withdrawItem_pending (s : State) (i : ItemIdx) : (s.withdrawItem i).pending = s.pending := rfl

@[simp] theorem State.reply_mem (s : State) (d : Station) (st : StreamNo) (b : ReplyBody) : (s.reply d st b).mem = s.mem := rfl
@[simp] theorem State.reply_entries (s : State) (d : Station) (st : StreamNo) (b : ReplyBody) : (s.reply d st b).entries = s.entries := rfl
@[simp] theorem State.reply_poolFree (s : State) (d : Station) (st : StreamNo) (b : ReplyBody) : (s.reply d st b).poolFree = s.poolFree := rfl
@[simp] theorem State.reply_items (s : State) (d : Station) (st : StreamNo) (b : ReplyBody) : (s.reply d st b).items = s.items := rfl
@[simp] theorem State.reply_noticeQueue (s : State) (d : Station) (st : StreamNo) (b : ReplyBody) : (s.reply d st b).noticeQueue = s.noticeQueue := rfl
@[simp] theorem State.reply_rx (s : State) (d : Station) (st : StreamNo) (b : ReplyBody) : (s.reply d st b).rx = s.rx := rfl
@[simp] theorem State.reply_line (s : State) (d : Station) (st : StreamNo) (b : ReplyBody) : (s.reply d st b).line = s.line := rfl
@[simp] theorem State.reply_lineGap (s : State) (d : Station) (st : StreamNo) (b : ReplyBody) : (s.reply d st b).lineGap = s.lineGap := rfl
@[simp] theorem State.reply_round (s : State) (d : Station) (st : StreamNo) (b : ReplyBody) : (s.reply d st b).round = s.round := rfl
@[simp] theorem State.reply_failCount (s : State) (d : Station) (st : StreamNo) (b : ReplyBody) : (s.reply d st b).failCount = s.failCount := rfl
@[simp] theorem State.reply_tx (s : State) (d : Station) (st : StreamNo) (b : ReplyBody) : (s.reply d st b).tx = s.tx := rfl
@[simp] theorem State.reply_rrConsumer (s : State) (d : Station) (st : StreamNo) (b : ReplyBody) : (s.reply d st b).rrConsumer = s.rrConsumer := rfl
@[simp] theorem State.reply_rrProducer (s : State) (d : Station) (st : StreamNo) (b : ReplyBody) : (s.reply d st b).rrProducer = s.rrProducer := rfl
@[simp] theorem State.reply_station (s : State) (d : Station) (st : StreamNo) (b : ReplyBody) : (s.reply d st b).station = s.station := rfl
@[simp] theorem State.reply_params (s : State) (d : Station) (st : StreamNo) (b : ReplyBody) : (s.reply d st b).params = s.params := rfl
@[simp] theorem State.reply_stationNo (s : State) (d : Station) (st : StreamNo) (b : ReplyBody) : (s.reply d st b).stationNo = s.stationNo := rfl
@[simp] theorem State.reply_rate (s : State) (d : Station) (st : StreamNo) (b : ReplyBody) : (s.reply d st b).rate = s.rate := rfl
@[simp] theorem State.reply_quiet (s : State) (d : Station) (st : StreamNo) (b : ReplyBody) : (s.reply d st b).quiet = s.quiet := rfl
@[simp] theorem State.reply_msPhase (s : State) (d : Station) (st : StreamNo) (b : ReplyBody) : (s.reply d st b).msPhase = s.msPhase := rfl
@[simp] theorem State.reply_rstnLow (s : State) (d : Station) (st : StreamNo) (b : ReplyBody) : (s.reply d st b).rstnLow = s.rstnLow := rfl
@[simp] theorem State.reply_rxdSteady (s : State) (d : Station) (st : StreamNo) (b : ReplyBody) : (s.reply d st b).rxdSteady = s.rxdSteady := rfl
@[simp] theorem State.reply_power (s : State) (d : Station) (st : StreamNo) (b : ReplyBody) : (s.reply d st b).power = s.power := rfl
@[simp] theorem State.reply_misoDraws (s : State) (d : Station) (st : StreamNo) (b : ReplyBody) : (s.reply d st b).misoDraws = s.misoDraws := rfl
@[simp] theorem State.reply_port (s : State) (d : Station) (st : StreamNo) (b : ReplyBody) : (s.reply d st b).port = s.port := rfl
@[simp] theorem State.reply_csnAsserted (s : State) (d : Station) (st : StreamNo) (b : ReplyBody) : (s.reply d st b).csnAsserted = s.csnAsserted := rfl
@[simp] theorem State.reply_rxdLow (s : State) (d : Station) (st : StreamNo) (b : ReplyBody) : (s.reply d st b).rxdLow = s.rxdLow := rfl
@[simp] theorem State.reply_handover (s : State) (d : Station) (st : StreamNo) (b : ReplyBody) : (s.reply d st b).handover = s.handover := rfl
@[simp] theorem State.reply_pins (s : State) (d : Station) (st : StreamNo) (b : ReplyBody) : (s.reply d st b).pins = s.pins := rfl
@[simp] theorem State.reply_pending (s : State) (d : Station) (st : StreamNo) (b : ReplyBody) : (s.reply d st b).pending = s.pending := rfl

@[simp] theorem State.endEntry_mem (s : State) (i : EntryIdx) (c : Cause) : (s.endEntry i c).mem = s.mem := rfl
@[simp] theorem State.endEntry_rx (s : State) (i : EntryIdx) (c : Cause) : (s.endEntry i c).rx = s.rx := rfl
@[simp] theorem State.endEntry_line (s : State) (i : EntryIdx) (c : Cause) : (s.endEntry i c).line = s.line := rfl
@[simp] theorem State.endEntry_lineGap (s : State) (i : EntryIdx) (c : Cause) : (s.endEntry i c).lineGap = s.lineGap := rfl
@[simp] theorem State.endEntry_round (s : State) (i : EntryIdx) (c : Cause) : (s.endEntry i c).round = s.round := rfl
@[simp] theorem State.endEntry_failCount (s : State) (i : EntryIdx) (c : Cause) : (s.endEntry i c).failCount = s.failCount := rfl
@[simp] theorem State.endEntry_replies (s : State) (i : EntryIdx) (c : Cause) : (s.endEntry i c).replies = s.replies := rfl
@[simp] theorem State.endEntry_rrConsumer (s : State) (i : EntryIdx) (c : Cause) : (s.endEntry i c).rrConsumer = s.rrConsumer := rfl
@[simp] theorem State.endEntry_rrProducer (s : State) (i : EntryIdx) (c : Cause) : (s.endEntry i c).rrProducer = s.rrProducer := rfl
@[simp] theorem State.endEntry_station (s : State) (i : EntryIdx) (c : Cause) : (s.endEntry i c).station = s.station := rfl
@[simp] theorem State.endEntry_params (s : State) (i : EntryIdx) (c : Cause) : (s.endEntry i c).params = s.params := rfl
@[simp] theorem State.endEntry_stationNo (s : State) (i : EntryIdx) (c : Cause) : (s.endEntry i c).stationNo = s.stationNo := rfl
@[simp] theorem State.endEntry_rate (s : State) (i : EntryIdx) (c : Cause) : (s.endEntry i c).rate = s.rate := rfl
@[simp] theorem State.endEntry_quiet (s : State) (i : EntryIdx) (c : Cause) : (s.endEntry i c).quiet = s.quiet := rfl
@[simp] theorem State.endEntry_msPhase (s : State) (i : EntryIdx) (c : Cause) : (s.endEntry i c).msPhase = s.msPhase := rfl
@[simp] theorem State.endEntry_rstnLow (s : State) (i : EntryIdx) (c : Cause) : (s.endEntry i c).rstnLow = s.rstnLow := rfl
@[simp] theorem State.endEntry_rxdSteady (s : State) (i : EntryIdx) (c : Cause) : (s.endEntry i c).rxdSteady = s.rxdSteady := rfl
@[simp] theorem State.endEntry_power (s : State) (i : EntryIdx) (c : Cause) : (s.endEntry i c).power = s.power := rfl
@[simp] theorem State.endEntry_misoDraws (s : State) (i : EntryIdx) (c : Cause) : (s.endEntry i c).misoDraws = s.misoDraws := rfl
@[simp] theorem State.endEntry_port (s : State) (i : EntryIdx) (c : Cause) : (s.endEntry i c).port = s.port := rfl
@[simp] theorem State.endEntry_csnAsserted (s : State) (i : EntryIdx) (c : Cause) : (s.endEntry i c).csnAsserted = s.csnAsserted := rfl
@[simp] theorem State.endEntry_rxdLow (s : State) (i : EntryIdx) (c : Cause) : (s.endEntry i c).rxdLow = s.rxdLow := rfl
@[simp] theorem State.endEntry_pins (s : State) (i : EntryIdx) (c : Cause) : (s.endEntry i c).pins = s.pins := rfl
@[simp] theorem State.endEntry_pending (s : State) (i : EntryIdx) (c : Cause) : (s.endEntry i c).pending = s.pending := rfl

@[simp] theorem State.answer_mem (s : State) (cmd : ReadCmd) (rc : ResultCode) (b : List Byte) : (s.answer cmd rc b).mem = s.mem := rfl
@[simp] theorem State.answer_entries (s : State) (cmd : ReadCmd) (rc : ResultCode) (b : List Byte) : (s.answer cmd rc b).entries = s.entries := rfl
@[simp] theorem State.answer_poolFree (s : State) (cmd : ReadCmd) (rc : ResultCode) (b : List Byte) : (s.answer cmd rc b).poolFree = s.poolFree := rfl
@[simp] theorem State.answer_items (s : State) (cmd : ReadCmd) (rc : ResultCode) (b : List Byte) : (s.answer cmd rc b).items = s.items := rfl
@[simp] theorem State.answer_noticeQueue (s : State) (cmd : ReadCmd) (rc : ResultCode) (b : List Byte) : (s.answer cmd rc b).noticeQueue = s.noticeQueue := rfl
@[simp] theorem State.answer_rx (s : State) (cmd : ReadCmd) (rc : ResultCode) (b : List Byte) : (s.answer cmd rc b).rx = s.rx := rfl
@[simp] theorem State.answer_line (s : State) (cmd : ReadCmd) (rc : ResultCode) (b : List Byte) : (s.answer cmd rc b).line = s.line := rfl
@[simp] theorem State.answer_lineGap (s : State) (cmd : ReadCmd) (rc : ResultCode) (b : List Byte) : (s.answer cmd rc b).lineGap = s.lineGap := rfl
@[simp] theorem State.answer_round (s : State) (cmd : ReadCmd) (rc : ResultCode) (b : List Byte) : (s.answer cmd rc b).round = s.round := rfl
@[simp] theorem State.answer_failCount (s : State) (cmd : ReadCmd) (rc : ResultCode) (b : List Byte) : (s.answer cmd rc b).failCount = s.failCount := rfl
@[simp] theorem State.answer_tx (s : State) (cmd : ReadCmd) (rc : ResultCode) (b : List Byte) : (s.answer cmd rc b).tx = s.tx := rfl
@[simp] theorem State.answer_replies (s : State) (cmd : ReadCmd) (rc : ResultCode) (b : List Byte) : (s.answer cmd rc b).replies = s.replies := rfl
@[simp] theorem State.answer_rrConsumer (s : State) (cmd : ReadCmd) (rc : ResultCode) (b : List Byte) : (s.answer cmd rc b).rrConsumer = s.rrConsumer := rfl
@[simp] theorem State.answer_rrProducer (s : State) (cmd : ReadCmd) (rc : ResultCode) (b : List Byte) : (s.answer cmd rc b).rrProducer = s.rrProducer := rfl
@[simp] theorem State.answer_station (s : State) (cmd : ReadCmd) (rc : ResultCode) (b : List Byte) : (s.answer cmd rc b).station = s.station := rfl
@[simp] theorem State.answer_params (s : State) (cmd : ReadCmd) (rc : ResultCode) (b : List Byte) : (s.answer cmd rc b).params = s.params := rfl
@[simp] theorem State.answer_stationNo (s : State) (cmd : ReadCmd) (rc : ResultCode) (b : List Byte) : (s.answer cmd rc b).stationNo = s.stationNo := rfl
@[simp] theorem State.answer_rate (s : State) (cmd : ReadCmd) (rc : ResultCode) (b : List Byte) : (s.answer cmd rc b).rate = s.rate := rfl
@[simp] theorem State.answer_quiet (s : State) (cmd : ReadCmd) (rc : ResultCode) (b : List Byte) : (s.answer cmd rc b).quiet = s.quiet := rfl
@[simp] theorem State.answer_msPhase (s : State) (cmd : ReadCmd) (rc : ResultCode) (b : List Byte) : (s.answer cmd rc b).msPhase = s.msPhase := rfl
@[simp] theorem State.answer_rstnLow (s : State) (cmd : ReadCmd) (rc : ResultCode) (b : List Byte) : (s.answer cmd rc b).rstnLow = s.rstnLow := rfl
@[simp] theorem State.answer_rxdSteady (s : State) (cmd : ReadCmd) (rc : ResultCode) (b : List Byte) : (s.answer cmd rc b).rxdSteady = s.rxdSteady := rfl
@[simp] theorem State.answer_power (s : State) (cmd : ReadCmd) (rc : ResultCode) (b : List Byte) : (s.answer cmd rc b).power = s.power := rfl
@[simp] theorem State.answer_misoDraws (s : State) (cmd : ReadCmd) (rc : ResultCode) (b : List Byte) : (s.answer cmd rc b).misoDraws = s.misoDraws := rfl
@[simp] theorem State.answer_csnAsserted (s : State) (cmd : ReadCmd) (rc : ResultCode) (b : List Byte) : (s.answer cmd rc b).csnAsserted = s.csnAsserted := rfl
@[simp] theorem State.answer_rxdLow (s : State) (cmd : ReadCmd) (rc : ResultCode) (b : List Byte) : (s.answer cmd rc b).rxdLow = s.rxdLow := rfl
@[simp] theorem State.answer_handover (s : State) (cmd : ReadCmd) (rc : ResultCode) (b : List Byte) : (s.answer cmd rc b).handover = s.handover := rfl
@[simp] theorem State.answer_pins (s : State) (cmd : ReadCmd) (rc : ResultCode) (b : List Byte) : (s.answer cmd rc b).pins = s.pins := rfl
@[simp] theorem State.answer_pending (s : State) (cmd : ReadCmd) (rc : ResultCode) (b : List Byte) : (s.answer cmd rc b).pending = s.pending := rfl

@[simp] theorem State.restartSilence_mem (s : State) (i : EntryIdx) : (s.restartSilence i).mem = s.mem := rfl
@[simp] theorem State.restartSilence_poolFree (s : State) (i : EntryIdx) : (s.restartSilence i).poolFree = s.poolFree := rfl
@[simp] theorem State.restartSilence_items (s : State) (i : EntryIdx) : (s.restartSilence i).items = s.items := rfl
@[simp] theorem State.restartSilence_noticeQueue (s : State) (i : EntryIdx) : (s.restartSilence i).noticeQueue = s.noticeQueue := rfl
@[simp] theorem State.restartSilence_rx (s : State) (i : EntryIdx) : (s.restartSilence i).rx = s.rx := rfl
@[simp] theorem State.restartSilence_line (s : State) (i : EntryIdx) : (s.restartSilence i).line = s.line := rfl
@[simp] theorem State.restartSilence_lineGap (s : State) (i : EntryIdx) : (s.restartSilence i).lineGap = s.lineGap := rfl
@[simp] theorem State.restartSilence_round (s : State) (i : EntryIdx) : (s.restartSilence i).round = s.round := rfl
@[simp] theorem State.restartSilence_failCount (s : State) (i : EntryIdx) : (s.restartSilence i).failCount = s.failCount := rfl
@[simp] theorem State.restartSilence_tx (s : State) (i : EntryIdx) : (s.restartSilence i).tx = s.tx := rfl
@[simp] theorem State.restartSilence_replies (s : State) (i : EntryIdx) : (s.restartSilence i).replies = s.replies := rfl
@[simp] theorem State.restartSilence_rrConsumer (s : State) (i : EntryIdx) : (s.restartSilence i).rrConsumer = s.rrConsumer := rfl
@[simp] theorem State.restartSilence_rrProducer (s : State) (i : EntryIdx) : (s.restartSilence i).rrProducer = s.rrProducer := rfl
@[simp] theorem State.restartSilence_station (s : State) (i : EntryIdx) : (s.restartSilence i).station = s.station := rfl
@[simp] theorem State.restartSilence_params (s : State) (i : EntryIdx) : (s.restartSilence i).params = s.params := rfl
@[simp] theorem State.restartSilence_stationNo (s : State) (i : EntryIdx) : (s.restartSilence i).stationNo = s.stationNo := rfl
@[simp] theorem State.restartSilence_rate (s : State) (i : EntryIdx) : (s.restartSilence i).rate = s.rate := rfl
@[simp] theorem State.restartSilence_quiet (s : State) (i : EntryIdx) : (s.restartSilence i).quiet = s.quiet := rfl
@[simp] theorem State.restartSilence_msPhase (s : State) (i : EntryIdx) : (s.restartSilence i).msPhase = s.msPhase := rfl
@[simp] theorem State.restartSilence_rstnLow (s : State) (i : EntryIdx) : (s.restartSilence i).rstnLow = s.rstnLow := rfl
@[simp] theorem State.restartSilence_rxdSteady (s : State) (i : EntryIdx) : (s.restartSilence i).rxdSteady = s.rxdSteady := rfl
@[simp] theorem State.restartSilence_power (s : State) (i : EntryIdx) : (s.restartSilence i).power = s.power := rfl
@[simp] theorem State.restartSilence_misoDraws (s : State) (i : EntryIdx) : (s.restartSilence i).misoDraws = s.misoDraws := rfl
@[simp] theorem State.restartSilence_port (s : State) (i : EntryIdx) : (s.restartSilence i).port = s.port := rfl
@[simp] theorem State.restartSilence_csnAsserted (s : State) (i : EntryIdx) : (s.restartSilence i).csnAsserted = s.csnAsserted := rfl
@[simp] theorem State.restartSilence_rxdLow (s : State) (i : EntryIdx) : (s.restartSilence i).rxdLow = s.rxdLow := rfl
@[simp] theorem State.restartSilence_handover (s : State) (i : EntryIdx) : (s.restartSilence i).handover = s.handover := rfl
@[simp] theorem State.restartSilence_pins (s : State) (i : EntryIdx) : (s.restartSilence i).pins = s.pins := rfl
@[simp] theorem State.restartSilence_pending (s : State) (i : EntryIdx) : (s.restartSilence i).pending = s.pending := rfl

@[simp] theorem State.oweAck_mem (s : State) (i : EntryIdx) : (s.oweAck i).mem = s.mem := rfl
@[simp] theorem State.oweAck_poolFree (s : State) (i : EntryIdx) : (s.oweAck i).poolFree = s.poolFree := rfl
@[simp] theorem State.oweAck_items (s : State) (i : EntryIdx) : (s.oweAck i).items = s.items := rfl
@[simp] theorem State.oweAck_noticeQueue (s : State) (i : EntryIdx) : (s.oweAck i).noticeQueue = s.noticeQueue := rfl
@[simp] theorem State.oweAck_rx (s : State) (i : EntryIdx) : (s.oweAck i).rx = s.rx := rfl
@[simp] theorem State.oweAck_line (s : State) (i : EntryIdx) : (s.oweAck i).line = s.line := rfl
@[simp] theorem State.oweAck_lineGap (s : State) (i : EntryIdx) : (s.oweAck i).lineGap = s.lineGap := rfl
@[simp] theorem State.oweAck_round (s : State) (i : EntryIdx) : (s.oweAck i).round = s.round := rfl
@[simp] theorem State.oweAck_failCount (s : State) (i : EntryIdx) : (s.oweAck i).failCount = s.failCount := rfl
@[simp] theorem State.oweAck_tx (s : State) (i : EntryIdx) : (s.oweAck i).tx = s.tx := rfl
@[simp] theorem State.oweAck_replies (s : State) (i : EntryIdx) : (s.oweAck i).replies = s.replies := rfl
@[simp] theorem State.oweAck_rrConsumer (s : State) (i : EntryIdx) : (s.oweAck i).rrConsumer = s.rrConsumer := rfl
@[simp] theorem State.oweAck_rrProducer (s : State) (i : EntryIdx) : (s.oweAck i).rrProducer = s.rrProducer := rfl
@[simp] theorem State.oweAck_station (s : State) (i : EntryIdx) : (s.oweAck i).station = s.station := rfl
@[simp] theorem State.oweAck_params (s : State) (i : EntryIdx) : (s.oweAck i).params = s.params := rfl
@[simp] theorem State.oweAck_stationNo (s : State) (i : EntryIdx) : (s.oweAck i).stationNo = s.stationNo := rfl
@[simp] theorem State.oweAck_rate (s : State) (i : EntryIdx) : (s.oweAck i).rate = s.rate := rfl
@[simp] theorem State.oweAck_quiet (s : State) (i : EntryIdx) : (s.oweAck i).quiet = s.quiet := rfl
@[simp] theorem State.oweAck_msPhase (s : State) (i : EntryIdx) : (s.oweAck i).msPhase = s.msPhase := rfl
@[simp] theorem State.oweAck_rstnLow (s : State) (i : EntryIdx) : (s.oweAck i).rstnLow = s.rstnLow := rfl
@[simp] theorem State.oweAck_rxdSteady (s : State) (i : EntryIdx) : (s.oweAck i).rxdSteady = s.rxdSteady := rfl
@[simp] theorem State.oweAck_power (s : State) (i : EntryIdx) : (s.oweAck i).power = s.power := rfl
@[simp] theorem State.oweAck_misoDraws (s : State) (i : EntryIdx) : (s.oweAck i).misoDraws = s.misoDraws := rfl
@[simp] theorem State.oweAck_port (s : State) (i : EntryIdx) : (s.oweAck i).port = s.port := rfl
@[simp] theorem State.oweAck_csnAsserted (s : State) (i : EntryIdx) : (s.oweAck i).csnAsserted = s.csnAsserted := rfl
@[simp] theorem State.oweAck_rxdLow (s : State) (i : EntryIdx) : (s.oweAck i).rxdLow = s.rxdLow := rfl
@[simp] theorem State.oweAck_handover (s : State) (i : EntryIdx) : (s.oweAck i).handover = s.handover := rfl
@[simp] theorem State.oweAck_pins (s : State) (i : EntryIdx) : (s.oweAck i).pins = s.pins := rfl
@[simp] theorem State.oweAck_pending (s : State) (i : EntryIdx) : (s.oweAck i).pending = s.pending := rfl

@[simp] theorem State.startSlot_mem (s : State) (o : Station) (r : Nat) (k : BitVec 5) : (s.startSlot o r k).mem = s.mem := rfl
@[simp] theorem State.startSlot_entries (s : State) (o : Station) (r : Nat) (k : BitVec 5) : (s.startSlot o r k).entries = s.entries := rfl
@[simp] theorem State.startSlot_poolFree (s : State) (o : Station) (r : Nat) (k : BitVec 5) : (s.startSlot o r k).poolFree = s.poolFree := rfl
@[simp] theorem State.startSlot_items (s : State) (o : Station) (r : Nat) (k : BitVec 5) : (s.startSlot o r k).items = s.items := rfl
@[simp] theorem State.startSlot_noticeQueue (s : State) (o : Station) (r : Nat) (k : BitVec 5) : (s.startSlot o r k).noticeQueue = s.noticeQueue := rfl
@[simp] theorem State.startSlot_rx (s : State) (o : Station) (r : Nat) (k : BitVec 5) : (s.startSlot o r k).rx = s.rx := rfl
@[simp] theorem State.startSlot_line (s : State) (o : Station) (r : Nat) (k : BitVec 5) : (s.startSlot o r k).line = s.line := rfl
@[simp] theorem State.startSlot_lineGap (s : State) (o : Station) (r : Nat) (k : BitVec 5) : (s.startSlot o r k).lineGap = s.lineGap := rfl
@[simp] theorem State.startSlot_failCount (s : State) (o : Station) (r : Nat) (k : BitVec 5) : (s.startSlot o r k).failCount = s.failCount := rfl
@[simp] theorem State.startSlot_replies (s : State) (o : Station) (r : Nat) (k : BitVec 5) : (s.startSlot o r k).replies = s.replies := rfl
@[simp] theorem State.startSlot_rrConsumer (s : State) (o : Station) (r : Nat) (k : BitVec 5) : (s.startSlot o r k).rrConsumer = s.rrConsumer := rfl
@[simp] theorem State.startSlot_rrProducer (s : State) (o : Station) (r : Nat) (k : BitVec 5) : (s.startSlot o r k).rrProducer = s.rrProducer := rfl
@[simp] theorem State.startSlot_station (s : State) (o : Station) (r : Nat) (k : BitVec 5) : (s.startSlot o r k).station = s.station := rfl
@[simp] theorem State.startSlot_params (s : State) (o : Station) (r : Nat) (k : BitVec 5) : (s.startSlot o r k).params = s.params := rfl
@[simp] theorem State.startSlot_stationNo (s : State) (o : Station) (r : Nat) (k : BitVec 5) : (s.startSlot o r k).stationNo = s.stationNo := rfl
@[simp] theorem State.startSlot_rate (s : State) (o : Station) (r : Nat) (k : BitVec 5) : (s.startSlot o r k).rate = s.rate := rfl
@[simp] theorem State.startSlot_quiet (s : State) (o : Station) (r : Nat) (k : BitVec 5) : (s.startSlot o r k).quiet = s.quiet := rfl
@[simp] theorem State.startSlot_msPhase (s : State) (o : Station) (r : Nat) (k : BitVec 5) : (s.startSlot o r k).msPhase = s.msPhase := rfl
@[simp] theorem State.startSlot_rstnLow (s : State) (o : Station) (r : Nat) (k : BitVec 5) : (s.startSlot o r k).rstnLow = s.rstnLow := rfl
@[simp] theorem State.startSlot_rxdSteady (s : State) (o : Station) (r : Nat) (k : BitVec 5) : (s.startSlot o r k).rxdSteady = s.rxdSteady := rfl
@[simp] theorem State.startSlot_power (s : State) (o : Station) (r : Nat) (k : BitVec 5) : (s.startSlot o r k).power = s.power := rfl
@[simp] theorem State.startSlot_misoDraws (s : State) (o : Station) (r : Nat) (k : BitVec 5) : (s.startSlot o r k).misoDraws = s.misoDraws := rfl
@[simp] theorem State.startSlot_port (s : State) (o : Station) (r : Nat) (k : BitVec 5) : (s.startSlot o r k).port = s.port := rfl
@[simp] theorem State.startSlot_csnAsserted (s : State) (o : Station) (r : Nat) (k : BitVec 5) : (s.startSlot o r k).csnAsserted = s.csnAsserted := rfl
@[simp] theorem State.startSlot_rxdLow (s : State) (o : Station) (r : Nat) (k : BitVec 5) : (s.startSlot o r k).rxdLow = s.rxdLow := rfl
@[simp] theorem State.startSlot_handover (s : State) (o : Station) (r : Nat) (k : BitVec 5) : (s.startSlot o r k).handover = s.handover := rfl
@[simp] theorem State.startSlot_pins (s : State) (o : Station) (r : Nat) (k : BitVec 5) : (s.startSlot o r k).pins = s.pins := rfl
@[simp] theorem State.startSlot_pending (s : State) (o : Station) (r : Nat) (k : BitVec 5) : (s.startSlot o r k).pending = s.pending := rfl

@[simp] theorem State.stopDriving_mem (s : State) : (s.stopDriving).mem = s.mem := rfl
@[simp] theorem State.stopDriving_entries (s : State) : (s.stopDriving).entries = s.entries := rfl
@[simp] theorem State.stopDriving_poolFree (s : State) : (s.stopDriving).poolFree = s.poolFree := rfl
@[simp] theorem State.stopDriving_items (s : State) : (s.stopDriving).items = s.items := rfl
@[simp] theorem State.stopDriving_noticeQueue (s : State) : (s.stopDriving).noticeQueue = s.noticeQueue := rfl
@[simp] theorem State.stopDriving_line (s : State) : (s.stopDriving).line = s.line := rfl
@[simp] theorem State.stopDriving_round (s : State) : (s.stopDriving).round = s.round := rfl
@[simp] theorem State.stopDriving_failCount (s : State) : (s.stopDriving).failCount = s.failCount := rfl
@[simp] theorem State.stopDriving_replies (s : State) : (s.stopDriving).replies = s.replies := rfl
@[simp] theorem State.stopDriving_rrConsumer (s : State) : (s.stopDriving).rrConsumer = s.rrConsumer := rfl
@[simp] theorem State.stopDriving_rrProducer (s : State) : (s.stopDriving).rrProducer = s.rrProducer := rfl
@[simp] theorem State.stopDriving_station (s : State) : (s.stopDriving).station = s.station := rfl
@[simp] theorem State.stopDriving_params (s : State) : (s.stopDriving).params = s.params := rfl
@[simp] theorem State.stopDriving_stationNo (s : State) : (s.stopDriving).stationNo = s.stationNo := rfl
@[simp] theorem State.stopDriving_rate (s : State) : (s.stopDriving).rate = s.rate := rfl
@[simp] theorem State.stopDriving_quiet (s : State) : (s.stopDriving).quiet = s.quiet := rfl
@[simp] theorem State.stopDriving_msPhase (s : State) : (s.stopDriving).msPhase = s.msPhase := rfl
@[simp] theorem State.stopDriving_rstnLow (s : State) : (s.stopDriving).rstnLow = s.rstnLow := rfl
@[simp] theorem State.stopDriving_rxdSteady (s : State) : (s.stopDriving).rxdSteady = s.rxdSteady := rfl
@[simp] theorem State.stopDriving_power (s : State) : (s.stopDriving).power = s.power := rfl
@[simp] theorem State.stopDriving_misoDraws (s : State) : (s.stopDriving).misoDraws = s.misoDraws := rfl
@[simp] theorem State.stopDriving_port (s : State) : (s.stopDriving).port = s.port := rfl
@[simp] theorem State.stopDriving_csnAsserted (s : State) : (s.stopDriving).csnAsserted = s.csnAsserted := rfl
@[simp] theorem State.stopDriving_rxdLow (s : State) : (s.stopDriving).rxdLow = s.rxdLow := rfl
@[simp] theorem State.stopDriving_handover (s : State) : (s.stopDriving).handover = s.handover := rfl
@[simp] theorem State.stopDriving_pins (s : State) : (s.stopDriving).pins = s.pins := rfl
@[simp] theorem State.stopDriving_pending (s : State) : (s.stopDriving).pending = s.pending := rfl

@[simp] theorem State.rxTo_mem (s : State) (r : RxState) : (s.rxTo r).mem = s.mem := rfl
@[simp] theorem State.rxTo_entries (s : State) (r : RxState) : (s.rxTo r).entries = s.entries := rfl
@[simp] theorem State.rxTo_poolFree (s : State) (r : RxState) : (s.rxTo r).poolFree = s.poolFree := rfl
@[simp] theorem State.rxTo_items (s : State) (r : RxState) : (s.rxTo r).items = s.items := rfl
@[simp] theorem State.rxTo_noticeQueue (s : State) (r : RxState) : (s.rxTo r).noticeQueue = s.noticeQueue := rfl
@[simp] theorem State.rxTo_line (s : State) (r : RxState) : (s.rxTo r).line = s.line := rfl
@[simp] theorem State.rxTo_lineGap (s : State) (r : RxState) : (s.rxTo r).lineGap = s.lineGap := rfl
@[simp] theorem State.rxTo_round (s : State) (r : RxState) : (s.rxTo r).round = s.round := rfl
@[simp] theorem State.rxTo_failCount (s : State) (r : RxState) : (s.rxTo r).failCount = s.failCount := rfl
@[simp] theorem State.rxTo_tx (s : State) (r : RxState) : (s.rxTo r).tx = s.tx := rfl
@[simp] theorem State.rxTo_replies (s : State) (r : RxState) : (s.rxTo r).replies = s.replies := rfl
@[simp] theorem State.rxTo_rrConsumer (s : State) (r : RxState) : (s.rxTo r).rrConsumer = s.rrConsumer := rfl
@[simp] theorem State.rxTo_rrProducer (s : State) (r : RxState) : (s.rxTo r).rrProducer = s.rrProducer := rfl
@[simp] theorem State.rxTo_station (s : State) (r : RxState) : (s.rxTo r).station = s.station := rfl
@[simp] theorem State.rxTo_params (s : State) (r : RxState) : (s.rxTo r).params = s.params := rfl
@[simp] theorem State.rxTo_stationNo (s : State) (r : RxState) : (s.rxTo r).stationNo = s.stationNo := rfl
@[simp] theorem State.rxTo_rate (s : State) (r : RxState) : (s.rxTo r).rate = s.rate := rfl
@[simp] theorem State.rxTo_quiet (s : State) (r : RxState) : (s.rxTo r).quiet = s.quiet := rfl
@[simp] theorem State.rxTo_msPhase (s : State) (r : RxState) : (s.rxTo r).msPhase = s.msPhase := rfl
@[simp] theorem State.rxTo_rstnLow (s : State) (r : RxState) : (s.rxTo r).rstnLow = s.rstnLow := rfl
@[simp] theorem State.rxTo_rxdSteady (s : State) (r : RxState) : (s.rxTo r).rxdSteady = s.rxdSteady := rfl
@[simp] theorem State.rxTo_power (s : State) (r : RxState) : (s.rxTo r).power = s.power := rfl
@[simp] theorem State.rxTo_misoDraws (s : State) (r : RxState) : (s.rxTo r).misoDraws = s.misoDraws := rfl
@[simp] theorem State.rxTo_port (s : State) (r : RxState) : (s.rxTo r).port = s.port := rfl
@[simp] theorem State.rxTo_csnAsserted (s : State) (r : RxState) : (s.rxTo r).csnAsserted = s.csnAsserted := rfl
@[simp] theorem State.rxTo_rxdLow (s : State) (r : RxState) : (s.rxTo r).rxdLow = s.rxdLow := rfl
@[simp] theorem State.rxTo_handover (s : State) (r : RxState) : (s.rxTo r).handover = s.handover := rfl
@[simp] theorem State.rxTo_pins (s : State) (r : RxState) : (s.rxTo r).pins = s.pins := rfl
@[simp] theorem State.rxTo_pending (s : State) (r : RxState) : (s.rxTo r).pending = s.pending := rfl

@[simp] theorem State.enqueue_mem (s : State) (c : Instr) : (s.enqueue c).mem = s.mem := rfl
@[simp] theorem State.enqueue_entries (s : State) (c : Instr) : (s.enqueue c).entries = s.entries := rfl
@[simp] theorem State.enqueue_poolFree (s : State) (c : Instr) : (s.enqueue c).poolFree = s.poolFree := rfl
@[simp] theorem State.enqueue_items (s : State) (c : Instr) : (s.enqueue c).items = s.items := rfl
@[simp] theorem State.enqueue_noticeQueue (s : State) (c : Instr) : (s.enqueue c).noticeQueue = s.noticeQueue := rfl
@[simp] theorem State.enqueue_rx (s : State) (c : Instr) : (s.enqueue c).rx = s.rx := rfl
@[simp] theorem State.enqueue_line (s : State) (c : Instr) : (s.enqueue c).line = s.line := rfl
@[simp] theorem State.enqueue_lineGap (s : State) (c : Instr) : (s.enqueue c).lineGap = s.lineGap := rfl
@[simp] theorem State.enqueue_csnAsserted (s : State) (c : Instr) : (s.enqueue c).csnAsserted = s.csnAsserted := rfl
@[simp] theorem State.enqueue_rxdLow (s : State) (c : Instr) : (s.enqueue c).rxdLow = s.rxdLow := rfl
@[simp] theorem State.enqueue_round (s : State) (c : Instr) : (s.enqueue c).round = s.round := rfl
@[simp] theorem State.enqueue_failCount (s : State) (c : Instr) : (s.enqueue c).failCount = s.failCount := rfl
@[simp] theorem State.enqueue_tx (s : State) (c : Instr) : (s.enqueue c).tx = s.tx := rfl
@[simp] theorem State.enqueue_handover (s : State) (c : Instr) : (s.enqueue c).handover = s.handover := rfl
@[simp] theorem State.enqueue_replies (s : State) (c : Instr) : (s.enqueue c).replies = s.replies := rfl
@[simp] theorem State.enqueue_rrConsumer (s : State) (c : Instr) : (s.enqueue c).rrConsumer = s.rrConsumer := rfl
@[simp] theorem State.enqueue_rrProducer (s : State) (c : Instr) : (s.enqueue c).rrProducer = s.rrProducer := rfl
@[simp] theorem State.enqueue_station (s : State) (c : Instr) : (s.enqueue c).station = s.station := rfl
@[simp] theorem State.enqueue_params (s : State) (c : Instr) : (s.enqueue c).params = s.params := rfl
@[simp] theorem State.enqueue_stationNo (s : State) (c : Instr) : (s.enqueue c).stationNo = s.stationNo := rfl
@[simp] theorem State.enqueue_rate (s : State) (c : Instr) : (s.enqueue c).rate = s.rate := rfl
@[simp] theorem State.enqueue_quiet (s : State) (c : Instr) : (s.enqueue c).quiet = s.quiet := rfl
@[simp] theorem State.enqueue_msPhase (s : State) (c : Instr) : (s.enqueue c).msPhase = s.msPhase := rfl
@[simp] theorem State.enqueue_rstnLow (s : State) (c : Instr) : (s.enqueue c).rstnLow = s.rstnLow := rfl
@[simp] theorem State.enqueue_rxdSteady (s : State) (c : Instr) : (s.enqueue c).rxdSteady = s.rxdSteady := rfl
@[simp] theorem State.enqueue_power (s : State) (c : Instr) : (s.enqueue c).power = s.power := rfl
@[simp] theorem State.enqueue_misoDraws (s : State) (c : Instr) : (s.enqueue c).misoDraws = s.misoDraws := rfl
@[simp] theorem State.enqueue_port (s : State) (c : Instr) : (s.enqueue c).port = s.port := rfl
@[simp] theorem State.enqueue_pins (s : State) (c : Instr) : (s.enqueue c).pins = s.pins := rfl

@[simp] theorem State.enqueue_pending (s : State) (c : Instr) : (s.enqueue c).pending = s.pending ++ [c] := rfl
@[simp] theorem State.withSsn_mem (s : State) (low : Bool) : (s.withSsn low).mem = s.mem := rfl
@[simp] theorem State.withSsn_entries (s : State) (low : Bool) : (s.withSsn low).entries = s.entries := rfl
@[simp] theorem State.withSsn_poolFree (s : State) (low : Bool) : (s.withSsn low).poolFree = s.poolFree := rfl
@[simp] theorem State.withSsn_items (s : State) (low : Bool) : (s.withSsn low).items = s.items := rfl
@[simp] theorem State.withSsn_noticeQueue (s : State) (low : Bool) : (s.withSsn low).noticeQueue = s.noticeQueue := rfl
@[simp] theorem State.withSsn_rx (s : State) (low : Bool) : (s.withSsn low).rx = s.rx := rfl
@[simp] theorem State.withSsn_line (s : State) (low : Bool) : (s.withSsn low).line = s.line := rfl
@[simp] theorem State.withSsn_lineGap (s : State) (low : Bool) : (s.withSsn low).lineGap = s.lineGap := rfl
@[simp] theorem State.withSsn_csnAsserted (s : State) (low : Bool) : (s.withSsn low).csnAsserted = s.csnAsserted := rfl
@[simp] theorem State.withSsn_rxdLow (s : State) (low : Bool) : (s.withSsn low).rxdLow = s.rxdLow := rfl
@[simp] theorem State.withSsn_rxdSteady (s : State) (low : Bool) : (s.withSsn low).rxdSteady = s.rxdSteady := rfl
@[simp] theorem State.withSsn_round (s : State) (low : Bool) : (s.withSsn low).round = s.round := rfl
@[simp] theorem State.withSsn_failCount (s : State) (low : Bool) : (s.withSsn low).failCount = s.failCount := rfl
@[simp] theorem State.withSsn_tx (s : State) (low : Bool) : (s.withSsn low).tx = s.tx := rfl
@[simp] theorem State.withSsn_handover (s : State) (low : Bool) : (s.withSsn low).handover = s.handover := rfl
@[simp] theorem State.withSsn_replies (s : State) (low : Bool) : (s.withSsn low).replies = s.replies := rfl
@[simp] theorem State.withSsn_rrConsumer (s : State) (low : Bool) : (s.withSsn low).rrConsumer = s.rrConsumer := rfl
@[simp] theorem State.withSsn_rrProducer (s : State) (low : Bool) : (s.withSsn low).rrProducer = s.rrProducer := rfl
@[simp] theorem State.withSsn_station (s : State) (low : Bool) : (s.withSsn low).station = s.station := rfl
@[simp] theorem State.withSsn_params (s : State) (low : Bool) : (s.withSsn low).params = s.params := rfl
@[simp] theorem State.withSsn_stationNo (s : State) (low : Bool) : (s.withSsn low).stationNo = s.stationNo := rfl
@[simp] theorem State.withSsn_rate (s : State) (low : Bool) : (s.withSsn low).rate = s.rate := rfl
@[simp] theorem State.withSsn_quiet (s : State) (low : Bool) : (s.withSsn low).quiet = s.quiet := rfl
@[simp] theorem State.withSsn_msPhase (s : State) (low : Bool) : (s.withSsn low).msPhase = s.msPhase := rfl
@[simp] theorem State.withSsn_rstnLow (s : State) (low : Bool) : (s.withSsn low).rstnLow = s.rstnLow := rfl
@[simp] theorem State.withSsn_power (s : State) (low : Bool) : (s.withSsn low).power = s.power := rfl
@[simp] theorem State.withSsn_misoDraws (s : State) (low : Bool) : (s.withSsn low).misoDraws = s.misoDraws := rfl
@[simp] theorem State.withSsn_pins (s : State) (low : Bool) : (s.withSsn low).pins = s.pins := rfl
@[simp] theorem State.withSsn_pending (s : State) (low : Bool) : (s.withSsn low).pending = s.pending := rfl
@[simp] theorem State.withSsn_port (s : State) (low : Bool) : (s.withSsn low).port = { s.port with ssnLow := low, untaken := .code [] } := rfl

end Sys2Proof.Machine
end

