-- ==== Sys2Proof/Laws/Frames.lean ====
section
/-! SUPPORT. What each shared operation and each meaning leaves as it was: one frame lemma for the operation, which says
that only the named fields differ, and from it one simp lemma per untouched field. -/

namespace Sys2Proof.Machine

/-! ### undoChoice -/

theorem State.undoChoice_frame (s : State) (f : TxFrame) :
    s.undoChoice f = { s with entries := (s.undoChoice f).entries, replies := (s.undoChoice f).replies } := by
  cases f <;> rfl

@[simp] theorem State.undoChoice_mem (s : State) (f : TxFrame) : (s.undoChoice f).mem = s.mem :=
  (congrArg State.mem (s.undoChoice_frame f) :)
@[simp] theorem State.undoChoice_poolFree (s : State) (f : TxFrame) : (s.undoChoice f).poolFree = s.poolFree :=
  (congrArg State.poolFree (s.undoChoice_frame f) :)
@[simp] theorem State.undoChoice_items (s : State) (f : TxFrame) : (s.undoChoice f).items = s.items :=
  (congrArg State.items (s.undoChoice_frame f) :)
@[simp] theorem State.undoChoice_noticeQueue (s : State) (f : TxFrame) : (s.undoChoice f).noticeQueue = s.noticeQueue :=
  (congrArg State.noticeQueue (s.undoChoice_frame f) :)
@[simp] theorem State.undoChoice_rx (s : State) (f : TxFrame) : (s.undoChoice f).rx = s.rx :=
  (congrArg State.rx (s.undoChoice_frame f) :)
@[simp] theorem State.undoChoice_line (s : State) (f : TxFrame) : (s.undoChoice f).line = s.line :=
  (congrArg State.line (s.undoChoice_frame f) :)
@[simp] theorem State.undoChoice_lineGap (s : State) (f : TxFrame) : (s.undoChoice f).lineGap = s.lineGap :=
  (congrArg State.lineGap (s.undoChoice_frame f) :)
@[simp] theorem State.undoChoice_csnAsserted (s : State) (f : TxFrame) : (s.undoChoice f).csnAsserted = s.csnAsserted :=
  (congrArg State.csnAsserted (s.undoChoice_frame f) :)
@[simp] theorem State.undoChoice_rxdLow (s : State) (f : TxFrame) : (s.undoChoice f).rxdLow = s.rxdLow :=
  (congrArg State.rxdLow (s.undoChoice_frame f) :)
@[simp] theorem State.undoChoice_rxdSteady (s : State) (f : TxFrame) : (s.undoChoice f).rxdSteady = s.rxdSteady :=
  (congrArg State.rxdSteady (s.undoChoice_frame f) :)
@[simp] theorem State.undoChoice_round (s : State) (f : TxFrame) : (s.undoChoice f).round = s.round :=
  (congrArg State.round (s.undoChoice_frame f) :)
@[simp] theorem State.undoChoice_failCount (s : State) (f : TxFrame) : (s.undoChoice f).failCount = s.failCount :=
  (congrArg State.failCount (s.undoChoice_frame f) :)
@[simp] theorem State.undoChoice_tx (s : State) (f : TxFrame) : (s.undoChoice f).tx = s.tx :=
  (congrArg State.tx (s.undoChoice_frame f) :)
@[simp] theorem State.undoChoice_handover (s : State) (f : TxFrame) : (s.undoChoice f).handover = s.handover :=
  (congrArg State.handover (s.undoChoice_frame f) :)
@[simp] theorem State.undoChoice_rrConsumer (s : State) (f : TxFrame) : (s.undoChoice f).rrConsumer = s.rrConsumer :=
  (congrArg State.rrConsumer (s.undoChoice_frame f) :)
@[simp] theorem State.undoChoice_rrProducer (s : State) (f : TxFrame) : (s.undoChoice f).rrProducer = s.rrProducer :=
  (congrArg State.rrProducer (s.undoChoice_frame f) :)
@[simp] theorem State.undoChoice_station (s : State) (f : TxFrame) : (s.undoChoice f).station = s.station :=
  (congrArg State.station (s.undoChoice_frame f) :)
@[simp] theorem State.undoChoice_params (s : State) (f : TxFrame) : (s.undoChoice f).params = s.params :=
  (congrArg State.params (s.undoChoice_frame f) :)
@[simp] theorem State.undoChoice_stationNo (s : State) (f : TxFrame) : (s.undoChoice f).stationNo = s.stationNo :=
  (congrArg State.stationNo (s.undoChoice_frame f) :)
@[simp] theorem State.undoChoice_rate (s : State) (f : TxFrame) : (s.undoChoice f).rate = s.rate :=
  (congrArg State.rate (s.undoChoice_frame f) :)
@[simp] theorem State.undoChoice_quiet (s : State) (f : TxFrame) : (s.undoChoice f).quiet = s.quiet :=
  (congrArg State.quiet (s.undoChoice_frame f) :)
@[simp] theorem State.undoChoice_msPhase (s : State) (f : TxFrame) : (s.undoChoice f).msPhase = s.msPhase :=
  (congrArg State.msPhase (s.undoChoice_frame f) :)
@[simp] theorem State.undoChoice_rstnLow (s : State) (f : TxFrame) : (s.undoChoice f).rstnLow = s.rstnLow :=
  (congrArg State.rstnLow (s.undoChoice_frame f) :)
@[simp] theorem State.undoChoice_power (s : State) (f : TxFrame) : (s.undoChoice f).power = s.power :=
  (congrArg State.power (s.undoChoice_frame f) :)
@[simp] theorem State.undoChoice_port (s : State) (f : TxFrame) : (s.undoChoice f).port = s.port :=
  (congrArg State.port (s.undoChoice_frame f) :)
@[simp] theorem State.undoChoice_misoDraws (s : State) (f : TxFrame) : (s.undoChoice f).misoDraws = s.misoDraws :=
  (congrArg State.misoDraws (s.undoChoice_frame f) :)
@[simp] theorem State.undoChoice_pins (s : State) (f : TxFrame) : (s.undoChoice f).pins = s.pins :=
  (congrArg State.pins (s.undoChoice_frame f) :)
@[simp] theorem State.undoChoice_pending (s : State) (f : TxFrame) : (s.undoChoice f).pending = s.pending :=
  (congrArg State.pending (s.undoChoice_frame f) :)

/-! ### retire -/

theorem State.retire_frame (s : State) (i : EntryIdx) :
    s.retire i = { s with entries := (s.retire i).entries, poolFree := (s.retire i).poolFree, items := (s.retire i).items, noticeQueue := (s.retire i).noticeQueue, tx := (s.retire i).tx, handover := (s.retire i).handover } := by
  apply State.ext <;> first
    | rfl
    | (dsimp only [State.retire]; (repeat' split) <;> simp)

@[simp] theorem State.retire_mem (s : State) (i : EntryIdx) : (s.retire i).mem = s.mem :=
  (congrArg State.mem (s.retire_frame i) :)
@[simp] theorem State.retire_rx (s : State) (i : EntryIdx) : (s.retire i).rx = s.rx :=
  (congrArg State.rx (s.retire_frame i) :)
@[simp] theorem State.retire_line (s : State) (i : EntryIdx) : (s.retire i).line = s.line :=
  (congrArg State.line (s.retire_frame i) :)
@[simp] theorem State.retire_lineGap (s : State) (i : EntryIdx) : (s.retire i).lineGap = s.lineGap :=
  (congrArg State.lineGap (s.retire_frame i) :)
@[simp] theorem State.retire_csnAsserted (s : State) (i : EntryIdx) : (s.retire i).csnAsserted = s.csnAsserted :=
  (congrArg State.csnAsserted (s.retire_frame i) :)
@[simp] theorem State.retire_rxdLow (s : State) (i : EntryIdx) : (s.retire i).rxdLow = s.rxdLow :=
  (congrArg State.rxdLow (s.retire_frame i) :)
@[simp] theorem State.retire_rxdSteady (s : State) (i : EntryIdx) : (s.retire i).rxdSteady = s.rxdSteady :=
  (congrArg State.rxdSteady (s.retire_frame i) :)
@[simp] theorem State.retire_round (s : State) (i : EntryIdx) : (s.retire i).round = s.round :=
  (congrArg State.round (s.retire_frame i) :)
@[simp] theorem State.retire_failCount (s : State) (i : EntryIdx) : (s.retire i).failCount = s.failCount :=
  (congrArg State.failCount (s.retire_frame i) :)
@[simp] theorem State.retire_replies (s : State) (i : EntryIdx) : (s.retire i).replies = s.replies :=
  (congrArg State.replies (s.retire_frame i) :)
@[simp] theorem State.retire_rrConsumer (s : State) (i : EntryIdx) : (s.retire i).rrConsumer = s.rrConsumer :=
  (congrArg State.rrConsumer (s.retire_frame i) :)
@[simp] theorem State.retire_rrProducer (s : State) (i : EntryIdx) : (s.retire i).rrProducer = s.rrProducer :=
  (congrArg State.rrProducer (s.retire_frame i) :)
@[simp] theorem State.retire_station (s : State) (i : EntryIdx) : (s.retire i).station = s.station :=
  (congrArg State.station (s.retire_frame i) :)
@[simp] theorem State.retire_params (s : State) (i : EntryIdx) : (s.retire i).params = s.params :=
  (congrArg State.params (s.retire_frame i) :)
@[simp] theorem State.retire_stationNo (s : State) (i : EntryIdx) : (s.retire i).stationNo = s.stationNo :=
  (congrArg State.stationNo (s.retire_frame i) :)
@[simp] theorem State.retire_rate (s : State) (i : EntryIdx) : (s.retire i).rate = s.rate :=
  (congrArg State.rate (s.retire_frame i) :)
@[simp] theorem State.retire_quiet (s : State) (i : EntryIdx) : (s.retire i).quiet = s.quiet :=
  (congrArg State.quiet (s.retire_frame i) :)
@[simp] theorem State.retire_msPhase (s : State) (i : EntryIdx) : (s.retire i).msPhase = s.msPhase :=
  (congrArg State.msPhase (s.retire_frame i) :)
@[simp] theorem State.retire_rstnLow (s : State) (i : EntryIdx) : (s.retire i).rstnLow = s.rstnLow :=
  (congrArg State.rstnLow (s.retire_frame i) :)
@[simp] theorem State.retire_power (s : State) (i : EntryIdx) : (s.retire i).power = s.power :=
  (congrArg State.power (s.retire_frame i) :)
@[simp] theorem State.retire_port (s : State) (i : EntryIdx) : (s.retire i).port = s.port :=
  (congrArg State.port (s.retire_frame i) :)
@[simp] theorem State.retire_misoDraws (s : State) (i : EntryIdx) : (s.retire i).misoDraws = s.misoDraws :=
  (congrArg State.misoDraws (s.retire_frame i) :)
@[simp] theorem State.retire_pins (s : State) (i : EntryIdx) : (s.retire i).pins = s.pins :=
  (congrArg State.pins (s.retire_frame i) :)
@[simp] theorem State.retire_pending (s : State) (i : EntryIdx) : (s.retire i).pending = s.pending :=
  (congrArg State.pending (s.retire_frame i) :)

/-! ### countMisses -/

theorem State.countMisses_frame (s : State) (i : EntryIdx) (counted : SubRec → Bool) :
    s.countMisses i counted = { s with entries := (s.countMisses i counted).entries, poolFree := (s.countMisses i counted).poolFree, items := (s.countMisses i counted).items, noticeQueue := (s.countMisses i counted).noticeQueue } := by
  unfold State.countMisses
  dsimp only
  split <;> rfl

@[simp] theorem State.countMisses_mem (s : State) (i : EntryIdx) (counted : SubRec → Bool) : (s.countMisses i counted).mem = s.mem :=
  (congrArg State.mem (s.countMisses_frame i counted) :)
@[simp] theorem State.countMisses_rx (s : State) (i : EntryIdx) (counted : SubRec → Bool) : (s.countMisses i counted).rx = s.rx :=
  (congrArg State.rx (s.countMisses_frame i counted) :)
@[simp] theorem State.countMisses_line (s : State) (i : EntryIdx) (counted : SubRec → Bool) : (s.countMisses i counted).line = s.line :=
  (congrArg State.line (s.countMisses_frame i counted) :)
@[simp] theorem State.countMisses_lineGap (s : State) (i : EntryIdx) (counted : SubRec → Bool) : (s.countMisses i counted).lineGap = s.lineGap :=
  (congrArg State.lineGap (s.countMisses_frame i counted) :)
@[simp] theorem State.countMisses_csnAsserted (s : State) (i : EntryIdx) (counted : SubRec → Bool) : (s.countMisses i counted).csnAsserted = s.csnAsserted :=
  (congrArg State.csnAsserted (s.countMisses_frame i counted) :)
@[simp] theorem State.countMisses_rxdLow (s : State) (i : EntryIdx) (counted : SubRec → Bool) : (s.countMisses i counted).rxdLow = s.rxdLow :=
  (congrArg State.rxdLow (s.countMisses_frame i counted) :)
@[simp] theorem State.countMisses_rxdSteady (s : State) (i : EntryIdx) (counted : SubRec → Bool) : (s.countMisses i counted).rxdSteady = s.rxdSteady :=
  (congrArg State.rxdSteady (s.countMisses_frame i counted) :)
@[simp] theorem State.countMisses_round (s : State) (i : EntryIdx) (counted : SubRec → Bool) : (s.countMisses i counted).round = s.round :=
  (congrArg State.round (s.countMisses_frame i counted) :)
@[simp] theorem State.countMisses_failCount (s : State) (i : EntryIdx) (counted : SubRec → Bool) : (s.countMisses i counted).failCount = s.failCount :=
  (congrArg State.failCount (s.countMisses_frame i counted) :)
@[simp] theorem State.countMisses_tx (s : State) (i : EntryIdx) (counted : SubRec → Bool) : (s.countMisses i counted).tx = s.tx :=
  (congrArg State.tx (s.countMisses_frame i counted) :)
@[simp] theorem State.countMisses_handover (s : State) (i : EntryIdx) (counted : SubRec → Bool) : (s.countMisses i counted).handover = s.handover :=
  (congrArg State.handover (s.countMisses_frame i counted) :)
@[simp] theorem State.countMisses_replies (s : State) (i : EntryIdx) (counted : SubRec → Bool) : (s.countMisses i counted).replies = s.replies :=
  (congrArg State.replies (s.countMisses_frame i counted) :)
@[simp] theorem State.countMisses_rrConsumer (s : State) (i : EntryIdx) (counted : SubRec → Bool) : (s.countMisses i counted).rrConsumer = s.rrConsumer :=
  (congrArg State.rrConsumer (s.countMisses_frame i counted) :)
@[simp] theorem State.countMisses_rrProducer (s : State) (i : EntryIdx) (counted : SubRec → Bool) : (s.countMisses i counted).rrProducer = s.rrProducer :=
  (congrArg State.rrProducer (s.countMisses_frame i counted) :)
@[simp] theorem State.countMisses_station (s : State) (i : EntryIdx) (counted : SubRec → Bool) : (s.countMisses i counted).station = s.station :=
  (congrArg State.station (s.countMisses_frame i counted) :)
@[simp] theorem State.countMisses_params (s : State) (i : EntryIdx) (counted : SubRec → Bool) : (s.countMisses i counted).params = s.params :=
  (congrArg State.params (s.countMisses_frame i counted) :)
@[simp] theorem State.countMisses_stationNo (s : State) (i : EntryIdx) (counted : SubRec → Bool) : (s.countMisses i counted).stationNo = s.stationNo :=
  (congrArg State.stationNo (s.countMisses_frame i counted) :)
@[simp] theorem State.countMisses_rate (s : State) (i : EntryIdx) (counted : SubRec → Bool) : (s.countMisses i counted).rate = s.rate :=
  (congrArg State.rate (s.countMisses_frame i counted) :)
@[simp] theorem State.countMisses_quiet (s : State) (i : EntryIdx) (counted : SubRec → Bool) : (s.countMisses i counted).quiet = s.quiet :=
  (congrArg State.quiet (s.countMisses_frame i counted) :)
@[simp] theorem State.countMisses_msPhase (s : State) (i : EntryIdx) (counted : SubRec → Bool) : (s.countMisses i counted).msPhase = s.msPhase :=
  (congrArg State.msPhase (s.countMisses_frame i counted) :)
@[simp] theorem State.countMisses_rstnLow (s : State) (i : EntryIdx) (counted : SubRec → Bool) : (s.countMisses i counted).rstnLow = s.rstnLow :=
  (congrArg State.rstnLow (s.countMisses_frame i counted) :)
@[simp] theorem State.countMisses_power (s : State) (i : EntryIdx) (counted : SubRec → Bool) : (s.countMisses i counted).power = s.power :=
  (congrArg State.power (s.countMisses_frame i counted) :)
@[simp] theorem State.countMisses_port (s : State) (i : EntryIdx) (counted : SubRec → Bool) : (s.countMisses i counted).port = s.port :=
  (congrArg State.port (s.countMisses_frame i counted) :)
@[simp] theorem State.countMisses_misoDraws (s : State) (i : EntryIdx) (counted : SubRec → Bool) : (s.countMisses i counted).misoDraws = s.misoDraws :=
  (congrArg State.misoDraws (s.countMisses_frame i counted) :)
@[simp] theorem State.countMisses_pins (s : State) (i : EntryIdx) (counted : SubRec → Bool) : (s.countMisses i counted).pins = s.pins :=
  (congrArg State.pins (s.countMisses_frame i counted) :)
@[simp] theorem State.countMisses_pending (s : State) (i : EntryIdx) (counted : SubRec → Bool) : (s.countMisses i counted).pending = s.pending :=
  (congrArg State.pending (s.countMisses_frame i counted) :)

/-! ### busyLine -/

theorem State.busyLine_frame (s : State) (n : Option Station) :
    s.busyLine n = { s with line := (s.busyLine n).line, lineGap := (s.busyLine n).lineGap, round := (s.busyLine n).round, tx := (s.busyLine n).tx, quiet := (s.busyLine n).quiet } := by
  apply State.ext <;> first
    | rfl
    | (dsimp only [State.busyLine]; (repeat' split) <;> simp)

@[simp] theorem State.busyLine_mem (s : State) (n : Option Station) : (s.busyLine n).mem = s.mem :=
  (congrArg State.mem (s.busyLine_frame n) :)
@[simp] theorem State.busyLine_entries (s : State) (n : Option Station) : (s.busyLine n).entries = s.entries :=
  (congrArg State.entries (s.busyLine_frame n) :)
@[simp] theorem State.busyLine_poolFree (s : State) (n : Option Station) : (s.busyLine n).poolFree = s.poolFree :=
  (congrArg State.poolFree (s.busyLine_frame n) :)
@[simp] theorem State.busyLine_items (s : State) (n : Option Station) : (s.busyLine n).items = s.items :=
  (congrArg State.items (s.busyLine_frame n) :)
@[simp] theorem State.busyLine_noticeQueue (s : State) (n : Option Station) : (s.busyLine n).noticeQueue = s.noticeQueue :=
  (congrArg State.noticeQueue (s.busyLine_frame n) :)
@[simp] theorem State.busyLine_rx (s : State) (n : Option Station) : (s.busyLine n).rx = s.rx :=
  (congrArg State.rx (s.busyLine_frame n) :)
@[simp] theorem State.busyLine_csnAsserted (s : State) (n : Option Station) : (s.busyLine n).csnAsserted = s.csnAsserted :=
  (congrArg State.csnAsserted (s.busyLine_frame n) :)
@[simp] theorem State.busyLine_rxdLow (s : State) (n : Option Station) : (s.busyLine n).rxdLow = s.rxdLow :=
  (congrArg State.rxdLow (s.busyLine_frame n) :)
@[simp] theorem State.busyLine_rxdSteady (s : State) (n : Option Station) : (s.busyLine n).rxdSteady = s.rxdSteady :=
  (congrArg State.rxdSteady (s.busyLine_frame n) :)
@[simp] theorem State.busyLine_failCount (s : State) (n : Option Station) : (s.busyLine n).failCount = s.failCount :=
  (congrArg State.failCount (s.busyLine_frame n) :)
@[simp] theorem State.busyLine_handover (s : State) (n : Option Station) : (s.busyLine n).handover = s.handover :=
  (congrArg State.handover (s.busyLine_frame n) :)
@[simp] theorem State.busyLine_replies (s : State) (n : Option Station) : (s.busyLine n).replies = s.replies :=
  (congrArg State.replies (s.busyLine_frame n) :)
@[simp] theorem State.busyLine_rrConsumer (s : State) (n : Option Station) : (s.busyLine n).rrConsumer = s.rrConsumer :=
  (congrArg State.rrConsumer (s.busyLine_frame n) :)
@[simp] theorem State.busyLine_rrProducer (s : State) (n : Option Station) : (s.busyLine n).rrProducer = s.rrProducer :=
  (congrArg State.rrProducer (s.busyLine_frame n) :)
@[simp] theorem State.busyLine_station (s : State) (n : Option Station) : (s.busyLine n).station = s.station :=
  (congrArg State.station (s.busyLine_frame n) :)
@[simp] theorem State.busyLine_params (s : State) (n : Option Station) : (s.busyLine n).params = s.params :=
  (congrArg State.params (s.busyLine_frame n) :)
@[simp] theorem State.busyLine_stationNo (s : State) (n : Option Station) : (s.busyLine n).stationNo = s.stationNo :=
  (congrArg State.stationNo (s.busyLine_frame n) :)
@[simp] theorem State.busyLine_rate (s : State) (n : Option Station) : (s.busyLine n).rate = s.rate :=
  (congrArg State.rate (s.busyLine_frame n) :)
@[simp] theorem State.busyLine_msPhase (s : State) (n : Option Station) : (s.busyLine n).msPhase = s.msPhase :=
  (congrArg State.msPhase (s.busyLine_frame n) :)
@[simp] theorem State.busyLine_rstnLow (s : State) (n : Option Station) : (s.busyLine n).rstnLow = s.rstnLow :=
  (congrArg State.rstnLow (s.busyLine_frame n) :)
@[simp] theorem State.busyLine_power (s : State) (n : Option Station) : (s.busyLine n).power = s.power :=
  (congrArg State.power (s.busyLine_frame n) :)
@[simp] theorem State.busyLine_port (s : State) (n : Option Station) : (s.busyLine n).port = s.port :=
  (congrArg State.port (s.busyLine_frame n) :)
@[simp] theorem State.busyLine_misoDraws (s : State) (n : Option Station) : (s.busyLine n).misoDraws = s.misoDraws :=
  (congrArg State.misoDraws (s.busyLine_frame n) :)
@[simp] theorem State.busyLine_pins (s : State) (n : Option Station) : (s.busyLine n).pins = s.pins :=
  (congrArg State.pins (s.busyLine_frame n) :)
@[simp] theorem State.busyLine_pending (s : State) (n : Option Station) : (s.busyLine n).pending = s.pending :=
  (congrArg State.pending (s.busyLine_frame n) :)

/-! ### collide -/

theorem State.collide_frame (s : State) :
    s.collide = { s with round := s.collide.round, tx := s.collide.tx } := by
  apply State.ext <;> first
    | rfl
    | (dsimp only [State.collide]; (repeat' split) <;> simp)

@[simp] theorem State.collide_mem (s : State) : s.collide.mem = s.mem :=
  (congrArg State.mem (s.collide_frame) :)
@[simp] theorem State.collide_entries (s : State) : s.collide.entries = s.entries :=
  (congrArg State.entries (s.collide_frame) :)
@[simp] theorem State.collide_poolFree (s : State) : s.collide.poolFree = s.poolFree :=
  (congrArg State.poolFree (s.collide_frame) :)
@[simp] theorem State.collide_items (s : State) : s.collide.items = s.items :=
  (congrArg State.items (s.collide_frame) :)
@[simp] theorem State.collide_noticeQueue (s : State) : s.collide.noticeQueue = s.noticeQueue :=
  (congrArg State.noticeQueue (s.collide_frame) :)
@[simp] theorem State.collide_rx (s : State) : s.collide.rx = s.rx :=
  (congrArg State.rx (s.collide_frame) :)
@[simp] theorem State.collide_line (s : State) : s.collide.line = s.line :=
  (congrArg State.line (s.collide_frame) :)
@[simp] theorem State.collide_lineGap (s : State) : s.collide.lineGap = s.lineGap :=
  (congrArg State.lineGap (s.collide_frame) :)
@[simp] theorem State.collide_csnAsserted (s : State) : s.collide.csnAsserted = s.csnAsserted :=
  (congrArg State.csnAsserted (s.collide_frame) :)
@[simp] theorem State.collide_rxdLow (s : State) : s.collide.rxdLow = s.rxdLow :=
  (congrArg State.rxdLow (s.collide_frame) :)
@[simp] theorem State.collide_rxdSteady (s : State) : s.collide.rxdSteady = s.rxdSteady :=
  (congrArg State.rxdSteady (s.collide_frame) :)
@[simp] theorem State.collide_failCount (s : State) : s.collide.failCount = s.failCount :=
  (congrArg State.failCount (s.collide_frame) :)
@[simp] theorem State.collide_handover (s : State) : s.collide.handover = s.handover :=
  (congrArg State.handover (s.collide_frame) :)
@[simp] theorem State.collide_replies (s : State) : s.collide.replies = s.replies :=
  (congrArg State.replies (s.collide_frame) :)
@[simp] theorem State.collide_rrConsumer (s : State) : s.collide.rrConsumer = s.rrConsumer :=
  (congrArg State.rrConsumer (s.collide_frame) :)
@[simp] theorem State.collide_rrProducer (s : State) : s.collide.rrProducer = s.rrProducer :=
  (congrArg State.rrProducer (s.collide_frame) :)
@[simp] theorem State.collide_station (s : State) : s.collide.station = s.station :=
  (congrArg State.station (s.collide_frame) :)
@[simp] theorem State.collide_params (s : State) : s.collide.params = s.params :=
  (congrArg State.params (s.collide_frame) :)
@[simp] theorem State.collide_stationNo (s : State) : s.collide.stationNo = s.stationNo :=
  (congrArg State.stationNo (s.collide_frame) :)
@[simp] theorem State.collide_rate (s : State) : s.collide.rate = s.rate :=
  (congrArg State.rate (s.collide_frame) :)
@[simp] theorem State.collide_quiet (s : State) : s.collide.quiet = s.quiet :=
  (congrArg State.quiet (s.collide_frame) :)
@[simp] theorem State.collide_msPhase (s : State) : s.collide.msPhase = s.msPhase :=
  (congrArg State.msPhase (s.collide_frame) :)
@[simp] theorem State.collide_rstnLow (s : State) : s.collide.rstnLow = s.rstnLow :=
  (congrArg State.rstnLow (s.collide_frame) :)
@[simp] theorem State.collide_power (s : State) : s.collide.power = s.power :=
  (congrArg State.power (s.collide_frame) :)
@[simp] theorem State.collide_port (s : State) : s.collide.port = s.port :=
  (congrArg State.port (s.collide_frame) :)
@[simp] theorem State.collide_misoDraws (s : State) : s.collide.misoDraws = s.misoDraws :=
  (congrArg State.misoDraws (s.collide_frame) :)
@[simp] theorem State.collide_pins (s : State) : s.collide.pins = s.pins :=
  (congrArg State.pins (s.collide_frame) :)
@[simp] theorem State.collide_pending (s : State) : s.collide.pending = s.pending :=
  (congrArg State.pending (s.collide_frame) :)

/-! ### nextSlot -/

theorem State.nextSlot_frame (s : State) (o : Station) (r : Nat) (k : BitVec 5) :
    s.nextSlot o r k = { s with round := (s.nextSlot o r k).round, tx := (s.nextSlot o r k).tx } := by
  apply State.ext <;> first
    | rfl
    | (dsimp only [State.nextSlot]; (repeat' split) <;> simp)

@[simp] theorem State.nextSlot_mem (s : State) (o : Station) (r : Nat) (k : BitVec 5) : (s.nextSlot o r k).mem = s.mem :=
  (congrArg State.mem (s.nextSlot_frame o r k) :)
@[simp] theorem State.nextSlot_entries (s : State) (o : Station) (r : Nat) (k : BitVec 5) : (s.nextSlot o r k).entries = s.entries :=
  (congrArg State.entries (s.nextSlot_frame o r k) :)
@[simp] theorem State.nextSlot_poolFree (s : State) (o : Station) (r : Nat) (k : BitVec 5) : (s.nextSlot o r k).poolFree = s.poolFree :=
  (congrArg State.poolFree (s.nextSlot_frame o r k) :)
@[simp] theorem State.nextSlot_items (s : State) (o : Station) (r : Nat) (k : BitVec 5) : (s.nextSlot o r k).items = s.items :=
  (congrArg State.items (s.nextSlot_frame o r k) :)
@[simp] theorem State.nextSlot_noticeQueue (s : State) (o : Station) (r : Nat) (k : BitVec 5) : (s.nextSlot o r k).noticeQueue = s.noticeQueue :=
  (congrArg State.noticeQueue (s.nextSlot_frame o r k) :)
@[simp] theorem State.nextSlot_rx (s : State) (o : Station) (r : Nat) (k : BitVec 5) : (s.nextSlot o r k).rx = s.rx :=
  (congrArg State.rx (s.nextSlot_frame o r k) :)
@[simp] theorem State.nextSlot_line (s : State) (o : Station) (r : Nat) (k : BitVec 5) : (s.nextSlot o r k).line = s.line :=
  (congrArg State.line (s.nextSlot_frame o r k) :)
@[simp] theorem State.nextSlot_lineGap (s : State) (o : Station) (r : Nat) (k : BitVec 5) : (s.nextSlot o r k).lineGap = s.lineGap :=
  (congrArg State.lineGap (s.nextSlot_frame o r k) :)
@[simp] theorem State.nextSlot_csnAsserted (s : State) (o : Station) (r : Nat) (k : BitVec 5) : (s.nextSlot o r k).csnAsserted = s.csnAsserted :=
  (congrArg State.csnAsserted (s.nextSlot_frame o r k) :)
@[simp] theorem State.nextSlot_rxdLow (s : State) (o : Station) (r : Nat) (k : BitVec 5) : (s.nextSlot o r k).rxdLow = s.rxdLow :=
  (congrArg State.rxdLow (s.nextSlot_frame o r k) :)
@[simp] theorem State.nextSlot_rxdSteady (s : State) (o : Station) (r : Nat) (k : BitVec 5) : (s.nextSlot o r k).rxdSteady = s.rxdSteady :=
  (congrArg State.rxdSteady (s.nextSlot_frame o r k) :)
@[simp] theorem State.nextSlot_failCount (s : State) (o : Station) (r : Nat) (k : BitVec 5) : (s.nextSlot o r k).failCount = s.failCount :=
  (congrArg State.failCount (s.nextSlot_frame o r k) :)
@[simp] theorem State.nextSlot_handover (s : State) (o : Station) (r : Nat) (k : BitVec 5) : (s.nextSlot o r k).handover = s.handover :=
  (congrArg State.handover (s.nextSlot_frame o r k) :)
@[simp] theorem State.nextSlot_replies (s : State) (o : Station) (r : Nat) (k : BitVec 5) : (s.nextSlot o r k).replies = s.replies :=
  (congrArg State.replies (s.nextSlot_frame o r k) :)
@[simp] theorem State.nextSlot_rrConsumer (s : State) (o : Station) (r : Nat) (k : BitVec 5) : (s.nextSlot o r k).rrConsumer = s.rrConsumer :=
  (congrArg State.rrConsumer (s.nextSlot_frame o r k) :)
@[simp] theorem State.nextSlot_rrProducer (s : State) (o : Station) (r : Nat) (k : BitVec 5) : (s.nextSlot o r k).rrProducer = s.rrProducer :=
  (congrArg State.rrProducer (s.nextSlot_frame o r k) :)
@[simp] theorem State.nextSlot_station (s : State) (o : Station) (r : Nat) (k : BitVec 5) : (s.nextSlot o r k).station = s.station :=
  (congrArg State.station (s.nextSlot_frame o r k) :)
@[simp] theorem State.nextSlot_params (s : State) (o : Station) (r : Nat) (k : BitVec 5) : (s.nextSlot o r k).params = s.params :=
  (congrArg State.params (s.nextSlot_frame o r k) :)
@[simp] theorem State.nextSlot_stationNo (s : State) (o : Station) (r : Nat) (k : BitVec 5) : (s.nextSlot o r k).stationNo = s.stationNo :=
  (congrArg State.stationNo (s.nextSlot_frame o r k) :)
@[simp] theorem State.nextSlot_rate (s : State) (o : Station) (r : Nat) (k : BitVec 5) : (s.nextSlot o r k).rate = s.rate :=
  (congrArg State.rate (s.nextSlot_frame o r k) :)
@[simp] theorem State.nextSlot_quiet (s : State) (o : Station) (r : Nat) (k : BitVec 5) : (s.nextSlot o r k).quiet = s.quiet :=
  (congrArg State.quiet (s.nextSlot_frame o r k) :)
@[simp] theorem State.nextSlot_msPhase (s : State) (o : Station) (r : Nat) (k : BitVec 5) : (s.nextSlot o r k).msPhase = s.msPhase :=
  (congrArg State.msPhase (s.nextSlot_frame o r k) :)
@[simp] theorem State.nextSlot_rstnLow (s : State) (o : Station) (r : Nat) (k : BitVec 5) : (s.nextSlot o r k).rstnLow = s.rstnLow :=
  (congrArg State.rstnLow (s.nextSlot_frame o r k) :)
@[simp] theorem State.nextSlot_power (s : State) (o : Station) (r : Nat) (k : BitVec 5) : (s.nextSlot o r k).power = s.power :=
  (congrArg State.power (s.nextSlot_frame o r k) :)
@[simp] theorem State.nextSlot_port (s : State) (o : Station) (r : Nat) (k : BitVec 5) : (s.nextSlot o r k).port = s.port :=
  (congrArg State.port (s.nextSlot_frame o r k) :)
@[simp] theorem State.nextSlot_misoDraws (s : State) (o : Station) (r : Nat) (k : BitVec 5) : (s.nextSlot o r k).misoDraws = s.misoDraws :=
  (congrArg State.misoDraws (s.nextSlot_frame o r k) :)
@[simp] theorem State.nextSlot_pins (s : State) (o : Station) (r : Nat) (k : BitVec 5) : (s.nextSlot o r k).pins = s.pins :=
  (congrArg State.pins (s.nextSlot_frame o r k) :)
@[simp] theorem State.nextSlot_pending (s : State) (o : Station) (r : Nat) (k : BitVec 5) : (s.nextSlot o r k).pending = s.pending :=
  (congrArg State.pending (s.nextSlot_frame o r k) :)

/-! ### countFailure -/

theorem State.countFailure_frame (s : State) :
    s.countFailure = { s with items := s.countFailure.items, noticeQueue := s.countFailure.noticeQueue, round := s.countFailure.round, failCount := s.countFailure.failCount, station := s.countFailure.station } := by
  unfold State.countFailure
  dsimp only
  split <;> rfl

@[simp] theorem State.countFailure_mem (s : State) : s.countFailure.mem = s.mem :=
  (congrArg State.mem (s.countFailure_frame) :)
@[simp] theorem State.countFailure_entries (s : State) : s.countFailure.entries = s.entries :=
  (congrArg State.entries (s.countFailure_frame) :)
@[simp] theorem State.countFailure_poolFree (s : State) : s.countFailure.poolFree = s.poolFree :=
  (congrArg State.poolFree (s.countFailure_frame) :)
@[simp] theorem State.countFailure_rx (s : State) : s.countFailure.rx = s.rx :=
  (congrArg State.rx (s.countFailure_frame) :)
@[simp] theorem State.countFailure_line (s : State) : s.countFailure.line = s.line :=
  (congrArg State.line (s.countFailure_frame) :)
@[simp] theorem State.countFailure_lineGap (s : State) : s.countFailure.lineGap = s.lineGap :=
  (congrArg State.lineGap (s.countFailure_frame) :)
@[simp] theorem State.countFailure_csnAsserted (s : State) : s.countFailure.csnAsserted = s.csnAsserted :=
  (congrArg State.csnAsserted (s.countFailure_frame) :)
@[simp] theorem State.countFailure_rxdLow (s : State) : s.countFailure.rxdLow = s.rxdLow :=
  (congrArg State.rxdLow (s.countFailure_frame) :)
@[simp] theorem State.countFailure_rxdSteady (s : State) : s.countFailure.rxdSteady = s.rxdSteady :=
  (congrArg State.rxdSteady (s.countFailure_frame) :)
@[simp] theorem State.countFailure_tx (s : State) : s.countFailure.tx = s.tx :=
  (congrArg State.tx (s.countFailure_frame) :)
@[simp] theorem State.countFailure_handover (s : State) : s.countFailure.handover = s.handover :=
  (congrArg State.handover (s.countFailure_frame) :)
@[simp] theorem State.countFailure_replies (s : State) : s.countFailure.replies = s.replies :=
  (congrArg State.replies (s.countFailure_frame) :)
@[simp] theorem State.countFailure_rrConsumer (s : State) : s.countFailure.rrConsumer = s.rrConsumer :=
  (congrArg State.rrConsumer (s.countFailure_frame) :)
@[simp] theorem State.countFailure_rrProducer (s : State) : s.countFailure.rrProducer = s.rrProducer :=
  (congrArg State.rrProducer (s.countFailure_frame) :)
@[simp] theorem State.countFailure_params (s : State) : s.countFailure.params = s.params :=
  (congrArg State.params (s.countFailure_frame) :)
@[simp] theorem State.countFailure_stationNo (s : State) : s.countFailure.stationNo = s.stationNo :=
  (congrArg State.stationNo (s.countFailure_frame) :)
@[simp] theorem State.countFailure_rate (s : State) : s.countFailure.rate = s.rate :=
  (congrArg State.rate (s.countFailure_frame) :)
@[simp] theorem State.countFailure_quiet (s : State) : s.countFailure.quiet = s.quiet :=
  (congrArg State.quiet (s.countFailure_frame) :)
@[simp] theorem State.countFailure_msPhase (s : State) : s.countFailure.msPhase = s.msPhase :=
  (congrArg State.msPhase (s.countFailure_frame) :)
@[simp] theorem State.countFailure_rstnLow (s : State) : s.countFailure.rstnLow = s.rstnLow :=
  (congrArg State.rstnLow (s.countFailure_frame) :)
@[simp] theorem State.countFailure_power (s : State) : s.countFailure.power = s.power :=
  (congrArg State.power (s.countFailure_frame) :)
@[simp] theorem State.countFailure_port (s : State) : s.countFailure.port = s.port :=
  (congrArg State.port (s.countFailure_frame) :)
@[simp] theorem State.countFailure_misoDraws (s : State) : s.countFailure.misoDraws = s.misoDraws :=
  (congrArg State.misoDraws (s.countFailure_frame) :)
@[simp] theorem State.countFailure_pins (s : State) : s.countFailure.pins = s.pins :=
  (congrArg State.pins (s.countFailure_frame) :)
@[simp] theorem State.countFailure_pending (s : State) : s.countFailure.pending = s.pending :=
  (congrArg State.pending (s.countFailure_frame) :)

/-! ### popNotice -/

theorem State.popNotice_frame (s : State) :
    s.popNotice = { s with items := s.popNotice.items, noticeQueue := s.popNotice.noticeQueue, port := s.popNotice.port } := by
  apply State.ext <;> first
    | rfl
    | (dsimp only [State.popNotice]; (repeat' split) <;> simp)

@[simp] theorem State.popNotice_mem (s : State) : s.popNotice.mem = s.mem :=
  (congrArg State.mem (s.popNotice_frame) :)
@[simp] theorem State.popNotice_entries (s : State) : s.popNotice.entries = s.entries :=
  (congrArg State.entries (s.popNotice_frame) :)
@[simp] theorem State.popNotice_poolFree (s : State) : s.popNotice.poolFree = s.poolFree :=
  (congrArg State.poolFree (s.popNotice_frame) :)
@[simp] theorem State.popNotice_rx (s : State) : s.popNotice.rx = s.rx :=
  (congrArg State.rx (s.popNotice_frame) :)
@[simp] theorem State.popNotice_line (s : State) : s.popNotice.line = s.line :=
  (congrArg State.line (s.popNotice_frame) :)
@[simp] theorem State.popNotice_lineGap (s : State) : s.popNotice.lineGap = s.lineGap :=
  (congrArg State.lineGap (s.popNotice_frame) :)
@[simp] theorem State.popNotice_csnAsserted (s : State) : s.popNotice.csnAsserted = s.csnAsserted :=
  (congrArg State.csnAsserted (s.popNotice_frame) :)
@[simp] theorem State.popNotice_rxdLow (s : State) : s.popNotice.rxdLow = s.rxdLow :=
  (congrArg State.rxdLow (s.popNotice_frame) :)
@[simp] theorem State.popNotice_rxdSteady (s : State) : s.popNotice.rxdSteady = s.rxdSteady :=
  (congrArg State.rxdSteady (s.popNotice_frame) :)
@[simp] theorem State.popNotice_round (s : State) : s.popNotice.round = s.round :=
  (congrArg State.round (s.popNotice_frame) :)
@[simp] theorem State.popNotice_failCount (s : State) : s.popNotice.failCount = s.failCount :=
  (congrArg State.failCount (s.popNotice_frame) :)
@[simp] theorem State.popNotice_tx (s : State) : s.popNotice.tx = s.tx :=
  (congrArg State.tx (s.popNotice_frame) :)
@[simp] theorem State.popNotice_handover (s : State) : s.popNotice.handover = s.handover :=
  (congrArg State.handover (s.popNotice_frame) :)
@[simp] theorem State.popNotice_replies (s : State) : s.popNotice.replies = s.replies :=
  (congrArg State.replies (s.popNotice_frame) :)
@[simp] theorem State.popNotice_rrConsumer (s : State) : s.popNotice.rrConsumer = s.rrConsumer :=
  (congrArg State.rrConsumer (s.popNotice_frame) :)
@[simp] theorem State.popNotice_rrProducer (s : State) : s.popNotice.rrProducer = s.rrProducer :=
  (congrArg State.rrProducer (s.popNotice_frame) :)
@[simp] theorem State.popNotice_station (s : State) : s.popNotice.station = s.station :=
  (congrArg State.station (s.popNotice_frame) :)
@[simp] theorem State.popNotice_params (s : State) : s.popNotice.params = s.params :=
  (congrArg State.params (s.popNotice_frame) :)
@[simp] theorem State.popNotice_stationNo (s : State) : s.popNotice.stationNo = s.stationNo :=
  (congrArg State.stationNo (s.popNotice_frame) :)
@[simp] theorem State.popNotice_rate (s : State) : s.popNotice.rate = s.rate :=
  (congrArg State.rate (s.popNotice_frame) :)
@[simp] theorem State.popNotice_quiet (s : State) : s.popNotice.quiet = s.quiet :=
  (congrArg State.quiet (s.popNotice_frame) :)
@[simp] theorem State.popNotice_msPhase (s : State) : s.popNotice.msPhase = s.msPhase :=
  (congrArg State.msPhase (s.popNotice_frame) :)
@[simp] theorem State.popNotice_rstnLow (s : State) : s.popNotice.rstnLow = s.rstnLow :=
  (congrArg State.rstnLow (s.popNotice_frame) :)
@[simp] theorem State.popNotice_power (s : State) : s.popNotice.power = s.power :=
  (congrArg State.power (s.popNotice_frame) :)
@[simp] theorem State.popNotice_misoDraws (s : State) : s.popNotice.misoDraws = s.misoDraws :=
  (congrArg State.misoDraws (s.popNotice_frame) :)
@[simp] theorem State.popNotice_pins (s : State) : s.popNotice.pins = s.pins :=
  (congrArg State.pins (s.popNotice_frame) :)
@[simp] theorem State.popNotice_pending (s : State) : s.popNotice.pending = s.pending :=
  (congrArg State.pending (s.popNotice_frame) :)

/-! ### stopTransmitter -/

theorem State.stopTransmitter_frame (s : State) :
    s.stopTransmitter = { s with entries := s.stopTransmitter.entries, tx := s.stopTransmitter.tx, replies := s.stopTransmitter.replies } := by
  unfold State.stopTransmitter
  repeat' split
  all_goals (apply State.ext <;> simp)

@[simp] theorem State.stopTransmitter_mem (s : State) : s.stopTransmitter.mem = s.mem :=
  (congrArg State.mem (s.stopTransmitter_frame) :)
@[simp] theorem State.stopTransmitter_poolFree (s : State) : s.stopTransmitter.poolFree = s.poolFree :=
  (congrArg State.poolFree (s.stopTransmitter_frame) :)
@[simp] theorem State.stopTransmitter_items (s : State) : s.stopTransmitter.items = s.items :=
  (congrArg State.items (s.stopTransmitter_frame) :)
@[simp] theorem State.stopTransmitter_noticeQueue (s : State) : s.stopTransmitter.noticeQueue = s.noticeQueue :=
  (congrArg State.noticeQueue (s.stopTransmitter_frame) :)
@[simp] theorem State.stopTransmitter_rx (s : State) : s.stopTransmitter.rx = s.rx :=
  (congrArg State.rx (s.stopTransmitter_frame) :)
@[simp] theorem State.stopTransmitter_line (s : State) : s.stopTransmitter.line = s.line :=
  (congrArg State.line (s.stopTransmitter_frame) :)
@[simp] theorem State.stopTransmitter_lineGap (s : State) : s.stopTransmitter.lineGap = s.lineGap :=
  (congrArg State.lineGap (s.stopTransmitter_frame) :)
@[simp] theorem State.stopTransmitter_csnAsserted (s : State) : s.stopTransmitter.csnAsserted = s.csnAsserted :=
  (congrArg State.csnAsserted (s.stopTransmitter_frame) :)
@[simp] theorem State.stopTransmitter_rxdLow (s : State) : s.stopTransmitter.rxdLow = s.rxdLow :=
  (congrArg State.rxdLow (s.stopTransmitter_frame) :)
@[simp] theorem State.stopTransmitter_rxdSteady (s : State) : s.stopTransmitter.rxdSteady = s.rxdSteady :=
  (congrArg State.rxdSteady (s.stopTransmitter_frame) :)
@[simp] theorem State.stopTransmitter_round (s : State) : s.stopTransmitter.round = s.round :=
  (congrArg State.round (s.stopTransmitter_frame) :)
@[simp] theorem State.stopTransmitter_failCount (s : State) : s.stopTransmitter.failCount = s.failCount :=
  (congrArg State.failCount (s.stopTransmitter_frame) :)
@[simp] theorem State.stopTransmitter_handover (s : State) : s.stopTransmitter.handover = s.handover :=
  (congrArg State.handover (s.stopTransmitter_frame) :)
@[simp] theorem State.stopTransmitter_rrConsumer (s : State) : s.stopTransmitter.rrConsumer = s.rrConsumer :=
  (congrArg State.rrConsumer (s.stopTransmitter_frame) :)
@[simp] theorem State.stopTransmitter_rrProducer (s : State) : s.stopTransmitter.rrProducer = s.rrProducer :=
  (congrArg State.rrProducer (s.stopTransmitter_frame) :)
@[simp] theorem State.stopTransmitter_station (s : State) : s.stopTransmitter.station = s.station :=
  (congrArg State.station (s.stopTransmitter_frame) :)
@[simp] theorem State.stopTransmitter_params (s : State) : s.stopTransmitter.params = s.params :=
  (congrArg State.params (s.stopTransmitter_frame) :)
@[simp] theorem State.stopTransmitter_stationNo (s : State) : s.stopTransmitter.stationNo = s.stationNo :=
  (congrArg State.stationNo (s.stopTransmitter_frame) :)
@[simp] theorem State.stopTransmitter_rate (s : State) : s.stopTransmitter.rate = s.rate :=
  (congrArg State.rate (s.stopTransmitter_frame) :)
@[simp] theorem State.stopTransmitter_quiet (s : State) : s.stopTransmitter.quiet = s.quiet :=
  (congrArg State.quiet (s.stopTransmitter_frame) :)
@[simp] theorem State.stopTransmitter_msPhase (s : State) : s.stopTransmitter.msPhase = s.msPhase :=
  (congrArg State.msPhase (s.stopTransmitter_frame) :)
@[simp] theorem State.stopTransmitter_rstnLow (s : State) : s.stopTransmitter.rstnLow = s.rstnLow :=
  (congrArg State.rstnLow (s.stopTransmitter_frame) :)
@[simp] theorem State.stopTransmitter_power (s : State) : s.stopTransmitter.power = s.power :=
  (congrArg State.power (s.stopTransmitter_frame) :)
@[simp] theorem State.stopTransmitter_port (s : State) : s.stopTransmitter.port = s.port :=
  (congrArg State.port (s.stopTransmitter_frame) :)
@[simp] theorem State.stopTransmitter_misoDraws (s : State) : s.stopTransmitter.misoDraws = s.misoDraws :=
  (congrArg State.misoDraws (s.stopTransmitter_frame) :)
@[simp] theorem State.stopTransmitter_pins (s : State) : s.stopTransmitter.pins = s.pins :=
  (congrArg State.pins (s.stopTransmitter_frame) :)
@[simp] theorem State.stopTransmitter_pending (s : State) : s.stopTransmitter.pending = s.pending :=
  (congrArg State.pending (s.stopTransmitter_frame) :)

/-! ### conflict -/

theorem State.conflict_frame (s : State) (i : EntryIdx) :
    s.conflict i = { s with entries := (s.conflict i).entries, poolFree := (s.conflict i).poolFree, items := (s.conflict i).items, noticeQueue := (s.conflict i).noticeQueue, tx := (s.conflict i).tx, handover := (s.conflict i).handover } := by
  apply State.ext <;> first
    | rfl
    | (dsimp only [State.conflict]; (repeat' split) <;> simp)

@[simp] theorem State.conflict_mem (s : State) (i : EntryIdx) : (s.conflict i).mem = s.mem :=
  (congrArg State.mem (s.conflict_frame i) :)
@[simp] theorem State.conflict_rx (s : State) (i : EntryIdx) : (s.conflict i).rx = s.rx :=
  (congrArg State.rx (s.conflict_frame i) :)
@[simp] theorem State.conflict_line (s : State) (i : EntryIdx) : (s.conflict i).line = s.line :=
  (congrArg State.line (s.conflict_frame i) :)
@[simp] theorem State.conflict_lineGap (s : State) (i : EntryIdx) : (s.conflict i).lineGap = s.lineGap :=
  (congrArg State.lineGap (s.conflict_frame i) :)
@[simp] theorem State.conflict_csnAsserted (s : State) (i : EntryIdx) : (s.conflict i).csnAsserted = s.csnAsserted :=
  (congrArg State.csnAsserted (s.conflict_frame i) :)
@[simp] theorem State.conflict_rxdLow (s : State) (i : EntryIdx) : (s.conflict i).rxdLow = s.rxdLow :=
  (congrArg State.rxdLow (s.conflict_frame i) :)
@[simp] theorem State.conflict_rxdSteady (s : State) (i : EntryIdx) : (s.conflict i).rxdSteady = s.rxdSteady :=
  (congrArg State.rxdSteady (s.conflict_frame i) :)
@[simp] theorem State.conflict_round (s : State) (i : EntryIdx) : (s.conflict i).round = s.round :=
  (congrArg State.round (s.conflict_frame i) :)
@[simp] theorem State.conflict_failCount (s : State) (i : EntryIdx) : (s.conflict i).failCount = s.failCount :=
  (congrArg State.failCount (s.conflict_frame i) :)
@[simp] theorem State.conflict_replies (s : State) (i : EntryIdx) : (s.conflict i).replies = s.replies :=
  (congrArg State.replies (s.conflict_frame i) :)
@[simp] theorem State.conflict_rrConsumer (s : State) (i : EntryIdx) : (s.conflict i).rrConsumer = s.rrConsumer :=
  (congrArg State.rrConsumer (s.conflict_frame i) :)
@[simp] theorem State.conflict_rrProducer (s : State) (i : EntryIdx) : (s.conflict i).rrProducer = s.rrProducer :=
  (congrArg State.rrProducer (s.conflict_frame i) :)
@[simp] theorem State.conflict_station (s : State) (i : EntryIdx) : (s.conflict i).station = s.station :=
  (congrArg State.station (s.conflict_frame i) :)
@[simp] theorem State.conflict_params (s : State) (i : EntryIdx) : (s.conflict i).params = s.params :=
  (congrArg State.params (s.conflict_frame i) :)
@[simp] theorem State.conflict_stationNo (s : State) (i : EntryIdx) : (s.conflict i).stationNo = s.stationNo :=
  (congrArg State.stationNo (s.conflict_frame i) :)
@[simp] theorem State.conflict_rate (s : State) (i : EntryIdx) : (s.conflict i).rate = s.rate :=
  (congrArg State.rate (s.conflict_frame i) :)
@[simp] theorem State.conflict_quiet (s : State) (i : EntryIdx) : (s.conflict i).quiet = s.quiet :=
  (congrArg State.quiet (s.conflict_frame i) :)
@[simp] theorem State.conflict_msPhase (s : State) (i : EntryIdx) : (s.conflict i).msPhase = s.msPhase :=
  (congrArg State.msPhase (s.conflict_frame i) :)
@[simp] theorem State.conflict_rstnLow (s : State) (i : EntryIdx) : (s.conflict i).rstnLow = s.rstnLow :=
  (congrArg State.rstnLow (s.conflict_frame i) :)
@[simp] theorem State.conflict_power (s : State) (i : EntryIdx) : (s.conflict i).power = s.power :=
  (congrArg State.power (s.conflict_frame i) :)
@[simp] theorem State.conflict_port (s : State) (i : EntryIdx) : (s.conflict i).port = s.port :=
  (congrArg State.port (s.conflict_frame i) :)
@[simp] theorem State.conflict_misoDraws (s : State) (i : EntryIdx) : (s.conflict i).misoDraws = s.misoDraws :=
  (congrArg State.misoDraws (s.conflict_frame i) :)
@[simp] theorem State.conflict_pins (s : State) (i : EntryIdx) : (s.conflict i).pins = s.pins :=
  (congrArg State.pins (s.conflict_frame i) :)
@[simp] theorem State.conflict_pending (s : State) (i : EntryIdx) : (s.conflict i).pending = s.pending :=
  (congrArg State.pending (s.conflict_frame i) :)

/-! ### producerAck -/

theorem State.producerAck_frame (s : State) (i : EntryIdx) (n : Station) (a : Seq) (k : Nat) :
    s.producerAck i n a k = { s with entries := (s.producerAck i n a k).entries, poolFree := (s.producerAck i n a k).poolFree, items := (s.producerAck i n a k).items, noticeQueue := (s.producerAck i n a k).noticeQueue, tx := (s.producerAck i n a k).tx, handover := (s.producerAck i n a k).handover, replies := (s.producerAck i n a k).replies } := by
  apply State.ext <;> first
    | rfl
    | (dsimp only [State.producerAck]; (repeat' split) <;> simp)

@[simp] theorem State.producerAck_mem (s : State) (i : EntryIdx) (n : Station) (a : Seq) (k : Nat) : (s.producerAck i n a k).mem = s.mem :=
  (congrArg State.mem (s.producerAck_frame i n a k) :)
@[simp] theorem State.producerAck_rx (s : State) (i : EntryIdx) (n : Station) (a : Seq) (k : Nat) : (s.producerAck i n a k).rx = s.rx :=
  (congrArg State.rx (s.producerAck_frame i n a k) :)
@[simp] theorem State.producerAck_line (s : State) (i : EntryIdx) (n : Station) (a : Seq) (k : Nat) : (s.producerAck i n a k).line = s.line :=
  (congrArg State.line (s.producerAck_frame i n a k) :)
@[simp] theorem State.producerAck_lineGap (s : State) (i : EntryIdx) (n : Station) (a : Seq) (k : Nat) : (s.producerAck i n a k).lineGap = s.lineGap :=
  (congrArg State.lineGap (s.producerAck_frame i n a k) :)
@[simp] theorem State.producerAck_csnAsserted (s : State) (i : EntryIdx) (n : Station) (a : Seq) (k : Nat) : (s.producerAck i n a k).csnAsserted = s.csnAsserted :=
  (congrArg State.csnAsserted (s.producerAck_frame i n a k) :)
@[simp] theorem State.producerAck_rxdLow (s : State) (i : EntryIdx) (n : Station) (a : Seq) (k : Nat) : (s.producerAck i n a k).rxdLow = s.rxdLow :=
  (congrArg State.rxdLow (s.producerAck_frame i n a k) :)
@[simp] theorem State.producerAck_rxdSteady (s : State) (i : EntryIdx) (n : Station) (a : Seq) (k : Nat) : (s.producerAck i n a k).rxdSteady = s.rxdSteady :=
  (congrArg State.rxdSteady (s.producerAck_frame i n a k) :)
@[simp] theorem State.producerAck_round (s : State) (i : EntryIdx) (n : Station) (a : Seq) (k : Nat) : (s.producerAck i n a k).round = s.round :=
  (congrArg State.round (s.producerAck_frame i n a k) :)
@[simp] theorem State.producerAck_failCount (s : State) (i : EntryIdx) (n : Station) (a : Seq) (k : Nat) : (s.producerAck i n a k).failCount = s.failCount :=
  (congrArg State.failCount (s.producerAck_frame i n a k) :)
@[simp] theorem State.producerAck_rrConsumer (s : State) (i : EntryIdx) (n : Station) (a : Seq) (k : Nat) : (s.producerAck i n a k).rrConsumer = s.rrConsumer :=
  (congrArg State.rrConsumer (s.producerAck_frame i n a k) :)
@[simp] theorem State.producerAck_rrProducer (s : State) (i : EntryIdx) (n : Station) (a : Seq) (k : Nat) : (s.producerAck i n a k).rrProducer = s.rrProducer :=
  (congrArg State.rrProducer (s.producerAck_frame i n a k) :)
@[simp] theorem State.producerAck_station (s : State) (i : EntryIdx) (n : Station) (a : Seq) (k : Nat) : (s.producerAck i n a k).station = s.station :=
  (congrArg State.station (s.producerAck_frame i n a k) :)
@[simp] theorem State.producerAck_params (s : State) (i : EntryIdx) (n : Station) (a : Seq) (k : Nat) : (s.producerAck i n a k).params = s.params :=
  (congrArg State.params (s.producerAck_frame i n a k) :)
@[simp] theorem State.producerAck_stationNo (s : State) (i : EntryIdx) (n : Station) (a : Seq) (k : Nat) : (s.producerAck i n a k).stationNo = s.stationNo :=
  (congrArg State.stationNo (s.producerAck_frame i n a k) :)
@[simp] theorem State.producerAck_rate (s : State) (i : EntryIdx) (n : Station) (a : Seq) (k : Nat) : (s.producerAck i n a k).rate = s.rate :=
  (congrArg State.rate (s.producerAck_frame i n a k) :)
@[simp] theorem State.producerAck_quiet (s : State) (i : EntryIdx) (n : Station) (a : Seq) (k : Nat) : (s.producerAck i n a k).quiet = s.quiet :=
  (congrArg State.quiet (s.producerAck_frame i n a k) :)
@[simp] theorem State.producerAck_msPhase (s : State) (i : EntryIdx) (n : Station) (a : Seq) (k : Nat) : (s.producerAck i n a k).msPhase = s.msPhase :=
  (congrArg State.msPhase (s.producerAck_frame i n a k) :)
@[simp] theorem State.producerAck_rstnLow (s : State) (i : EntryIdx) (n : Station) (a : Seq) (k : Nat) : (s.producerAck i n a k).rstnLow = s.rstnLow :=
  (congrArg State.rstnLow (s.producerAck_frame i n a k) :)
@[simp] theorem State.producerAck_power (s : State) (i : EntryIdx) (n : Station) (a : Seq) (k : Nat) : (s.producerAck i n a k).power = s.power :=
  (congrArg State.power (s.producerAck_frame i n a k) :)
@[simp] theorem State.producerAck_port (s : State) (i : EntryIdx) (n : Station) (a : Seq) (k : Nat) : (s.producerAck i n a k).port = s.port :=
  (congrArg State.port (s.producerAck_frame i n a k) :)
@[simp] theorem State.producerAck_misoDraws (s : State) (i : EntryIdx) (n : Station) (a : Seq) (k : Nat) : (s.producerAck i n a k).misoDraws = s.misoDraws :=
  (congrArg State.misoDraws (s.producerAck_frame i n a k) :)
@[simp] theorem State.producerAck_pins (s : State) (i : EntryIdx) (n : Station) (a : Seq) (k : Nat) : (s.producerAck i n a k).pins = s.pins :=
  (congrArg State.pins (s.producerAck_frame i n a k) :)
@[simp] theorem State.producerAck_pending (s : State) (i : EntryIdx) (n : Station) (a : Seq) (k : Nat) : (s.producerAck i n a k).pending = s.pending :=
  (congrArg State.pending (s.producerAck_frame i n a k) :)

/-! ### producerJoin -/

theorem State.producerJoin_frame (s : State) (i : EntryIdx) (n : Station) (k size : Nat) :
    s.producerJoin i n k size = { s with entries := (s.producerJoin i n k size).entries, poolFree := (s.producerJoin i n k size).poolFree, items := (s.producerJoin i n k size).items, noticeQueue := (s.producerJoin i n k size).noticeQueue, replies := (s.producerJoin i n k size).replies } := by
  apply State.ext <;> first
    | rfl
    | (dsimp only [State.producerJoin]; (repeat' split) <;> simp)

@[simp] theorem State.producerJoin_mem (s : State) (i : EntryIdx) (n : Station) (k size : Nat) : (s.producerJoin i n k size).mem = s.mem :=
  (congrArg State.mem (s.producerJoin_frame i n k size) :)
@[simp] theorem State.producerJoin_rx (s : State) (i : EntryIdx) (n : Station) (k size : Nat) : (s.producerJoin i n k size).rx = s.rx :=
  (congrArg State.rx (s.producerJoin_frame i n k size) :)
@[simp] theorem State.producerJoin_line (s : State) (i : EntryIdx) (n : Station) (k size : Nat) : (s.producerJoin i n k size).line = s.line :=
  (congrArg State.line (s.producerJoin_frame i n k size) :)
@[simp] theorem State.producerJoin_lineGap (s : State) (i : EntryIdx) (n : Station) (k size : Nat) : (s.producerJoin i n k size).lineGap = s.lineGap :=
  (congrArg State.lineGap (s.producerJoin_frame i n k size) :)
@[simp] theorem State.producerJoin_csnAsserted (s : State) (i : EntryIdx) (n : Station) (k size : Nat) : (s.producerJoin i n k size).csnAsserted = s.csnAsserted :=
  (congrArg State.csnAsserted (s.producerJoin_frame i n k size) :)
@[simp] theorem State.producerJoin_rxdLow (s : State) (i : EntryIdx) (n : Station) (k size : Nat) : (s.producerJoin i n k size).rxdLow = s.rxdLow :=
  (congrArg State.rxdLow (s.producerJoin_frame i n k size) :)
@[simp] theorem State.producerJoin_rxdSteady (s : State) (i : EntryIdx) (n : Station) (k size : Nat) : (s.producerJoin i n k size).rxdSteady = s.rxdSteady :=
  (congrArg State.rxdSteady (s.producerJoin_frame i n k size) :)
@[simp] theorem State.producerJoin_round (s : State) (i : EntryIdx) (n : Station) (k size : Nat) : (s.producerJoin i n k size).round = s.round :=
  (congrArg State.round (s.producerJoin_frame i n k size) :)
@[simp] theorem State.producerJoin_failCount (s : State) (i : EntryIdx) (n : Station) (k size : Nat) : (s.producerJoin i n k size).failCount = s.failCount :=
  (congrArg State.failCount (s.producerJoin_frame i n k size) :)
@[simp] theorem State.producerJoin_tx (s : State) (i : EntryIdx) (n : Station) (k size : Nat) : (s.producerJoin i n k size).tx = s.tx :=
  (congrArg State.tx (s.producerJoin_frame i n k size) :)
@[simp] theorem State.producerJoin_handover (s : State) (i : EntryIdx) (n : Station) (k size : Nat) : (s.producerJoin i n k size).handover = s.handover :=
  (congrArg State.handover (s.producerJoin_frame i n k size) :)
@[simp] theorem State.producerJoin_rrConsumer (s : State) (i : EntryIdx) (n : Station) (k size : Nat) : (s.producerJoin i n k size).rrConsumer = s.rrConsumer :=
  (congrArg State.rrConsumer (s.producerJoin_frame i n k size) :)
@[simp] theorem State.producerJoin_rrProducer (s : State) (i : EntryIdx) (n : Station) (k size : Nat) : (s.producerJoin i n k size).rrProducer = s.rrProducer :=
  (congrArg State.rrProducer (s.producerJoin_frame i n k size) :)
@[simp] theorem State.producerJoin_station (s : State) (i : EntryIdx) (n : Station) (k size : Nat) : (s.producerJoin i n k size).station = s.station :=
  (congrArg State.station (s.producerJoin_frame i n k size) :)
@[simp] theorem State.producerJoin_params (s : State) (i : EntryIdx) (n : Station) (k size : Nat) : (s.producerJoin i n k size).params = s.params :=
  (congrArg State.params (s.producerJoin_frame i n k size) :)
@[simp] theorem State.producerJoin_stationNo (s : State) (i : EntryIdx) (n : Station) (k size : Nat) : (s.producerJoin i n k size).stationNo = s.stationNo :=
  (congrArg State.stationNo (s.producerJoin_frame i n k size) :)
@[simp] theorem State.producerJoin_rate (s : State) (i : EntryIdx) (n : Station) (k size : Nat) : (s.producerJoin i n k size).rate = s.rate :=
  (congrArg State.rate (s.producerJoin_frame i n k size) :)
@[simp] theorem State.producerJoin_quiet (s : State) (i : EntryIdx) (n : Station) (k size : Nat) : (s.producerJoin i n k size).quiet = s.quiet :=
  (congrArg State.quiet (s.producerJoin_frame i n k size) :)
@[simp] theorem State.producerJoin_msPhase (s : State) (i : EntryIdx) (n : Station) (k size : Nat) : (s.producerJoin i n k size).msPhase = s.msPhase :=
  (congrArg State.msPhase (s.producerJoin_frame i n k size) :)
@[simp] theorem State.producerJoin_rstnLow (s : State) (i : EntryIdx) (n : Station) (k size : Nat) : (s.producerJoin i n k size).rstnLow = s.rstnLow :=
  (congrArg State.rstnLow (s.producerJoin_frame i n k size) :)
@[simp] theorem State.producerJoin_power (s : State) (i : EntryIdx) (n : Station) (k size : Nat) : (s.producerJoin i n k size).power = s.power :=
  (congrArg State.power (s.producerJoin_frame i n k size) :)
@[simp] theorem State.producerJoin_port (s : State) (i : EntryIdx) (n : Station) (k size : Nat) : (s.producerJoin i n k size).port = s.port :=
  (congrArg State.port (s.producerJoin_frame i n k size) :)
@[simp] theorem State.producerJoin_misoDraws (s : State) (i : EntryIdx) (n : Station) (k size : Nat) : (s.producerJoin i n k size).misoDraws = s.misoDraws :=
  (congrArg State.misoDraws (s.producerJoin_frame i n k size) :)
@[simp] theorem State.producerJoin_pins (s : State) (i : EntryIdx) (n : Station) (k size : Nat) : (s.producerJoin i n k size).pins = s.pins :=
  (congrArg State.pins (s.producerJoin_frame i n k size) :)
@[simp] theorem State.producerJoin_pending (s : State) (i : EntryIdx) (n : Station) (k size : Nat) : (s.producerJoin i n k size).pending = s.pending :=
  (congrArg State.pending (s.producerJoin_frame i n k size) :)

/-! ### producerLeave -/

theorem State.producerLeave_frame (s : State) (i : EntryIdx) (n : Station) :
    s.producerLeave i n = { s with entries := (s.producerLeave i n).entries, poolFree := (s.producerLeave i n).poolFree, items := (s.producerLeave i n).items, noticeQueue := (s.producerLeave i n).noticeQueue, tx := (s.producerLeave i n).tx, handover := (s.producerLeave i n).handover } := by
  apply State.ext <;> first
    | rfl
    | (dsimp only [State.producerLeave]; (repeat' split) <;> simp)

@[simp] theorem State.producerLeave_mem (s : State) (i : EntryIdx) (n : Station) : (s.producerLeave i n).mem = s.mem :=
  (congrArg State.mem (s.producerLeave_frame i n) :)
@[simp] theorem State.producerLeave_rx (s : State) (i : EntryIdx) (n : Station) : (s.producerLeave i n).rx = s.rx :=
  (congrArg State.rx (s.producerLeave_frame i n) :)
@[simp] theorem State.producerLeave_line (s : State) (i : EntryIdx) (n : Station) : (s.producerLeave i n).line = s.line :=
  (congrArg State.line (s.producerLeave_frame i n) :)
@[simp] theorem State.producerLeave_lineGap (s : State) (i : EntryIdx) (n : Station) : (s.producerLeave i n).lineGap = s.lineGap :=
  (congrArg State.lineGap (s.producerLeave_frame i n) :)
@[simp] theorem State.producerLeave_csnAsserted (s : State) (i : EntryIdx) (n : Station) : (s.producerLeave i n).csnAsserted = s.csnAsserted :=
  (congrArg State.csnAsserted (s.producerLeave_frame i n) :)
@[simp] theorem State.producerLeave_rxdLow (s : State) (i : EntryIdx) (n : Station) : (s.producerLeave i n).rxdLow = s.rxdLow :=
  (congrArg State.rxdLow (s.producerLeave_frame i n) :)
@[simp] theorem State.producerLeave_rxdSteady (s : State) (i : EntryIdx) (n : Station) : (s.producerLeave i n).rxdSteady = s.rxdSteady :=
  (congrArg State.rxdSteady (s.producerLeave_frame i n) :)
@[simp] theorem State.producerLeave_round (s : State) (i : EntryIdx) (n : Station) : (s.producerLeave i n).round = s.round :=
  (congrArg State.round (s.producerLeave_frame i n) :)
@[simp] theorem State.producerLeave_failCount (s : State) (i : EntryIdx) (n : Station) : (s.producerLeave i n).failCount = s.failCount :=
  (congrArg State.failCount (s.producerLeave_frame i n) :)
@[simp] theorem State.producerLeave_replies (s : State) (i : EntryIdx) (n : Station) : (s.producerLeave i n).replies = s.replies :=
  (congrArg State.replies (s.producerLeave_frame i n) :)
@[simp] theorem State.producerLeave_rrConsumer (s : State) (i : EntryIdx) (n : Station) : (s.producerLeave i n).rrConsumer = s.rrConsumer :=
  (congrArg State.rrConsumer (s.producerLeave_frame i n) :)
@[simp] theorem State.producerLeave_rrProducer (s : State) (i : EntryIdx) (n : Station) : (s.producerLeave i n).rrProducer = s.rrProducer :=
  (congrArg State.rrProducer (s.producerLeave_frame i n) :)
@[simp] theorem State.producerLeave_station (s : State) (i : EntryIdx) (n : Station) : (s.producerLeave i n).station = s.station :=
  (congrArg State.station (s.producerLeave_frame i n) :)
@[simp] theorem State.producerLeave_params (s : State) (i : EntryIdx) (n : Station) : (s.producerLeave i n).params = s.params :=
  (congrArg State.params (s.producerLeave_frame i n) :)
@[simp] theorem State.producerLeave_stationNo (s : State) (i : EntryIdx) (n : Station) : (s.producerLeave i n).stationNo = s.stationNo :=
  (congrArg State.stationNo (s.producerLeave_frame i n) :)
@[simp] theorem State.producerLeave_rate (s : State) (i : EntryIdx) (n : Station) : (s.producerLeave i n).rate = s.rate :=
  (congrArg State.rate (s.producerLeave_frame i n) :)
@[simp] theorem State.producerLeave_quiet (s : State) (i : EntryIdx) (n : Station) : (s.producerLeave i n).quiet = s.quiet :=
  (congrArg State.quiet (s.producerLeave_frame i n) :)
@[simp] theorem State.producerLeave_msPhase (s : State) (i : EntryIdx) (n : Station) : (s.producerLeave i n).msPhase = s.msPhase :=
  (congrArg State.msPhase (s.producerLeave_frame i n) :)
@[simp] theorem State.producerLeave_rstnLow (s : State) (i : EntryIdx) (n : Station) : (s.producerLeave i n).rstnLow = s.rstnLow :=
  (congrArg State.rstnLow (s.producerLeave_frame i n) :)
@[simp] theorem State.producerLeave_power (s : State) (i : EntryIdx) (n : Station) : (s.producerLeave i n).power = s.power :=
  (congrArg State.power (s.producerLeave_frame i n) :)
@[simp] theorem State.producerLeave_port (s : State) (i : EntryIdx) (n : Station) : (s.producerLeave i n).port = s.port :=
  (congrArg State.port (s.producerLeave_frame i n) :)
@[simp] theorem State.producerLeave_misoDraws (s : State) (i : EntryIdx) (n : Station) : (s.producerLeave i n).misoDraws = s.misoDraws :=
  (congrArg State.misoDraws (s.producerLeave_frame i n) :)
@[simp] theorem State.producerLeave_pins (s : State) (i : EntryIdx) (n : Station) : (s.producerLeave i n).pins = s.pins :=
  (congrArg State.pins (s.producerLeave_frame i n) :)
@[simp] theorem State.producerLeave_pending (s : State) (i : EntryIdx) (n : Station) : (s.producerLeave i n).pending = s.pending :=
  (congrArg State.pending (s.producerLeave_frame i n) :)

/-! ### consumerAccept -/

theorem State.consumerAccept_frame (s : State) (i : EntryIdx) (n : Station) (start : Seq) (size : Nat) :
    s.consumerAccept i n start size = { s with entries := (s.consumerAccept i n start size).entries, items := (s.consumerAccept i n start size).items, noticeQueue := (s.consumerAccept i n start size).noticeQueue, tx := (s.consumerAccept i n start size).tx } := by
  apply State.ext <;> first
    | rfl
    | (dsimp only [State.consumerAccept]; (repeat' split) <;> simp)

@[simp] theorem State.consumerAccept_mem (s : State) (i : EntryIdx) (n : Station) (start : Seq) (size : Nat) : (s.consumerAccept i n start size).mem = s.mem :=
  (congrArg State.mem (s.consumerAccept_frame i n start size) :)
@[simp] theorem State.consumerAccept_poolFree (s : State) (i : EntryIdx) (n : Station) (start : Seq) (size : Nat) : (s.consumerAccept i n start size).poolFree = s.poolFree :=
  (congrArg State.poolFree (s.consumerAccept_frame i n start size) :)
@[simp] theorem State.consumerAccept_rx (s : State) (i : EntryIdx) (n : Station) (start : Seq) (size : Nat) : (s.consumerAccept i n start size).rx = s.rx :=
  (congrArg State.rx (s.consumerAccept_frame i n start size) :)
@[simp] theorem State.consumerAccept_line (s : State) (i : EntryIdx) (n : Station) (start : Seq) (size : Nat) : (s.consumerAccept i n start size).line = s.line :=
  (congrArg State.line (s.consumerAccept_frame i n start size) :)
@[simp] theorem State.consumerAccept_lineGap (s : State) (i : EntryIdx) (n : Station) (start : Seq) (size : Nat) : (s.consumerAccept i n start size).lineGap = s.lineGap :=
  (congrArg State.lineGap (s.consumerAccept_frame i n start size) :)
@[simp] theorem State.consumerAccept_csnAsserted (s : State) (i : EntryIdx) (n : Station) (start : Seq) (size : Nat) : (s.consumerAccept i n start size).csnAsserted = s.csnAsserted :=
  (congrArg State.csnAsserted (s.consumerAccept_frame i n start size) :)
@[simp] theorem State.consumerAccept_rxdLow (s : State) (i : EntryIdx) (n : Station) (start : Seq) (size : Nat) : (s.consumerAccept i n start size).rxdLow = s.rxdLow :=
  (congrArg State.rxdLow (s.consumerAccept_frame i n start size) :)
@[simp] theorem State.consumerAccept_rxdSteady (s : State) (i : EntryIdx) (n : Station) (start : Seq) (size : Nat) : (s.consumerAccept i n start size).rxdSteady = s.rxdSteady :=
  (congrArg State.rxdSteady (s.consumerAccept_frame i n start size) :)
@[simp] theorem State.consumerAccept_round (s : State) (i : EntryIdx) (n : Station) (start : Seq) (size : Nat) : (s.consumerAccept i n start size).round = s.round :=
  (congrArg State.round (s.consumerAccept_frame i n start size) :)
@[simp] theorem State.consumerAccept_failCount (s : State) (i : EntryIdx) (n : Station) (start : Seq) (size : Nat) : (s.consumerAccept i n start size).failCount = s.failCount :=
  (congrArg State.failCount (s.consumerAccept_frame i n start size) :)
@[simp] theorem State.consumerAccept_handover (s : State) (i : EntryIdx) (n : Station) (start : Seq) (size : Nat) : (s.consumerAccept i n start size).handover = s.handover :=
  (congrArg State.handover (s.consumerAccept_frame i n start size) :)
@[simp] theorem State.consumerAccept_replies (s : State) (i : EntryIdx) (n : Station) (start : Seq) (size : Nat) : (s.consumerAccept i n start size).replies = s.replies :=
  (congrArg State.replies (s.consumerAccept_frame i n start size) :)
@[simp] theorem State.consumerAccept_rrConsumer (s : State) (i : EntryIdx) (n : Station) (start : Seq) (size : Nat) : (s.consumerAccept i n start size).rrConsumer = s.rrConsumer :=
  (congrArg State.rrConsumer (s.consumerAccept_frame i n start size) :)
@[simp] theorem State.consumerAccept_rrProducer (s : State) (i : EntryIdx) (n : Station) (start : Seq) (size : Nat) : (s.consumerAccept i n start size).rrProducer = s.rrProducer :=
  (congrArg State.rrProducer (s.consumerAccept_frame i n start size) :)
@[simp] theorem State.consumerAccept_station (s : State) (i : EntryIdx) (n : Station) (start : Seq) (size : Nat) : (s.consumerAccept i n start size).station = s.station :=
  (congrArg State.station (s.consumerAccept_frame i n start size) :)
@[simp] theorem State.consumerAccept_params (s : State) (i : EntryIdx) (n : Station) (start : Seq) (size : Nat) : (s.consumerAccept i n start size).params = s.params :=
  (congrArg State.params (s.consumerAccept_frame i n start size) :)
@[simp] theorem State.consumerAccept_stationNo (s : State) (i : EntryIdx) (n : Station) (start : Seq) (size : Nat) : (s.consumerAccept i n start size).stationNo = s.stationNo :=
  (congrArg State.stationNo (s.consumerAccept_frame i n start size) :)
@[simp] theorem State.consumerAccept_rate (s : State) (i : EntryIdx) (n : Station) (start : Seq) (size : Nat) : (s.consumerAccept i n start size).rate = s.rate :=
  (congrArg State.rate (s.consumerAccept_frame i n start size) :)
@[simp] theorem State.consumerAccept_quiet (s : State) (i : EntryIdx) (n : Station) (start : Seq) (size : Nat) : (s.consumerAccept i n start size).quiet = s.quiet :=
  (congrArg State.quiet (s.consumerAccept_frame i n start size) :)
@[simp] theorem State.consumerAccept_msPhase (s : State) (i : EntryIdx) (n : Station) (start : Seq) (size : Nat) : (s.consumerAccept i n start size).msPhase = s.msPhase :=
  (congrArg State.msPhase (s.consumerAccept_frame i n start size) :)
@[simp] theorem State.consumerAccept_rstnLow (s : State) (i : EntryIdx) (n : Station) (start : Seq) (size : Nat) : (s.consumerAccept i n start size).rstnLow = s.rstnLow :=
  (congrArg State.rstnLow (s.consumerAccept_frame i n start size) :)
@[simp] theorem State.consumerAccept_power (s : State) (i : EntryIdx) (n : Station) (start : Seq) (size : Nat) : (s.consumerAccept i n start size).power = s.power :=
  (congrArg State.power (s.consumerAccept_frame i n start size) :)
@[simp] theorem State.consumerAccept_port (s : State) (i : EntryIdx) (n : Station) (start : Seq) (size : Nat) : (s.consumerAccept i n start size).port = s.port :=
  (congrArg State.port (s.consumerAccept_frame i n start size) :)
@[simp] theorem State.consumerAccept_misoDraws (s : State) (i : EntryIdx) (n : Station) (start : Seq) (size : Nat) : (s.consumerAccept i n start size).misoDraws = s.misoDraws :=
  (congrArg State.misoDraws (s.consumerAccept_frame i n start size) :)
@[simp] theorem State.consumerAccept_pins (s : State) (i : EntryIdx) (n : Station) (start : Seq) (size : Nat) : (s.consumerAccept i n start size).pins = s.pins :=
  (congrArg State.pins (s.consumerAccept_frame i n start size) :)
@[simp] theorem State.consumerAccept_pending (s : State) (i : EntryIdx) (n : Station) (start : Seq) (size : Nat) : (s.consumerAccept i n start size).pending = s.pending :=
  (congrArg State.pending (s.consumerAccept_frame i n start size) :)

/-! ### consumerRefuse -/

theorem State.consumerRefuse_frame (s : State) (i : EntryIdx) (n : Station) (reason : Reason) :
    s.consumerRefuse i n reason = { s with entries := (s.consumerRefuse i n reason).entries, poolFree := (s.consumerRefuse i n reason).poolFree, items := (s.consumerRefuse i n reason).items, noticeQueue := (s.consumerRefuse i n reason).noticeQueue, tx := (s.consumerRefuse i n reason).tx, handover := (s.consumerRefuse i n reason).handover } := by
  apply State.ext <;> first
    | rfl
    | (dsimp only [State.consumerRefuse]; (repeat' split) <;> simp)

@[simp] theorem State.consumerRefuse_mem (s : State) (i : EntryIdx) (n : Station) (reason : Reason) : (s.consumerRefuse i n reason).mem = s.mem :=
  (congrArg State.mem (s.consumerRefuse_frame i n reason) :)
@[simp] theorem State.consumerRefuse_rx (s : State) (i : EntryIdx) (n : Station) (reason : Reason) : (s.consumerRefuse i n reason).rx = s.rx :=
  (congrArg State.rx (s.consumerRefuse_frame i n reason) :)
@[simp] theorem State.consumerRefuse_line (s : State) (i : EntryIdx) (n : Station) (reason : Reason) : (s.consumerRefuse i n reason).line = s.line :=
  (congrArg State.line (s.consumerRefuse_frame i n reason) :)
@[simp] theorem State.consumerRefuse_lineGap (s : State) (i : EntryIdx) (n : Station) (reason : Reason) : (s.consumerRefuse i n reason).lineGap = s.lineGap :=
  (congrArg State.lineGap (s.consumerRefuse_frame i n reason) :)
@[simp] theorem State.consumerRefuse_csnAsserted (s : State) (i : EntryIdx) (n : Station) (reason : Reason) : (s.consumerRefuse i n reason).csnAsserted = s.csnAsserted :=
  (congrArg State.csnAsserted (s.consumerRefuse_frame i n reason) :)
@[simp] theorem State.consumerRefuse_rxdLow (s : State) (i : EntryIdx) (n : Station) (reason : Reason) : (s.consumerRefuse i n reason).rxdLow = s.rxdLow :=
  (congrArg State.rxdLow (s.consumerRefuse_frame i n reason) :)
@[simp] theorem State.consumerRefuse_rxdSteady (s : State) (i : EntryIdx) (n : Station) (reason : Reason) : (s.consumerRefuse i n reason).rxdSteady = s.rxdSteady :=
  (congrArg State.rxdSteady (s.consumerRefuse_frame i n reason) :)
@[simp] theorem State.consumerRefuse_round (s : State) (i : EntryIdx) (n : Station) (reason : Reason) : (s.consumerRefuse i n reason).round = s.round :=
  (congrArg State.round (s.consumerRefuse_frame i n reason) :)
@[simp] theorem State.consumerRefuse_failCount (s : State) (i : EntryIdx) (n : Station) (reason : Reason) : (s.consumerRefuse i n reason).failCount = s.failCount :=
  (congrArg State.failCount (s.consumerRefuse_frame i n reason) :)
@[simp] theorem State.consumerRefuse_replies (s : State) (i : EntryIdx) (n : Station) (reason : Reason) : (s.consumerRefuse i n reason).replies = s.replies :=
  (congrArg State.replies (s.consumerRefuse_frame i n reason) :)
@[simp] theorem State.consumerRefuse_rrConsumer (s : State) (i : EntryIdx) (n : Station) (reason : Reason) : (s.consumerRefuse i n reason).rrConsumer = s.rrConsumer :=
  (congrArg State.rrConsumer (s.consumerRefuse_frame i n reason) :)
@[simp] theorem State.consumerRefuse_rrProducer (s : State) (i : EntryIdx) (n : Station) (reason : Reason) : (s.consumerRefuse i n reason).rrProducer = s.rrProducer :=
  (congrArg State.rrProducer (s.consumerRefuse_frame i n reason) :)
@[simp] theorem State.consumerRefuse_station (s : State) (i : EntryIdx) (n : Station) (reason : Reason) : (s.consumerRefuse i n reason).station = s.station :=
  (congrArg State.station (s.consumerRefuse_frame i n reason) :)
@[simp] theorem State.consumerRefuse_params (s : State) (i : EntryIdx) (n : Station) (reason : Reason) : (s.consumerRefuse i n reason).params = s.params :=
  (congrArg State.params (s.consumerRefuse_frame i n reason) :)
@[simp] theorem State.consumerRefuse_stationNo (s : State) (i : EntryIdx) (n : Station) (reason : Reason) : (s.consumerRefuse i n reason).stationNo = s.stationNo :=
  (congrArg State.stationNo (s.consumerRefuse_frame i n reason) :)
@[simp] theorem State.consumerRefuse_rate (s : State) (i : EntryIdx) (n : Station) (reason : Reason) : (s.consumerRefuse i n reason).rate = s.rate :=
  (congrArg State.rate (s.consumerRefuse_frame i n reason) :)
@[simp] theorem State.consumerRefuse_quiet (s : State) (i : EntryIdx) (n : Station) (reason : Reason) : (s.consumerRefuse i n reason).quiet = s.quiet :=
  (congrArg State.quiet (s.consumerRefuse_frame i n reason) :)
@[simp] theorem State.consumerRefuse_msPhase (s : State) (i : EntryIdx) (n : Station) (reason : Reason) : (s.consumerRefuse i n reason).msPhase = s.msPhase :=
  (congrArg State.msPhase (s.consumerRefuse_frame i n reason) :)
@[simp] theorem State.consumerRefuse_rstnLow (s : State) (i : EntryIdx) (n : Station) (reason : Reason) : (s.consumerRefuse i n reason).rstnLow = s.rstnLow :=
  (congrArg State.rstnLow (s.consumerRefuse_frame i n reason) :)
@[simp] theorem State.consumerRefuse_power (s : State) (i : EntryIdx) (n : Station) (reason : Reason) : (s.consumerRefuse i n reason).power = s.power :=
  (congrArg State.power (s.consumerRefuse_frame i n reason) :)
@[simp] theorem State.consumerRefuse_port (s : State) (i : EntryIdx) (n : Station) (reason : Reason) : (s.consumerRefuse i n reason).port = s.port :=
  (congrArg State.port (s.consumerRefuse_frame i n reason) :)
@[simp] theorem State.consumerRefuse_misoDraws (s : State) (i : EntryIdx) (n : Station) (reason : Reason) : (s.consumerRefuse i n reason).misoDraws = s.misoDraws :=
  (congrArg State.misoDraws (s.consumerRefuse_frame i n reason) :)
@[simp] theorem State.consumerRefuse_pins (s : State) (i : EntryIdx) (n : Station) (reason : Reason) : (s.consumerRefuse i n reason).pins = s.pins :=
  (congrArg State.pins (s.consumerRefuse_frame i n reason) :)
@[simp] theorem State.consumerRefuse_pending (s : State) (i : EntryIdx) (n : Station) (reason : Reason) : (s.consumerRefuse i n reason).pending = s.pending :=
  (congrArg State.pending (s.consumerRefuse_frame i n reason) :)

/-! ### consumerHold -/

theorem State.consumerHold_frame (s : State) (i : EntryIdx) (n : Station) (next : Seq) :
    s.consumerHold i n next = { s with entries := (s.consumerHold i n next).entries } := by
  apply State.ext <;> first
    | rfl
    | (dsimp only [State.consumerHold]; (repeat' split) <;> simp)

@[simp] theorem State.consumerHold_mem (s : State) (i : EntryIdx) (n : Station) (next : Seq) : (s.consumerHold i n next).mem = s.mem :=
  (congrArg State.mem (s.consumerHold_frame i n next) :)
@[simp] theorem State.consumerHold_poolFree (s : State) (i : EntryIdx) (n : Station) (next : Seq) : (s.consumerHold i n next).poolFree = s.poolFree :=
  (congrArg State.poolFree (s.consumerHold_frame i n next) :)
@[simp] theorem State.consumerHold_items (s : State) (i : EntryIdx) (n : Station) (next : Seq) : (s.consumerHold i n next).items = s.items :=
  (congrArg State.items (s.consumerHold_frame i n next) :)
@[simp] theorem State.consumerHold_noticeQueue (s : State) (i : EntryIdx) (n : Station) (next : Seq) : (s.consumerHold i n next).noticeQueue = s.noticeQueue :=
  (congrArg State.noticeQueue (s.consumerHold_frame i n next) :)
@[simp] theorem State.consumerHold_rx (s : State) (i : EntryIdx) (n : Station) (next : Seq) : (s.consumerHold i n next).rx = s.rx :=
  (congrArg State.rx (s.consumerHold_frame i n next) :)
@[simp] theorem State.consumerHold_line (s : State) (i : EntryIdx) (n : Station) (next : Seq) : (s.consumerHold i n next).line = s.line :=
  (congrArg State.line (s.consumerHold_frame i n next) :)
@[simp] theorem State.consumerHold_lineGap (s : State) (i : EntryIdx) (n : Station) (next : Seq) : (s.consumerHold i n next).lineGap = s.lineGap :=
  (congrArg State.lineGap (s.consumerHold_frame i n next) :)
@[simp] theorem State.consumerHold_csnAsserted (s : State) (i : EntryIdx) (n : Station) (next : Seq) : (s.consumerHold i n next).csnAsserted = s.csnAsserted :=
  (congrArg State.csnAsserted (s.consumerHold_frame i n next) :)
@[simp] theorem State.consumerHold_rxdLow (s : State) (i : EntryIdx) (n : Station) (next : Seq) : (s.consumerHold i n next).rxdLow = s.rxdLow :=
  (congrArg State.rxdLow (s.consumerHold_frame i n next) :)
@[simp] theorem State.consumerHold_rxdSteady (s : State) (i : EntryIdx) (n : Station) (next : Seq) : (s.consumerHold i n next).rxdSteady = s.rxdSteady :=
  (congrArg State.rxdSteady (s.consumerHold_frame i n next) :)
@[simp] theorem State.consumerHold_round (s : State) (i : EntryIdx) (n : Station) (next : Seq) : (s.consumerHold i n next).round = s.round :=
  (congrArg State.round (s.consumerHold_frame i n next) :)
@[simp] theorem State.consumerHold_failCount (s : State) (i : EntryIdx) (n : Station) (next : Seq) : (s.consumerHold i n next).failCount = s.failCount :=
  (congrArg State.failCount (s.consumerHold_frame i n next) :)
@[simp] theorem State.consumerHold_tx (s : State) (i : EntryIdx) (n : Station) (next : Seq) : (s.consumerHold i n next).tx = s.tx :=
  (congrArg State.tx (s.consumerHold_frame i n next) :)
@[simp] theorem State.consumerHold_handover (s : State) (i : EntryIdx) (n : Station) (next : Seq) : (s.consumerHold i n next).handover = s.handover :=
  (congrArg State.handover (s.consumerHold_frame i n next) :)
@[simp] theorem State.consumerHold_replies (s : State) (i : EntryIdx) (n : Station) (next : Seq) : (s.consumerHold i n next).replies = s.replies :=
  (congrArg State.replies (s.consumerHold_frame i n next) :)
@[simp] theorem State.consumerHold_rrConsumer (s : State) (i : EntryIdx) (n : Station) (next : Seq) : (s.consumerHold i n next).rrConsumer = s.rrConsumer :=
  (congrArg State.rrConsumer (s.consumerHold_frame i n next) :)
@[simp] theorem State.consumerHold_rrProducer (s : State) (i : EntryIdx) (n : Station) (next : Seq) : (s.consumerHold i n next).rrProducer = s.rrProducer :=
  (congrArg State.rrProducer (s.consumerHold_frame i n next) :)
@[simp] theorem State.consumerHold_station (s : State) (i : EntryIdx) (n : Station) (next : Seq) : (s.consumerHold i n next).station = s.station :=
  (congrArg State.station (s.consumerHold_frame i n next) :)
@[simp] theorem State.consumerHold_params (s : State) (i : EntryIdx) (n : Station) (next : Seq) : (s.consumerHold i n next).params = s.params :=
  (congrArg State.params (s.consumerHold_frame i n next) :)
@[simp] theorem State.consumerHold_stationNo (s : State) (i : EntryIdx) (n : Station) (next : Seq) : (s.consumerHold i n next).stationNo = s.stationNo :=
  (congrArg State.stationNo (s.consumerHold_frame i n next) :)
@[simp] theorem State.consumerHold_rate (s : State) (i : EntryIdx) (n : Station) (next : Seq) : (s.consumerHold i n next).rate = s.rate :=
  (congrArg State.rate (s.consumerHold_frame i n next) :)
@[simp] theorem State.consumerHold_quiet (s : State) (i : EntryIdx) (n : Station) (next : Seq) : (s.consumerHold i n next).quiet = s.quiet :=
  (congrArg State.quiet (s.consumerHold_frame i n next) :)
@[simp] theorem State.consumerHold_msPhase (s : State) (i : EntryIdx) (n : Station) (next : Seq) : (s.consumerHold i n next).msPhase = s.msPhase :=
  (congrArg State.msPhase (s.consumerHold_frame i n next) :)
@[simp] theorem State.consumerHold_rstnLow (s : State) (i : EntryIdx) (n : Station) (next : Seq) : (s.consumerHold i n next).rstnLow = s.rstnLow :=
  (congrArg State.rstnLow (s.consumerHold_frame i n next) :)
@[simp] theorem State.consumerHold_power (s : State) (i : EntryIdx) (n : Station) (next : Seq) : (s.consumerHold i n next).power = s.power :=
  (congrArg State.power (s.consumerHold_frame i n next) :)
@[simp] theorem State.consumerHold_port (s : State) (i : EntryIdx) (n : Station) (next : Seq) : (s.consumerHold i n next).port = s.port :=
  (congrArg State.port (s.consumerHold_frame i n next) :)
@[simp] theorem State.consumerHold_misoDraws (s : State) (i : EntryIdx) (n : Station) (next : Seq) : (s.consumerHold i n next).misoDraws = s.misoDraws :=
  (congrArg State.misoDraws (s.consumerHold_frame i n next) :)
@[simp] theorem State.consumerHold_pins (s : State) (i : EntryIdx) (n : Station) (next : Seq) : (s.consumerHold i n next).pins = s.pins :=
  (congrArg State.pins (s.consumerHold_frame i n next) :)
@[simp] theorem State.consumerHold_pending (s : State) (i : EntryIdx) (n : Station) (next : Seq) : (s.consumerHold i n next).pending = s.pending :=
  (congrArg State.pending (s.consumerHold_frame i n next) :)

/-! ### acceptFull -/

theorem State.acceptFull_frame (s : State) (i : EntryIdx) (q : Seq) (e : Bool) (p : List Byte) :
    s.acceptFull i q e p = { s with mem := (s.acceptFull i q e p).mem, entries := (s.acceptFull i q e p).entries, items := (s.acceptFull i q e p).items, noticeQueue := (s.acceptFull i q e p).noticeQueue } := by
  apply State.ext <;> first
    | rfl
    | (dsimp only [State.acceptFull]; (repeat' split) <;> simp)

@[simp] theorem State.acceptFull_poolFree (s : State) (i : EntryIdx) (q : Seq) (e : Bool) (p : List Byte) : (s.acceptFull i q e p).poolFree = s.poolFree :=
  (congrArg State.poolFree (s.acceptFull_frame i q e p) :)
@[simp] theorem State.acceptFull_rx (s : State) (i : EntryIdx) (q : Seq) (e : Bool) (p : List Byte) : (s.acceptFull i q e p).rx = s.rx :=
  (congrArg State.rx (s.acceptFull_frame i q e p) :)
@[simp] theorem State.acceptFull_line (s : State) (i : EntryIdx) (q : Seq) (e : Bool) (p : List Byte) : (s.acceptFull i q e p).line = s.line :=
  (congrArg State.line (s.acceptFull_frame i q e p) :)
@[simp] theorem State.acceptFull_lineGap (s : State) (i : EntryIdx) (q : Seq) (e : Bool) (p : List Byte) : (s.acceptFull i q e p).lineGap = s.lineGap :=
  (congrArg State.lineGap (s.acceptFull_frame i q e p) :)
@[simp] theorem State.acceptFull_csnAsserted (s : State) (i : EntryIdx) (q : Seq) (e : Bool) (p : List Byte) : (s.acceptFull i q e p).csnAsserted = s.csnAsserted :=
  (congrArg State.csnAsserted (s.acceptFull_frame i q e p) :)
@[simp] theorem State.acceptFull_rxdLow (s : State) (i : EntryIdx) (q : Seq) (e : Bool) (p : List Byte) : (s.acceptFull i q e p).rxdLow = s.rxdLow :=
  (congrArg State.rxdLow (s.acceptFull_frame i q e p) :)
@[simp] theorem State.acceptFull_rxdSteady (s : State) (i : EntryIdx) (q : Seq) (e : Bool) (p : List Byte) : (s.acceptFull i q e p).rxdSteady = s.rxdSteady :=
  (congrArg State.rxdSteady (s.acceptFull_frame i q e p) :)
@[simp] theorem State.acceptFull_round (s : State) (i : EntryIdx) (q : Seq) (e : Bool) (p : List Byte) : (s.acceptFull i q e p).round = s.round :=
  (congrArg State.round (s.acceptFull_frame i q e p) :)
@[simp] theorem State.acceptFull_failCount (s : State) (i : EntryIdx) (q : Seq) (e : Bool) (p : List Byte) : (s.acceptFull i q e p).failCount = s.failCount :=
  (congrArg State.failCount (s.acceptFull_frame i q e p) :)
@[simp] theorem State.acceptFull_tx (s : State) (i : EntryIdx) (q : Seq) (e : Bool) (p : List Byte) : (s.acceptFull i q e p).tx = s.tx :=
  (congrArg State.tx (s.acceptFull_frame i q e p) :)
@[simp] theorem State.acceptFull_handover (s : State) (i : EntryIdx) (q : Seq) (e : Bool) (p : List Byte) : (s.acceptFull i q e p).handover = s.handover :=
  (congrArg State.handover (s.acceptFull_frame i q e p) :)
@[simp] theorem State.acceptFull_replies (s : State) (i : EntryIdx) (q : Seq) (e : Bool) (p : List Byte) : (s.acceptFull i q e p).replies = s.replies :=
  (congrArg State.replies (s.acceptFull_frame i q e p) :)
@[simp] theorem State.acceptFull_rrConsumer (s : State) (i : EntryIdx) (q : Seq) (e : Bool) (p : List Byte) : (s.acceptFull i q e p).rrConsumer = s.rrConsumer :=
  (congrArg State.rrConsumer (s.acceptFull_frame i q e p) :)
@[simp] theorem State.acceptFull_rrProducer (s : State) (i : EntryIdx) (q : Seq) (e : Bool) (p : List Byte) : (s.acceptFull i q e p).rrProducer = s.rrProducer :=
  (congrArg State.rrProducer (s.acceptFull_frame i q e p) :)
@[simp] theorem State.acceptFull_station (s : State) (i : EntryIdx) (q : Seq) (e : Bool) (p : List Byte) : (s.acceptFull i q e p).station = s.station :=
  (congrArg State.station (s.acceptFull_frame i q e p) :)
@[simp] theorem State.acceptFull_params (s : State) (i : EntryIdx) (q : Seq) (e : Bool) (p : List Byte) : (s.acceptFull i q e p).params = s.params :=
  (congrArg State.params (s.acceptFull_frame i q e p) :)
@[simp] theorem State.acceptFull_stationNo (s : State) (i : EntryIdx) (q : Seq) (e : Bool) (p : List Byte) : (s.acceptFull i q e p).stationNo = s.stationNo :=
  (congrArg State.stationNo (s.acceptFull_frame i q e p) :)
@[simp] theorem State.acceptFull_rate (s : State) (i : EntryIdx) (q : Seq) (e : Bool) (p : List Byte) : (s.acceptFull i q e p).rate = s.rate :=
  (congrArg State.rate (s.acceptFull_frame i q e p) :)
@[simp] theorem State.acceptFull_quiet (s : State) (i : EntryIdx) (q : Seq) (e : Bool) (p : List Byte) : (s.acceptFull i q e p).quiet = s.quiet :=
  (congrArg State.quiet (s.acceptFull_frame i q e p) :)
@[simp] theorem State.acceptFull_msPhase (s : State) (i : EntryIdx) (q : Seq) (e : Bool) (p : List Byte) : (s.acceptFull i q e p).msPhase = s.msPhase :=
  (congrArg State.msPhase (s.acceptFull_frame i q e p) :)
@[simp] theorem State.acceptFull_rstnLow (s : State) (i : EntryIdx) (q : Seq) (e : Bool) (p : List Byte) : (s.acceptFull i q e p).rstnLow = s.rstnLow :=
  (congrArg State.rstnLow (s.acceptFull_frame i q e p) :)
@[simp] theorem State.acceptFull_power (s : State) (i : EntryIdx) (q : Seq) (e : Bool) (p : List Byte) : (s.acceptFull i q e p).power = s.power :=
  (congrArg State.power (s.acceptFull_frame i q e p) :)
@[simp] theorem State.acceptFull_port (s : State) (i : EntryIdx) (q : Seq) (e : Bool) (p : List Byte) : (s.acceptFull i q e p).port = s.port :=
  (congrArg State.port (s.acceptFull_frame i q e p) :)
@[simp] theorem State.acceptFull_misoDraws (s : State) (i : EntryIdx) (q : Seq) (e : Bool) (p : List Byte) : (s.acceptFull i q e p).misoDraws = s.misoDraws :=
  (congrArg State.misoDraws (s.acceptFull_frame i q e p) :)
@[simp] theorem State.acceptFull_pins (s : State) (i : EntryIdx) (q : Seq) (e : Bool) (p : List Byte) : (s.acceptFull i q e p).pins = s.pins :=
  (congrArg State.pins (s.acceptFull_frame i q e p) :)
@[simp] theorem State.acceptFull_pending (s : State) (i : EntryIdx) (q : Seq) (e : Bool) (p : List Byte) : (s.acceptFull i q e p).pending = s.pending :=
  (congrArg State.pending (s.acceptFull_frame i q e p) :)

/-! ### receivingData -/

theorem State.receivingData_frame (s : State) (i : EntryIdx) (q : Seq) (e : Bool) (p : List Byte) :
    s.receivingData i q e p = { s with mem := (s.receivingData i q e p).mem, entries := (s.receivingData i q e p).entries, items := (s.receivingData i q e p).items, noticeQueue := (s.receivingData i q e p).noticeQueue } := by
  apply State.ext <;> first
    | rfl
    | (dsimp only [State.receivingData]; (repeat' split) <;> simp)

@[simp] theorem State.receivingData_poolFree (s : State) (i : EntryIdx) (q : Seq) (e : Bool) (p : List Byte) : (s.receivingData i q e p).poolFree = s.poolFree :=
  (congrArg State.poolFree (s.receivingData_frame i q e p) :)
@[simp] theorem State.receivingData_rx (s : State) (i : EntryIdx) (q : Seq) (e : Bool) (p : List Byte) : (s.receivingData i q e p).rx = s.rx :=
  (congrArg State.rx (s.receivingData_frame i q e p) :)
@[simp] theorem State.receivingData_line (s : State) (i : EntryIdx) (q : Seq) (e : Bool) (p : List Byte) : (s.receivingData i q e p).line = s.line :=
  (congrArg State.line (s.receivingData_frame i q e p) :)
@[simp] theorem State.receivingData_lineGap (s : State) (i : EntryIdx) (q : Seq) (e : Bool) (p : List Byte) : (s.receivingData i q e p).lineGap = s.lineGap :=
  (congrArg State.lineGap (s.receivingData_frame i q e p) :)
@[simp] theorem State.receivingData_csnAsserted (s : State) (i : EntryIdx) (q : Seq) (e : Bool) (p : List Byte) : (s.receivingData i q e p).csnAsserted = s.csnAsserted :=
  (congrArg State.csnAsserted (s.receivingData_frame i q e p) :)
@[simp] theorem State.receivingData_rxdLow (s : State) (i : EntryIdx) (q : Seq) (e : Bool) (p : List Byte) : (s.receivingData i q e p).rxdLow = s.rxdLow :=
  (congrArg State.rxdLow (s.receivingData_frame i q e p) :)
@[simp] theorem State.receivingData_rxdSteady (s : State) (i : EntryIdx) (q : Seq) (e : Bool) (p : List Byte) : (s.receivingData i q e p).rxdSteady = s.rxdSteady :=
  (congrArg State.rxdSteady (s.receivingData_frame i q e p) :)
@[simp] theorem State.receivingData_round (s : State) (i : EntryIdx) (q : Seq) (e : Bool) (p : List Byte) : (s.receivingData i q e p).round = s.round :=
  (congrArg State.round (s.receivingData_frame i q e p) :)
@[simp] theorem State.receivingData_failCount (s : State) (i : EntryIdx) (q : Seq) (e : Bool) (p : List Byte) : (s.receivingData i q e p).failCount = s.failCount :=
  (congrArg State.failCount (s.receivingData_frame i q e p) :)
@[simp] theorem State.receivingData_tx (s : State) (i : EntryIdx) (q : Seq) (e : Bool) (p : List Byte) : (s.receivingData i q e p).tx = s.tx :=
  (congrArg State.tx (s.receivingData_frame i q e p) :)
@[simp] theorem State.receivingData_handover (s : State) (i : EntryIdx) (q : Seq) (e : Bool) (p : List Byte) : (s.receivingData i q e p).handover = s.handover :=
  (congrArg State.handover (s.receivingData_frame i q e p) :)
@[simp] theorem State.receivingData_replies (s : State) (i : EntryIdx) (q : Seq) (e : Bool) (p : List Byte) : (s.receivingData i q e p).replies = s.replies :=
  (congrArg State.replies (s.receivingData_frame i q e p) :)
@[simp] theorem State.receivingData_rrConsumer (s : State) (i : EntryIdx) (q : Seq) (e : Bool) (p : List Byte) : (s.receivingData i q e p).rrConsumer = s.rrConsumer :=
  (congrArg State.rrConsumer (s.receivingData_frame i q e p) :)
@[simp] theorem State.receivingData_rrProducer (s : State) (i : EntryIdx) (q : Seq) (e : Bool) (p : List Byte) : (s.receivingData i q e p).rrProducer = s.rrProducer :=
  (congrArg State.rrProducer (s.receivingData_frame i q e p) :)
@[simp] theorem State.receivingData_station (s : State) (i : EntryIdx) (q : Seq) (e : Bool) (p : List Byte) : (s.receivingData i q e p).station = s.station :=
  (congrArg State.station (s.receivingData_frame i q e p) :)
@[simp] theorem State.receivingData_params (s : State) (i : EntryIdx) (q : Seq) (e : Bool) (p : List Byte) : (s.receivingData i q e p).params = s.params :=
  (congrArg State.params (s.receivingData_frame i q e p) :)
@[simp] theorem State.receivingData_stationNo (s : State) (i : EntryIdx) (q : Seq) (e : Bool) (p : List Byte) : (s.receivingData i q e p).stationNo = s.stationNo :=
  (congrArg State.stationNo (s.receivingData_frame i q e p) :)
@[simp] theorem State.receivingData_rate (s : State) (i : EntryIdx) (q : Seq) (e : Bool) (p : List Byte) : (s.receivingData i q e p).rate = s.rate :=
  (congrArg State.rate (s.receivingData_frame i q e p) :)
@[simp] theorem State.receivingData_quiet (s : State) (i : EntryIdx) (q : Seq) (e : Bool) (p : List Byte) : (s.receivingData i q e p).quiet = s.quiet :=
  (congrArg State.quiet (s.receivingData_frame i q e p) :)
@[simp] theorem State.receivingData_msPhase (s : State) (i : EntryIdx) (q : Seq) (e : Bool) (p : List Byte) : (s.receivingData i q e p).msPhase = s.msPhase :=
  (congrArg State.msPhase (s.receivingData_frame i q e p) :)
@[simp] theorem State.receivingData_rstnLow (s : State) (i : EntryIdx) (q : Seq) (e : Bool) (p : List Byte) : (s.receivingData i q e p).rstnLow = s.rstnLow :=
  (congrArg State.rstnLow (s.receivingData_frame i q e p) :)
@[simp] theorem State.receivingData_power (s : State) (i : EntryIdx) (q : Seq) (e : Bool) (p : List Byte) : (s.receivingData i q e p).power = s.power :=
  (congrArg State.power (s.receivingData_frame i q e p) :)
@[simp] theorem State.receivingData_port (s : State) (i : EntryIdx) (q : Seq) (e : Bool) (p : List Byte) : (s.receivingData i q e p).port = s.port :=
  (congrArg State.port (s.receivingData_frame i q e p) :)
@[simp] theorem State.receivingData_misoDraws (s : State) (i : EntryIdx) (q : Seq) (e : Bool) (p : List Byte) : (s.receivingData i q e p).misoDraws = s.misoDraws :=
  (congrArg State.misoDraws (s.receivingData_frame i q e p) :)
@[simp] theorem State.receivingData_pins (s : State) (i : EntryIdx) (q : Seq) (e : Bool) (p : List Byte) : (s.receivingData i q e p).pins = s.pins :=
  (congrArg State.pins (s.receivingData_frame i q e p) :)
@[simp] theorem State.receivingData_pending (s : State) (i : EntryIdx) (q : Seq) (e : Bool) (p : List Byte) : (s.receivingData i q e p).pending = s.pending :=
  (congrArg State.pending (s.receivingData_frame i q e p) :)

/-! ### consumerData -/

theorem State.consumerData_frame (s : State) (i : EntryIdx) (n : Station) (q : Seq) (e : Bool) (p : List Byte) :
    s.consumerData i n q e p = { s with mem := (s.consumerData i n q e p).mem, entries := (s.consumerData i n q e p).entries, items := (s.consumerData i n q e p).items, noticeQueue := (s.consumerData i n q e p).noticeQueue } := by
  apply State.ext <;> first
    | rfl
    | (dsimp only [State.consumerData]; (repeat' split) <;> simp)

@[simp] theorem State.consumerData_poolFree (s : State) (i : EntryIdx) (n : Station) (q : Seq) (e : Bool) (p : List Byte) : (s.consumerData i n q e p).poolFree = s.poolFree :=
  (congrArg State.poolFree (s.consumerData_frame i n q e p) :)
@[simp] theorem State.consumerData_rx (s : State) (i : EntryIdx) (n : Station) (q : Seq) (e : Bool) (p : List Byte) : (s.consumerData i n q e p).rx = s.rx :=
  (congrArg State.rx (s.consumerData_frame i n q e p) :)
@[simp] theorem State.consumerData_line (s : State) (i : EntryIdx) (n : Station) (q : Seq) (e : Bool) (p : List Byte) : (s.consumerData i n q e p).line = s.line :=
  (congrArg State.line (s.consumerData_frame i n q e p) :)
@[simp] theorem State.consumerData_lineGap (s : State) (i : EntryIdx) (n : Station) (q : Seq) (e : Bool) (p : List Byte) : (s.consumerData i n q e p).lineGap = s.lineGap :=
  (congrArg State.lineGap (s.consumerData_frame i n q e p) :)
@[simp] theorem State.consumerData_csnAsserted (s : State) (i : EntryIdx) (n : Station) (q : Seq) (e : Bool) (p : List Byte) : (s.consumerData i n q e p).csnAsserted = s.csnAsserted :=
  (congrArg State.csnAsserted (s.consumerData_frame i n q e p) :)
@[simp] theorem State.consumerData_rxdLow (s : State) (i : EntryIdx) (n : Station) (q : Seq) (e : Bool) (p : List Byte) : (s.consumerData i n q e p).rxdLow = s.rxdLow :=
  (congrArg State.rxdLow (s.consumerData_frame i n q e p) :)
@[simp] theorem State.consumerData_rxdSteady (s : State) (i : EntryIdx) (n : Station) (q : Seq) (e : Bool) (p : List Byte) : (s.consumerData i n q e p).rxdSteady = s.rxdSteady :=
  (congrArg State.rxdSteady (s.consumerData_frame i n q e p) :)
@[simp] theorem State.consumerData_round (s : State) (i : EntryIdx) (n : Station) (q : Seq) (e : Bool) (p : List Byte) : (s.consumerData i n q e p).round = s.round :=
  (congrArg State.round (s.consumerData_frame i n q e p) :)
@[simp] theorem State.consumerData_failCount (s : State) (i : EntryIdx) (n : Station) (q : Seq) (e : Bool) (p : List Byte) : (s.consumerData i n q e p).failCount = s.failCount :=
  (congrArg State.failCount (s.consumerData_frame i n q e p) :)
@[simp] theorem State.consumerData_tx (s : State) (i : EntryIdx) (n : Station) (q : Seq) (e : Bool) (p : List Byte) : (s.consumerData i n q e p).tx = s.tx :=
  (congrArg State.tx (s.consumerData_frame i n q e p) :)
@[simp] theorem State.consumerData_handover (s : State) (i : EntryIdx) (n : Station) (q : Seq) (e : Bool) (p : List Byte) : (s.consumerData i n q e p).handover = s.handover :=
  (congrArg State.handover (s.consumerData_frame i n q e p) :)
@[simp] theorem State.consumerData_replies (s : State) (i : EntryIdx) (n : Station) (q : Seq) (e : Bool) (p : List Byte) : (s.consumerData i n q e p).replies = s.replies :=
  (congrArg State.replies (s.consumerData_frame i n q e p) :)
@[simp] theorem State.consumerData_rrConsumer (s : State) (i : EntryIdx) (n : Station) (q : Seq) (e : Bool) (p : List Byte) : (s.consumerData i n q e p).rrConsumer = s.rrConsumer :=
  (congrArg State.rrConsumer (s.consumerData_frame i n q e p) :)
@[simp] theorem State.consumerData_rrProducer (s : State) (i : EntryIdx) (n : Station) (q : Seq) (e : Bool) (p : List Byte) : (s.consumerData i n q e p).rrProducer = s.rrProducer :=
  (congrArg State.rrProducer (s.consumerData_frame i n q e p) :)
@[simp] theorem State.consumerData_station (s : State) (i : EntryIdx) (n : Station) (q : Seq) (e : Bool) (p : List Byte) : (s.consumerData i n q e p).station = s.station :=
  (congrArg State.station (s.consumerData_frame i n q e p) :)
@[simp] theorem State.consumerData_params (s : State) (i : EntryIdx) (n : Station) (q : Seq) (e : Bool) (p : List Byte) : (s.consumerData i n q e p).params = s.params :=
  (congrArg State.params (s.consumerData_frame i n q e p) :)
@[simp] theorem State.consumerData_stationNo (s : State) (i : EntryIdx) (n : Station) (q : Seq) (e : Bool) (p : List Byte) : (s.consumerData i n q e p).stationNo = s.stationNo :=
  (congrArg State.stationNo (s.consumerData_frame i n q e p) :)
@[simp] theorem State.consumerData_rate (s : State) (i : EntryIdx) (n : Station) (q : Seq) (e : Bool) (p : List Byte) : (s.consumerData i n q e p).rate = s.rate :=
  (congrArg State.rate (s.consumerData_frame i n q e p) :)
@[simp] theorem State.consumerData_quiet (s : State) (i : EntryIdx) (n : Station) (q : Seq) (e : Bool) (p : List Byte) : (s.consumerData i n q e p).quiet = s.quiet :=
  (congrArg State.quiet (s.consumerData_frame i n q e p) :)
@[simp] theorem State.consumerData_msPhase (s : State) (i : EntryIdx) (n : Station) (q : Seq) (e : Bool) (p : List Byte) : (s.consumerData i n q e p).msPhase = s.msPhase :=
  (congrArg State.msPhase (s.consumerData_frame i n q e p) :)
@[simp] theorem State.consumerData_rstnLow (s : State) (i : EntryIdx) (n : Station) (q : Seq) (e : Bool) (p : List Byte) : (s.consumerData i n q e p).rstnLow = s.rstnLow :=
  (congrArg State.rstnLow (s.consumerData_frame i n q e p) :)
@[simp] theorem State.consumerData_power (s : State) (i : EntryIdx) (n : Station) (q : Seq) (e : Bool) (p : List Byte) : (s.consumerData i n q e p).power = s.power :=
  (congrArg State.power (s.consumerData_frame i n q e p) :)
@[simp] theorem State.consumerData_port (s : State) (i : EntryIdx) (n : Station) (q : Seq) (e : Bool) (p : List Byte) : (s.consumerData i n q e p).port = s.port :=
  (congrArg State.port (s.consumerData_frame i n q e p) :)
@[simp] theorem State.consumerData_misoDraws (s : State) (i : EntryIdx) (n : Station) (q : Seq) (e : Bool) (p : List Byte) : (s.consumerData i n q e p).misoDraws = s.misoDraws :=
  (congrArg State.misoDraws (s.consumerData_frame i n q e p) :)
@[simp] theorem State.consumerData_pins (s : State) (i : EntryIdx) (n : Station) (q : Seq) (e : Bool) (p : List Byte) : (s.consumerData i n q e p).pins = s.pins :=
  (congrArg State.pins (s.consumerData_frame i n q e p) :)
@[simp] theorem State.consumerData_pending (s : State) (i : EntryIdx) (n : Station) (q : Seq) (e : Bool) (p : List Byte) : (s.consumerData i n q e p).pending = s.pending :=
  (congrArg State.pending (s.consumerData_frame i n q e p) :)

/-! ### dispatchTo -/

theorem State.dispatchTo_frame (s : State) (i : EntryIdx) (f : Frame) :
    s.dispatchTo i f = { s with mem := (s.dispatchTo i f).mem, entries := (s.dispatchTo i f).entries, poolFree := (s.dispatchTo i f).poolFree, items := (s.dispatchTo i f).items, noticeQueue := (s.dispatchTo i f).noticeQueue, tx := (s.dispatchTo i f).tx, handover := (s.dispatchTo i f).handover, replies := (s.dispatchTo i f).replies } := by
  apply State.ext <;> first
    | rfl
    | (dsimp only [State.dispatchTo]; (repeat' split) <;> simp)

@[simp] theorem State.dispatchTo_rx (s : State) (i : EntryIdx) (f : Frame) : (s.dispatchTo i f).rx = s.rx :=
  (congrArg State.rx (s.dispatchTo_frame i f) :)
@[simp] theorem State.dispatchTo_line (s : State) (i : EntryIdx) (f : Frame) : (s.dispatchTo i f).line = s.line :=
  (congrArg State.line (s.dispatchTo_frame i f) :)
@[simp] theorem State.dispatchTo_lineGap (s : State) (i : EntryIdx) (f : Frame) : (s.dispatchTo i f).lineGap = s.lineGap :=
  (congrArg State.lineGap (s.dispatchTo_frame i f) :)
@[simp] theorem State.dispatchTo_csnAsserted (s : State) (i : EntryIdx) (f : Frame) : (s.dispatchTo i f).csnAsserted = s.csnAsserted :=
  (congrArg State.csnAsserted (s.dispatchTo_frame i f) :)
@[simp] theorem State.dispatchTo_rxdLow (s : State) (i : EntryIdx) (f : Frame) : (s.dispatchTo i f).rxdLow = s.rxdLow :=
  (congrArg State.rxdLow (s.dispatchTo_frame i f) :)
@[simp] theorem State.dispatchTo_rxdSteady (s : State) (i : EntryIdx) (f : Frame) : (s.dispatchTo i f).rxdSteady = s.rxdSteady :=
  (congrArg State.rxdSteady (s.dispatchTo_frame i f) :)
@[simp] theorem State.dispatchTo_round (s : State) (i : EntryIdx) (f : Frame) : (s.dispatchTo i f).round = s.round :=
  (congrArg State.round (s.dispatchTo_frame i f) :)
@[simp] theorem State.dispatchTo_failCount (s : State) (i : EntryIdx) (f : Frame) : (s.dispatchTo i f).failCount = s.failCount :=
  (congrArg State.failCount (s.dispatchTo_frame i f) :)
@[simp] theorem State.dispatchTo_rrConsumer (s : State) (i : EntryIdx) (f : Frame) : (s.dispatchTo i f).rrConsumer = s.rrConsumer :=
  (congrArg State.rrConsumer (s.dispatchTo_frame i f) :)
@[simp] theorem State.dispatchTo_rrProducer (s : State) (i : EntryIdx) (f : Frame) : (s.dispatchTo i f).rrProducer = s.rrProducer :=
  (congrArg State.rrProducer (s.dispatchTo_frame i f) :)
@[simp] theorem State.dispatchTo_station (s : State) (i : EntryIdx) (f : Frame) : (s.dispatchTo i f).station = s.station :=
  (congrArg State.station (s.dispatchTo_frame i f) :)
@[simp] theorem State.dispatchTo_params (s : State) (i : EntryIdx) (f : Frame) : (s.dispatchTo i f).params = s.params :=
  (congrArg State.params (s.dispatchTo_frame i f) :)
@[simp] theorem State.dispatchTo_stationNo (s : State) (i : EntryIdx) (f : Frame) : (s.dispatchTo i f).stationNo = s.stationNo :=
  (congrArg State.stationNo (s.dispatchTo_frame i f) :)
@[simp] theorem State.dispatchTo_rate (s : State) (i : EntryIdx) (f : Frame) : (s.dispatchTo i f).rate = s.rate :=
  (congrArg State.rate (s.dispatchTo_frame i f) :)
@[simp] theorem State.dispatchTo_quiet (s : State) (i : EntryIdx) (f : Frame) : (s.dispatchTo i f).quiet = s.quiet :=
  (congrArg State.quiet (s.dispatchTo_frame i f) :)
@[simp] theorem State.dispatchTo_msPhase (s : State) (i : EntryIdx) (f : Frame) : (s.dispatchTo i f).msPhase = s.msPhase :=
  (congrArg State.msPhase (s.dispatchTo_frame i f) :)
@[simp] theorem State.dispatchTo_rstnLow (s : State) (i : EntryIdx) (f : Frame) : (s.dispatchTo i f).rstnLow = s.rstnLow :=
  (congrArg State.rstnLow (s.dispatchTo_frame i f) :)
@[simp] theorem State.dispatchTo_power (s : State) (i : EntryIdx) (f : Frame) : (s.dispatchTo i f).power = s.power :=
  (congrArg State.power (s.dispatchTo_frame i f) :)
@[simp] theorem State.dispatchTo_port (s : State) (i : EntryIdx) (f : Frame) : (s.dispatchTo i f).port = s.port :=
  (congrArg State.port (s.dispatchTo_frame i f) :)
@[simp] theorem State.dispatchTo_misoDraws (s : State) (i : EntryIdx) (f : Frame) : (s.dispatchTo i f).misoDraws = s.misoDraws :=
  (congrArg State.misoDraws (s.dispatchTo_frame i f) :)
@[simp] theorem State.dispatchTo_pins (s : State) (i : EntryIdx) (f : Frame) : (s.dispatchTo i f).pins = s.pins :=
  (congrArg State.pins (s.dispatchTo_frame i f) :)
@[simp] theorem State.dispatchTo_pending (s : State) (i : EntryIdx) (f : Frame) : (s.dispatchTo i f).pending = s.pending :=
  (congrArg State.pending (s.dispatchTo_frame i f) :)

/-! ### dispatch -/

theorem State.dispatch_frame (s : State) (f : Frame) :
    s.dispatch f = { s with mem := (s.dispatch f).mem, entries := (s.dispatch f).entries, poolFree := (s.dispatch f).poolFree, items := (s.dispatch f).items, noticeQueue := (s.dispatch f).noticeQueue, tx := (s.dispatch f).tx, handover := (s.dispatch f).handover, replies := (s.dispatch f).replies } := by
  apply State.ext <;> first
    | rfl
    | (dsimp only [State.dispatch]; (repeat' split) <;> simp)

@[simp] theorem State.dispatch_rx (s : State) (f : Frame) : (s.dispatch f).rx = s.rx :=
  (congrArg State.rx (s.dispatch_frame f) :)
@[simp] theorem State.dispatch_line (s : State) (f : Frame) : (s.dispatch f).line = s.line :=
  (congrArg State.line (s.dispatch_frame f) :)
@[simp] theorem State.dispatch_lineGap (s : State) (f : Frame) : (s.dispatch f).lineGap = s.lineGap :=
  (congrArg State.lineGap (s.dispatch_frame f) :)
@[simp] theorem State.dispatch_csnAsserted (s : State) (f : Frame) : (s.dispatch f).csnAsserted = s.csnAsserted :=
  (congrArg State.csnAsserted (s.dispatch_frame f) :)
@[simp] theorem State.dispatch_rxdLow (s : State) (f : Frame) : (s.dispatch f).rxdLow = s.rxdLow :=
  (congrArg State.rxdLow (s.dispatch_frame f) :)
@[simp] theorem State.dispatch_rxdSteady (s : State) (f : Frame) : (s.dispatch f).rxdSteady = s.rxdSteady :=
  (congrArg State.rxdSteady (s.dispatch_frame f) :)
@[simp] theorem State.dispatch_round (s : State) (f : Frame) : (s.dispatch f).round = s.round :=
  (congrArg State.round (s.dispatch_frame f) :)
@[simp] theorem State.dispatch_failCount (s : State) (f : Frame) : (s.dispatch f).failCount = s.failCount :=
  (congrArg State.failCount (s.dispatch_frame f) :)
@[simp] theorem State.dispatch_rrConsumer (s : State) (f : Frame) : (s.dispatch f).rrConsumer = s.rrConsumer :=
  (congrArg State.rrConsumer (s.dispatch_frame f) :)
@[simp] theorem State.dispatch_rrProducer (s : State) (f : Frame) : (s.dispatch f).rrProducer = s.rrProducer :=
  (congrArg State.rrProducer (s.dispatch_frame f) :)
@[simp] theorem State.dispatch_station (s : State) (f : Frame) : (s.dispatch f).station = s.station :=
  (congrArg State.station (s.dispatch_frame f) :)
@[simp] theorem State.dispatch_params (s : State) (f : Frame) : (s.dispatch f).params = s.params :=
  (congrArg State.params (s.dispatch_frame f) :)
@[simp] theorem State.dispatch_stationNo (s : State) (f : Frame) : (s.dispatch f).stationNo = s.stationNo :=
  (congrArg State.stationNo (s.dispatch_frame f) :)
@[simp] theorem State.dispatch_rate (s : State) (f : Frame) : (s.dispatch f).rate = s.rate :=
  (congrArg State.rate (s.dispatch_frame f) :)
@[simp] theorem State.dispatch_quiet (s : State) (f : Frame) : (s.dispatch f).quiet = s.quiet :=
  (congrArg State.quiet (s.dispatch_frame f) :)
@[simp] theorem State.dispatch_msPhase (s : State) (f : Frame) : (s.dispatch f).msPhase = s.msPhase :=
  (congrArg State.msPhase (s.dispatch_frame f) :)
@[simp] theorem State.dispatch_rstnLow (s : State) (f : Frame) : (s.dispatch f).rstnLow = s.rstnLow :=
  (congrArg State.rstnLow (s.dispatch_frame f) :)
@[simp] theorem State.dispatch_power (s : State) (f : Frame) : (s.dispatch f).power = s.power :=
  (congrArg State.power (s.dispatch_frame f) :)
@[simp] theorem State.dispatch_port (s : State) (f : Frame) : (s.dispatch f).port = s.port :=
  (congrArg State.port (s.dispatch_frame f) :)
@[simp] theorem State.dispatch_misoDraws (s : State) (f : Frame) : (s.dispatch f).misoDraws = s.misoDraws :=
  (congrArg State.misoDraws (s.dispatch_frame f) :)
@[simp] theorem State.dispatch_pins (s : State) (f : Frame) : (s.dispatch f).pins = s.pins :=
  (congrArg State.pins (s.dispatch_frame f) :)
@[simp] theorem State.dispatch_pending (s : State) (f : Frame) : (s.dispatch f).pending = s.pending :=
  (congrArg State.pending (s.dispatch_frame f) :)

/-! ### flush -/

theorem State.flush_frame (s : State) :
    s.flush = { s with mem := s.flush.mem, entries := s.flush.entries, poolFree := s.flush.poolFree, items := s.flush.items, noticeQueue := s.flush.noticeQueue, rx := s.flush.rx, tx := s.flush.tx, handover := s.flush.handover, replies := s.flush.replies } := by
  apply State.ext <;> first
    | rfl
    | (dsimp only [State.flush]; (repeat' split) <;> simp)

@[simp] theorem State.flush_line (s : State) : s.flush.line = s.line :=
  (congrArg State.line (s.flush_frame) :)
@[simp] theorem State.flush_lineGap (s : State) : s.flush.lineGap = s.lineGap :=
  (congrArg State.lineGap (s.flush_frame) :)
@[simp] theorem State.flush_csnAsserted (s : State) : s.flush.csnAsserted = s.csnAsserted :=
  (congrArg State.csnAsserted (s.flush_frame) :)
@[simp] theorem State.flush_rxdLow (s : State) : s.flush.rxdLow = s.rxdLow :=
  (congrArg State.rxdLow (s.flush_frame) :)
@[simp] theorem State.flush_rxdSteady (s : State) : s.flush.rxdSteady = s.rxdSteady :=
  (congrArg State.rxdSteady (s.flush_frame) :)
@[simp] theorem State.flush_round (s : State) : s.flush.round = s.round :=
  (congrArg State.round (s.flush_frame) :)
@[simp] theorem State.flush_failCount (s : State) : s.flush.failCount = s.failCount :=
  (congrArg State.failCount (s.flush_frame) :)
@[simp] theorem State.flush_rrConsumer (s : State) : s.flush.rrConsumer = s.rrConsumer :=
  (congrArg State.rrConsumer (s.flush_frame) :)
@[simp] theorem State.flush_rrProducer (s : State) : s.flush.rrProducer = s.rrProducer :=
  (congrArg State.rrProducer (s.flush_frame) :)
@[simp] theorem State.flush_station (s : State) : s.flush.station = s.station :=
  (congrArg State.station (s.flush_frame) :)
@[simp] theorem State.flush_params (s : State) : s.flush.params = s.params :=
  (congrArg State.params (s.flush_frame) :)
@[simp] theorem State.flush_stationNo (s : State) : s.flush.stationNo = s.stationNo :=
  (congrArg State.stationNo (s.flush_frame) :)
@[simp] theorem State.flush_rate (s : State) : s.flush.rate = s.rate :=
  (congrArg State.rate (s.flush_frame) :)
@[simp] theorem State.flush_quiet (s : State) : s.flush.quiet = s.quiet :=
  (congrArg State.quiet (s.flush_frame) :)
@[simp] theorem State.flush_msPhase (s : State) : s.flush.msPhase = s.msPhase :=
  (congrArg State.msPhase (s.flush_frame) :)
@[simp] theorem State.flush_rstnLow (s : State) : s.flush.rstnLow = s.rstnLow :=
  (congrArg State.rstnLow (s.flush_frame) :)
@[simp] theorem State.flush_power (s : State) : s.flush.power = s.power :=
  (congrArg State.power (s.flush_frame) :)
@[simp] theorem State.flush_port (s : State) : s.flush.port = s.port :=
  (congrArg State.port (s.flush_frame) :)
@[simp] theorem State.flush_misoDraws (s : State) : s.flush.misoDraws = s.misoDraws :=
  (congrArg State.misoDraws (s.flush_frame) :)
@[simp] theorem State.flush_pins (s : State) : s.flush.pins = s.pins :=
  (congrArg State.pins (s.flush_frame) :)
@[simp] theorem State.flush_pending (s : State) : s.flush.pending = s.pending :=
  (congrArg State.pending (s.flush_frame) :)

/-! ### frameEvent -/

theorem State.frameEvent_frame (s : State) (f : Frame) :
    s.frameEvent f = { s with mem := (s.frameEvent f).mem, entries := (s.frameEvent f).entries, poolFree := (s.frameEvent f).poolFree, items := (s.frameEvent f).items, noticeQueue := (s.frameEvent f).noticeQueue, rx := (s.frameEvent f).rx, tx := (s.frameEvent f).tx, handover := (s.frameEvent f).handover, replies := (s.frameEvent f).replies } := by
  apply State.ext <;> first
    | rfl
    | (dsimp only [State.frameEvent]; (repeat' split) <;> simp)

@[simp] theorem State.frameEvent_line (s : State) (f : Frame) : (s.frameEvent f).line = s.line :=
  (congrArg State.line (s.frameEvent_frame f) :)
@[simp] theorem State.frameEvent_lineGap (s : State) (f : Frame) : (s.frameEvent f).lineGap = s.lineGap :=
  (congrArg State.lineGap (s.frameEvent_frame f) :)
@[simp] theorem State.frameEvent_csnAsserted (s : State) (f : Frame) : (s.frameEvent f).csnAsserted = s.csnAsserted :=
  (congrArg State.csnAsserted (s.frameEvent_frame f) :)
@[simp] theorem State.frameEvent_rxdLow (s : State) (f : Frame) : (s.frameEvent f).rxdLow = s.rxdLow :=
  (congrArg State.rxdLow (s.frameEvent_frame f) :)
@[simp] theorem State.frameEvent_rxdSteady (s : State) (f : Frame) : (s.frameEvent f).rxdSteady = s.rxdSteady :=
  (congrArg State.rxdSteady (s.frameEvent_frame f) :)
@[simp] theorem State.frameEvent_round (s : State) (f : Frame) : (s.frameEvent f).round = s.round :=
  (congrArg State.round (s.frameEvent_frame f) :)
@[simp] theorem State.frameEvent_failCount (s : State) (f : Frame) : (s.frameEvent f).failCount = s.failCount :=
  (congrArg State.failCount (s.frameEvent_frame f) :)
@[simp] theorem State.frameEvent_rrConsumer (s : State) (f : Frame) : (s.frameEvent f).rrConsumer = s.rrConsumer :=
  (congrArg State.rrConsumer (s.frameEvent_frame f) :)
@[simp] theorem State.frameEvent_rrProducer (s : State) (f : Frame) : (s.frameEvent f).rrProducer = s.rrProducer :=
  (congrArg State.rrProducer (s.frameEvent_frame f) :)
@[simp] theorem State.frameEvent_station (s : State) (f : Frame) : (s.frameEvent f).station = s.station :=
  (congrArg State.station (s.frameEvent_frame f) :)
@[simp] theorem State.frameEvent_params (s : State) (f : Frame) : (s.frameEvent f).params = s.params :=
  (congrArg State.params (s.frameEvent_frame f) :)
@[simp] theorem State.frameEvent_stationNo (s : State) (f : Frame) : (s.frameEvent f).stationNo = s.stationNo :=
  (congrArg State.stationNo (s.frameEvent_frame f) :)
@[simp] theorem State.frameEvent_rate (s : State) (f : Frame) : (s.frameEvent f).rate = s.rate :=
  (congrArg State.rate (s.frameEvent_frame f) :)
@[simp] theorem State.frameEvent_quiet (s : State) (f : Frame) : (s.frameEvent f).quiet = s.quiet :=
  (congrArg State.quiet (s.frameEvent_frame f) :)
@[simp] theorem State.frameEvent_msPhase (s : State) (f : Frame) : (s.frameEvent f).msPhase = s.msPhase :=
  (congrArg State.msPhase (s.frameEvent_frame f) :)
@[simp] theorem State.frameEvent_rstnLow (s : State) (f : Frame) : (s.frameEvent f).rstnLow = s.rstnLow :=
  (congrArg State.rstnLow (s.frameEvent_frame f) :)
@[simp] theorem State.frameEvent_power (s : State) (f : Frame) : (s.frameEvent f).power = s.power :=
  (congrArg State.power (s.frameEvent_frame f) :)
@[simp] theorem State.frameEvent_port (s : State) (f : Frame) : (s.frameEvent f).port = s.port :=
  (congrArg State.port (s.frameEvent_frame f) :)
@[simp] theorem State.frameEvent_misoDraws (s : State) (f : Frame) : (s.frameEvent f).misoDraws = s.misoDraws :=
  (congrArg State.misoDraws (s.frameEvent_frame f) :)
@[simp] theorem State.frameEvent_pins (s : State) (f : Frame) : (s.frameEvent f).pins = s.pins :=
  (congrArg State.pins (s.frameEvent_frame f) :)
@[simp] theorem State.frameEvent_pending (s : State) (f : Frame) : (s.frameEvent f).pending = s.pending :=
  (congrArg State.pending (s.frameEvent_frame f) :)

/-! ### characterEnds -/

theorem State.characterEnds_frame (s : State) (n : Option Station) :
    s.characterEnds n = { s with rx := (s.characterEnds n).rx, line := (s.characterEnds n).line, lineGap := (s.characterEnds n).lineGap, round := (s.characterEnds n).round, tx := (s.characterEnds n).tx, quiet := (s.characterEnds n).quiet } := by
  apply State.ext <;> first
    | rfl
    | (dsimp only [State.characterEnds]; simp)

@[simp] theorem State.characterEnds_mem (s : State) (n : Option Station) : (s.characterEnds n).mem = s.mem :=
  (congrArg State.mem (s.characterEnds_frame n) :)
@[simp] theorem State.characterEnds_entries (s : State) (n : Option Station) : (s.characterEnds n).entries = s.entries :=
  (congrArg State.entries (s.characterEnds_frame n) :)
@[simp] theorem State.characterEnds_poolFree (s : State) (n : Option Station) : (s.characterEnds n).poolFree = s.poolFree :=
  (congrArg State.poolFree (s.characterEnds_frame n) :)
@[simp] theorem State.characterEnds_items (s : State) (n : Option Station) : (s.characterEnds n).items = s.items :=
  (congrArg State.items (s.characterEnds_frame n) :)
@[simp] theorem State.characterEnds_noticeQueue (s : State) (n : Option Station) : (s.characterEnds n).noticeQueue = s.noticeQueue :=
  (congrArg State.noticeQueue (s.characterEnds_frame n) :)
@[simp] theorem State.characterEnds_csnAsserted (s : State) (n : Option Station) : (s.characterEnds n).csnAsserted = s.csnAsserted :=
  (congrArg State.csnAsserted (s.characterEnds_frame n) :)
@[simp] theorem State.characterEnds_rxdLow (s : State) (n : Option Station) : (s.characterEnds n).rxdLow = s.rxdLow :=
  (congrArg State.rxdLow (s.characterEnds_frame n) :)
@[simp] theorem State.characterEnds_rxdSteady (s : State) (n : Option Station) : (s.characterEnds n).rxdSteady = s.rxdSteady :=
  (congrArg State.rxdSteady (s.characterEnds_frame n) :)
@[simp] theorem State.characterEnds_failCount (s : State) (n : Option Station) : (s.characterEnds n).failCount = s.failCount :=
  (congrArg State.failCount (s.characterEnds_frame n) :)
@[simp] theorem State.characterEnds_handover (s : State) (n : Option Station) : (s.characterEnds n).handover = s.handover :=
  (congrArg State.handover (s.characterEnds_frame n) :)
@[simp] theorem State.characterEnds_replies (s : State) (n : Option Station) : (s.characterEnds n).replies = s.replies :=
  (congrArg State.replies (s.characterEnds_frame n) :)
@[simp] theorem State.characterEnds_rrConsumer (s : State) (n : Option Station) : (s.characterEnds n).rrConsumer = s.rrConsumer :=
  (congrArg State.rrConsumer (s.characterEnds_frame n) :)
@[simp] theorem State.characterEnds_rrProducer (s : State) (n : Option Station) : (s.characterEnds n).rrProducer = s.rrProducer :=
  (congrArg State.rrProducer (s.characterEnds_frame n) :)
@[simp] theorem State.characterEnds_station (s : State) (n : Option Station) : (s.characterEnds n).station = s.station :=
  (congrArg State.station (s.characterEnds_frame n) :)
@[simp] theorem State.characterEnds_params (s : State) (n : Option Station) : (s.characterEnds n).params = s.params :=
  (congrArg State.params (s.characterEnds_frame n) :)
@[simp] theorem State.characterEnds_stationNo (s : State) (n : Option Station) : (s.characterEnds n).stationNo = s.stationNo :=
  (congrArg State.stationNo (s.characterEnds_frame n) :)
@[simp] theorem State.characterEnds_rate (s : State) (n : Option Station) : (s.characterEnds n).rate = s.rate :=
  (congrArg State.rate (s.characterEnds_frame n) :)
@[simp] theorem State.characterEnds_msPhase (s : State) (n : Option Station) : (s.characterEnds n).msPhase = s.msPhase :=
  (congrArg State.msPhase (s.characterEnds_frame n) :)
@[simp] theorem State.characterEnds_rstnLow (s : State) (n : Option Station) : (s.characterEnds n).rstnLow = s.rstnLow :=
  (congrArg State.rstnLow (s.characterEnds_frame n) :)
@[simp] theorem State.characterEnds_power (s : State) (n : Option Station) : (s.characterEnds n).power = s.power :=
  (congrArg State.power (s.characterEnds_frame n) :)
@[simp] theorem State.characterEnds_port (s : State) (n : Option Station) : (s.characterEnds n).port = s.port :=
  (congrArg State.port (s.characterEnds_frame n) :)
@[simp] theorem State.characterEnds_misoDraws (s : State) (n : Option Station) : (s.characterEnds n).misoDraws = s.misoDraws :=
  (congrArg State.misoDraws (s.characterEnds_frame n) :)
@[simp] theorem State.characterEnds_pins (s : State) (n : Option Station) : (s.characterEnds n).pins = s.pins :=
  (congrArg State.pins (s.characterEnds_frame n) :)
@[simp] theorem State.characterEnds_pending (s : State) (n : Option Station) : (s.characterEnds n).pending = s.pending :=
  (congrArg State.pending (s.characterEnds_frame n) :)

/-! ### goodCharacter -/

theorem State.goodCharacter_frame (s : State) (n : Option Station) :
    s.goodCharacter n = { s with rx := (s.goodCharacter n).rx, line := (s.goodCharacter n).line, lineGap := (s.goodCharacter n).lineGap, csnAsserted := (s.goodCharacter n).csnAsserted, rxdLow := (s.goodCharacter n).rxdLow, round := (s.goodCharacter n).round, tx := (s.goodCharacter n).tx, quiet := (s.goodCharacter n).quiet } := by
  apply State.ext <;> first
    | rfl
    | (dsimp only [State.goodCharacter]; simp)

@[simp] theorem State.goodCharacter_mem (s : State) (n : Option Station) : (s.goodCharacter n).mem = s.mem :=
  (congrArg State.mem (s.goodCharacter_frame n) :)
@[simp] theorem State.goodCharacter_entries (s : State) (n : Option Station) : (s.goodCharacter n).entries = s.entries :=
  (congrArg State.entries (s.goodCharacter_frame n) :)
@[simp] theorem State.goodCharacter_poolFree (s : State) (n : Option Station) : (s.goodCharacter n).poolFree = s.poolFree :=
  (congrArg State.poolFree (s.goodCharacter_frame n) :)
@[simp] theorem State.goodCharacter_items (s : State) (n : Option Station) : (s.goodCharacter n).items = s.items :=
  (congrArg State.items (s.goodCharacter_frame n) :)
@[simp] theorem State.goodCharacter_noticeQueue (s : State) (n : Option Station) : (s.goodCharacter n).noticeQueue = s.noticeQueue :=
  (congrArg State.noticeQueue (s.goodCharacter_frame n) :)
@[simp] theorem State.goodCharacter_rxdSteady (s : State) (n : Option Station) : (s.goodCharacter n).rxdSteady = s.rxdSteady :=
  (congrArg State.rxdSteady (s.goodCharacter_frame n) :)
@[simp] theorem State.goodCharacter_failCount (s : State) (n : Option Station) : (s.goodCharacter n).failCount = s.failCount :=
  (congrArg State.failCount (s.goodCharacter_frame n) :)
@[simp] theorem State.goodCharacter_handover (s : State) (n : Option Station) : (s.goodCharacter n).handover = s.handover :=
  (congrArg State.handover (s.goodCharacter_frame n) :)
@[simp] theorem State.goodCharacter_replies (s : State) (n : Option Station) : (s.goodCharacter n).replies = s.replies :=
  (congrArg State.replies (s.goodCharacter_frame n) :)
@[simp] theorem State.goodCharacter_rrConsumer (s : State) (n : Option Station) : (s.goodCharacter n).rrConsumer = s.rrConsumer :=
  (congrArg State.rrConsumer (s.goodCharacter_frame n) :)
@[simp] theorem State.goodCharacter_rrProducer (s : State) (n : Option Station) : (s.goodCharacter n).rrProducer = s.rrProducer :=
  (congrArg State.rrProducer (s.goodCharacter_frame n) :)
@[simp] theorem State.goodCharacter_station (s : State) (n : Option Station) : (s.goodCharacter n).station = s.station :=
  (congrArg State.station (s.goodCharacter_frame n) :)
@[simp] theorem State.goodCharacter_params (s : State) (n : Option Station) : (s.goodCharacter n).params = s.params :=
  (congrArg State.params (s.goodCharacter_frame n) :)
@[simp] theorem State.goodCharacter_stationNo (s : State) (n : Option Station) : (s.goodCharacter n).stationNo = s.stationNo :=
  (congrArg State.stationNo (s.goodCharacter_frame n) :)
@[simp] theorem State.goodCharacter_rate (s : State) (n : Option Station) : (s.goodCharacter n).rate = s.rate :=
  (congrArg State.rate (s.goodCharacter_frame n) :)
@[simp] theorem State.goodCharacter_msPhase (s : State) (n : Option Station) : (s.goodCharacter n).msPhase = s.msPhase :=
  (congrArg State.msPhase (s.goodCharacter_frame n) :)
@[simp] theorem State.goodCharacter_rstnLow (s : State) (n : Option Station) : (s.goodCharacter n).rstnLow = s.rstnLow :=
  (congrArg State.rstnLow (s.goodCharacter_frame n) :)
@[simp] theorem State.goodCharacter_power (s : State) (n : Option Station) : (s.goodCharacter n).power = s.power :=
  (congrArg State.power (s.goodCharacter_frame n) :)
@[simp] theorem State.goodCharacter_port (s : State) (n : Option Station) : (s.goodCharacter n).port = s.port :=
  (congrArg State.port (s.goodCharacter_frame n) :)
@[simp] theorem State.goodCharacter_misoDraws (s : State) (n : Option Station) : (s.goodCharacter n).misoDraws = s.misoDraws :=
  (congrArg State.misoDraws (s.goodCharacter_frame n) :)
@[simp] theorem State.goodCharacter_pins (s : State) (n : Option Station) : (s.goodCharacter n).pins = s.pins :=
  (congrArg State.pins (s.goodCharacter_frame n) :)
@[simp] theorem State.goodCharacter_pending (s : State) (n : Option Station) : (s.goodCharacter n).pending = s.pending :=
  (congrArg State.pending (s.goodCharacter_frame n) :)

/-! ### badCharacter -/

theorem State.badCharacter_frame (s : State) (c : SeenCause) :
    s.badCharacter c = { s with rx := (s.badCharacter c).rx, line := (s.badCharacter c).line, lineGap := (s.badCharacter c).lineGap, rxdLow := (s.badCharacter c).rxdLow, rxdSteady := (s.badCharacter c).rxdSteady, round := (s.badCharacter c).round, tx := (s.badCharacter c).tx, quiet := (s.badCharacter c).quiet } := by
  cases c <;> (apply State.ext <;> simp [State.badCharacter])

@[simp] theorem State.badCharacter_mem (s : State) (c : SeenCause) : (s.badCharacter c).mem = s.mem :=
  (congrArg State.mem (s.badCharacter_frame c) :)
@[simp] theorem State.badCharacter_entries (s : State) (c : SeenCause) : (s.badCharacter c).entries = s.entries :=
  (congrArg State.entries (s.badCharacter_frame c) :)
@[simp] theorem State.badCharacter_poolFree (s : State) (c : SeenCause) : (s.badCharacter c).poolFree = s.poolFree :=
  (congrArg State.poolFree (s.badCharacter_frame c) :)
@[simp] theorem State.badCharacter_items (s : State) (c : SeenCause) : (s.badCharacter c).items = s.items :=
  (congrArg State.items (s.badCharacter_frame c) :)
@[simp] theorem State.badCharacter_noticeQueue (s : State) (c : SeenCause) : (s.badCharacter c).noticeQueue = s.noticeQueue :=
  (congrArg State.noticeQueue (s.badCharacter_frame c) :)
@[simp] theorem State.badCharacter_csnAsserted (s : State) (c : SeenCause) : (s.badCharacter c).csnAsserted = s.csnAsserted :=
  (congrArg State.csnAsserted (s.badCharacter_frame c) :)
@[simp] theorem State.badCharacter_failCount (s : State) (c : SeenCause) : (s.badCharacter c).failCount = s.failCount :=
  (congrArg State.failCount (s.badCharacter_frame c) :)
@[simp] theorem State.badCharacter_handover (s : State) (c : SeenCause) : (s.badCharacter c).handover = s.handover :=
  (congrArg State.handover (s.badCharacter_frame c) :)
@[simp] theorem State.badCharacter_replies (s : State) (c : SeenCause) : (s.badCharacter c).replies = s.replies :=
  (congrArg State.replies (s.badCharacter_frame c) :)
@[simp] theorem State.badCharacter_rrConsumer (s : State) (c : SeenCause) : (s.badCharacter c).rrConsumer = s.rrConsumer :=
  (congrArg State.rrConsumer (s.badCharacter_frame c) :)
@[simp] theorem State.badCharacter_rrProducer (s : State) (c : SeenCause) : (s.badCharacter c).rrProducer = s.rrProducer :=
  (congrArg State.rrProducer (s.badCharacter_frame c) :)
@[simp] theorem State.badCharacter_station (s : State) (c : SeenCause) : (s.badCharacter c).station = s.station :=
  (congrArg State.station (s.badCharacter_frame c) :)
@[simp] theorem State.badCharacter_params (s : State) (c : SeenCause) : (s.badCharacter c).params = s.params :=
  (congrArg State.params (s.badCharacter_frame c) :)
@[simp] theorem State.badCharacter_stationNo (s : State) (c : SeenCause) : (s.badCharacter c).stationNo = s.stationNo :=
  (congrArg State.stationNo (s.badCharacter_frame c) :)
@[simp] theorem State.badCharacter_rate (s : State) (c : SeenCause) : (s.badCharacter c).rate = s.rate :=
  (congrArg State.rate (s.badCharacter_frame c) :)
@[simp] theorem State.badCharacter_msPhase (s : State) (c : SeenCause) : (s.badCharacter c).msPhase = s.msPhase :=
  (congrArg State.msPhase (s.badCharacter_frame c) :)
@[simp] theorem State.badCharacter_rstnLow (s : State) (c : SeenCause) : (s.badCharacter c).rstnLow = s.rstnLow :=
  (congrArg State.rstnLow (s.badCharacter_frame c) :)
@[simp] theorem State.badCharacter_power (s : State) (c : SeenCause) : (s.badCharacter c).power = s.power :=
  (congrArg State.power (s.badCharacter_frame c) :)
@[simp] theorem State.badCharacter_port (s : State) (c : SeenCause) : (s.badCharacter c).port = s.port :=
  (congrArg State.port (s.badCharacter_frame c) :)
@[simp] theorem State.badCharacter_misoDraws (s : State) (c : SeenCause) : (s.badCharacter c).misoDraws = s.misoDraws :=
  (congrArg State.misoDraws (s.badCharacter_frame c) :)
@[simp] theorem State.badCharacter_pins (s : State) (c : SeenCause) : (s.badCharacter c).pins = s.pins :=
  (congrArg State.pins (s.badCharacter_frame c) :)
@[simp] theorem State.badCharacter_pending (s : State) (c : SeenCause) : (s.badCharacter c).pending = s.pending :=
  (congrArg State.pending (s.badCharacter_frame c) :)

/-! ### marked -/

theorem State.marked_frame (s : State) (d : Byte) :
    s.marked d = { s with mem := (s.marked d).mem, entries := (s.marked d).entries, poolFree := (s.marked d).poolFree, items := (s.marked d).items, noticeQueue := (s.marked d).noticeQueue, rx := (s.marked d).rx, line := (s.marked d).line, lineGap := (s.marked d).lineGap, csnAsserted := (s.marked d).csnAsserted, rxdLow := (s.marked d).rxdLow, round := (s.marked d).round, tx := (s.marked d).tx, handover := (s.marked d).handover, replies := (s.marked d).replies, quiet := (s.marked d).quiet } := by
  apply State.ext <;> first
    | rfl
    | (dsimp only [State.marked]; (repeat' split) <;> simp)

@[simp] theorem State.marked_rxdSteady (s : State) (d : Byte) : (s.marked d).rxdSteady = s.rxdSteady :=
  (congrArg State.rxdSteady (s.marked_frame d) :)
@[simp] theorem State.marked_failCount (s : State) (d : Byte) : (s.marked d).failCount = s.failCount :=
  (congrArg State.failCount (s.marked_frame d) :)
@[simp] theorem State.marked_rrConsumer (s : State) (d : Byte) : (s.marked d).rrConsumer = s.rrConsumer :=
  (congrArg State.rrConsumer (s.marked_frame d) :)
@[simp] theorem State.marked_rrProducer (s : State) (d : Byte) : (s.marked d).rrProducer = s.rrProducer :=
  (congrArg State.rrProducer (s.marked_frame d) :)
@[simp] theorem State.marked_station (s : State) (d : Byte) : (s.marked d).station = s.station :=
  (congrArg State.station (s.marked_frame d) :)
@[simp] theorem State.marked_params (s : State) (d : Byte) : (s.marked d).params = s.params :=
  (congrArg State.params (s.marked_frame d) :)
@[simp] theorem State.marked_stationNo (s : State) (d : Byte) : (s.marked d).stationNo = s.stationNo :=
  (congrArg State.stationNo (s.marked_frame d) :)
@[simp] theorem State.marked_rate (s : State) (d : Byte) : (s.marked d).rate = s.rate :=
  (congrArg State.rate (s.marked_frame d) :)
@[simp] theorem State.marked_msPhase (s : State) (d : Byte) : (s.marked d).msPhase = s.msPhase :=
  (congrArg State.msPhase (s.marked_frame d) :)
@[simp] theorem State.marked_rstnLow (s : State) (d : Byte) : (s.marked d).rstnLow = s.rstnLow :=
  (congrArg State.rstnLow (s.marked_frame d) :)
@[simp] theorem State.marked_power (s : State) (d : Byte) : (s.marked d).power = s.power :=
  (congrArg State.power (s.marked_frame d) :)
@[simp] theorem State.marked_port (s : State) (d : Byte) : (s.marked d).port = s.port :=
  (congrArg State.port (s.marked_frame d) :)
@[simp] theorem State.marked_misoDraws (s : State) (d : Byte) : (s.marked d).misoDraws = s.misoDraws :=
  (congrArg State.misoDraws (s.marked_frame d) :)
@[simp] theorem State.marked_pins (s : State) (d : Byte) : (s.marked d).pins = s.pins :=
  (congrArg State.pins (s.marked_frame d) :)
@[simp] theorem State.marked_pending (s : State) (d : Byte) : (s.marked d).pending = s.pending :=
  (congrArg State.pending (s.marked_frame d) :)

/-! ### store -/

theorem State.store_frame (s : State) (d : Byte) :
    s.store d = { s with rx := (s.store d).rx } := by
  apply State.ext <;> first
    | rfl
    | (dsimp only [State.store]; (repeat' split) <;> simp)

@[simp] theorem State.store_mem (s : State) (d : Byte) : (s.store d).mem = s.mem :=
  (congrArg State.mem (s.store_frame d) :)
@[simp] theorem State.store_entries (s : State) (d : Byte) : (s.store d).entries = s.entries :=
  (congrArg State.entries (s.store_frame d) :)
@[simp] theorem State.store_poolFree (s : State) (d : Byte) : (s.store d).poolFree = s.poolFree :=
  (congrArg State.poolFree (s.store_frame d) :)
@[simp] theorem State.store_items (s : State) (d : Byte) : (s.store d).items = s.items :=
  (congrArg State.items (s.store_frame d) :)
@[simp] theorem State.store_noticeQueue (s : State) (d : Byte) : (s.store d).noticeQueue = s.noticeQueue :=
  (congrArg State.noticeQueue (s.store_frame d) :)
@[simp] theorem State.store_line (s : State) (d : Byte) : (s.store d).line = s.line :=
  (congrArg State.line (s.store_frame d) :)
@[simp] theorem State.store_lineGap (s : State) (d : Byte) : (s.store d).lineGap = s.lineGap :=
  (congrArg State.lineGap (s.store_frame d) :)
@[simp] theorem State.store_csnAsserted (s : State) (d : Byte) : (s.store d).csnAsserted = s.csnAsserted :=
  (congrArg State.csnAsserted (s.store_frame d) :)
@[simp] theorem State.store_rxdLow (s : State) (d : Byte) : (s.store d).rxdLow = s.rxdLow :=
  (congrArg State.rxdLow (s.store_frame d) :)
@[simp] theorem State.store_rxdSteady (s : State) (d : Byte) : (s.store d).rxdSteady = s.rxdSteady :=
  (congrArg State.rxdSteady (s.store_frame d) :)
@[simp] theorem State.store_round (s : State) (d : Byte) : (s.store d).round = s.round :=
  (congrArg State.round (s.store_frame d) :)
@[simp] theorem State.store_failCount (s : State) (d : Byte) : (s.store d).failCount = s.failCount :=
  (congrArg State.failCount (s.store_frame d) :)
@[simp] theorem State.store_tx (s : State) (d : Byte) : (s.store d).tx = s.tx :=
  (congrArg State.tx (s.store_frame d) :)
@[simp] theorem State.store_handover (s : State) (d : Byte) : (s.store d).handover = s.handover :=
  (congrArg State.handover (s.store_frame d) :)
@[simp] theorem State.store_replies (s : State) (d : Byte) : (s.store d).replies = s.replies :=
  (congrArg State.replies (s.store_frame d) :)
@[simp] theorem State.store_rrConsumer (s : State) (d : Byte) : (s.store d).rrConsumer = s.rrConsumer :=
  (congrArg State.rrConsumer (s.store_frame d) :)
@[simp] theorem State.store_rrProducer (s : State) (d : Byte) : (s.store d).rrProducer = s.rrProducer :=
  (congrArg State.rrProducer (s.store_frame d) :)
@[simp] theorem State.store_station (s : State) (d : Byte) : (s.store d).station = s.station :=
  (congrArg State.station (s.store_frame d) :)
@[simp] theorem State.store_params (s : State) (d : Byte) : (s.store d).params = s.params :=
  (congrArg State.params (s.store_frame d) :)
@[simp] theorem State.store_stationNo (s : State) (d : Byte) : (s.store d).stationNo = s.stationNo :=
  (congrArg State.stationNo (s.store_frame d) :)
@[simp] theorem State.store_rate (s : State) (d : Byte) : (s.store d).rate = s.rate :=
  (congrArg State.rate (s.store_frame d) :)
@[simp] theorem State.store_quiet (s : State) (d : Byte) : (s.store d).quiet = s.quiet :=
  (congrArg State.quiet (s.store_frame d) :)
@[simp] theorem State.store_msPhase (s : State) (d : Byte) : (s.store d).msPhase = s.msPhase :=
  (congrArg State.msPhase (s.store_frame d) :)
@[simp] theorem State.store_rstnLow (s : State) (d : Byte) : (s.store d).rstnLow = s.rstnLow :=
  (congrArg State.rstnLow (s.store_frame d) :)
@[simp] theorem State.store_power (s : State) (d : Byte) : (s.store d).power = s.power :=
  (congrArg State.power (s.store_frame d) :)
@[simp] theorem State.store_port (s : State) (d : Byte) : (s.store d).port = s.port :=
  (congrArg State.port (s.store_frame d) :)
@[simp] theorem State.store_misoDraws (s : State) (d : Byte) : (s.store d).misoDraws = s.misoDraws :=
  (congrArg State.misoDraws (s.store_frame d) :)
@[simp] theorem State.store_pins (s : State) (d : Byte) : (s.store d).pins = s.pins :=
  (congrArg State.pins (s.store_frame d) :)
@[simp] theorem State.store_pending (s : State) (d : Byte) : (s.store d).pending = s.pending :=
  (congrArg State.pending (s.store_frame d) :)

/-! ### unmarked -/

theorem State.unmarked_frame (s : State) (d : Byte) :
    s.unmarked d = { s with mem := (s.unmarked d).mem, entries := (s.unmarked d).entries, poolFree := (s.unmarked d).poolFree, items := (s.unmarked d).items, noticeQueue := (s.unmarked d).noticeQueue, rx := (s.unmarked d).rx, line := (s.unmarked d).line, lineGap := (s.unmarked d).lineGap, csnAsserted := (s.unmarked d).csnAsserted, rxdLow := (s.unmarked d).rxdLow, round := (s.unmarked d).round, tx := (s.unmarked d).tx, handover := (s.unmarked d).handover, replies := (s.unmarked d).replies, quiet := (s.unmarked d).quiet } := by
  apply State.ext <;> first
    | rfl
    | (dsimp only [State.unmarked]; (repeat' split) <;> simp)

@[simp] theorem State.unmarked_rxdSteady (s : State) (d : Byte) : (s.unmarked d).rxdSteady = s.rxdSteady :=
  (congrArg State.rxdSteady (s.unmarked_frame d) :)
@[simp] theorem State.unmarked_failCount (s : State) (d : Byte) : (s.unmarked d).failCount = s.failCount :=
  (congrArg State.failCount (s.unmarked_frame d) :)
@[simp] theorem State.unmarked_rrConsumer (s : State) (d : Byte) : (s.unmarked d).rrConsumer = s.rrConsumer :=
  (congrArg State.rrConsumer (s.unmarked_frame d) :)
@[simp] theorem State.unmarked_rrProducer (s : State) (d : Byte) : (s.unmarked d).rrProducer = s.rrProducer :=
  (congrArg State.rrProducer (s.unmarked_frame d) :)
@[simp] theorem State.unmarked_station (s : State) (d : Byte) : (s.unmarked d).station = s.station :=
  (congrArg State.station (s.unmarked_frame d) :)
@[simp] theorem State.unmarked_params (s : State) (d : Byte) : (s.unmarked d).params = s.params :=
  (congrArg State.params (s.unmarked_frame d) :)
@[simp] theorem State.unmarked_stationNo (s : State) (d : Byte) : (s.unmarked d).stationNo = s.stationNo :=
  (congrArg State.stationNo (s.unmarked_frame d) :)
@[simp] theorem State.unmarked_rate (s : State) (d : Byte) : (s.unmarked d).rate = s.rate :=
  (congrArg State.rate (s.unmarked_frame d) :)
@[simp] theorem State.unmarked_msPhase (s : State) (d : Byte) : (s.unmarked d).msPhase = s.msPhase :=
  (congrArg State.msPhase (s.unmarked_frame d) :)
@[simp] theorem State.unmarked_rstnLow (s : State) (d : Byte) : (s.unmarked d).rstnLow = s.rstnLow :=
  (congrArg State.rstnLow (s.unmarked_frame d) :)
@[simp] theorem State.unmarked_power (s : State) (d : Byte) : (s.unmarked d).power = s.power :=
  (congrArg State.power (s.unmarked_frame d) :)
@[simp] theorem State.unmarked_port (s : State) (d : Byte) : (s.unmarked d).port = s.port :=
  (congrArg State.port (s.unmarked_frame d) :)
@[simp] theorem State.unmarked_misoDraws (s : State) (d : Byte) : (s.unmarked d).misoDraws = s.misoDraws :=
  (congrArg State.misoDraws (s.unmarked_frame d) :)
@[simp] theorem State.unmarked_pins (s : State) (d : Byte) : (s.unmarked d).pins = s.pins :=
  (congrArg State.pins (s.unmarked_frame d) :)
@[simp] theorem State.unmarked_pending (s : State) (d : Byte) : (s.unmarked d).pending = s.pending :=
  (congrArg State.pending (s.unmarked_frame d) :)

/-! ### collisionSeen -/

theorem State.collisionSeen_frame (s : State) (c : SeenCause) :
    s.collisionSeen c = { s with mem := (s.collisionSeen c).mem, entries := (s.collisionSeen c).entries, poolFree := (s.collisionSeen c).poolFree, items := (s.collisionSeen c).items, noticeQueue := (s.collisionSeen c).noticeQueue, rx := (s.collisionSeen c).rx, line := (s.collisionSeen c).line, lineGap := (s.collisionSeen c).lineGap, rxdLow := (s.collisionSeen c).rxdLow, rxdSteady := (s.collisionSeen c).rxdSteady, round := (s.collisionSeen c).round, tx := (s.collisionSeen c).tx, handover := (s.collisionSeen c).handover, replies := (s.collisionSeen c).replies, quiet := (s.collisionSeen c).quiet } := by
  apply State.ext <;> first
    | rfl
    | (dsimp only [State.collisionSeen]; (repeat' split) <;> simp)

@[simp] theorem State.collisionSeen_csnAsserted (s : State) (c : SeenCause) : (s.collisionSeen c).csnAsserted = s.csnAsserted :=
  (congrArg State.csnAsserted (s.collisionSeen_frame c) :)
@[simp] theorem State.collisionSeen_failCount (s : State) (c : SeenCause) : (s.collisionSeen c).failCount = s.failCount :=
  (congrArg State.failCount (s.collisionSeen_frame c) :)
@[simp] theorem State.collisionSeen_rrConsumer (s : State) (c : SeenCause) : (s.collisionSeen c).rrConsumer = s.rrConsumer :=
  (congrArg State.rrConsumer (s.collisionSeen_frame c) :)
@[simp] theorem State.collisionSeen_rrProducer (s : State) (c : SeenCause) : (s.collisionSeen c).rrProducer = s.rrProducer :=
  (congrArg State.rrProducer (s.collisionSeen_frame c) :)
@[simp] theorem State.collisionSeen_station (s : State) (c : SeenCause) : (s.collisionSeen c).station = s.station :=
  (congrArg State.station (s.collisionSeen_frame c) :)
@[simp] theorem State.collisionSeen_params (s : State) (c : SeenCause) : (s.collisionSeen c).params = s.params :=
  (congrArg State.params (s.collisionSeen_frame c) :)
@[simp] theorem State.collisionSeen_stationNo (s : State) (c : SeenCause) : (s.collisionSeen c).stationNo = s.stationNo :=
  (congrArg State.stationNo (s.collisionSeen_frame c) :)
@[simp] theorem State.collisionSeen_rate (s : State) (c : SeenCause) : (s.collisionSeen c).rate = s.rate :=
  (congrArg State.rate (s.collisionSeen_frame c) :)
@[simp] theorem State.collisionSeen_msPhase (s : State) (c : SeenCause) : (s.collisionSeen c).msPhase = s.msPhase :=
  (congrArg State.msPhase (s.collisionSeen_frame c) :)
@[simp] theorem State.collisionSeen_rstnLow (s : State) (c : SeenCause) : (s.collisionSeen c).rstnLow = s.rstnLow :=
  (congrArg State.rstnLow (s.collisionSeen_frame c) :)
@[simp] theorem State.collisionSeen_power (s : State) (c : SeenCause) : (s.collisionSeen c).power = s.power :=
  (congrArg State.power (s.collisionSeen_frame c) :)
@[simp] theorem State.collisionSeen_port (s : State) (c : SeenCause) : (s.collisionSeen c).port = s.port :=
  (congrArg State.port (s.collisionSeen_frame c) :)
@[simp] theorem State.collisionSeen_misoDraws (s : State) (c : SeenCause) : (s.collisionSeen c).misoDraws = s.misoDraws :=
  (congrArg State.misoDraws (s.collisionSeen_frame c) :)
@[simp] theorem State.collisionSeen_pins (s : State) (c : SeenCause) : (s.collisionSeen c).pins = s.pins :=
  (congrArg State.pins (s.collisionSeen_frame c) :)
@[simp] theorem State.collisionSeen_pending (s : State) (c : SeenCause) : (s.collisionSeen c).pending = s.pending :=
  (congrArg State.pending (s.collisionSeen_frame c) :)

/-! ### receiverGap -/

theorem State.receiverGap_frame (s : State) :
    s.receiverGap = { s with mem := s.receiverGap.mem, entries := s.receiverGap.entries, poolFree := s.receiverGap.poolFree, items := s.receiverGap.items, noticeQueue := s.receiverGap.noticeQueue, rx := s.receiverGap.rx, tx := s.receiverGap.tx, handover := s.receiverGap.handover, replies := s.receiverGap.replies } := by
  apply State.ext <;> first
    | rfl
    | (dsimp only [State.receiverGap]; (repeat' split) <;> simp)

@[simp] theorem State.receiverGap_line (s : State) : s.receiverGap.line = s.line :=
  (congrArg State.line (s.receiverGap_frame) :)
@[simp] theorem State.receiverGap_lineGap (s : State) : s.receiverGap.lineGap = s.lineGap :=
  (congrArg State.lineGap (s.receiverGap_frame) :)
@[simp] theorem State.receiverGap_csnAsserted (s : State) : s.receiverGap.csnAsserted = s.csnAsserted :=
  (congrArg State.csnAsserted (s.receiverGap_frame) :)
@[simp] theorem State.receiverGap_rxdLow (s : State) : s.receiverGap.rxdLow = s.rxdLow :=
  (congrArg State.rxdLow (s.receiverGap_frame) :)
@[simp] theorem State.receiverGap_rxdSteady (s : State) : s.receiverGap.rxdSteady = s.rxdSteady :=
  (congrArg State.rxdSteady (s.receiverGap_frame) :)
@[simp] theorem State.receiverGap_round (s : State) : s.receiverGap.round = s.round :=
  (congrArg State.round (s.receiverGap_frame) :)
@[simp] theorem State.receiverGap_failCount (s : State) : s.receiverGap.failCount = s.failCount :=
  (congrArg State.failCount (s.receiverGap_frame) :)
@[simp] theorem State.receiverGap_rrConsumer (s : State) : s.receiverGap.rrConsumer = s.rrConsumer :=
  (congrArg State.rrConsumer (s.receiverGap_frame) :)
@[simp] theorem State.receiverGap_rrProducer (s : State) : s.receiverGap.rrProducer = s.rrProducer :=
  (congrArg State.rrProducer (s.receiverGap_frame) :)
@[simp] theorem State.receiverGap_station (s : State) : s.receiverGap.station = s.station :=
  (congrArg State.station (s.receiverGap_frame) :)
@[simp] theorem State.receiverGap_params (s : State) : s.receiverGap.params = s.params :=
  (congrArg State.params (s.receiverGap_frame) :)
@[simp] theorem State.receiverGap_stationNo (s : State) : s.receiverGap.stationNo = s.stationNo :=
  (congrArg State.stationNo (s.receiverGap_frame) :)
@[simp] theorem State.receiverGap_rate (s : State) : s.receiverGap.rate = s.rate :=
  (congrArg State.rate (s.receiverGap_frame) :)
@[simp] theorem State.receiverGap_quiet (s : State) : s.receiverGap.quiet = s.quiet :=
  (congrArg State.quiet (s.receiverGap_frame) :)
@[simp] theorem State.receiverGap_msPhase (s : State) : s.receiverGap.msPhase = s.msPhase :=
  (congrArg State.msPhase (s.receiverGap_frame) :)
@[simp] theorem State.receiverGap_rstnLow (s : State) : s.receiverGap.rstnLow = s.rstnLow :=
  (congrArg State.rstnLow (s.receiverGap_frame) :)
@[simp] theorem State.receiverGap_power (s : State) : s.receiverGap.power = s.power :=
  (congrArg State.power (s.receiverGap_frame) :)
@[simp] theorem State.receiverGap_port (s : State) : s.receiverGap.port = s.port :=
  (congrArg State.port (s.receiverGap_frame) :)
@[simp] theorem State.receiverGap_misoDraws (s : State) : s.receiverGap.misoDraws = s.misoDraws :=
  (congrArg State.misoDraws (s.receiverGap_frame) :)
@[simp] theorem State.receiverGap_pins (s : State) : s.receiverGap.pins = s.pins :=
  (congrArg State.pins (s.receiverGap_frame) :)
@[simp] theorem State.receiverGap_pending (s : State) : s.receiverGap.pending = s.pending :=
  (congrArg State.pending (s.receiverGap_frame) :)

/-! ### lineBusied -/

theorem State.lineBusied_frame (s : State) (c : BusyCause) :
    s.lineBusied c = { s with rx := (s.lineBusied c).rx, line := (s.lineBusied c).line, lineGap := (s.lineBusied c).lineGap, csnAsserted := (s.lineBusied c).csnAsserted, round := (s.lineBusied c).round, tx := (s.lineBusied c).tx, quiet := (s.lineBusied c).quiet } := by
  apply State.ext <;> first
    | rfl
    | (dsimp only [State.lineBusied]; (repeat' split) <;> simp)

@[simp] theorem State.lineBusied_mem (s : State) (c : BusyCause) : (s.lineBusied c).mem = s.mem :=
  (congrArg State.mem (s.lineBusied_frame c) :)
@[simp] theorem State.lineBusied_entries (s : State) (c : BusyCause) : (s.lineBusied c).entries = s.entries :=
  (congrArg State.entries (s.lineBusied_frame c) :)
@[simp] theorem State.lineBusied_poolFree (s : State) (c : BusyCause) : (s.lineBusied c).poolFree = s.poolFree :=
  (congrArg State.poolFree (s.lineBusied_frame c) :)
@[simp] theorem State.lineBusied_items (s : State) (c : BusyCause) : (s.lineBusied c).items = s.items :=
  (congrArg State.items (s.lineBusied_frame c) :)
@[simp] theorem State.lineBusied_noticeQueue (s : State) (c : BusyCause) : (s.lineBusied c).noticeQueue = s.noticeQueue :=
  (congrArg State.noticeQueue (s.lineBusied_frame c) :)
@[simp] theorem State.lineBusied_rxdLow (s : State) (c : BusyCause) : (s.lineBusied c).rxdLow = s.rxdLow :=
  (congrArg State.rxdLow (s.lineBusied_frame c) :)
@[simp] theorem State.lineBusied_rxdSteady (s : State) (c : BusyCause) : (s.lineBusied c).rxdSteady = s.rxdSteady :=
  (congrArg State.rxdSteady (s.lineBusied_frame c) :)
@[simp] theorem State.lineBusied_failCount (s : State) (c : BusyCause) : (s.lineBusied c).failCount = s.failCount :=
  (congrArg State.failCount (s.lineBusied_frame c) :)
@[simp] theorem State.lineBusied_handover (s : State) (c : BusyCause) : (s.lineBusied c).handover = s.handover :=
  (congrArg State.handover (s.lineBusied_frame c) :)
@[simp] theorem State.lineBusied_replies (s : State) (c : BusyCause) : (s.lineBusied c).replies = s.replies :=
  (congrArg State.replies (s.lineBusied_frame c) :)
@[simp] theorem State.lineBusied_rrConsumer (s : State) (c : BusyCause) : (s.lineBusied c).rrConsumer = s.rrConsumer :=
  (congrArg State.rrConsumer (s.lineBusied_frame c) :)
@[simp] theorem State.lineBusied_rrProducer (s : State) (c : BusyCause) : (s.lineBusied c).rrProducer = s.rrProducer :=
  (congrArg State.rrProducer (s.lineBusied_frame c) :)
@[simp] theorem State.lineBusied_station (s : State) (c : BusyCause) : (s.lineBusied c).station = s.station :=
  (congrArg State.station (s.lineBusied_frame c) :)
@[simp] theorem State.lineBusied_params (s : State) (c : BusyCause) : (s.lineBusied c).params = s.params :=
  (congrArg State.params (s.lineBusied_frame c) :)
@[simp] theorem State.lineBusied_stationNo (s : State) (c : BusyCause) : (s.lineBusied c).stationNo = s.stationNo :=
  (congrArg State.stationNo (s.lineBusied_frame c) :)
@[simp] theorem State.lineBusied_rate (s : State) (c : BusyCause) : (s.lineBusied c).rate = s.rate :=
  (congrArg State.rate (s.lineBusied_frame c) :)
@[simp] theorem State.lineBusied_msPhase (s : State) (c : BusyCause) : (s.lineBusied c).msPhase = s.msPhase :=
  (congrArg State.msPhase (s.lineBusied_frame c) :)
@[simp] theorem State.lineBusied_rstnLow (s : State) (c : BusyCause) : (s.lineBusied c).rstnLow = s.rstnLow :=
  (congrArg State.rstnLow (s.lineBusied_frame c) :)
@[simp] theorem State.lineBusied_power (s : State) (c : BusyCause) : (s.lineBusied c).power = s.power :=
  (congrArg State.power (s.lineBusied_frame c) :)
@[simp] theorem State.lineBusied_port (s : State) (c : BusyCause) : (s.lineBusied c).port = s.port :=
  (congrArg State.port (s.lineBusied_frame c) :)
@[simp] theorem State.lineBusied_misoDraws (s : State) (c : BusyCause) : (s.lineBusied c).misoDraws = s.misoDraws :=
  (congrArg State.misoDraws (s.lineBusied_frame c) :)
@[simp] theorem State.lineBusied_pins (s : State) (c : BusyCause) : (s.lineBusied c).pins = s.pins :=
  (congrArg State.pins (s.lineBusied_frame c) :)
@[simp] theorem State.lineBusied_pending (s : State) (c : BusyCause) : (s.lineBusied c).pending = s.pending :=
  (congrArg State.pending (s.lineBusied_frame c) :)

/-! ### roundIdle -/

theorem State.roundIdle_frame (s : State) :
    s.roundIdle = { s with round := s.roundIdle.round, tx := s.roundIdle.tx } := by
  apply State.ext <;> first
    | rfl
    | (dsimp only [State.roundIdle]; (repeat' split) <;> simp)

@[simp] theorem State.roundIdle_mem (s : State) : s.roundIdle.mem = s.mem :=
  (congrArg State.mem (s.roundIdle_frame) :)
@[simp] theorem State.roundIdle_entries (s : State) : s.roundIdle.entries = s.entries :=
  (congrArg State.entries (s.roundIdle_frame) :)
@[simp] theorem State.roundIdle_poolFree (s : State) : s.roundIdle.poolFree = s.poolFree :=
  (congrArg State.poolFree (s.roundIdle_frame) :)
@[simp] theorem State.roundIdle_items (s : State) : s.roundIdle.items = s.items :=
  (congrArg State.items (s.roundIdle_frame) :)
@[simp] theorem State.roundIdle_noticeQueue (s : State) : s.roundIdle.noticeQueue = s.noticeQueue :=
  (congrArg State.noticeQueue (s.roundIdle_frame) :)
@[simp] theorem State.roundIdle_rx (s : State) : s.roundIdle.rx = s.rx :=
  (congrArg State.rx (s.roundIdle_frame) :)
@[simp] theorem State.roundIdle_line (s : State) : s.roundIdle.line = s.line :=
  (congrArg State.line (s.roundIdle_frame) :)
@[simp] theorem State.roundIdle_lineGap (s : State) : s.roundIdle.lineGap = s.lineGap :=
  (congrArg State.lineGap (s.roundIdle_frame) :)
@[simp] theorem State.roundIdle_csnAsserted (s : State) : s.roundIdle.csnAsserted = s.csnAsserted :=
  (congrArg State.csnAsserted (s.roundIdle_frame) :)
@[simp] theorem State.roundIdle_rxdLow (s : State) : s.roundIdle.rxdLow = s.rxdLow :=
  (congrArg State.rxdLow (s.roundIdle_frame) :)
@[simp] theorem State.roundIdle_rxdSteady (s : State) : s.roundIdle.rxdSteady = s.rxdSteady :=
  (congrArg State.rxdSteady (s.roundIdle_frame) :)
@[simp] theorem State.roundIdle_failCount (s : State) : s.roundIdle.failCount = s.failCount :=
  (congrArg State.failCount (s.roundIdle_frame) :)
@[simp] theorem State.roundIdle_handover (s : State) : s.roundIdle.handover = s.handover :=
  (congrArg State.handover (s.roundIdle_frame) :)
@[simp] theorem State.roundIdle_replies (s : State) : s.roundIdle.replies = s.replies :=
  (congrArg State.replies (s.roundIdle_frame) :)
@[simp] theorem State.roundIdle_rrConsumer (s : State) : s.roundIdle.rrConsumer = s.rrConsumer :=
  (congrArg State.rrConsumer (s.roundIdle_frame) :)
@[simp] theorem State.roundIdle_rrProducer (s : State) : s.roundIdle.rrProducer = s.rrProducer :=
  (congrArg State.rrProducer (s.roundIdle_frame) :)
@[simp] theorem State.roundIdle_station (s : State) : s.roundIdle.station = s.station :=
  (congrArg State.station (s.roundIdle_frame) :)
@[simp] theorem State.roundIdle_params (s : State) : s.roundIdle.params = s.params :=
  (congrArg State.params (s.roundIdle_frame) :)
@[simp] theorem State.roundIdle_stationNo (s : State) : s.roundIdle.stationNo = s.stationNo :=
  (congrArg State.stationNo (s.roundIdle_frame) :)
@[simp] theorem State.roundIdle_rate (s : State) : s.roundIdle.rate = s.rate :=
  (congrArg State.rate (s.roundIdle_frame) :)
@[simp] theorem State.roundIdle_quiet (s : State) : s.roundIdle.quiet = s.quiet :=
  (congrArg State.quiet (s.roundIdle_frame) :)
@[simp] theorem State.roundIdle_msPhase (s : State) : s.roundIdle.msPhase = s.msPhase :=
  (congrArg State.msPhase (s.roundIdle_frame) :)
@[simp] theorem State.roundIdle_rstnLow (s : State) : s.roundIdle.rstnLow = s.rstnLow :=
  (congrArg State.rstnLow (s.roundIdle_frame) :)
@[simp] theorem State.roundIdle_power (s : State) : s.roundIdle.power = s.power :=
  (congrArg State.power (s.roundIdle_frame) :)
@[simp] theorem State.roundIdle_port (s : State) : s.roundIdle.port = s.port :=
  (congrArg State.port (s.roundIdle_frame) :)
@[simp] theorem State.roundIdle_misoDraws (s : State) : s.roundIdle.misoDraws = s.misoDraws :=
  (congrArg State.misoDraws (s.roundIdle_frame) :)
@[simp] theorem State.roundIdle_pins (s : State) : s.roundIdle.pins = s.pins :=
  (congrArg State.pins (s.roundIdle_frame) :)
@[simp] theorem State.roundIdle_pending (s : State) : s.roundIdle.pending = s.pending :=
  (congrArg State.pending (s.roundIdle_frame) :)

/-! ### lineIdled -/

theorem State.lineIdled_frame (s : State) :
    s.lineIdled = { s with line := s.lineIdled.line, lineGap := s.lineIdled.lineGap, round := s.lineIdled.round, tx := s.lineIdled.tx, quiet := s.lineIdled.quiet } := by
  apply State.ext <;> first
    | rfl
    | (dsimp only [State.lineIdled]; (repeat' split) <;> simp)

@[simp] theorem State.lineIdled_mem (s : State) : s.lineIdled.mem = s.mem :=
  (congrArg State.mem (s.lineIdled_frame) :)
@[simp] theorem State.lineIdled_entries (s : State) : s.lineIdled.entries = s.entries :=
  (congrArg State.entries (s.lineIdled_frame) :)
@[simp] theorem State.lineIdled_poolFree (s : State) : s.lineIdled.poolFree = s.poolFree :=
  (congrArg State.poolFree (s.lineIdled_frame) :)
@[simp] theorem State.lineIdled_items (s : State) : s.lineIdled.items = s.items :=
  (congrArg State.items (s.lineIdled_frame) :)
@[simp] theorem State.lineIdled_noticeQueue (s : State) : s.lineIdled.noticeQueue = s.noticeQueue :=
  (congrArg State.noticeQueue (s.lineIdled_frame) :)
@[simp] theorem State.lineIdled_rx (s : State) : s.lineIdled.rx = s.rx :=
  (congrArg State.rx (s.lineIdled_frame) :)
@[simp] theorem State.lineIdled_csnAsserted (s : State) : s.lineIdled.csnAsserted = s.csnAsserted :=
  (congrArg State.csnAsserted (s.lineIdled_frame) :)
@[simp] theorem State.lineIdled_rxdLow (s : State) : s.lineIdled.rxdLow = s.rxdLow :=
  (congrArg State.rxdLow (s.lineIdled_frame) :)
@[simp] theorem State.lineIdled_rxdSteady (s : State) : s.lineIdled.rxdSteady = s.rxdSteady :=
  (congrArg State.rxdSteady (s.lineIdled_frame) :)
@[simp] theorem State.lineIdled_failCount (s : State) : s.lineIdled.failCount = s.failCount :=
  (congrArg State.failCount (s.lineIdled_frame) :)
@[simp] theorem State.lineIdled_handover (s : State) : s.lineIdled.handover = s.handover :=
  (congrArg State.handover (s.lineIdled_frame) :)
@[simp] theorem State.lineIdled_replies (s : State) : s.lineIdled.replies = s.replies :=
  (congrArg State.replies (s.lineIdled_frame) :)
@[simp] theorem State.lineIdled_rrConsumer (s : State) : s.lineIdled.rrConsumer = s.rrConsumer :=
  (congrArg State.rrConsumer (s.lineIdled_frame) :)
@[simp] theorem State.lineIdled_rrProducer (s : State) : s.lineIdled.rrProducer = s.rrProducer :=
  (congrArg State.rrProducer (s.lineIdled_frame) :)
@[simp] theorem State.lineIdled_station (s : State) : s.lineIdled.station = s.station :=
  (congrArg State.station (s.lineIdled_frame) :)
@[simp] theorem State.lineIdled_params (s : State) : s.lineIdled.params = s.params :=
  (congrArg State.params (s.lineIdled_frame) :)
@[simp] theorem State.lineIdled_stationNo (s : State) : s.lineIdled.stationNo = s.stationNo :=
  (congrArg State.stationNo (s.lineIdled_frame) :)
@[simp] theorem State.lineIdled_rate (s : State) : s.lineIdled.rate = s.rate :=
  (congrArg State.rate (s.lineIdled_frame) :)
@[simp] theorem State.lineIdled_msPhase (s : State) : s.lineIdled.msPhase = s.msPhase :=
  (congrArg State.msPhase (s.lineIdled_frame) :)
@[simp] theorem State.lineIdled_rstnLow (s : State) : s.lineIdled.rstnLow = s.rstnLow :=
  (congrArg State.rstnLow (s.lineIdled_frame) :)
@[simp] theorem State.lineIdled_power (s : State) : s.lineIdled.power = s.power :=
  (congrArg State.power (s.lineIdled_frame) :)
@[simp] theorem State.lineIdled_port (s : State) : s.lineIdled.port = s.port :=
  (congrArg State.port (s.lineIdled_frame) :)
@[simp] theorem State.lineIdled_misoDraws (s : State) : s.lineIdled.misoDraws = s.misoDraws :=
  (congrArg State.misoDraws (s.lineIdled_frame) :)
@[simp] theorem State.lineIdled_pins (s : State) : s.lineIdled.pins = s.pins :=
  (congrArg State.pins (s.lineIdled_frame) :)
@[simp] theorem State.lineIdled_pending (s : State) : s.lineIdled.pending = s.pending :=
  (congrArg State.pending (s.lineIdled_frame) :)

/-! ### slotEnded -/

theorem State.slotEnded_frame (s : State) :
    s.slotEnded = { s with round := s.slotEnded.round, tx := s.slotEnded.tx } := by
  apply State.ext <;> first
    | rfl
    | (dsimp only [State.slotEnded]; (repeat' split) <;> simp)

@[simp] theorem State.slotEnded_mem (s : State) : s.slotEnded.mem = s.mem :=
  (congrArg State.mem (s.slotEnded_frame) :)
@[simp] theorem State.slotEnded_entries (s : State) : s.slotEnded.entries = s.entries :=
  (congrArg State.entries (s.slotEnded_frame) :)
@[simp] theorem State.slotEnded_poolFree (s : State) : s.slotEnded.poolFree = s.poolFree :=
  (congrArg State.poolFree (s.slotEnded_frame) :)
@[simp] theorem State.slotEnded_items (s : State) : s.slotEnded.items = s.items :=
  (congrArg State.items (s.slotEnded_frame) :)
@[simp] theorem State.slotEnded_noticeQueue (s : State) : s.slotEnded.noticeQueue = s.noticeQueue :=
  (congrArg State.noticeQueue (s.slotEnded_frame) :)
@[simp] theorem State.slotEnded_rx (s : State) : s.slotEnded.rx = s.rx :=
  (congrArg State.rx (s.slotEnded_frame) :)
@[simp] theorem State.slotEnded_line (s : State) : s.slotEnded.line = s.line :=
  (congrArg State.line (s.slotEnded_frame) :)
@[simp] theorem State.slotEnded_lineGap (s : State) : s.slotEnded.lineGap = s.lineGap :=
  (congrArg State.lineGap (s.slotEnded_frame) :)
@[simp] theorem State.slotEnded_csnAsserted (s : State) : s.slotEnded.csnAsserted = s.csnAsserted :=
  (congrArg State.csnAsserted (s.slotEnded_frame) :)
@[simp] theorem State.slotEnded_rxdLow (s : State) : s.slotEnded.rxdLow = s.rxdLow :=
  (congrArg State.rxdLow (s.slotEnded_frame) :)
@[simp] theorem State.slotEnded_rxdSteady (s : State) : s.slotEnded.rxdSteady = s.rxdSteady :=
  (congrArg State.rxdSteady (s.slotEnded_frame) :)
@[simp] theorem State.slotEnded_failCount (s : State) : s.slotEnded.failCount = s.failCount :=
  (congrArg State.failCount (s.slotEnded_frame) :)
@[simp] theorem State.slotEnded_handover (s : State) : s.slotEnded.handover = s.handover :=
  (congrArg State.handover (s.slotEnded_frame) :)
@[simp] theorem State.slotEnded_replies (s : State) : s.slotEnded.replies = s.replies :=
  (congrArg State.replies (s.slotEnded_frame) :)
@[simp] theorem State.slotEnded_rrConsumer (s : State) : s.slotEnded.rrConsumer = s.rrConsumer :=
  (congrArg State.rrConsumer (s.slotEnded_frame) :)
@[simp] theorem State.slotEnded_rrProducer (s : State) : s.slotEnded.rrProducer = s.rrProducer :=
  (congrArg State.rrProducer (s.slotEnded_frame) :)
@[simp] theorem State.slotEnded_station (s : State) : s.slotEnded.station = s.station :=
  (congrArg State.station (s.slotEnded_frame) :)
@[simp] theorem State.slotEnded_params (s : State) : s.slotEnded.params = s.params :=
  (congrArg State.params (s.slotEnded_frame) :)
@[simp] theorem State.slotEnded_stationNo (s : State) : s.slotEnded.stationNo = s.stationNo :=
  (congrArg State.stationNo (s.slotEnded_frame) :)
@[simp] theorem State.slotEnded_rate (s : State) : s.slotEnded.rate = s.rate :=
  (congrArg State.rate (s.slotEnded_frame) :)
@[simp] theorem State.slotEnded_quiet (s : State) : s.slotEnded.quiet = s.quiet :=
  (congrArg State.quiet (s.slotEnded_frame) :)
@[simp] theorem State.slotEnded_msPhase (s : State) : s.slotEnded.msPhase = s.msPhase :=
  (congrArg State.msPhase (s.slotEnded_frame) :)
@[simp] theorem State.slotEnded_rstnLow (s : State) : s.slotEnded.rstnLow = s.rstnLow :=
  (congrArg State.rstnLow (s.slotEnded_frame) :)
@[simp] theorem State.slotEnded_power (s : State) : s.slotEnded.power = s.power :=
  (congrArg State.power (s.slotEnded_frame) :)
@[simp] theorem State.slotEnded_port (s : State) : s.slotEnded.port = s.port :=
  (congrArg State.port (s.slotEnded_frame) :)
@[simp] theorem State.slotEnded_misoDraws (s : State) : s.slotEnded.misoDraws = s.misoDraws :=
  (congrArg State.misoDraws (s.slotEnded_frame) :)
@[simp] theorem State.slotEnded_pins (s : State) : s.slotEnded.pins = s.pins :=
  (congrArg State.pins (s.slotEnded_frame) :)
@[simp] theorem State.slotEnded_pending (s : State) : s.slotEnded.pending = s.pending :=
  (congrArg State.pending (s.slotEnded_frame) :)

/-! ### goBack -/

theorem State.goBack_frame (s : State) (i : EntryIdx) :
    s.goBack i = { s with entries := (s.goBack i).entries } := by
  apply State.ext <;> first
    | rfl
    | (dsimp only [State.goBack]; (repeat' split) <;> simp)

@[simp] theorem State.goBack_mem (s : State) (i : EntryIdx) : (s.goBack i).mem = s.mem :=
  (congrArg State.mem (s.goBack_frame i) :)
@[simp] theorem State.goBack_poolFree (s : State) (i : EntryIdx) : (s.goBack i).poolFree = s.poolFree :=
  (congrArg State.poolFree (s.goBack_frame i) :)
@[simp] theorem State.goBack_items (s : State) (i : EntryIdx) : (s.goBack i).items = s.items :=
  (congrArg State.items (s.goBack_frame i) :)
@[simp] theorem State.goBack_noticeQueue (s : State) (i : EntryIdx) : (s.goBack i).noticeQueue = s.noticeQueue :=
  (congrArg State.noticeQueue (s.goBack_frame i) :)
@[simp] theorem State.goBack_rx (s : State) (i : EntryIdx) : (s.goBack i).rx = s.rx :=
  (congrArg State.rx (s.goBack_frame i) :)
@[simp] theorem State.goBack_line (s : State) (i : EntryIdx) : (s.goBack i).line = s.line :=
  (congrArg State.line (s.goBack_frame i) :)
@[simp] theorem State.goBack_lineGap (s : State) (i : EntryIdx) : (s.goBack i).lineGap = s.lineGap :=
  (congrArg State.lineGap (s.goBack_frame i) :)
@[simp] theorem State.goBack_csnAsserted (s : State) (i : EntryIdx) : (s.goBack i).csnAsserted = s.csnAsserted :=
  (congrArg State.csnAsserted (s.goBack_frame i) :)
@[simp] theorem State.goBack_rxdLow (s : State) (i : EntryIdx) : (s.goBack i).rxdLow = s.rxdLow :=
  (congrArg State.rxdLow (s.goBack_frame i) :)
@[simp] theorem State.goBack_rxdSteady (s : State) (i : EntryIdx) : (s.goBack i).rxdSteady = s.rxdSteady :=
  (congrArg State.rxdSteady (s.goBack_frame i) :)
@[simp] theorem State.goBack_round (s : State) (i : EntryIdx) : (s.goBack i).round = s.round :=
  (congrArg State.round (s.goBack_frame i) :)
@[simp] theorem State.goBack_failCount (s : State) (i : EntryIdx) : (s.goBack i).failCount = s.failCount :=
  (congrArg State.failCount (s.goBack_frame i) :)
@[simp] theorem State.goBack_tx (s : State) (i : EntryIdx) : (s.goBack i).tx = s.tx :=
  (congrArg State.tx (s.goBack_frame i) :)
@[simp] theorem State.goBack_handover (s : State) (i : EntryIdx) : (s.goBack i).handover = s.handover :=
  (congrArg State.handover (s.goBack_frame i) :)
@[simp] theorem State.goBack_replies (s : State) (i : EntryIdx) : (s.goBack i).replies = s.replies :=
  (congrArg State.replies (s.goBack_frame i) :)
@[simp] theorem State.goBack_rrConsumer (s : State) (i : EntryIdx) : (s.goBack i).rrConsumer = s.rrConsumer :=
  (congrArg State.rrConsumer (s.goBack_frame i) :)
@[simp] theorem State.goBack_rrProducer (s : State) (i : EntryIdx) : (s.goBack i).rrProducer = s.rrProducer :=
  (congrArg State.rrProducer (s.goBack_frame i) :)
@[simp] theorem State.goBack_station (s : State) (i : EntryIdx) : (s.goBack i).station = s.station :=
  (congrArg State.station (s.goBack_frame i) :)
@[simp] theorem State.goBack_params (s : State) (i : EntryIdx) : (s.goBack i).params = s.params :=
  (congrArg State.params (s.goBack_frame i) :)
@[simp] theorem State.goBack_stationNo (s : State) (i : EntryIdx) : (s.goBack i).stationNo = s.stationNo :=
  (congrArg State.stationNo (s.goBack_frame i) :)
@[simp] theorem State.goBack_rate (s : State) (i : EntryIdx) : (s.goBack i).rate = s.rate :=
  (congrArg State.rate (s.goBack_frame i) :)
@[simp] theorem State.goBack_quiet (s : State) (i : EntryIdx) : (s.goBack i).quiet = s.quiet :=
  (congrArg State.quiet (s.goBack_frame i) :)
@[simp] theorem State.goBack_msPhase (s : State) (i : EntryIdx) : (s.goBack i).msPhase = s.msPhase :=
  (congrArg State.msPhase (s.goBack_frame i) :)
@[simp] theorem State.goBack_rstnLow (s : State) (i : EntryIdx) : (s.goBack i).rstnLow = s.rstnLow :=
  (congrArg State.rstnLow (s.goBack_frame i) :)
@[simp] theorem State.goBack_power (s : State) (i : EntryIdx) : (s.goBack i).power = s.power :=
  (congrArg State.power (s.goBack_frame i) :)
@[simp] theorem State.goBack_port (s : State) (i : EntryIdx) : (s.goBack i).port = s.port :=
  (congrArg State.port (s.goBack_frame i) :)
@[simp] theorem State.goBack_misoDraws (s : State) (i : EntryIdx) : (s.goBack i).misoDraws = s.misoDraws :=
  (congrArg State.misoDraws (s.goBack_frame i) :)
@[simp] theorem State.goBack_pins (s : State) (i : EntryIdx) : (s.goBack i).pins = s.pins :=
  (congrArg State.pins (s.goBack_frame i) :)
@[simp] theorem State.goBack_pending (s : State) (i : EntryIdx) : (s.goBack i).pending = s.pending :=
  (congrArg State.pending (s.goBack_frame i) :)

/-! ### ackExpired -/

theorem State.ackExpired_frame (s : State) (i : EntryIdx) :
    s.ackExpired i = { s with entries := (s.ackExpired i).entries, poolFree := (s.ackExpired i).poolFree, items := (s.ackExpired i).items, noticeQueue := (s.ackExpired i).noticeQueue, tx := (s.ackExpired i).tx, handover := (s.ackExpired i).handover } := by
  apply State.ext <;> first
    | rfl
    | (dsimp only [State.ackExpired]; (repeat' split) <;> simp)

@[simp] theorem State.ackExpired_mem (s : State) (i : EntryIdx) : (s.ackExpired i).mem = s.mem :=
  (congrArg State.mem (s.ackExpired_frame i) :)
@[simp] theorem State.ackExpired_rx (s : State) (i : EntryIdx) : (s.ackExpired i).rx = s.rx :=
  (congrArg State.rx (s.ackExpired_frame i) :)
@[simp] theorem State.ackExpired_line (s : State) (i : EntryIdx) : (s.ackExpired i).line = s.line :=
  (congrArg State.line (s.ackExpired_frame i) :)
@[simp] theorem State.ackExpired_lineGap (s : State) (i : EntryIdx) : (s.ackExpired i).lineGap = s.lineGap :=
  (congrArg State.lineGap (s.ackExpired_frame i) :)
@[simp] theorem State.ackExpired_csnAsserted (s : State) (i : EntryIdx) : (s.ackExpired i).csnAsserted = s.csnAsserted :=
  (congrArg State.csnAsserted (s.ackExpired_frame i) :)
@[simp] theorem State.ackExpired_rxdLow (s : State) (i : EntryIdx) : (s.ackExpired i).rxdLow = s.rxdLow :=
  (congrArg State.rxdLow (s.ackExpired_frame i) :)
@[simp] theorem State.ackExpired_rxdSteady (s : State) (i : EntryIdx) : (s.ackExpired i).rxdSteady = s.rxdSteady :=
  (congrArg State.rxdSteady (s.ackExpired_frame i) :)
@[simp] theorem State.ackExpired_round (s : State) (i : EntryIdx) : (s.ackExpired i).round = s.round :=
  (congrArg State.round (s.ackExpired_frame i) :)
@[simp] theorem State.ackExpired_failCount (s : State) (i : EntryIdx) : (s.ackExpired i).failCount = s.failCount :=
  (congrArg State.failCount (s.ackExpired_frame i) :)
@[simp] theorem State.ackExpired_replies (s : State) (i : EntryIdx) : (s.ackExpired i).replies = s.replies :=
  (congrArg State.replies (s.ackExpired_frame i) :)
@[simp] theorem State.ackExpired_rrConsumer (s : State) (i : EntryIdx) : (s.ackExpired i).rrConsumer = s.rrConsumer :=
  (congrArg State.rrConsumer (s.ackExpired_frame i) :)
@[simp] theorem State.ackExpired_rrProducer (s : State) (i : EntryIdx) : (s.ackExpired i).rrProducer = s.rrProducer :=
  (congrArg State.rrProducer (s.ackExpired_frame i) :)
@[simp] theorem State.ackExpired_station (s : State) (i : EntryIdx) : (s.ackExpired i).station = s.station :=
  (congrArg State.station (s.ackExpired_frame i) :)
@[simp] theorem State.ackExpired_params (s : State) (i : EntryIdx) : (s.ackExpired i).params = s.params :=
  (congrArg State.params (s.ackExpired_frame i) :)
@[simp] theorem State.ackExpired_stationNo (s : State) (i : EntryIdx) : (s.ackExpired i).stationNo = s.stationNo :=
  (congrArg State.stationNo (s.ackExpired_frame i) :)
@[simp] theorem State.ackExpired_rate (s : State) (i : EntryIdx) : (s.ackExpired i).rate = s.rate :=
  (congrArg State.rate (s.ackExpired_frame i) :)
@[simp] theorem State.ackExpired_quiet (s : State) (i : EntryIdx) : (s.ackExpired i).quiet = s.quiet :=
  (congrArg State.quiet (s.ackExpired_frame i) :)
@[simp] theorem State.ackExpired_msPhase (s : State) (i : EntryIdx) : (s.ackExpired i).msPhase = s.msPhase :=
  (congrArg State.msPhase (s.ackExpired_frame i) :)
@[simp] theorem State.ackExpired_rstnLow (s : State) (i : EntryIdx) : (s.ackExpired i).rstnLow = s.rstnLow :=
  (congrArg State.rstnLow (s.ackExpired_frame i) :)
@[simp] theorem State.ackExpired_power (s : State) (i : EntryIdx) : (s.ackExpired i).power = s.power :=
  (congrArg State.power (s.ackExpired_frame i) :)
@[simp] theorem State.ackExpired_port (s : State) (i : EntryIdx) : (s.ackExpired i).port = s.port :=
  (congrArg State.port (s.ackExpired_frame i) :)
@[simp] theorem State.ackExpired_misoDraws (s : State) (i : EntryIdx) : (s.ackExpired i).misoDraws = s.misoDraws :=
  (congrArg State.misoDraws (s.ackExpired_frame i) :)
@[simp] theorem State.ackExpired_pins (s : State) (i : EntryIdx) : (s.ackExpired i).pins = s.pins :=
  (congrArg State.pins (s.ackExpired_frame i) :)
@[simp] theorem State.ackExpired_pending (s : State) (i : EntryIdx) : (s.ackExpired i).pending = s.pending :=
  (congrArg State.pending (s.ackExpired_frame i) :)

/-! ### holdExpired -/

theorem State.holdExpired_frame (s : State) (i : EntryIdx) :
    s.holdExpired i = { s with entries := (s.holdExpired i).entries } := by
  apply State.ext <;> first
    | rfl
    | (dsimp only [State.holdExpired]; (repeat' split) <;> simp)

@[simp] theorem State.holdExpired_mem (s : State) (i : EntryIdx) : (s.holdExpired i).mem = s.mem :=
  (congrArg State.mem (s.holdExpired_frame i) :)
@[simp] theorem State.holdExpired_poolFree (s : State) (i : EntryIdx) : (s.holdExpired i).poolFree = s.poolFree :=
  (congrArg State.poolFree (s.holdExpired_frame i) :)
@[simp] theorem State.holdExpired_items (s : State) (i : EntryIdx) : (s.holdExpired i).items = s.items :=
  (congrArg State.items (s.holdExpired_frame i) :)
@[simp] theorem State.holdExpired_noticeQueue (s : State) (i : EntryIdx) : (s.holdExpired i).noticeQueue = s.noticeQueue :=
  (congrArg State.noticeQueue (s.holdExpired_frame i) :)
@[simp] theorem State.holdExpired_rx (s : State) (i : EntryIdx) : (s.holdExpired i).rx = s.rx :=
  (congrArg State.rx (s.holdExpired_frame i) :)
@[simp] theorem State.holdExpired_line (s : State) (i : EntryIdx) : (s.holdExpired i).line = s.line :=
  (congrArg State.line (s.holdExpired_frame i) :)
@[simp] theorem State.holdExpired_lineGap (s : State) (i : EntryIdx) : (s.holdExpired i).lineGap = s.lineGap :=
  (congrArg State.lineGap (s.holdExpired_frame i) :)
@[simp] theorem State.holdExpired_csnAsserted (s : State) (i : EntryIdx) : (s.holdExpired i).csnAsserted = s.csnAsserted :=
  (congrArg State.csnAsserted (s.holdExpired_frame i) :)
@[simp] theorem State.holdExpired_rxdLow (s : State) (i : EntryIdx) : (s.holdExpired i).rxdLow = s.rxdLow :=
  (congrArg State.rxdLow (s.holdExpired_frame i) :)
@[simp] theorem State.holdExpired_rxdSteady (s : State) (i : EntryIdx) : (s.holdExpired i).rxdSteady = s.rxdSteady :=
  (congrArg State.rxdSteady (s.holdExpired_frame i) :)
@[simp] theorem State.holdExpired_round (s : State) (i : EntryIdx) : (s.holdExpired i).round = s.round :=
  (congrArg State.round (s.holdExpired_frame i) :)
@[simp] theorem State.holdExpired_failCount (s : State) (i : EntryIdx) : (s.holdExpired i).failCount = s.failCount :=
  (congrArg State.failCount (s.holdExpired_frame i) :)
@[simp] theorem State.holdExpired_tx (s : State) (i : EntryIdx) : (s.holdExpired i).tx = s.tx :=
  (congrArg State.tx (s.holdExpired_frame i) :)
@[simp] theorem State.holdExpired_handover (s : State) (i : EntryIdx) : (s.holdExpired i).handover = s.handover :=
  (congrArg State.handover (s.holdExpired_frame i) :)
@[simp] theorem State.holdExpired_replies (s : State) (i : EntryIdx) : (s.holdExpired i).replies = s.replies :=
  (congrArg State.replies (s.holdExpired_frame i) :)
@[simp] theorem State.holdExpired_rrConsumer (s : State) (i : EntryIdx) : (s.holdExpired i).rrConsumer = s.rrConsumer :=
  (congrArg State.rrConsumer (s.holdExpired_frame i) :)
@[simp] theorem State.holdExpired_rrProducer (s : State) (i : EntryIdx) : (s.holdExpired i).rrProducer = s.rrProducer :=
  (congrArg State.rrProducer (s.holdExpired_frame i) :)
@[simp] theorem State.holdExpired_station (s : State) (i : EntryIdx) : (s.holdExpired i).station = s.station :=
  (congrArg State.station (s.holdExpired_frame i) :)
@[simp] theorem State.holdExpired_params (s : State) (i : EntryIdx) : (s.holdExpired i).params = s.params :=
  (congrArg State.params (s.holdExpired_frame i) :)
@[simp] theorem State.holdExpired_stationNo (s : State) (i : EntryIdx) : (s.holdExpired i).stationNo = s.stationNo :=
  (congrArg State.stationNo (s.holdExpired_frame i) :)
@[simp] theorem State.holdExpired_rate (s : State) (i : EntryIdx) : (s.holdExpired i).rate = s.rate :=
  (congrArg State.rate (s.holdExpired_frame i) :)
@[simp] theorem State.holdExpired_quiet (s : State) (i : EntryIdx) : (s.holdExpired i).quiet = s.quiet :=
  (congrArg State.quiet (s.holdExpired_frame i) :)
@[simp] theorem State.holdExpired_msPhase (s : State) (i : EntryIdx) : (s.holdExpired i).msPhase = s.msPhase :=
  (congrArg State.msPhase (s.holdExpired_frame i) :)
@[simp] theorem State.holdExpired_rstnLow (s : State) (i : EntryIdx) : (s.holdExpired i).rstnLow = s.rstnLow :=
  (congrArg State.rstnLow (s.holdExpired_frame i) :)
@[simp] theorem State.holdExpired_power (s : State) (i : EntryIdx) : (s.holdExpired i).power = s.power :=
  (congrArg State.power (s.holdExpired_frame i) :)
@[simp] theorem State.holdExpired_port (s : State) (i : EntryIdx) : (s.holdExpired i).port = s.port :=
  (congrArg State.port (s.holdExpired_frame i) :)
@[simp] theorem State.holdExpired_misoDraws (s : State) (i : EntryIdx) : (s.holdExpired i).misoDraws = s.misoDraws :=
  (congrArg State.misoDraws (s.holdExpired_frame i) :)
@[simp] theorem State.holdExpired_pins (s : State) (i : EntryIdx) : (s.holdExpired i).pins = s.pins :=
  (congrArg State.pins (s.holdExpired_frame i) :)
@[simp] theorem State.holdExpired_pending (s : State) (i : EntryIdx) : (s.holdExpired i).pending = s.pending :=
  (congrArg State.pending (s.holdExpired_frame i) :)

/-! ### joinExpired -/

theorem State.joinExpired_frame (s : State) (i : EntryIdx) :
    s.joinExpired i = { s with entries := (s.joinExpired i).entries, poolFree := (s.joinExpired i).poolFree, items := (s.joinExpired i).items, noticeQueue := (s.joinExpired i).noticeQueue, tx := (s.joinExpired i).tx, handover := (s.joinExpired i).handover } := by
  apply State.ext <;> first
    | rfl
    | (dsimp only [State.joinExpired]; (repeat' split) <;> simp)

@[simp] theorem State.joinExpired_mem (s : State) (i : EntryIdx) : (s.joinExpired i).mem = s.mem :=
  (congrArg State.mem (s.joinExpired_frame i) :)
@[simp] theorem State.joinExpired_rx (s : State) (i : EntryIdx) : (s.joinExpired i).rx = s.rx :=
  (congrArg State.rx (s.joinExpired_frame i) :)
@[simp] theorem State.joinExpired_line (s : State) (i : EntryIdx) : (s.joinExpired i).line = s.line :=
  (congrArg State.line (s.joinExpired_frame i) :)
@[simp] theorem State.joinExpired_lineGap (s : State) (i : EntryIdx) : (s.joinExpired i).lineGap = s.lineGap :=
  (congrArg State.lineGap (s.joinExpired_frame i) :)
@[simp] theorem State.joinExpired_csnAsserted (s : State) (i : EntryIdx) : (s.joinExpired i).csnAsserted = s.csnAsserted :=
  (congrArg State.csnAsserted (s.joinExpired_frame i) :)
@[simp] theorem State.joinExpired_rxdLow (s : State) (i : EntryIdx) : (s.joinExpired i).rxdLow = s.rxdLow :=
  (congrArg State.rxdLow (s.joinExpired_frame i) :)
@[simp] theorem State.joinExpired_rxdSteady (s : State) (i : EntryIdx) : (s.joinExpired i).rxdSteady = s.rxdSteady :=
  (congrArg State.rxdSteady (s.joinExpired_frame i) :)
@[simp] theorem State.joinExpired_round (s : State) (i : EntryIdx) : (s.joinExpired i).round = s.round :=
  (congrArg State.round (s.joinExpired_frame i) :)
@[simp] theorem State.joinExpired_failCount (s : State) (i : EntryIdx) : (s.joinExpired i).failCount = s.failCount :=
  (congrArg State.failCount (s.joinExpired_frame i) :)
@[simp] theorem State.joinExpired_replies (s : State) (i : EntryIdx) : (s.joinExpired i).replies = s.replies :=
  (congrArg State.replies (s.joinExpired_frame i) :)
@[simp] theorem State.joinExpired_rrConsumer (s : State) (i : EntryIdx) : (s.joinExpired i).rrConsumer = s.rrConsumer :=
  (congrArg State.rrConsumer (s.joinExpired_frame i) :)
@[simp] theorem State.joinExpired_rrProducer (s : State) (i : EntryIdx) : (s.joinExpired i).rrProducer = s.rrProducer :=
  (congrArg State.rrProducer (s.joinExpired_frame i) :)
@[simp] theorem State.joinExpired_station (s : State) (i : EntryIdx) : (s.joinExpired i).station = s.station :=
  (congrArg State.station (s.joinExpired_frame i) :)
@[simp] theorem State.joinExpired_params (s : State) (i : EntryIdx) : (s.joinExpired i).params = s.params :=
  (congrArg State.params (s.joinExpired_frame i) :)
@[simp] theorem State.joinExpired_stationNo (s : State) (i : EntryIdx) : (s.joinExpired i).stationNo = s.stationNo :=
  (congrArg State.stationNo (s.joinExpired_frame i) :)
@[simp] theorem State.joinExpired_rate (s : State) (i : EntryIdx) : (s.joinExpired i).rate = s.rate :=
  (congrArg State.rate (s.joinExpired_frame i) :)
@[simp] theorem State.joinExpired_quiet (s : State) (i : EntryIdx) : (s.joinExpired i).quiet = s.quiet :=
  (congrArg State.quiet (s.joinExpired_frame i) :)
@[simp] theorem State.joinExpired_msPhase (s : State) (i : EntryIdx) : (s.joinExpired i).msPhase = s.msPhase :=
  (congrArg State.msPhase (s.joinExpired_frame i) :)
@[simp] theorem State.joinExpired_rstnLow (s : State) (i : EntryIdx) : (s.joinExpired i).rstnLow = s.rstnLow :=
  (congrArg State.rstnLow (s.joinExpired_frame i) :)
@[simp] theorem State.joinExpired_power (s : State) (i : EntryIdx) : (s.joinExpired i).power = s.power :=
  (congrArg State.power (s.joinExpired_frame i) :)
@[simp] theorem State.joinExpired_port (s : State) (i : EntryIdx) : (s.joinExpired i).port = s.port :=
  (congrArg State.port (s.joinExpired_frame i) :)
@[simp] theorem State.joinExpired_misoDraws (s : State) (i : EntryIdx) : (s.joinExpired i).misoDraws = s.misoDraws :=
  (congrArg State.misoDraws (s.joinExpired_frame i) :)
@[simp] theorem State.joinExpired_pins (s : State) (i : EntryIdx) : (s.joinExpired i).pins = s.pins :=
  (congrArg State.pins (s.joinExpired_frame i) :)
@[simp] theorem State.joinExpired_pending (s : State) (i : EntryIdx) : (s.joinExpired i).pending = s.pending :=
  (congrArg State.pending (s.joinExpired_frame i) :)

/-! ### silenceExpired -/

theorem State.silenceExpired_frame (s : State) (i : EntryIdx) :
    s.silenceExpired i = { s with entries := (s.silenceExpired i).entries, poolFree := (s.silenceExpired i).poolFree, items := (s.silenceExpired i).items, noticeQueue := (s.silenceExpired i).noticeQueue, tx := (s.silenceExpired i).tx, handover := (s.silenceExpired i).handover } := by
  apply State.ext <;> first
    | rfl
    | (dsimp only [State.silenceExpired]; (repeat' split) <;> simp)

@[simp] theorem State.silenceExpired_mem (s : State) (i : EntryIdx) : (s.silenceExpired i).mem = s.mem :=
  (congrArg State.mem (s.silenceExpired_frame i) :)
@[simp] theorem State.silenceExpired_rx (s : State) (i : EntryIdx) : (s.silenceExpired i).rx = s.rx :=
  (congrArg State.rx (s.silenceExpired_frame i) :)
@[simp] theorem State.silenceExpired_line (s : State) (i : EntryIdx) : (s.silenceExpired i).line = s.line :=
  (congrArg State.line (s.silenceExpired_frame i) :)
@[simp] theorem State.silenceExpired_lineGap (s : State) (i : EntryIdx) : (s.silenceExpired i).lineGap = s.lineGap :=
  (congrArg State.lineGap (s.silenceExpired_frame i) :)
@[simp] theorem State.silenceExpired_csnAsserted (s : State) (i : EntryIdx) : (s.silenceExpired i).csnAsserted = s.csnAsserted :=
  (congrArg State.csnAsserted (s.silenceExpired_frame i) :)
@[simp] theorem State.silenceExpired_rxdLow (s : State) (i : EntryIdx) : (s.silenceExpired i).rxdLow = s.rxdLow :=
  (congrArg State.rxdLow (s.silenceExpired_frame i) :)
@[simp] theorem State.silenceExpired_rxdSteady (s : State) (i : EntryIdx) : (s.silenceExpired i).rxdSteady = s.rxdSteady :=
  (congrArg State.rxdSteady (s.silenceExpired_frame i) :)
@[simp] theorem State.silenceExpired_round (s : State) (i : EntryIdx) : (s.silenceExpired i).round = s.round :=
  (congrArg State.round (s.silenceExpired_frame i) :)
@[simp] theorem State.silenceExpired_failCount (s : State) (i : EntryIdx) : (s.silenceExpired i).failCount = s.failCount :=
  (congrArg State.failCount (s.silenceExpired_frame i) :)
@[simp] theorem State.silenceExpired_replies (s : State) (i : EntryIdx) : (s.silenceExpired i).replies = s.replies :=
  (congrArg State.replies (s.silenceExpired_frame i) :)
@[simp] theorem State.silenceExpired_rrConsumer (s : State) (i : EntryIdx) : (s.silenceExpired i).rrConsumer = s.rrConsumer :=
  (congrArg State.rrConsumer (s.silenceExpired_frame i) :)
@[simp] theorem State.silenceExpired_rrProducer (s : State) (i : EntryIdx) : (s.silenceExpired i).rrProducer = s.rrProducer :=
  (congrArg State.rrProducer (s.silenceExpired_frame i) :)
@[simp] theorem State.silenceExpired_station (s : State) (i : EntryIdx) : (s.silenceExpired i).station = s.station :=
  (congrArg State.station (s.silenceExpired_frame i) :)
@[simp] theorem State.silenceExpired_params (s : State) (i : EntryIdx) : (s.silenceExpired i).params = s.params :=
  (congrArg State.params (s.silenceExpired_frame i) :)
@[simp] theorem State.silenceExpired_stationNo (s : State) (i : EntryIdx) : (s.silenceExpired i).stationNo = s.stationNo :=
  (congrArg State.stationNo (s.silenceExpired_frame i) :)
@[simp] theorem State.silenceExpired_rate (s : State) (i : EntryIdx) : (s.silenceExpired i).rate = s.rate :=
  (congrArg State.rate (s.silenceExpired_frame i) :)
@[simp] theorem State.silenceExpired_quiet (s : State) (i : EntryIdx) : (s.silenceExpired i).quiet = s.quiet :=
  (congrArg State.quiet (s.silenceExpired_frame i) :)
@[simp] theorem State.silenceExpired_msPhase (s : State) (i : EntryIdx) : (s.silenceExpired i).msPhase = s.msPhase :=
  (congrArg State.msPhase (s.silenceExpired_frame i) :)
@[simp] theorem State.silenceExpired_rstnLow (s : State) (i : EntryIdx) : (s.silenceExpired i).rstnLow = s.rstnLow :=
  (congrArg State.rstnLow (s.silenceExpired_frame i) :)
@[simp] theorem State.silenceExpired_power (s : State) (i : EntryIdx) : (s.silenceExpired i).power = s.power :=
  (congrArg State.power (s.silenceExpired_frame i) :)
@[simp] theorem State.silenceExpired_port (s : State) (i : EntryIdx) : (s.silenceExpired i).port = s.port :=
  (congrArg State.port (s.silenceExpired_frame i) :)
@[simp] theorem State.silenceExpired_misoDraws (s : State) (i : EntryIdx) : (s.silenceExpired i).misoDraws = s.misoDraws :=
  (congrArg State.misoDraws (s.silenceExpired_frame i) :)
@[simp] theorem State.silenceExpired_pins (s : State) (i : EntryIdx) : (s.silenceExpired i).pins = s.pins :=
  (congrArg State.pins (s.silenceExpired_frame i) :)
@[simp] theorem State.silenceExpired_pending (s : State) (i : EntryIdx) : (s.silenceExpired i).pending = s.pending :=
  (congrArg State.pending (s.silenceExpired_frame i) :)

/-! ### quietExpired -/

theorem State.quietExpired_frame (s : State) :
    s.quietExpired = { s with items := s.quietExpired.items, noticeQueue := s.quietExpired.noticeQueue, round := s.quietExpired.round, station := s.quietExpired.station, quiet := s.quietExpired.quiet } := by
  apply State.ext <;> first
    | rfl
    | (dsimp only [State.quietExpired]; (repeat' split) <;> simp)

@[simp] theorem State.quietExpired_mem (s : State) : s.quietExpired.mem = s.mem :=
  (congrArg State.mem (s.quietExpired_frame) :)
@[simp] theorem State.quietExpired_entries (s : State) : s.quietExpired.entries = s.entries :=
  (congrArg State.entries (s.quietExpired_frame) :)
@[simp] theorem State.quietExpired_poolFree (s : State) : s.quietExpired.poolFree = s.poolFree :=
  (congrArg State.poolFree (s.quietExpired_frame) :)
@[simp] theorem State.quietExpired_rx (s : State) : s.quietExpired.rx = s.rx :=
  (congrArg State.rx (s.quietExpired_frame) :)
@[simp] theorem State.quietExpired_line (s : State) : s.quietExpired.line = s.line :=
  (congrArg State.line (s.quietExpired_frame) :)
@[simp] theorem State.quietExpired_lineGap (s : State) : s.quietExpired.lineGap = s.lineGap :=
  (congrArg State.lineGap (s.quietExpired_frame) :)
@[simp] theorem State.quietExpired_csnAsserted (s : State) : s.quietExpired.csnAsserted = s.csnAsserted :=
  (congrArg State.csnAsserted (s.quietExpired_frame) :)
@[simp] theorem State.quietExpired_rxdLow (s : State) : s.quietExpired.rxdLow = s.rxdLow :=
  (congrArg State.rxdLow (s.quietExpired_frame) :)
@[simp] theorem State.quietExpired_rxdSteady (s : State) : s.quietExpired.rxdSteady = s.rxdSteady :=
  (congrArg State.rxdSteady (s.quietExpired_frame) :)
@[simp] theorem State.quietExpired_failCount (s : State) : s.quietExpired.failCount = s.failCount :=
  (congrArg State.failCount (s.quietExpired_frame) :)
@[simp] theorem State.quietExpired_tx (s : State) : s.quietExpired.tx = s.tx :=
  (congrArg State.tx (s.quietExpired_frame) :)
@[simp] theorem State.quietExpired_handover (s : State) : s.quietExpired.handover = s.handover :=
  (congrArg State.handover (s.quietExpired_frame) :)
@[simp] theorem State.quietExpired_replies (s : State) : s.quietExpired.replies = s.replies :=
  (congrArg State.replies (s.quietExpired_frame) :)
@[simp] theorem State.quietExpired_rrConsumer (s : State) : s.quietExpired.rrConsumer = s.rrConsumer :=
  (congrArg State.rrConsumer (s.quietExpired_frame) :)
@[simp] theorem State.quietExpired_rrProducer (s : State) : s.quietExpired.rrProducer = s.rrProducer :=
  (congrArg State.rrProducer (s.quietExpired_frame) :)
@[simp] theorem State.quietExpired_params (s : State) : s.quietExpired.params = s.params :=
  (congrArg State.params (s.quietExpired_frame) :)
@[simp] theorem State.quietExpired_stationNo (s : State) : s.quietExpired.stationNo = s.stationNo :=
  (congrArg State.stationNo (s.quietExpired_frame) :)
@[simp] theorem State.quietExpired_rate (s : State) : s.quietExpired.rate = s.rate :=
  (congrArg State.rate (s.quietExpired_frame) :)
@[simp] theorem State.quietExpired_msPhase (s : State) : s.quietExpired.msPhase = s.msPhase :=
  (congrArg State.msPhase (s.quietExpired_frame) :)
@[simp] theorem State.quietExpired_rstnLow (s : State) : s.quietExpired.rstnLow = s.rstnLow :=
  (congrArg State.rstnLow (s.quietExpired_frame) :)
@[simp] theorem State.quietExpired_power (s : State) : s.quietExpired.power = s.power :=
  (congrArg State.power (s.quietExpired_frame) :)
@[simp] theorem State.quietExpired_port (s : State) : s.quietExpired.port = s.port :=
  (congrArg State.port (s.quietExpired_frame) :)
@[simp] theorem State.quietExpired_misoDraws (s : State) : s.quietExpired.misoDraws = s.misoDraws :=
  (congrArg State.misoDraws (s.quietExpired_frame) :)
@[simp] theorem State.quietExpired_pins (s : State) : s.quietExpired.pins = s.pins :=
  (congrArg State.pins (s.quietExpired_frame) :)
@[simp] theorem State.quietExpired_pending (s : State) : s.quietExpired.pending = s.pending :=
  (congrArg State.pending (s.quietExpired_frame) :)

/-! ### sent -/

theorem State.sent_frame (s : State) (f : TxFrame) :
    s.sent f = { s with rx := (s.sent f).rx, lineGap := (s.sent f).lineGap, rxdLow := (s.sent f).rxdLow, failCount := (s.sent f).failCount, tx := (s.sent f).tx, rrConsumer := (s.sent f).rrConsumer, rrProducer := (s.sent f).rrProducer } := by
  cases f <;> rfl

@[simp] theorem State.sent_mem (s : State) (f : TxFrame) : (s.sent f).mem = s.mem :=
  (congrArg State.mem (s.sent_frame f) :)
@[simp] theorem State.sent_entries (s : State) (f : TxFrame) : (s.sent f).entries = s.entries :=
  (congrArg State.entries (s.sent_frame f) :)
@[simp] theorem State.sent_poolFree (s : State) (f : TxFrame) : (s.sent f).poolFree = s.poolFree :=
  (congrArg State.poolFree (s.sent_frame f) :)
@[simp] theorem State.sent_items (s : State) (f : TxFrame) : (s.sent f).items = s.items :=
  (congrArg State.items (s.sent_frame f) :)
@[simp] theorem State.sent_noticeQueue (s : State) (f : TxFrame) : (s.sent f).noticeQueue = s.noticeQueue :=
  (congrArg State.noticeQueue (s.sent_frame f) :)
@[simp] theorem State.sent_line (s : State) (f : TxFrame) : (s.sent f).line = s.line :=
  (congrArg State.line (s.sent_frame f) :)
@[simp] theorem State.sent_csnAsserted (s : State) (f : TxFrame) : (s.sent f).csnAsserted = s.csnAsserted :=
  (congrArg State.csnAsserted (s.sent_frame f) :)
@[simp] theorem State.sent_rxdSteady (s : State) (f : TxFrame) : (s.sent f).rxdSteady = s.rxdSteady :=
  (congrArg State.rxdSteady (s.sent_frame f) :)
@[simp] theorem State.sent_round (s : State) (f : TxFrame) : (s.sent f).round = s.round :=
  (congrArg State.round (s.sent_frame f) :)
@[simp] theorem State.sent_handover (s : State) (f : TxFrame) : (s.sent f).handover = s.handover :=
  (congrArg State.handover (s.sent_frame f) :)
@[simp] theorem State.sent_replies (s : State) (f : TxFrame) : (s.sent f).replies = s.replies :=
  (congrArg State.replies (s.sent_frame f) :)
@[simp] theorem State.sent_station (s : State) (f : TxFrame) : (s.sent f).station = s.station :=
  (congrArg State.station (s.sent_frame f) :)
@[simp] theorem State.sent_params (s : State) (f : TxFrame) : (s.sent f).params = s.params :=
  (congrArg State.params (s.sent_frame f) :)
@[simp] theorem State.sent_stationNo (s : State) (f : TxFrame) : (s.sent f).stationNo = s.stationNo :=
  (congrArg State.stationNo (s.sent_frame f) :)
@[simp] theorem State.sent_rate (s : State) (f : TxFrame) : (s.sent f).rate = s.rate :=
  (congrArg State.rate (s.sent_frame f) :)
@[simp] theorem State.sent_quiet (s : State) (f : TxFrame) : (s.sent f).quiet = s.quiet :=
  (congrArg State.quiet (s.sent_frame f) :)
@[simp] theorem State.sent_msPhase (s : State) (f : TxFrame) : (s.sent f).msPhase = s.msPhase :=
  (congrArg State.msPhase (s.sent_frame f) :)
@[simp] theorem State.sent_rstnLow (s : State) (f : TxFrame) : (s.sent f).rstnLow = s.rstnLow :=
  (congrArg State.rstnLow (s.sent_frame f) :)
@[simp] theorem State.sent_power (s : State) (f : TxFrame) : (s.sent f).power = s.power :=
  (congrArg State.power (s.sent_frame f) :)
@[simp] theorem State.sent_port (s : State) (f : TxFrame) : (s.sent f).port = s.port :=
  (congrArg State.port (s.sent_frame f) :)
@[simp] theorem State.sent_misoDraws (s : State) (f : TxFrame) : (s.sent f).misoDraws = s.misoDraws :=
  (congrArg State.misoDraws (s.sent_frame f) :)
@[simp] theorem State.sent_pins (s : State) (f : TxFrame) : (s.sent f).pins = s.pins :=
  (congrArg State.pins (s.sent_frame f) :)
@[simp] theorem State.sent_pending (s : State) (f : TxFrame) : (s.sent f).pending = s.pending :=
  (congrArg State.pending (s.sent_frame f) :)

/-! ### takeChoice -/

theorem State.takeChoice_frame (s : State) (f : TxFrame) :
    s.takeChoice f = { s with entries := (s.takeChoice f).entries, replies := (s.takeChoice f).replies } := by
  cases f <;> rfl

@[simp] theorem State.takeChoice_mem (s : State) (f : TxFrame) : (s.takeChoice f).mem = s.mem :=
  (congrArg State.mem (s.takeChoice_frame f) :)
@[simp] theorem State.takeChoice_poolFree (s : State) (f : TxFrame) : (s.takeChoice f).poolFree = s.poolFree :=
  (congrArg State.poolFree (s.takeChoice_frame f) :)
@[simp] theorem State.takeChoice_items (s : State) (f : TxFrame) : (s.takeChoice f).items = s.items :=
  (congrArg State.items (s.takeChoice_frame f) :)
@[simp] theorem State.takeChoice_noticeQueue (s : State) (f : TxFrame) : (s.takeChoice f).noticeQueue = s.noticeQueue :=
  (congrArg State.noticeQueue (s.takeChoice_frame f) :)
@[simp] theorem State.takeChoice_rx (s : State) (f : TxFrame) : (s.takeChoice f).rx = s.rx :=
  (congrArg State.rx (s.takeChoice_frame f) :)
@[simp] theorem State.takeChoice_line (s : State) (f : TxFrame) : (s.takeChoice f).line = s.line :=
  (congrArg State.line (s.takeChoice_frame f) :)
@[simp] theorem State.takeChoice_lineGap (s : State) (f : TxFrame) : (s.takeChoice f).lineGap = s.lineGap :=
  (congrArg State.lineGap (s.takeChoice_frame f) :)
@[simp] theorem State.takeChoice_csnAsserted (s : State) (f : TxFrame) : (s.takeChoice f).csnAsserted = s.csnAsserted :=
  (congrArg State.csnAsserted (s.takeChoice_frame f) :)
@[simp] theorem State.takeChoice_rxdLow (s : State) (f : TxFrame) : (s.takeChoice f).rxdLow = s.rxdLow :=
  (congrArg State.rxdLow (s.takeChoice_frame f) :)
@[simp] theorem State.takeChoice_rxdSteady (s : State) (f : TxFrame) : (s.takeChoice f).rxdSteady = s.rxdSteady :=
  (congrArg State.rxdSteady (s.takeChoice_frame f) :)
@[simp] theorem State.takeChoice_round (s : State) (f : TxFrame) : (s.takeChoice f).round = s.round :=
  (congrArg State.round (s.takeChoice_frame f) :)
@[simp] theorem State.takeChoice_failCount (s : State) (f : TxFrame) : (s.takeChoice f).failCount = s.failCount :=
  (congrArg State.failCount (s.takeChoice_frame f) :)
@[simp] theorem State.takeChoice_tx (s : State) (f : TxFrame) : (s.takeChoice f).tx = s.tx :=
  (congrArg State.tx (s.takeChoice_frame f) :)
@[simp] theorem State.takeChoice_handover (s : State) (f : TxFrame) : (s.takeChoice f).handover = s.handover :=
  (congrArg State.handover (s.takeChoice_frame f) :)
@[simp] theorem State.takeChoice_rrConsumer (s : State) (f : TxFrame) : (s.takeChoice f).rrConsumer = s.rrConsumer :=
  (congrArg State.rrConsumer (s.takeChoice_frame f) :)
@[simp] theorem State.takeChoice_rrProducer (s : State) (f : TxFrame) : (s.takeChoice f).rrProducer = s.rrProducer :=
  (congrArg State.rrProducer (s.takeChoice_frame f) :)
@[simp] theorem State.takeChoice_station (s : State) (f : TxFrame) : (s.takeChoice f).station = s.station :=
  (congrArg State.station (s.takeChoice_frame f) :)
@[simp] theorem State.takeChoice_params (s : State) (f : TxFrame) : (s.takeChoice f).params = s.params :=
  (congrArg State.params (s.takeChoice_frame f) :)
@[simp] theorem State.takeChoice_stationNo (s : State) (f : TxFrame) : (s.takeChoice f).stationNo = s.stationNo :=
  (congrArg State.stationNo (s.takeChoice_frame f) :)
@[simp] theorem State.takeChoice_rate (s : State) (f : TxFrame) : (s.takeChoice f).rate = s.rate :=
  (congrArg State.rate (s.takeChoice_frame f) :)
@[simp] theorem State.takeChoice_quiet (s : State) (f : TxFrame) : (s.takeChoice f).quiet = s.quiet :=
  (congrArg State.quiet (s.takeChoice_frame f) :)
@[simp] theorem State.takeChoice_msPhase (s : State) (f : TxFrame) : (s.takeChoice f).msPhase = s.msPhase :=
  (congrArg State.msPhase (s.takeChoice_frame f) :)
@[simp] theorem State.takeChoice_rstnLow (s : State) (f : TxFrame) : (s.takeChoice f).rstnLow = s.rstnLow :=
  (congrArg State.rstnLow (s.takeChoice_frame f) :)
@[simp] theorem State.takeChoice_power (s : State) (f : TxFrame) : (s.takeChoice f).power = s.power :=
  (congrArg State.power (s.takeChoice_frame f) :)
@[simp] theorem State.takeChoice_port (s : State) (f : TxFrame) : (s.takeChoice f).port = s.port :=
  (congrArg State.port (s.takeChoice_frame f) :)
@[simp] theorem State.takeChoice_misoDraws (s : State) (f : TxFrame) : (s.takeChoice f).misoDraws = s.misoDraws :=
  (congrArg State.misoDraws (s.takeChoice_frame f) :)
@[simp] theorem State.takeChoice_pins (s : State) (f : TxFrame) : (s.takeChoice f).pins = s.pins :=
  (congrArg State.pins (s.takeChoice_frame f) :)
@[simp] theorem State.takeChoice_pending (s : State) (f : TxFrame) : (s.takeChoice f).pending = s.pending :=
  (congrArg State.pending (s.takeChoice_frame f) :)

/-! ### start -/

theorem State.start_frame (s : State) (f : TxFrame) :
    s.start f = { s with rx := (s.start f).rx, line := (s.start f).line, lineGap := (s.start f).lineGap, round := (s.start f).round, tx := (s.start f).tx, quiet := (s.start f).quiet } := by
  unfold State.start
  apply State.ext <;> simp

@[simp] theorem State.start_mem (s : State) (f : TxFrame) : (s.start f).mem = s.mem :=
  (congrArg State.mem (s.start_frame f) :)
@[simp] theorem State.start_entries (s : State) (f : TxFrame) : (s.start f).entries = s.entries :=
  (congrArg State.entries (s.start_frame f) :)
@[simp] theorem State.start_poolFree (s : State) (f : TxFrame) : (s.start f).poolFree = s.poolFree :=
  (congrArg State.poolFree (s.start_frame f) :)
@[simp] theorem State.start_items (s : State) (f : TxFrame) : (s.start f).items = s.items :=
  (congrArg State.items (s.start_frame f) :)
@[simp] theorem State.start_noticeQueue (s : State) (f : TxFrame) : (s.start f).noticeQueue = s.noticeQueue :=
  (congrArg State.noticeQueue (s.start_frame f) :)
@[simp] theorem State.start_csnAsserted (s : State) (f : TxFrame) : (s.start f).csnAsserted = s.csnAsserted :=
  (congrArg State.csnAsserted (s.start_frame f) :)
@[simp] theorem State.start_rxdLow (s : State) (f : TxFrame) : (s.start f).rxdLow = s.rxdLow :=
  (congrArg State.rxdLow (s.start_frame f) :)
@[simp] theorem State.start_rxdSteady (s : State) (f : TxFrame) : (s.start f).rxdSteady = s.rxdSteady :=
  (congrArg State.rxdSteady (s.start_frame f) :)
@[simp] theorem State.start_failCount (s : State) (f : TxFrame) : (s.start f).failCount = s.failCount :=
  (congrArg State.failCount (s.start_frame f) :)
@[simp] theorem State.start_handover (s : State) (f : TxFrame) : (s.start f).handover = s.handover :=
  (congrArg State.handover (s.start_frame f) :)
@[simp] theorem State.start_replies (s : State) (f : TxFrame) : (s.start f).replies = s.replies :=
  (congrArg State.replies (s.start_frame f) :)
@[simp] theorem State.start_rrConsumer (s : State) (f : TxFrame) : (s.start f).rrConsumer = s.rrConsumer :=
  (congrArg State.rrConsumer (s.start_frame f) :)
@[simp] theorem State.start_rrProducer (s : State) (f : TxFrame) : (s.start f).rrProducer = s.rrProducer :=
  (congrArg State.rrProducer (s.start_frame f) :)
@[simp] theorem State.start_station (s : State) (f : TxFrame) : (s.start f).station = s.station :=
  (congrArg State.station (s.start_frame f) :)
@[simp] theorem State.start_params (s : State) (f : TxFrame) : (s.start f).params = s.params :=
  (congrArg State.params (s.start_frame f) :)
@[simp] theorem State.start_stationNo (s : State) (f : TxFrame) : (s.start f).stationNo = s.stationNo :=
  (congrArg State.stationNo (s.start_frame f) :)
@[simp] theorem State.start_rate (s : State) (f : TxFrame) : (s.start f).rate = s.rate :=
  (congrArg State.rate (s.start_frame f) :)
@[simp] theorem State.start_msPhase (s : State) (f : TxFrame) : (s.start f).msPhase = s.msPhase :=
  (congrArg State.msPhase (s.start_frame f) :)
@[simp] theorem State.start_rstnLow (s : State) (f : TxFrame) : (s.start f).rstnLow = s.rstnLow :=
  (congrArg State.rstnLow (s.start_frame f) :)
@[simp] theorem State.start_power (s : State) (f : TxFrame) : (s.start f).power = s.power :=
  (congrArg State.power (s.start_frame f) :)
@[simp] theorem State.start_port (s : State) (f : TxFrame) : (s.start f).port = s.port :=
  (congrArg State.port (s.start_frame f) :)
@[simp] theorem State.start_misoDraws (s : State) (f : TxFrame) : (s.start f).misoDraws = s.misoDraws :=
  (congrArg State.misoDraws (s.start_frame f) :)
@[simp] theorem State.start_pins (s : State) (f : TxFrame) : (s.start f).pins = s.pins :=
  (congrArg State.pins (s.start_frame f) :)
@[simp] theorem State.start_pending (s : State) (f : TxFrame) : (s.start f).pending = s.pending :=
  (congrArg State.pending (s.start_frame f) :)

/-! ### transmitStart -/

theorem State.transmitStart_frame (s : State) :
    s.transmitStart = { s with mem := s.transmitStart.mem, entries := s.transmitStart.entries, poolFree := s.transmitStart.poolFree, items := s.transmitStart.items, noticeQueue := s.transmitStart.noticeQueue, rx := s.transmitStart.rx, line := s.transmitStart.line, lineGap := s.transmitStart.lineGap, round := s.transmitStart.round, tx := s.transmitStart.tx, handover := s.transmitStart.handover, replies := s.transmitStart.replies, quiet := s.transmitStart.quiet } := by
  apply State.ext <;> first
    | rfl
    | (dsimp only [State.transmitStart]; (repeat' split) <;> simp)

@[simp] theorem State.transmitStart_csnAsserted (s : State) : s.transmitStart.csnAsserted = s.csnAsserted :=
  (congrArg State.csnAsserted (s.transmitStart_frame) :)
@[simp] theorem State.transmitStart_rxdLow (s : State) : s.transmitStart.rxdLow = s.rxdLow :=
  (congrArg State.rxdLow (s.transmitStart_frame) :)
@[simp] theorem State.transmitStart_rxdSteady (s : State) : s.transmitStart.rxdSteady = s.rxdSteady :=
  (congrArg State.rxdSteady (s.transmitStart_frame) :)
@[simp] theorem State.transmitStart_failCount (s : State) : s.transmitStart.failCount = s.failCount :=
  (congrArg State.failCount (s.transmitStart_frame) :)
@[simp] theorem State.transmitStart_rrConsumer (s : State) : s.transmitStart.rrConsumer = s.rrConsumer :=
  (congrArg State.rrConsumer (s.transmitStart_frame) :)
@[simp] theorem State.transmitStart_rrProducer (s : State) : s.transmitStart.rrProducer = s.rrProducer :=
  (congrArg State.rrProducer (s.transmitStart_frame) :)
@[simp] theorem State.transmitStart_station (s : State) : s.transmitStart.station = s.station :=
  (congrArg State.station (s.transmitStart_frame) :)
@[simp] theorem State.transmitStart_params (s : State) : s.transmitStart.params = s.params :=
  (congrArg State.params (s.transmitStart_frame) :)
@[simp] theorem State.transmitStart_stationNo (s : State) : s.transmitStart.stationNo = s.stationNo :=
  (congrArg State.stationNo (s.transmitStart_frame) :)
@[simp] theorem State.transmitStart_rate (s : State) : s.transmitStart.rate = s.rate :=
  (congrArg State.rate (s.transmitStart_frame) :)
@[simp] theorem State.transmitStart_msPhase (s : State) : s.transmitStart.msPhase = s.msPhase :=
  (congrArg State.msPhase (s.transmitStart_frame) :)
@[simp] theorem State.transmitStart_rstnLow (s : State) : s.transmitStart.rstnLow = s.rstnLow :=
  (congrArg State.rstnLow (s.transmitStart_frame) :)
@[simp] theorem State.transmitStart_power (s : State) : s.transmitStart.power = s.power :=
  (congrArg State.power (s.transmitStart_frame) :)
@[simp] theorem State.transmitStart_port (s : State) : s.transmitStart.port = s.port :=
  (congrArg State.port (s.transmitStart_frame) :)
@[simp] theorem State.transmitStart_misoDraws (s : State) : s.transmitStart.misoDraws = s.misoDraws :=
  (congrArg State.misoDraws (s.transmitStart_frame) :)
@[simp] theorem State.transmitStart_pins (s : State) : s.transmitStart.pins = s.pins :=
  (congrArg State.pins (s.transmitStart_frame) :)
@[simp] theorem State.transmitStart_pending (s : State) : s.transmitStart.pending = s.pending :=
  (congrArg State.pending (s.transmitStart_frame) :)

/-! ### txCollision -/

theorem State.txCollision_frame (s : State) (c : DriveCause) (first : Bool) :
    s.txCollision c first = { s with entries := (s.txCollision c first).entries, items := (s.txCollision c first).items, noticeQueue := (s.txCollision c first).noticeQueue, rx := (s.txCollision c first).rx, lineGap := (s.txCollision c first).lineGap, csnAsserted := (s.txCollision c first).csnAsserted, round := (s.txCollision c first).round, failCount := (s.txCollision c first).failCount, tx := (s.txCollision c first).tx, replies := (s.txCollision c first).replies, station := (s.txCollision c first).station } := by
  apply State.ext <;> first
    | rfl
    | (dsimp only [State.txCollision]; (repeat' split) <;> simp)

@[simp] theorem State.txCollision_mem (s : State) (c : DriveCause) (first : Bool) : (s.txCollision c first).mem = s.mem :=
  (congrArg State.mem (s.txCollision_frame c first) :)
@[simp] theorem State.txCollision_poolFree (s : State) (c : DriveCause) (first : Bool) : (s.txCollision c first).poolFree = s.poolFree :=
  (congrArg State.poolFree (s.txCollision_frame c first) :)
@[simp] theorem State.txCollision_line (s : State) (c : DriveCause) (first : Bool) : (s.txCollision c first).line = s.line :=
  (congrArg State.line (s.txCollision_frame c first) :)
@[simp] theorem State.txCollision_rxdLow (s : State) (c : DriveCause) (first : Bool) : (s.txCollision c first).rxdLow = s.rxdLow :=
  (congrArg State.rxdLow (s.txCollision_frame c first) :)
@[simp] theorem State.txCollision_rxdSteady (s : State) (c : DriveCause) (first : Bool) : (s.txCollision c first).rxdSteady = s.rxdSteady :=
  (congrArg State.rxdSteady (s.txCollision_frame c first) :)
@[simp] theorem State.txCollision_handover (s : State) (c : DriveCause) (first : Bool) : (s.txCollision c first).handover = s.handover :=
  (congrArg State.handover (s.txCollision_frame c first) :)
@[simp] theorem State.txCollision_rrConsumer (s : State) (c : DriveCause) (first : Bool) : (s.txCollision c first).rrConsumer = s.rrConsumer :=
  (congrArg State.rrConsumer (s.txCollision_frame c first) :)
@[simp] theorem State.txCollision_rrProducer (s : State) (c : DriveCause) (first : Bool) : (s.txCollision c first).rrProducer = s.rrProducer :=
  (congrArg State.rrProducer (s.txCollision_frame c first) :)
@[simp] theorem State.txCollision_params (s : State) (c : DriveCause) (first : Bool) : (s.txCollision c first).params = s.params :=
  (congrArg State.params (s.txCollision_frame c first) :)
@[simp] theorem State.txCollision_stationNo (s : State) (c : DriveCause) (first : Bool) : (s.txCollision c first).stationNo = s.stationNo :=
  (congrArg State.stationNo (s.txCollision_frame c first) :)
@[simp] theorem State.txCollision_rate (s : State) (c : DriveCause) (first : Bool) : (s.txCollision c first).rate = s.rate :=
  (congrArg State.rate (s.txCollision_frame c first) :)
@[simp] theorem State.txCollision_quiet (s : State) (c : DriveCause) (first : Bool) : (s.txCollision c first).quiet = s.quiet :=
  (congrArg State.quiet (s.txCollision_frame c first) :)
@[simp] theorem State.txCollision_msPhase (s : State) (c : DriveCause) (first : Bool) : (s.txCollision c first).msPhase = s.msPhase :=
  (congrArg State.msPhase (s.txCollision_frame c first) :)
@[simp] theorem State.txCollision_rstnLow (s : State) (c : DriveCause) (first : Bool) : (s.txCollision c first).rstnLow = s.rstnLow :=
  (congrArg State.rstnLow (s.txCollision_frame c first) :)
@[simp] theorem State.txCollision_power (s : State) (c : DriveCause) (first : Bool) : (s.txCollision c first).power = s.power :=
  (congrArg State.power (s.txCollision_frame c first) :)
@[simp] theorem State.txCollision_port (s : State) (c : DriveCause) (first : Bool) : (s.txCollision c first).port = s.port :=
  (congrArg State.port (s.txCollision_frame c first) :)
@[simp] theorem State.txCollision_misoDraws (s : State) (c : DriveCause) (first : Bool) : (s.txCollision c first).misoDraws = s.misoDraws :=
  (congrArg State.misoDraws (s.txCollision_frame c first) :)
@[simp] theorem State.txCollision_pins (s : State) (c : DriveCause) (first : Bool) : (s.txCollision c first).pins = s.pins :=
  (congrArg State.pins (s.txCollision_frame c first) :)
@[simp] theorem State.txCollision_pending (s : State) (c : DriveCause) (first : Bool) : (s.txCollision c first).pending = s.pending :=
  (congrArg State.pending (s.txCollision_frame c first) :)

/-! ### vacated -/

theorem State.vacated_frame (s : State) :
    s.vacated = { s with rx := s.vacated.rx, lineGap := s.vacated.lineGap, rxdLow := s.vacated.rxdLow, failCount := s.vacated.failCount, tx := s.vacated.tx, handover := s.vacated.handover, rrConsumer := s.vacated.rrConsumer, rrProducer := s.vacated.rrProducer } := by
  unfold State.vacated
  split <;> simp

@[simp] theorem State.vacated_mem (s : State) : s.vacated.mem = s.mem :=
  (congrArg State.mem (s.vacated_frame) :)
@[simp] theorem State.vacated_entries (s : State) : s.vacated.entries = s.entries :=
  (congrArg State.entries (s.vacated_frame) :)
@[simp] theorem State.vacated_poolFree (s : State) : s.vacated.poolFree = s.poolFree :=
  (congrArg State.poolFree (s.vacated_frame) :)
@[simp] theorem State.vacated_items (s : State) : s.vacated.items = s.items :=
  (congrArg State.items (s.vacated_frame) :)
@[simp] theorem State.vacated_noticeQueue (s : State) : s.vacated.noticeQueue = s.noticeQueue :=
  (congrArg State.noticeQueue (s.vacated_frame) :)
@[simp] theorem State.vacated_line (s : State) : s.vacated.line = s.line :=
  (congrArg State.line (s.vacated_frame) :)
@[simp] theorem State.vacated_csnAsserted (s : State) : s.vacated.csnAsserted = s.csnAsserted :=
  (congrArg State.csnAsserted (s.vacated_frame) :)
@[simp] theorem State.vacated_rxdSteady (s : State) : s.vacated.rxdSteady = s.rxdSteady :=
  (congrArg State.rxdSteady (s.vacated_frame) :)
@[simp] theorem State.vacated_round (s : State) : s.vacated.round = s.round :=
  (congrArg State.round (s.vacated_frame) :)
@[simp] theorem State.vacated_replies (s : State) : s.vacated.replies = s.replies :=
  (congrArg State.replies (s.vacated_frame) :)
@[simp] theorem State.vacated_station (s : State) : s.vacated.station = s.station :=
  (congrArg State.station (s.vacated_frame) :)
@[simp] theorem State.vacated_params (s : State) : s.vacated.params = s.params :=
  (congrArg State.params (s.vacated_frame) :)
@[simp] theorem State.vacated_stationNo (s : State) : s.vacated.stationNo = s.stationNo :=
  (congrArg State.stationNo (s.vacated_frame) :)
@[simp] theorem State.vacated_rate (s : State) : s.vacated.rate = s.rate :=
  (congrArg State.rate (s.vacated_frame) :)
@[simp] theorem State.vacated_quiet (s : State) : s.vacated.quiet = s.quiet :=
  (congrArg State.quiet (s.vacated_frame) :)
@[simp] theorem State.vacated_msPhase (s : State) : s.vacated.msPhase = s.msPhase :=
  (congrArg State.msPhase (s.vacated_frame) :)
@[simp] theorem State.vacated_rstnLow (s : State) : s.vacated.rstnLow = s.rstnLow :=
  (congrArg State.rstnLow (s.vacated_frame) :)
@[simp] theorem State.vacated_power (s : State) : s.vacated.power = s.power :=
  (congrArg State.power (s.vacated_frame) :)
@[simp] theorem State.vacated_port (s : State) : s.vacated.port = s.port :=
  (congrArg State.port (s.vacated_frame) :)
@[simp] theorem State.vacated_misoDraws (s : State) : s.vacated.misoDraws = s.misoDraws :=
  (congrArg State.misoDraws (s.vacated_frame) :)
@[simp] theorem State.vacated_pins (s : State) : s.vacated.pins = s.pins :=
  (congrArg State.pins (s.vacated_frame) :)
@[simp] theorem State.vacated_pending (s : State) : s.vacated.pending = s.pending :=
  (congrArg State.pending (s.vacated_frame) :)

/-! ### choose -/

theorem State.choose_frame (s : State) :
    s.choose = { s with entries := s.choose.entries, rx := s.choose.rx, lineGap := s.choose.lineGap, rxdLow := s.choose.rxdLow, failCount := s.choose.failCount, tx := s.choose.tx, handover := s.choose.handover, replies := s.choose.replies, rrConsumer := s.choose.rrConsumer, rrProducer := s.choose.rrProducer } := by
  apply State.ext <;> first
    | rfl
    | (dsimp only [State.choose]; (repeat' split) <;> simp)

@[simp] theorem State.choose_mem (s : State) : s.choose.mem = s.mem :=
  (congrArg State.mem (s.choose_frame) :)
@[simp] theorem State.choose_poolFree (s : State) : s.choose.poolFree = s.poolFree :=
  (congrArg State.poolFree (s.choose_frame) :)
@[simp] theorem State.choose_items (s : State) : s.choose.items = s.items :=
  (congrArg State.items (s.choose_frame) :)
@[simp] theorem State.choose_noticeQueue (s : State) : s.choose.noticeQueue = s.noticeQueue :=
  (congrArg State.noticeQueue (s.choose_frame) :)
@[simp] theorem State.choose_line (s : State) : s.choose.line = s.line :=
  (congrArg State.line (s.choose_frame) :)
@[simp] theorem State.choose_csnAsserted (s : State) : s.choose.csnAsserted = s.csnAsserted :=
  (congrArg State.csnAsserted (s.choose_frame) :)
@[simp] theorem State.choose_rxdSteady (s : State) : s.choose.rxdSteady = s.rxdSteady :=
  (congrArg State.rxdSteady (s.choose_frame) :)
@[simp] theorem State.choose_round (s : State) : s.choose.round = s.round :=
  (congrArg State.round (s.choose_frame) :)
@[simp] theorem State.choose_station (s : State) : s.choose.station = s.station :=
  (congrArg State.station (s.choose_frame) :)
@[simp] theorem State.choose_params (s : State) : s.choose.params = s.params :=
  (congrArg State.params (s.choose_frame) :)
@[simp] theorem State.choose_stationNo (s : State) : s.choose.stationNo = s.stationNo :=
  (congrArg State.stationNo (s.choose_frame) :)
@[simp] theorem State.choose_rate (s : State) : s.choose.rate = s.rate :=
  (congrArg State.rate (s.choose_frame) :)
@[simp] theorem State.choose_quiet (s : State) : s.choose.quiet = s.quiet :=
  (congrArg State.quiet (s.choose_frame) :)
@[simp] theorem State.choose_msPhase (s : State) : s.choose.msPhase = s.msPhase :=
  (congrArg State.msPhase (s.choose_frame) :)
@[simp] theorem State.choose_rstnLow (s : State) : s.choose.rstnLow = s.rstnLow :=
  (congrArg State.rstnLow (s.choose_frame) :)
@[simp] theorem State.choose_power (s : State) : s.choose.power = s.power :=
  (congrArg State.power (s.choose_frame) :)
@[simp] theorem State.choose_port (s : State) : s.choose.port = s.port :=
  (congrArg State.port (s.choose_frame) :)
@[simp] theorem State.choose_misoDraws (s : State) : s.choose.misoDraws = s.misoDraws :=
  (congrArg State.misoDraws (s.choose_frame) :)
@[simp] theorem State.choose_pins (s : State) : s.choose.pins = s.pins :=
  (congrArg State.pins (s.choose_frame) :)
@[simp] theorem State.choose_pending (s : State) : s.choose.pending = s.pending :=
  (congrArg State.pending (s.choose_frame) :)

/-! ### newDone -/

theorem State.newDone_frame (s : State) (i : EntryIdx) (q : Seq) (e : Bool) (slot : Option Nat) (len : Nat) :
    s.newDone i q e slot len = { s with entries := (s.newDone i q e slot len).entries, poolFree := (s.newDone i q e slot len).poolFree, items := (s.newDone i q e slot len).items, noticeQueue := (s.newDone i q e slot len).noticeQueue, tx := (s.newDone i q e slot len).tx, handover := (s.newDone i q e slot len).handover } := by
  apply State.ext <;> first
    | rfl
    | (dsimp only [State.newDone]; (repeat' split) <;> simp)

@[simp] theorem State.newDone_mem (s : State) (i : EntryIdx) (q : Seq) (e : Bool) (slot : Option Nat) (len : Nat) : (s.newDone i q e slot len).mem = s.mem :=
  (congrArg State.mem (s.newDone_frame i q e slot len) :)
@[simp] theorem State.newDone_rx (s : State) (i : EntryIdx) (q : Seq) (e : Bool) (slot : Option Nat) (len : Nat) : (s.newDone i q e slot len).rx = s.rx :=
  (congrArg State.rx (s.newDone_frame i q e slot len) :)
@[simp] theorem State.newDone_line (s : State) (i : EntryIdx) (q : Seq) (e : Bool) (slot : Option Nat) (len : Nat) : (s.newDone i q e slot len).line = s.line :=
  (congrArg State.line (s.newDone_frame i q e slot len) :)
@[simp] theorem State.newDone_lineGap (s : State) (i : EntryIdx) (q : Seq) (e : Bool) (slot : Option Nat) (len : Nat) : (s.newDone i q e slot len).lineGap = s.lineGap :=
  (congrArg State.lineGap (s.newDone_frame i q e slot len) :)
@[simp] theorem State.newDone_csnAsserted (s : State) (i : EntryIdx) (q : Seq) (e : Bool) (slot : Option Nat) (len : Nat) : (s.newDone i q e slot len).csnAsserted = s.csnAsserted :=
  (congrArg State.csnAsserted (s.newDone_frame i q e slot len) :)
@[simp] theorem State.newDone_rxdLow (s : State) (i : EntryIdx) (q : Seq) (e : Bool) (slot : Option Nat) (len : Nat) : (s.newDone i q e slot len).rxdLow = s.rxdLow :=
  (congrArg State.rxdLow (s.newDone_frame i q e slot len) :)
@[simp] theorem State.newDone_rxdSteady (s : State) (i : EntryIdx) (q : Seq) (e : Bool) (slot : Option Nat) (len : Nat) : (s.newDone i q e slot len).rxdSteady = s.rxdSteady :=
  (congrArg State.rxdSteady (s.newDone_frame i q e slot len) :)
@[simp] theorem State.newDone_round (s : State) (i : EntryIdx) (q : Seq) (e : Bool) (slot : Option Nat) (len : Nat) : (s.newDone i q e slot len).round = s.round :=
  (congrArg State.round (s.newDone_frame i q e slot len) :)
@[simp] theorem State.newDone_failCount (s : State) (i : EntryIdx) (q : Seq) (e : Bool) (slot : Option Nat) (len : Nat) : (s.newDone i q e slot len).failCount = s.failCount :=
  (congrArg State.failCount (s.newDone_frame i q e slot len) :)
@[simp] theorem State.newDone_replies (s : State) (i : EntryIdx) (q : Seq) (e : Bool) (slot : Option Nat) (len : Nat) : (s.newDone i q e slot len).replies = s.replies :=
  (congrArg State.replies (s.newDone_frame i q e slot len) :)
@[simp] theorem State.newDone_rrConsumer (s : State) (i : EntryIdx) (q : Seq) (e : Bool) (slot : Option Nat) (len : Nat) : (s.newDone i q e slot len).rrConsumer = s.rrConsumer :=
  (congrArg State.rrConsumer (s.newDone_frame i q e slot len) :)
@[simp] theorem State.newDone_rrProducer (s : State) (i : EntryIdx) (q : Seq) (e : Bool) (slot : Option Nat) (len : Nat) : (s.newDone i q e slot len).rrProducer = s.rrProducer :=
  (congrArg State.rrProducer (s.newDone_frame i q e slot len) :)
@[simp] theorem State.newDone_station (s : State) (i : EntryIdx) (q : Seq) (e : Bool) (slot : Option Nat) (len : Nat) : (s.newDone i q e slot len).station = s.station :=
  (congrArg State.station (s.newDone_frame i q e slot len) :)
@[simp] theorem State.newDone_params (s : State) (i : EntryIdx) (q : Seq) (e : Bool) (slot : Option Nat) (len : Nat) : (s.newDone i q e slot len).params = s.params :=
  (congrArg State.params (s.newDone_frame i q e slot len) :)
@[simp] theorem State.newDone_stationNo (s : State) (i : EntryIdx) (q : Seq) (e : Bool) (slot : Option Nat) (len : Nat) : (s.newDone i q e slot len).stationNo = s.stationNo :=
  (congrArg State.stationNo (s.newDone_frame i q e slot len) :)
@[simp] theorem State.newDone_rate (s : State) (i : EntryIdx) (q : Seq) (e : Bool) (slot : Option Nat) (len : Nat) : (s.newDone i q e slot len).rate = s.rate :=
  (congrArg State.rate (s.newDone_frame i q e slot len) :)
@[simp] theorem State.newDone_quiet (s : State) (i : EntryIdx) (q : Seq) (e : Bool) (slot : Option Nat) (len : Nat) : (s.newDone i q e slot len).quiet = s.quiet :=
  (congrArg State.quiet (s.newDone_frame i q e slot len) :)
@[simp] theorem State.newDone_msPhase (s : State) (i : EntryIdx) (q : Seq) (e : Bool) (slot : Option Nat) (len : Nat) : (s.newDone i q e slot len).msPhase = s.msPhase :=
  (congrArg State.msPhase (s.newDone_frame i q e slot len) :)
@[simp] theorem State.newDone_rstnLow (s : State) (i : EntryIdx) (q : Seq) (e : Bool) (slot : Option Nat) (len : Nat) : (s.newDone i q e slot len).rstnLow = s.rstnLow :=
  (congrArg State.rstnLow (s.newDone_frame i q e slot len) :)
@[simp] theorem State.newDone_power (s : State) (i : EntryIdx) (q : Seq) (e : Bool) (slot : Option Nat) (len : Nat) : (s.newDone i q e slot len).power = s.power :=
  (congrArg State.power (s.newDone_frame i q e slot len) :)
@[simp] theorem State.newDone_port (s : State) (i : EntryIdx) (q : Seq) (e : Bool) (slot : Option Nat) (len : Nat) : (s.newDone i q e slot len).port = s.port :=
  (congrArg State.port (s.newDone_frame i q e slot len) :)
@[simp] theorem State.newDone_misoDraws (s : State) (i : EntryIdx) (q : Seq) (e : Bool) (slot : Option Nat) (len : Nat) : (s.newDone i q e slot len).misoDraws = s.misoDraws :=
  (congrArg State.misoDraws (s.newDone_frame i q e slot len) :)
@[simp] theorem State.newDone_pins (s : State) (i : EntryIdx) (q : Seq) (e : Bool) (slot : Option Nat) (len : Nat) : (s.newDone i q e slot len).pins = s.pins :=
  (congrArg State.pins (s.newDone_frame i q e slot len) :)
@[simp] theorem State.newDone_pending (s : State) (i : EntryIdx) (q : Seq) (e : Bool) (slot : Option Nat) (len : Nat) : (s.newDone i q e slot len).pending = s.pending :=
  (congrArg State.pending (s.newDone_frame i q e slot len) :)

/-! ### resendDone -/

theorem State.resendDone_frame (s : State) (i : EntryIdx) (q : Seq) :
    s.resendDone i q = { s with entries := (s.resendDone i q).entries } := by
  apply State.ext <;> first
    | rfl
    | (dsimp only [State.resendDone]; (repeat' split) <;> simp)

@[simp] theorem State.resendDone_mem (s : State) (i : EntryIdx) (q : Seq) : (s.resendDone i q).mem = s.mem :=
  (congrArg State.mem (s.resendDone_frame i q) :)
@[simp] theorem State.resendDone_poolFree (s : State) (i : EntryIdx) (q : Seq) : (s.resendDone i q).poolFree = s.poolFree :=
  (congrArg State.poolFree (s.resendDone_frame i q) :)
@[simp] theorem State.resendDone_items (s : State) (i : EntryIdx) (q : Seq) : (s.resendDone i q).items = s.items :=
  (congrArg State.items (s.resendDone_frame i q) :)
@[simp] theorem State.resendDone_noticeQueue (s : State) (i : EntryIdx) (q : Seq) : (s.resendDone i q).noticeQueue = s.noticeQueue :=
  (congrArg State.noticeQueue (s.resendDone_frame i q) :)
@[simp] theorem State.resendDone_rx (s : State) (i : EntryIdx) (q : Seq) : (s.resendDone i q).rx = s.rx :=
  (congrArg State.rx (s.resendDone_frame i q) :)
@[simp] theorem State.resendDone_line (s : State) (i : EntryIdx) (q : Seq) : (s.resendDone i q).line = s.line :=
  (congrArg State.line (s.resendDone_frame i q) :)
@[simp] theorem State.resendDone_lineGap (s : State) (i : EntryIdx) (q : Seq) : (s.resendDone i q).lineGap = s.lineGap :=
  (congrArg State.lineGap (s.resendDone_frame i q) :)
@[simp] theorem State.resendDone_csnAsserted (s : State) (i : EntryIdx) (q : Seq) : (s.resendDone i q).csnAsserted = s.csnAsserted :=
  (congrArg State.csnAsserted (s.resendDone_frame i q) :)
@[simp] theorem State.resendDone_rxdLow (s : State) (i : EntryIdx) (q : Seq) : (s.resendDone i q).rxdLow = s.rxdLow :=
  (congrArg State.rxdLow (s.resendDone_frame i q) :)
@[simp] theorem State.resendDone_rxdSteady (s : State) (i : EntryIdx) (q : Seq) : (s.resendDone i q).rxdSteady = s.rxdSteady :=
  (congrArg State.rxdSteady (s.resendDone_frame i q) :)
@[simp] theorem State.resendDone_round (s : State) (i : EntryIdx) (q : Seq) : (s.resendDone i q).round = s.round :=
  (congrArg State.round (s.resendDone_frame i q) :)
@[simp] theorem State.resendDone_failCount (s : State) (i : EntryIdx) (q : Seq) : (s.resendDone i q).failCount = s.failCount :=
  (congrArg State.failCount (s.resendDone_frame i q) :)
@[simp] theorem State.resendDone_tx (s : State) (i : EntryIdx) (q : Seq) : (s.resendDone i q).tx = s.tx :=
  (congrArg State.tx (s.resendDone_frame i q) :)
@[simp] theorem State.resendDone_handover (s : State) (i : EntryIdx) (q : Seq) : (s.resendDone i q).handover = s.handover :=
  (congrArg State.handover (s.resendDone_frame i q) :)
@[simp] theorem State.resendDone_replies (s : State) (i : EntryIdx) (q : Seq) : (s.resendDone i q).replies = s.replies :=
  (congrArg State.replies (s.resendDone_frame i q) :)
@[simp] theorem State.resendDone_rrConsumer (s : State) (i : EntryIdx) (q : Seq) : (s.resendDone i q).rrConsumer = s.rrConsumer :=
  (congrArg State.rrConsumer (s.resendDone_frame i q) :)
@[simp] theorem State.resendDone_rrProducer (s : State) (i : EntryIdx) (q : Seq) : (s.resendDone i q).rrProducer = s.rrProducer :=
  (congrArg State.rrProducer (s.resendDone_frame i q) :)
@[simp] theorem State.resendDone_station (s : State) (i : EntryIdx) (q : Seq) : (s.resendDone i q).station = s.station :=
  (congrArg State.station (s.resendDone_frame i q) :)
@[simp] theorem State.resendDone_params (s : State) (i : EntryIdx) (q : Seq) : (s.resendDone i q).params = s.params :=
  (congrArg State.params (s.resendDone_frame i q) :)
@[simp] theorem State.resendDone_stationNo (s : State) (i : EntryIdx) (q : Seq) : (s.resendDone i q).stationNo = s.stationNo :=
  (congrArg State.stationNo (s.resendDone_frame i q) :)
@[simp] theorem State.resendDone_rate (s : State) (i : EntryIdx) (q : Seq) : (s.resendDone i q).rate = s.rate :=
  (congrArg State.rate (s.resendDone_frame i q) :)
@[simp] theorem State.resendDone_quiet (s : State) (i : EntryIdx) (q : Seq) : (s.resendDone i q).quiet = s.quiet :=
  (congrArg State.quiet (s.resendDone_frame i q) :)
@[simp] theorem State.resendDone_msPhase (s : State) (i : EntryIdx) (q : Seq) : (s.resendDone i q).msPhase = s.msPhase :=
  (congrArg State.msPhase (s.resendDone_frame i q) :)
@[simp] theorem State.resendDone_rstnLow (s : State) (i : EntryIdx) (q : Seq) : (s.resendDone i q).rstnLow = s.rstnLow :=
  (congrArg State.rstnLow (s.resendDone_frame i q) :)
@[simp] theorem State.resendDone_power (s : State) (i : EntryIdx) (q : Seq) : (s.resendDone i q).power = s.power :=
  (congrArg State.power (s.resendDone_frame i q) :)
@[simp] theorem State.resendDone_port (s : State) (i : EntryIdx) (q : Seq) : (s.resendDone i q).port = s.port :=
  (congrArg State.port (s.resendDone_frame i q) :)
@[simp] theorem State.resendDone_misoDraws (s : State) (i : EntryIdx) (q : Seq) : (s.resendDone i q).misoDraws = s.misoDraws :=
  (congrArg State.misoDraws (s.resendDone_frame i q) :)
@[simp] theorem State.resendDone_pins (s : State) (i : EntryIdx) (q : Seq) : (s.resendDone i q).pins = s.pins :=
  (congrArg State.pins (s.resendDone_frame i q) :)
@[simp] theorem State.resendDone_pending (s : State) (i : EntryIdx) (q : Seq) : (s.resendDone i q).pending = s.pending :=
  (congrArg State.pending (s.resendDone_frame i q) :)

/-! ### holdDone -/

theorem State.holdDone_frame (s : State) (i : EntryIdx) :
    s.holdDone i = { s with entries := (s.holdDone i).entries, poolFree := (s.holdDone i).poolFree, items := (s.holdDone i).items, noticeQueue := (s.holdDone i).noticeQueue } := by
  apply State.ext <;> first
    | rfl
    | (dsimp only [State.holdDone]; (repeat' split) <;> simp)

@[simp] theorem State.holdDone_mem (s : State) (i : EntryIdx) : (s.holdDone i).mem = s.mem :=
  (congrArg State.mem (s.holdDone_frame i) :)
@[simp] theorem State.holdDone_rx (s : State) (i : EntryIdx) : (s.holdDone i).rx = s.rx :=
  (congrArg State.rx (s.holdDone_frame i) :)
@[simp] theorem State.holdDone_line (s : State) (i : EntryIdx) : (s.holdDone i).line = s.line :=
  (congrArg State.line (s.holdDone_frame i) :)
@[simp] theorem State.holdDone_lineGap (s : State) (i : EntryIdx) : (s.holdDone i).lineGap = s.lineGap :=
  (congrArg State.lineGap (s.holdDone_frame i) :)
@[simp] theorem State.holdDone_csnAsserted (s : State) (i : EntryIdx) : (s.holdDone i).csnAsserted = s.csnAsserted :=
  (congrArg State.csnAsserted (s.holdDone_frame i) :)
@[simp] theorem State.holdDone_rxdLow (s : State) (i : EntryIdx) : (s.holdDone i).rxdLow = s.rxdLow :=
  (congrArg State.rxdLow (s.holdDone_frame i) :)
@[simp] theorem State.holdDone_rxdSteady (s : State) (i : EntryIdx) : (s.holdDone i).rxdSteady = s.rxdSteady :=
  (congrArg State.rxdSteady (s.holdDone_frame i) :)
@[simp] theorem State.holdDone_round (s : State) (i : EntryIdx) : (s.holdDone i).round = s.round :=
  (congrArg State.round (s.holdDone_frame i) :)
@[simp] theorem State.holdDone_failCount (s : State) (i : EntryIdx) : (s.holdDone i).failCount = s.failCount :=
  (congrArg State.failCount (s.holdDone_frame i) :)
@[simp] theorem State.holdDone_tx (s : State) (i : EntryIdx) : (s.holdDone i).tx = s.tx :=
  (congrArg State.tx (s.holdDone_frame i) :)
@[simp] theorem State.holdDone_handover (s : State) (i : EntryIdx) : (s.holdDone i).handover = s.handover :=
  (congrArg State.handover (s.holdDone_frame i) :)
@[simp] theorem State.holdDone_replies (s : State) (i : EntryIdx) : (s.holdDone i).replies = s.replies :=
  (congrArg State.replies (s.holdDone_frame i) :)
@[simp] theorem State.holdDone_rrConsumer (s : State) (i : EntryIdx) : (s.holdDone i).rrConsumer = s.rrConsumer :=
  (congrArg State.rrConsumer (s.holdDone_frame i) :)
@[simp] theorem State.holdDone_rrProducer (s : State) (i : EntryIdx) : (s.holdDone i).rrProducer = s.rrProducer :=
  (congrArg State.rrProducer (s.holdDone_frame i) :)
@[simp] theorem State.holdDone_station (s : State) (i : EntryIdx) : (s.holdDone i).station = s.station :=
  (congrArg State.station (s.holdDone_frame i) :)
@[simp] theorem State.holdDone_params (s : State) (i : EntryIdx) : (s.holdDone i).params = s.params :=
  (congrArg State.params (s.holdDone_frame i) :)
@[simp] theorem State.holdDone_stationNo (s : State) (i : EntryIdx) : (s.holdDone i).stationNo = s.stationNo :=
  (congrArg State.stationNo (s.holdDone_frame i) :)
@[simp] theorem State.holdDone_rate (s : State) (i : EntryIdx) : (s.holdDone i).rate = s.rate :=
  (congrArg State.rate (s.holdDone_frame i) :)
@[simp] theorem State.holdDone_quiet (s : State) (i : EntryIdx) : (s.holdDone i).quiet = s.quiet :=
  (congrArg State.quiet (s.holdDone_frame i) :)
@[simp] theorem State.holdDone_msPhase (s : State) (i : EntryIdx) : (s.holdDone i).msPhase = s.msPhase :=
  (congrArg State.msPhase (s.holdDone_frame i) :)
@[simp] theorem State.holdDone_rstnLow (s : State) (i : EntryIdx) : (s.holdDone i).rstnLow = s.rstnLow :=
  (congrArg State.rstnLow (s.holdDone_frame i) :)
@[simp] theorem State.holdDone_power (s : State) (i : EntryIdx) : (s.holdDone i).power = s.power :=
  (congrArg State.power (s.holdDone_frame i) :)
@[simp] theorem State.holdDone_port (s : State) (i : EntryIdx) : (s.holdDone i).port = s.port :=
  (congrArg State.port (s.holdDone_frame i) :)
@[simp] theorem State.holdDone_misoDraws (s : State) (i : EntryIdx) : (s.holdDone i).misoDraws = s.misoDraws :=
  (congrArg State.misoDraws (s.holdDone_frame i) :)
@[simp] theorem State.holdDone_pins (s : State) (i : EntryIdx) : (s.holdDone i).pins = s.pins :=
  (congrArg State.pins (s.holdDone_frame i) :)
@[simp] theorem State.holdDone_pending (s : State) (i : EntryIdx) : (s.holdDone i).pending = s.pending :=
  (congrArg State.pending (s.holdDone_frame i) :)

/-! ### joinDone -/

theorem State.joinDone_frame (s : State) (i : EntryIdx) :
    s.joinDone i = { s with entries := (s.joinDone i).entries } := by
  apply State.ext <;> first
    | rfl
    | (dsimp only [State.joinDone]; (repeat' split) <;> simp)

@[simp] theorem State.joinDone_mem (s : State) (i : EntryIdx) : (s.joinDone i).mem = s.mem :=
  (congrArg State.mem (s.joinDone_frame i) :)
@[simp] theorem State.joinDone_poolFree (s : State) (i : EntryIdx) : (s.joinDone i).poolFree = s.poolFree :=
  (congrArg State.poolFree (s.joinDone_frame i) :)
@[simp] theorem State.joinDone_items (s : State) (i : EntryIdx) : (s.joinDone i).items = s.items :=
  (congrArg State.items (s.joinDone_frame i) :)
@[simp] theorem State.joinDone_noticeQueue (s : State) (i : EntryIdx) : (s.joinDone i).noticeQueue = s.noticeQueue :=
  (congrArg State.noticeQueue (s.joinDone_frame i) :)
@[simp] theorem State.joinDone_rx (s : State) (i : EntryIdx) : (s.joinDone i).rx = s.rx :=
  (congrArg State.rx (s.joinDone_frame i) :)
@[simp] theorem State.joinDone_line (s : State) (i : EntryIdx) : (s.joinDone i).line = s.line :=
  (congrArg State.line (s.joinDone_frame i) :)
@[simp] theorem State.joinDone_lineGap (s : State) (i : EntryIdx) : (s.joinDone i).lineGap = s.lineGap :=
  (congrArg State.lineGap (s.joinDone_frame i) :)
@[simp] theorem State.joinDone_csnAsserted (s : State) (i : EntryIdx) : (s.joinDone i).csnAsserted = s.csnAsserted :=
  (congrArg State.csnAsserted (s.joinDone_frame i) :)
@[simp] theorem State.joinDone_rxdLow (s : State) (i : EntryIdx) : (s.joinDone i).rxdLow = s.rxdLow :=
  (congrArg State.rxdLow (s.joinDone_frame i) :)
@[simp] theorem State.joinDone_rxdSteady (s : State) (i : EntryIdx) : (s.joinDone i).rxdSteady = s.rxdSteady :=
  (congrArg State.rxdSteady (s.joinDone_frame i) :)
@[simp] theorem State.joinDone_round (s : State) (i : EntryIdx) : (s.joinDone i).round = s.round :=
  (congrArg State.round (s.joinDone_frame i) :)
@[simp] theorem State.joinDone_failCount (s : State) (i : EntryIdx) : (s.joinDone i).failCount = s.failCount :=
  (congrArg State.failCount (s.joinDone_frame i) :)
@[simp] theorem State.joinDone_tx (s : State) (i : EntryIdx) : (s.joinDone i).tx = s.tx :=
  (congrArg State.tx (s.joinDone_frame i) :)
@[simp] theorem State.joinDone_handover (s : State) (i : EntryIdx) : (s.joinDone i).handover = s.handover :=
  (congrArg State.handover (s.joinDone_frame i) :)
@[simp] theorem State.joinDone_replies (s : State) (i : EntryIdx) : (s.joinDone i).replies = s.replies :=
  (congrArg State.replies (s.joinDone_frame i) :)
@[simp] theorem State.joinDone_rrConsumer (s : State) (i : EntryIdx) : (s.joinDone i).rrConsumer = s.rrConsumer :=
  (congrArg State.rrConsumer (s.joinDone_frame i) :)
@[simp] theorem State.joinDone_rrProducer (s : State) (i : EntryIdx) : (s.joinDone i).rrProducer = s.rrProducer :=
  (congrArg State.rrProducer (s.joinDone_frame i) :)
@[simp] theorem State.joinDone_station (s : State) (i : EntryIdx) : (s.joinDone i).station = s.station :=
  (congrArg State.station (s.joinDone_frame i) :)
@[simp] theorem State.joinDone_params (s : State) (i : EntryIdx) : (s.joinDone i).params = s.params :=
  (congrArg State.params (s.joinDone_frame i) :)
@[simp] theorem State.joinDone_stationNo (s : State) (i : EntryIdx) : (s.joinDone i).stationNo = s.stationNo :=
  (congrArg State.stationNo (s.joinDone_frame i) :)
@[simp] theorem State.joinDone_rate (s : State) (i : EntryIdx) : (s.joinDone i).rate = s.rate :=
  (congrArg State.rate (s.joinDone_frame i) :)
@[simp] theorem State.joinDone_quiet (s : State) (i : EntryIdx) : (s.joinDone i).quiet = s.quiet :=
  (congrArg State.quiet (s.joinDone_frame i) :)
@[simp] theorem State.joinDone_msPhase (s : State) (i : EntryIdx) : (s.joinDone i).msPhase = s.msPhase :=
  (congrArg State.msPhase (s.joinDone_frame i) :)
@[simp] theorem State.joinDone_rstnLow (s : State) (i : EntryIdx) : (s.joinDone i).rstnLow = s.rstnLow :=
  (congrArg State.rstnLow (s.joinDone_frame i) :)
@[simp] theorem State.joinDone_power (s : State) (i : EntryIdx) : (s.joinDone i).power = s.power :=
  (congrArg State.power (s.joinDone_frame i) :)
@[simp] theorem State.joinDone_port (s : State) (i : EntryIdx) : (s.joinDone i).port = s.port :=
  (congrArg State.port (s.joinDone_frame i) :)
@[simp] theorem State.joinDone_misoDraws (s : State) (i : EntryIdx) : (s.joinDone i).misoDraws = s.misoDraws :=
  (congrArg State.misoDraws (s.joinDone_frame i) :)
@[simp] theorem State.joinDone_pins (s : State) (i : EntryIdx) : (s.joinDone i).pins = s.pins :=
  (congrArg State.pins (s.joinDone_frame i) :)
@[simp] theorem State.joinDone_pending (s : State) (i : EntryIdx) : (s.joinDone i).pending = s.pending :=
  (congrArg State.pending (s.joinDone_frame i) :)

/-! ### ackDone -/

theorem State.ackDone_frame (s : State) (i : EntryIdx) :
    s.ackDone i = { s with entries := (s.ackDone i).entries, poolFree := (s.ackDone i).poolFree, items := (s.ackDone i).items, noticeQueue := (s.ackDone i).noticeQueue, tx := (s.ackDone i).tx, handover := (s.ackDone i).handover } := by
  apply State.ext <;> first
    | rfl
    | (dsimp only [State.ackDone]; (repeat' split) <;> simp)

@[simp] theorem State.ackDone_mem (s : State) (i : EntryIdx) : (s.ackDone i).mem = s.mem :=
  (congrArg State.mem (s.ackDone_frame i) :)
@[simp] theorem State.ackDone_rx (s : State) (i : EntryIdx) : (s.ackDone i).rx = s.rx :=
  (congrArg State.rx (s.ackDone_frame i) :)
@[simp] theorem State.ackDone_line (s : State) (i : EntryIdx) : (s.ackDone i).line = s.line :=
  (congrArg State.line (s.ackDone_frame i) :)
@[simp] theorem State.ackDone_lineGap (s : State) (i : EntryIdx) : (s.ackDone i).lineGap = s.lineGap :=
  (congrArg State.lineGap (s.ackDone_frame i) :)
@[simp] theorem State.ackDone_csnAsserted (s : State) (i : EntryIdx) : (s.ackDone i).csnAsserted = s.csnAsserted :=
  (congrArg State.csnAsserted (s.ackDone_frame i) :)
@[simp] theorem State.ackDone_rxdLow (s : State) (i : EntryIdx) : (s.ackDone i).rxdLow = s.rxdLow :=
  (congrArg State.rxdLow (s.ackDone_frame i) :)
@[simp] theorem State.ackDone_rxdSteady (s : State) (i : EntryIdx) : (s.ackDone i).rxdSteady = s.rxdSteady :=
  (congrArg State.rxdSteady (s.ackDone_frame i) :)
@[simp] theorem State.ackDone_round (s : State) (i : EntryIdx) : (s.ackDone i).round = s.round :=
  (congrArg State.round (s.ackDone_frame i) :)
@[simp] theorem State.ackDone_failCount (s : State) (i : EntryIdx) : (s.ackDone i).failCount = s.failCount :=
  (congrArg State.failCount (s.ackDone_frame i) :)
@[simp] theorem State.ackDone_replies (s : State) (i : EntryIdx) : (s.ackDone i).replies = s.replies :=
  (congrArg State.replies (s.ackDone_frame i) :)
@[simp] theorem State.ackDone_rrConsumer (s : State) (i : EntryIdx) : (s.ackDone i).rrConsumer = s.rrConsumer :=
  (congrArg State.rrConsumer (s.ackDone_frame i) :)
@[simp] theorem State.ackDone_rrProducer (s : State) (i : EntryIdx) : (s.ackDone i).rrProducer = s.rrProducer :=
  (congrArg State.rrProducer (s.ackDone_frame i) :)
@[simp] theorem State.ackDone_station (s : State) (i : EntryIdx) : (s.ackDone i).station = s.station :=
  (congrArg State.station (s.ackDone_frame i) :)
@[simp] theorem State.ackDone_params (s : State) (i : EntryIdx) : (s.ackDone i).params = s.params :=
  (congrArg State.params (s.ackDone_frame i) :)
@[simp] theorem State.ackDone_stationNo (s : State) (i : EntryIdx) : (s.ackDone i).stationNo = s.stationNo :=
  (congrArg State.stationNo (s.ackDone_frame i) :)
@[simp] theorem State.ackDone_rate (s : State) (i : EntryIdx) : (s.ackDone i).rate = s.rate :=
  (congrArg State.rate (s.ackDone_frame i) :)
@[simp] theorem State.ackDone_quiet (s : State) (i : EntryIdx) : (s.ackDone i).quiet = s.quiet :=
  (congrArg State.quiet (s.ackDone_frame i) :)
@[simp] theorem State.ackDone_msPhase (s : State) (i : EntryIdx) : (s.ackDone i).msPhase = s.msPhase :=
  (congrArg State.msPhase (s.ackDone_frame i) :)
@[simp] theorem State.ackDone_rstnLow (s : State) (i : EntryIdx) : (s.ackDone i).rstnLow = s.rstnLow :=
  (congrArg State.rstnLow (s.ackDone_frame i) :)
@[simp] theorem State.ackDone_power (s : State) (i : EntryIdx) : (s.ackDone i).power = s.power :=
  (congrArg State.power (s.ackDone_frame i) :)
@[simp] theorem State.ackDone_port (s : State) (i : EntryIdx) : (s.ackDone i).port = s.port :=
  (congrArg State.port (s.ackDone_frame i) :)
@[simp] theorem State.ackDone_misoDraws (s : State) (i : EntryIdx) : (s.ackDone i).misoDraws = s.misoDraws :=
  (congrArg State.misoDraws (s.ackDone_frame i) :)
@[simp] theorem State.ackDone_pins (s : State) (i : EntryIdx) : (s.ackDone i).pins = s.pins :=
  (congrArg State.pins (s.ackDone_frame i) :)
@[simp] theorem State.ackDone_pending (s : State) (i : EntryIdx) : (s.ackDone i).pending = s.pending :=
  (congrArg State.pending (s.ackDone_frame i) :)

/-! ### leaveDone -/

theorem State.leaveDone_frame (s : State) (i : EntryIdx) :
    s.leaveDone i = { s with entries := (s.leaveDone i).entries, poolFree := (s.leaveDone i).poolFree, items := (s.leaveDone i).items, noticeQueue := (s.leaveDone i).noticeQueue, tx := (s.leaveDone i).tx, handover := (s.leaveDone i).handover } := by
  apply State.ext <;> first
    | rfl
    | (dsimp only [State.leaveDone]; (repeat' split) <;> simp)

@[simp] theorem State.leaveDone_mem (s : State) (i : EntryIdx) : (s.leaveDone i).mem = s.mem :=
  (congrArg State.mem (s.leaveDone_frame i) :)
@[simp] theorem State.leaveDone_rx (s : State) (i : EntryIdx) : (s.leaveDone i).rx = s.rx :=
  (congrArg State.rx (s.leaveDone_frame i) :)
@[simp] theorem State.leaveDone_line (s : State) (i : EntryIdx) : (s.leaveDone i).line = s.line :=
  (congrArg State.line (s.leaveDone_frame i) :)
@[simp] theorem State.leaveDone_lineGap (s : State) (i : EntryIdx) : (s.leaveDone i).lineGap = s.lineGap :=
  (congrArg State.lineGap (s.leaveDone_frame i) :)
@[simp] theorem State.leaveDone_csnAsserted (s : State) (i : EntryIdx) : (s.leaveDone i).csnAsserted = s.csnAsserted :=
  (congrArg State.csnAsserted (s.leaveDone_frame i) :)
@[simp] theorem State.leaveDone_rxdLow (s : State) (i : EntryIdx) : (s.leaveDone i).rxdLow = s.rxdLow :=
  (congrArg State.rxdLow (s.leaveDone_frame i) :)
@[simp] theorem State.leaveDone_rxdSteady (s : State) (i : EntryIdx) : (s.leaveDone i).rxdSteady = s.rxdSteady :=
  (congrArg State.rxdSteady (s.leaveDone_frame i) :)
@[simp] theorem State.leaveDone_round (s : State) (i : EntryIdx) : (s.leaveDone i).round = s.round :=
  (congrArg State.round (s.leaveDone_frame i) :)
@[simp] theorem State.leaveDone_failCount (s : State) (i : EntryIdx) : (s.leaveDone i).failCount = s.failCount :=
  (congrArg State.failCount (s.leaveDone_frame i) :)
@[simp] theorem State.leaveDone_replies (s : State) (i : EntryIdx) : (s.leaveDone i).replies = s.replies :=
  (congrArg State.replies (s.leaveDone_frame i) :)
@[simp] theorem State.leaveDone_rrConsumer (s : State) (i : EntryIdx) : (s.leaveDone i).rrConsumer = s.rrConsumer :=
  (congrArg State.rrConsumer (s.leaveDone_frame i) :)
@[simp] theorem State.leaveDone_rrProducer (s : State) (i : EntryIdx) : (s.leaveDone i).rrProducer = s.rrProducer :=
  (congrArg State.rrProducer (s.leaveDone_frame i) :)
@[simp] theorem State.leaveDone_station (s : State) (i : EntryIdx) : (s.leaveDone i).station = s.station :=
  (congrArg State.station (s.leaveDone_frame i) :)
@[simp] theorem State.leaveDone_params (s : State) (i : EntryIdx) : (s.leaveDone i).params = s.params :=
  (congrArg State.params (s.leaveDone_frame i) :)
@[simp] theorem State.leaveDone_stationNo (s : State) (i : EntryIdx) : (s.leaveDone i).stationNo = s.stationNo :=
  (congrArg State.stationNo (s.leaveDone_frame i) :)
@[simp] theorem State.leaveDone_rate (s : State) (i : EntryIdx) : (s.leaveDone i).rate = s.rate :=
  (congrArg State.rate (s.leaveDone_frame i) :)
@[simp] theorem State.leaveDone_quiet (s : State) (i : EntryIdx) : (s.leaveDone i).quiet = s.quiet :=
  (congrArg State.quiet (s.leaveDone_frame i) :)
@[simp] theorem State.leaveDone_msPhase (s : State) (i : EntryIdx) : (s.leaveDone i).msPhase = s.msPhase :=
  (congrArg State.msPhase (s.leaveDone_frame i) :)
@[simp] theorem State.leaveDone_rstnLow (s : State) (i : EntryIdx) : (s.leaveDone i).rstnLow = s.rstnLow :=
  (congrArg State.rstnLow (s.leaveDone_frame i) :)
@[simp] theorem State.leaveDone_power (s : State) (i : EntryIdx) : (s.leaveDone i).power = s.power :=
  (congrArg State.power (s.leaveDone_frame i) :)
@[simp] theorem State.leaveDone_port (s : State) (i : EntryIdx) : (s.leaveDone i).port = s.port :=
  (congrArg State.port (s.leaveDone_frame i) :)
@[simp] theorem State.leaveDone_misoDraws (s : State) (i : EntryIdx) : (s.leaveDone i).misoDraws = s.misoDraws :=
  (congrArg State.misoDraws (s.leaveDone_frame i) :)
@[simp] theorem State.leaveDone_pins (s : State) (i : EntryIdx) : (s.leaveDone i).pins = s.pins :=
  (congrArg State.pins (s.leaveDone_frame i) :)
@[simp] theorem State.leaveDone_pending (s : State) (i : EntryIdx) : (s.leaveDone i).pending = s.pending :=
  (congrArg State.pending (s.leaveDone_frame i) :)

/-! ### codeArrived -/

theorem State.codeArrived_frame (s : State) (c : Byte) :
    s.codeArrived c = { s with port := (s.codeArrived c).port, pending := (s.codeArrived c).pending } := by
  apply State.ext <;> first
    | rfl
    | (dsimp only [State.codeArrived]; (repeat' split) <;> simp)

@[simp] theorem State.codeArrived_mem (s : State) (c : Byte) : (s.codeArrived c).mem = s.mem :=
  (congrArg State.mem (s.codeArrived_frame c) :)
@[simp] theorem State.codeArrived_entries (s : State) (c : Byte) : (s.codeArrived c).entries = s.entries :=
  (congrArg State.entries (s.codeArrived_frame c) :)
@[simp] theorem State.codeArrived_poolFree (s : State) (c : Byte) : (s.codeArrived c).poolFree = s.poolFree :=
  (congrArg State.poolFree (s.codeArrived_frame c) :)
@[simp] theorem State.codeArrived_items (s : State) (c : Byte) : (s.codeArrived c).items = s.items :=
  (congrArg State.items (s.codeArrived_frame c) :)
@[simp] theorem State.codeArrived_noticeQueue (s : State) (c : Byte) : (s.codeArrived c).noticeQueue = s.noticeQueue :=
  (congrArg State.noticeQueue (s.codeArrived_frame c) :)
@[simp] theorem State.codeArrived_rx (s : State) (c : Byte) : (s.codeArrived c).rx = s.rx :=
  (congrArg State.rx (s.codeArrived_frame c) :)
@[simp] theorem State.codeArrived_line (s : State) (c : Byte) : (s.codeArrived c).line = s.line :=
  (congrArg State.line (s.codeArrived_frame c) :)
@[simp] theorem State.codeArrived_lineGap (s : State) (c : Byte) : (s.codeArrived c).lineGap = s.lineGap :=
  (congrArg State.lineGap (s.codeArrived_frame c) :)
@[simp] theorem State.codeArrived_csnAsserted (s : State) (c : Byte) : (s.codeArrived c).csnAsserted = s.csnAsserted :=
  (congrArg State.csnAsserted (s.codeArrived_frame c) :)
@[simp] theorem State.codeArrived_rxdLow (s : State) (c : Byte) : (s.codeArrived c).rxdLow = s.rxdLow :=
  (congrArg State.rxdLow (s.codeArrived_frame c) :)
@[simp] theorem State.codeArrived_rxdSteady (s : State) (c : Byte) : (s.codeArrived c).rxdSteady = s.rxdSteady :=
  (congrArg State.rxdSteady (s.codeArrived_frame c) :)
@[simp] theorem State.codeArrived_round (s : State) (c : Byte) : (s.codeArrived c).round = s.round :=
  (congrArg State.round (s.codeArrived_frame c) :)
@[simp] theorem State.codeArrived_failCount (s : State) (c : Byte) : (s.codeArrived c).failCount = s.failCount :=
  (congrArg State.failCount (s.codeArrived_frame c) :)
@[simp] theorem State.codeArrived_tx (s : State) (c : Byte) : (s.codeArrived c).tx = s.tx :=
  (congrArg State.tx (s.codeArrived_frame c) :)
@[simp] theorem State.codeArrived_handover (s : State) (c : Byte) : (s.codeArrived c).handover = s.handover :=
  (congrArg State.handover (s.codeArrived_frame c) :)
@[simp] theorem State.codeArrived_replies (s : State) (c : Byte) : (s.codeArrived c).replies = s.replies :=
  (congrArg State.replies (s.codeArrived_frame c) :)
@[simp] theorem State.codeArrived_rrConsumer (s : State) (c : Byte) : (s.codeArrived c).rrConsumer = s.rrConsumer :=
  (congrArg State.rrConsumer (s.codeArrived_frame c) :)
@[simp] theorem State.codeArrived_rrProducer (s : State) (c : Byte) : (s.codeArrived c).rrProducer = s.rrProducer :=
  (congrArg State.rrProducer (s.codeArrived_frame c) :)
@[simp] theorem State.codeArrived_station (s : State) (c : Byte) : (s.codeArrived c).station = s.station :=
  (congrArg State.station (s.codeArrived_frame c) :)
@[simp] theorem State.codeArrived_params (s : State) (c : Byte) : (s.codeArrived c).params = s.params :=
  (congrArg State.params (s.codeArrived_frame c) :)
@[simp] theorem State.codeArrived_stationNo (s : State) (c : Byte) : (s.codeArrived c).stationNo = s.stationNo :=
  (congrArg State.stationNo (s.codeArrived_frame c) :)
@[simp] theorem State.codeArrived_rate (s : State) (c : Byte) : (s.codeArrived c).rate = s.rate :=
  (congrArg State.rate (s.codeArrived_frame c) :)
@[simp] theorem State.codeArrived_quiet (s : State) (c : Byte) : (s.codeArrived c).quiet = s.quiet :=
  (congrArg State.quiet (s.codeArrived_frame c) :)
@[simp] theorem State.codeArrived_msPhase (s : State) (c : Byte) : (s.codeArrived c).msPhase = s.msPhase :=
  (congrArg State.msPhase (s.codeArrived_frame c) :)
@[simp] theorem State.codeArrived_rstnLow (s : State) (c : Byte) : (s.codeArrived c).rstnLow = s.rstnLow :=
  (congrArg State.rstnLow (s.codeArrived_frame c) :)
@[simp] theorem State.codeArrived_power (s : State) (c : Byte) : (s.codeArrived c).power = s.power :=
  (congrArg State.power (s.codeArrived_frame c) :)
@[simp] theorem State.codeArrived_misoDraws (s : State) (c : Byte) : (s.codeArrived c).misoDraws = s.misoDraws :=
  (congrArg State.misoDraws (s.codeArrived_frame c) :)
@[simp] theorem State.codeArrived_pins (s : State) (c : Byte) : (s.codeArrived c).pins = s.pins :=
  (congrArg State.pins (s.codeArrived_frame c) :)

/-! ### parameterArrived -/

theorem State.parameterArrived_frame (s : State) (b : Byte) :
    s.parameterArrived b = { s with port := (s.parameterArrived b).port, pending := (s.parameterArrived b).pending } := by
  apply State.ext <;> first
    | rfl
    | (dsimp only [State.parameterArrived]; (repeat' split) <;> simp)

@[simp] theorem State.parameterArrived_mem (s : State) (b : Byte) : (s.parameterArrived b).mem = s.mem :=
  (congrArg State.mem (s.parameterArrived_frame b) :)
@[simp] theorem State.parameterArrived_entries (s : State) (b : Byte) : (s.parameterArrived b).entries = s.entries :=
  (congrArg State.entries (s.parameterArrived_frame b) :)
@[simp] theorem State.parameterArrived_poolFree (s : State) (b : Byte) : (s.parameterArrived b).poolFree = s.poolFree :=
  (congrArg State.poolFree (s.parameterArrived_frame b) :)
@[simp] theorem State.parameterArrived_items (s : State) (b : Byte) : (s.parameterArrived b).items = s.items :=
  (congrArg State.items (s.parameterArrived_frame b) :)
@[simp] theorem State.parameterArrived_noticeQueue (s : State) (b : Byte) : (s.parameterArrived b).noticeQueue = s.noticeQueue :=
  (congrArg State.noticeQueue (s.parameterArrived_frame b) :)
@[simp] theorem State.parameterArrived_rx (s : State) (b : Byte) : (s.parameterArrived b).rx = s.rx :=
  (congrArg State.rx (s.parameterArrived_frame b) :)
@[simp] theorem State.parameterArrived_line (s : State) (b : Byte) : (s.parameterArrived b).line = s.line :=
  (congrArg State.line (s.parameterArrived_frame b) :)
@[simp] theorem State.parameterArrived_lineGap (s : State) (b : Byte) : (s.parameterArrived b).lineGap = s.lineGap :=
  (congrArg State.lineGap (s.parameterArrived_frame b) :)
@[simp] theorem State.parameterArrived_csnAsserted (s : State) (b : Byte) : (s.parameterArrived b).csnAsserted = s.csnAsserted :=
  (congrArg State.csnAsserted (s.parameterArrived_frame b) :)
@[simp] theorem State.parameterArrived_rxdLow (s : State) (b : Byte) : (s.parameterArrived b).rxdLow = s.rxdLow :=
  (congrArg State.rxdLow (s.parameterArrived_frame b) :)
@[simp] theorem State.parameterArrived_rxdSteady (s : State) (b : Byte) : (s.parameterArrived b).rxdSteady = s.rxdSteady :=
  (congrArg State.rxdSteady (s.parameterArrived_frame b) :)
@[simp] theorem State.parameterArrived_round (s : State) (b : Byte) : (s.parameterArrived b).round = s.round :=
  (congrArg State.round (s.parameterArrived_frame b) :)
@[simp] theorem State.parameterArrived_failCount (s : State) (b : Byte) : (s.parameterArrived b).failCount = s.failCount :=
  (congrArg State.failCount (s.parameterArrived_frame b) :)
@[simp] theorem State.parameterArrived_tx (s : State) (b : Byte) : (s.parameterArrived b).tx = s.tx :=
  (congrArg State.tx (s.parameterArrived_frame b) :)
@[simp] theorem State.parameterArrived_handover (s : State) (b : Byte) : (s.parameterArrived b).handover = s.handover :=
  (congrArg State.handover (s.parameterArrived_frame b) :)
@[simp] theorem State.parameterArrived_replies (s : State) (b : Byte) : (s.parameterArrived b).replies = s.replies :=
  (congrArg State.replies (s.parameterArrived_frame b) :)
@[simp] theorem State.parameterArrived_rrConsumer (s : State) (b : Byte) : (s.parameterArrived b).rrConsumer = s.rrConsumer :=
  (congrArg State.rrConsumer (s.parameterArrived_frame b) :)
@[simp] theorem State.parameterArrived_rrProducer (s : State) (b : Byte) : (s.parameterArrived b).rrProducer = s.rrProducer :=
  (congrArg State.rrProducer (s.parameterArrived_frame b) :)
@[simp] theorem State.parameterArrived_station (s : State) (b : Byte) : (s.parameterArrived b).station = s.station :=
  (congrArg State.station (s.parameterArrived_frame b) :)
@[simp] theorem State.parameterArrived_params (s : State) (b : Byte) : (s.parameterArrived b).params = s.params :=
  (congrArg State.params (s.parameterArrived_frame b) :)
@[simp] theorem State.parameterArrived_stationNo (s : State) (b : Byte) : (s.parameterArrived b).stationNo = s.stationNo :=
  (congrArg State.stationNo (s.parameterArrived_frame b) :)
@[simp] theorem State.parameterArrived_rate (s : State) (b : Byte) : (s.parameterArrived b).rate = s.rate :=
  (congrArg State.rate (s.parameterArrived_frame b) :)
@[simp] theorem State.parameterArrived_quiet (s : State) (b : Byte) : (s.parameterArrived b).quiet = s.quiet :=
  (congrArg State.quiet (s.parameterArrived_frame b) :)
@[simp] theorem State.parameterArrived_msPhase (s : State) (b : Byte) : (s.parameterArrived b).msPhase = s.msPhase :=
  (congrArg State.msPhase (s.parameterArrived_frame b) :)
@[simp] theorem State.parameterArrived_rstnLow (s : State) (b : Byte) : (s.parameterArrived b).rstnLow = s.rstnLow :=
  (congrArg State.rstnLow (s.parameterArrived_frame b) :)
@[simp] theorem State.parameterArrived_power (s : State) (b : Byte) : (s.parameterArrived b).power = s.power :=
  (congrArg State.power (s.parameterArrived_frame b) :)
@[simp] theorem State.parameterArrived_misoDraws (s : State) (b : Byte) : (s.parameterArrived b).misoDraws = s.misoDraws :=
  (congrArg State.misoDraws (s.parameterArrived_frame b) :)
@[simp] theorem State.parameterArrived_pins (s : State) (b : Byte) : (s.parameterArrived b).pins = s.pins :=
  (congrArg State.pins (s.parameterArrived_frame b) :)

/-! ### writeArrived -/

theorem State.writeArrived_frame (s : State) (b : Byte) :
    s.writeArrived b = { s with port := (s.writeArrived b).port } := rfl

@[simp] theorem State.writeArrived_mem (s : State) (b : Byte) : (s.writeArrived b).mem = s.mem :=
  (congrArg State.mem (s.writeArrived_frame b) :)
@[simp] theorem State.writeArrived_entries (s : State) (b : Byte) : (s.writeArrived b).entries = s.entries :=
  (congrArg State.entries (s.writeArrived_frame b) :)
@[simp] theorem State.writeArrived_poolFree (s : State) (b : Byte) : (s.writeArrived b).poolFree = s.poolFree :=
  (congrArg State.poolFree (s.writeArrived_frame b) :)
@[simp] theorem State.writeArrived_items (s : State) (b : Byte) : (s.writeArrived b).items = s.items :=
  (congrArg State.items (s.writeArrived_frame b) :)
@[simp] theorem State.writeArrived_noticeQueue (s : State) (b : Byte) : (s.writeArrived b).noticeQueue = s.noticeQueue :=
  (congrArg State.noticeQueue (s.writeArrived_frame b) :)
@[simp] theorem State.writeArrived_rx (s : State) (b : Byte) : (s.writeArrived b).rx = s.rx :=
  (congrArg State.rx (s.writeArrived_frame b) :)
@[simp] theorem State.writeArrived_line (s : State) (b : Byte) : (s.writeArrived b).line = s.line :=
  (congrArg State.line (s.writeArrived_frame b) :)
@[simp] theorem State.writeArrived_lineGap (s : State) (b : Byte) : (s.writeArrived b).lineGap = s.lineGap :=
  (congrArg State.lineGap (s.writeArrived_frame b) :)
@[simp] theorem State.writeArrived_csnAsserted (s : State) (b : Byte) : (s.writeArrived b).csnAsserted = s.csnAsserted :=
  (congrArg State.csnAsserted (s.writeArrived_frame b) :)
@[simp] theorem State.writeArrived_rxdLow (s : State) (b : Byte) : (s.writeArrived b).rxdLow = s.rxdLow :=
  (congrArg State.rxdLow (s.writeArrived_frame b) :)
@[simp] theorem State.writeArrived_rxdSteady (s : State) (b : Byte) : (s.writeArrived b).rxdSteady = s.rxdSteady :=
  (congrArg State.rxdSteady (s.writeArrived_frame b) :)
@[simp] theorem State.writeArrived_round (s : State) (b : Byte) : (s.writeArrived b).round = s.round :=
  (congrArg State.round (s.writeArrived_frame b) :)
@[simp] theorem State.writeArrived_failCount (s : State) (b : Byte) : (s.writeArrived b).failCount = s.failCount :=
  (congrArg State.failCount (s.writeArrived_frame b) :)
@[simp] theorem State.writeArrived_tx (s : State) (b : Byte) : (s.writeArrived b).tx = s.tx :=
  (congrArg State.tx (s.writeArrived_frame b) :)
@[simp] theorem State.writeArrived_handover (s : State) (b : Byte) : (s.writeArrived b).handover = s.handover :=
  (congrArg State.handover (s.writeArrived_frame b) :)
@[simp] theorem State.writeArrived_replies (s : State) (b : Byte) : (s.writeArrived b).replies = s.replies :=
  (congrArg State.replies (s.writeArrived_frame b) :)
@[simp] theorem State.writeArrived_rrConsumer (s : State) (b : Byte) : (s.writeArrived b).rrConsumer = s.rrConsumer :=
  (congrArg State.rrConsumer (s.writeArrived_frame b) :)
@[simp] theorem State.writeArrived_rrProducer (s : State) (b : Byte) : (s.writeArrived b).rrProducer = s.rrProducer :=
  (congrArg State.rrProducer (s.writeArrived_frame b) :)
@[simp] theorem State.writeArrived_station (s : State) (b : Byte) : (s.writeArrived b).station = s.station :=
  (congrArg State.station (s.writeArrived_frame b) :)
@[simp] theorem State.writeArrived_params (s : State) (b : Byte) : (s.writeArrived b).params = s.params :=
  (congrArg State.params (s.writeArrived_frame b) :)
@[simp] theorem State.writeArrived_stationNo (s : State) (b : Byte) : (s.writeArrived b).stationNo = s.stationNo :=
  (congrArg State.stationNo (s.writeArrived_frame b) :)
@[simp] theorem State.writeArrived_rate (s : State) (b : Byte) : (s.writeArrived b).rate = s.rate :=
  (congrArg State.rate (s.writeArrived_frame b) :)
@[simp] theorem State.writeArrived_quiet (s : State) (b : Byte) : (s.writeArrived b).quiet = s.quiet :=
  (congrArg State.quiet (s.writeArrived_frame b) :)
@[simp] theorem State.writeArrived_msPhase (s : State) (b : Byte) : (s.writeArrived b).msPhase = s.msPhase :=
  (congrArg State.msPhase (s.writeArrived_frame b) :)
@[simp] theorem State.writeArrived_rstnLow (s : State) (b : Byte) : (s.writeArrived b).rstnLow = s.rstnLow :=
  (congrArg State.rstnLow (s.writeArrived_frame b) :)
@[simp] theorem State.writeArrived_power (s : State) (b : Byte) : (s.writeArrived b).power = s.power :=
  (congrArg State.power (s.writeArrived_frame b) :)
@[simp] theorem State.writeArrived_misoDraws (s : State) (b : Byte) : (s.writeArrived b).misoDraws = s.misoDraws :=
  (congrArg State.misoDraws (s.writeArrived_frame b) :)
@[simp] theorem State.writeArrived_pins (s : State) (b : Byte) : (s.writeArrived b).pins = s.pins :=
  (congrArg State.pins (s.writeArrived_frame b) :)
@[simp] theorem State.writeArrived_pending (s : State) (b : Byte) : (s.writeArrived b).pending = s.pending :=
  (congrArg State.pending (s.writeArrived_frame b) :)

/-! ### untakenRises -/

theorem State.untakenRises_frame (s : State) (b : Bool) :
    s.untakenRises b = { s with port := (s.untakenRises b).port } := rfl

@[simp] theorem State.untakenRises_mem (s : State) (b : Bool) : (s.untakenRises b).mem = s.mem :=
  (congrArg State.mem (s.untakenRises_frame b) :)
@[simp] theorem State.untakenRises_entries (s : State) (b : Bool) : (s.untakenRises b).entries = s.entries :=
  (congrArg State.entries (s.untakenRises_frame b) :)
@[simp] theorem State.untakenRises_poolFree (s : State) (b : Bool) : (s.untakenRises b).poolFree = s.poolFree :=
  (congrArg State.poolFree (s.untakenRises_frame b) :)
@[simp] theorem State.untakenRises_items (s : State) (b : Bool) : (s.untakenRises b).items = s.items :=
  (congrArg State.items (s.untakenRises_frame b) :)
@[simp] theorem State.untakenRises_noticeQueue (s : State) (b : Bool) : (s.untakenRises b).noticeQueue = s.noticeQueue :=
  (congrArg State.noticeQueue (s.untakenRises_frame b) :)
@[simp] theorem State.untakenRises_rx (s : State) (b : Bool) : (s.untakenRises b).rx = s.rx :=
  (congrArg State.rx (s.untakenRises_frame b) :)
@[simp] theorem State.untakenRises_line (s : State) (b : Bool) : (s.untakenRises b).line = s.line :=
  (congrArg State.line (s.untakenRises_frame b) :)
@[simp] theorem State.untakenRises_lineGap (s : State) (b : Bool) : (s.untakenRises b).lineGap = s.lineGap :=
  (congrArg State.lineGap (s.untakenRises_frame b) :)
@[simp] theorem State.untakenRises_csnAsserted (s : State) (b : Bool) : (s.untakenRises b).csnAsserted = s.csnAsserted :=
  (congrArg State.csnAsserted (s.untakenRises_frame b) :)
@[simp] theorem State.untakenRises_rxdLow (s : State) (b : Bool) : (s.untakenRises b).rxdLow = s.rxdLow :=
  (congrArg State.rxdLow (s.untakenRises_frame b) :)
@[simp] theorem State.untakenRises_rxdSteady (s : State) (b : Bool) : (s.untakenRises b).rxdSteady = s.rxdSteady :=
  (congrArg State.rxdSteady (s.untakenRises_frame b) :)
@[simp] theorem State.untakenRises_round (s : State) (b : Bool) : (s.untakenRises b).round = s.round :=
  (congrArg State.round (s.untakenRises_frame b) :)
@[simp] theorem State.untakenRises_failCount (s : State) (b : Bool) : (s.untakenRises b).failCount = s.failCount :=
  (congrArg State.failCount (s.untakenRises_frame b) :)
@[simp] theorem State.untakenRises_tx (s : State) (b : Bool) : (s.untakenRises b).tx = s.tx :=
  (congrArg State.tx (s.untakenRises_frame b) :)
@[simp] theorem State.untakenRises_handover (s : State) (b : Bool) : (s.untakenRises b).handover = s.handover :=
  (congrArg State.handover (s.untakenRises_frame b) :)
@[simp] theorem State.untakenRises_replies (s : State) (b : Bool) : (s.untakenRises b).replies = s.replies :=
  (congrArg State.replies (s.untakenRises_frame b) :)
@[simp] theorem State.untakenRises_rrConsumer (s : State) (b : Bool) : (s.untakenRises b).rrConsumer = s.rrConsumer :=
  (congrArg State.rrConsumer (s.untakenRises_frame b) :)
@[simp] theorem State.untakenRises_rrProducer (s : State) (b : Bool) : (s.untakenRises b).rrProducer = s.rrProducer :=
  (congrArg State.rrProducer (s.untakenRises_frame b) :)
@[simp] theorem State.untakenRises_station (s : State) (b : Bool) : (s.untakenRises b).station = s.station :=
  (congrArg State.station (s.untakenRises_frame b) :)
@[simp] theorem State.untakenRises_params (s : State) (b : Bool) : (s.untakenRises b).params = s.params :=
  (congrArg State.params (s.untakenRises_frame b) :)
@[simp] theorem State.untakenRises_stationNo (s : State) (b : Bool) : (s.untakenRises b).stationNo = s.stationNo :=
  (congrArg State.stationNo (s.untakenRises_frame b) :)
@[simp] theorem State.untakenRises_rate (s : State) (b : Bool) : (s.untakenRises b).rate = s.rate :=
  (congrArg State.rate (s.untakenRises_frame b) :)
@[simp] theorem State.untakenRises_quiet (s : State) (b : Bool) : (s.untakenRises b).quiet = s.quiet :=
  (congrArg State.quiet (s.untakenRises_frame b) :)
@[simp] theorem State.untakenRises_msPhase (s : State) (b : Bool) : (s.untakenRises b).msPhase = s.msPhase :=
  (congrArg State.msPhase (s.untakenRises_frame b) :)
@[simp] theorem State.untakenRises_rstnLow (s : State) (b : Bool) : (s.untakenRises b).rstnLow = s.rstnLow :=
  (congrArg State.rstnLow (s.untakenRises_frame b) :)
@[simp] theorem State.untakenRises_power (s : State) (b : Bool) : (s.untakenRises b).power = s.power :=
  (congrArg State.power (s.untakenRises_frame b) :)
@[simp] theorem State.untakenRises_misoDraws (s : State) (b : Bool) : (s.untakenRises b).misoDraws = s.misoDraws :=
  (congrArg State.misoDraws (s.untakenRises_frame b) :)
@[simp] theorem State.untakenRises_pins (s : State) (b : Bool) : (s.untakenRises b).pins = s.pins :=
  (congrArg State.pins (s.untakenRises_frame b) :)
@[simp] theorem State.untakenRises_pending (s : State) (b : Bool) : (s.untakenRises b).pending = s.pending :=
  (congrArg State.pending (s.untakenRises_frame b) :)

/-! ### untakenFalls -/

theorem State.untakenFalls_frame (s : State) :
    s.untakenFalls = { s with port := s.untakenFalls.port, misoDraws := s.untakenFalls.misoDraws } := by
  apply State.ext <;> first
    | rfl
    | (dsimp only [State.untakenFalls]; (repeat' split) <;> simp)

@[simp] theorem State.untakenFalls_mem (s : State) : s.untakenFalls.mem = s.mem :=
  (congrArg State.mem (s.untakenFalls_frame) :)
@[simp] theorem State.untakenFalls_entries (s : State) : s.untakenFalls.entries = s.entries :=
  (congrArg State.entries (s.untakenFalls_frame) :)
@[simp] theorem State.untakenFalls_poolFree (s : State) : s.untakenFalls.poolFree = s.poolFree :=
  (congrArg State.poolFree (s.untakenFalls_frame) :)
@[simp] theorem State.untakenFalls_items (s : State) : s.untakenFalls.items = s.items :=
  (congrArg State.items (s.untakenFalls_frame) :)
@[simp] theorem State.untakenFalls_noticeQueue (s : State) : s.untakenFalls.noticeQueue = s.noticeQueue :=
  (congrArg State.noticeQueue (s.untakenFalls_frame) :)
@[simp] theorem State.untakenFalls_rx (s : State) : s.untakenFalls.rx = s.rx :=
  (congrArg State.rx (s.untakenFalls_frame) :)
@[simp] theorem State.untakenFalls_line (s : State) : s.untakenFalls.line = s.line :=
  (congrArg State.line (s.untakenFalls_frame) :)
@[simp] theorem State.untakenFalls_lineGap (s : State) : s.untakenFalls.lineGap = s.lineGap :=
  (congrArg State.lineGap (s.untakenFalls_frame) :)
@[simp] theorem State.untakenFalls_csnAsserted (s : State) : s.untakenFalls.csnAsserted = s.csnAsserted :=
  (congrArg State.csnAsserted (s.untakenFalls_frame) :)
@[simp] theorem State.untakenFalls_rxdLow (s : State) : s.untakenFalls.rxdLow = s.rxdLow :=
  (congrArg State.rxdLow (s.untakenFalls_frame) :)
@[simp] theorem State.untakenFalls_rxdSteady (s : State) : s.untakenFalls.rxdSteady = s.rxdSteady :=
  (congrArg State.rxdSteady (s.untakenFalls_frame) :)
@[simp] theorem State.untakenFalls_round (s : State) : s.untakenFalls.round = s.round :=
  (congrArg State.round (s.untakenFalls_frame) :)
@[simp] theorem State.untakenFalls_failCount (s : State) : s.untakenFalls.failCount = s.failCount :=
  (congrArg State.failCount (s.untakenFalls_frame) :)
@[simp] theorem State.untakenFalls_tx (s : State) : s.untakenFalls.tx = s.tx :=
  (congrArg State.tx (s.untakenFalls_frame) :)
@[simp] theorem State.untakenFalls_handover (s : State) : s.untakenFalls.handover = s.handover :=
  (congrArg State.handover (s.untakenFalls_frame) :)
@[simp] theorem State.untakenFalls_replies (s : State) : s.untakenFalls.replies = s.replies :=
  (congrArg State.replies (s.untakenFalls_frame) :)
@[simp] theorem State.untakenFalls_rrConsumer (s : State) : s.untakenFalls.rrConsumer = s.rrConsumer :=
  (congrArg State.rrConsumer (s.untakenFalls_frame) :)
@[simp] theorem State.untakenFalls_rrProducer (s : State) : s.untakenFalls.rrProducer = s.rrProducer :=
  (congrArg State.rrProducer (s.untakenFalls_frame) :)
@[simp] theorem State.untakenFalls_station (s : State) : s.untakenFalls.station = s.station :=
  (congrArg State.station (s.untakenFalls_frame) :)
@[simp] theorem State.untakenFalls_params (s : State) : s.untakenFalls.params = s.params :=
  (congrArg State.params (s.untakenFalls_frame) :)
@[simp] theorem State.untakenFalls_stationNo (s : State) : s.untakenFalls.stationNo = s.stationNo :=
  (congrArg State.stationNo (s.untakenFalls_frame) :)
@[simp] theorem State.untakenFalls_rate (s : State) : s.untakenFalls.rate = s.rate :=
  (congrArg State.rate (s.untakenFalls_frame) :)
@[simp] theorem State.untakenFalls_quiet (s : State) : s.untakenFalls.quiet = s.quiet :=
  (congrArg State.quiet (s.untakenFalls_frame) :)
@[simp] theorem State.untakenFalls_msPhase (s : State) : s.untakenFalls.msPhase = s.msPhase :=
  (congrArg State.msPhase (s.untakenFalls_frame) :)
@[simp] theorem State.untakenFalls_rstnLow (s : State) : s.untakenFalls.rstnLow = s.rstnLow :=
  (congrArg State.rstnLow (s.untakenFalls_frame) :)
@[simp] theorem State.untakenFalls_power (s : State) : s.untakenFalls.power = s.power :=
  (congrArg State.power (s.untakenFalls_frame) :)
@[simp] theorem State.untakenFalls_pins (s : State) : s.untakenFalls.pins = s.pins :=
  (congrArg State.pins (s.untakenFalls_frame) :)
@[simp] theorem State.untakenFalls_pending (s : State) : s.untakenFalls.pending = s.pending :=
  (congrArg State.pending (s.untakenFalls_frame) :)

/-! ### sckRises -/

theorem State.sckRises_frame (s : State) (b : Bool) :
    s.sckRises b = { s with port := (s.sckRises b).port, pending := (s.sckRises b).pending } := by
  apply State.ext <;> first
    | rfl
    | (dsimp only [State.sckRises]; (repeat' split) <;> simp)

@[simp] theorem State.sckRises_mem (s : State) (b : Bool) : (s.sckRises b).mem = s.mem :=
  (congrArg State.mem (s.sckRises_frame b) :)
@[simp] theorem State.sckRises_entries (s : State) (b : Bool) : (s.sckRises b).entries = s.entries :=
  (congrArg State.entries (s.sckRises_frame b) :)
@[simp] theorem State.sckRises_poolFree (s : State) (b : Bool) : (s.sckRises b).poolFree = s.poolFree :=
  (congrArg State.poolFree (s.sckRises_frame b) :)
@[simp] theorem State.sckRises_items (s : State) (b : Bool) : (s.sckRises b).items = s.items :=
  (congrArg State.items (s.sckRises_frame b) :)
@[simp] theorem State.sckRises_noticeQueue (s : State) (b : Bool) : (s.sckRises b).noticeQueue = s.noticeQueue :=
  (congrArg State.noticeQueue (s.sckRises_frame b) :)
@[simp] theorem State.sckRises_rx (s : State) (b : Bool) : (s.sckRises b).rx = s.rx :=
  (congrArg State.rx (s.sckRises_frame b) :)
@[simp] theorem State.sckRises_line (s : State) (b : Bool) : (s.sckRises b).line = s.line :=
  (congrArg State.line (s.sckRises_frame b) :)
@[simp] theorem State.sckRises_lineGap (s : State) (b : Bool) : (s.sckRises b).lineGap = s.lineGap :=
  (congrArg State.lineGap (s.sckRises_frame b) :)
@[simp] theorem State.sckRises_csnAsserted (s : State) (b : Bool) : (s.sckRises b).csnAsserted = s.csnAsserted :=
  (congrArg State.csnAsserted (s.sckRises_frame b) :)
@[simp] theorem State.sckRises_rxdLow (s : State) (b : Bool) : (s.sckRises b).rxdLow = s.rxdLow :=
  (congrArg State.rxdLow (s.sckRises_frame b) :)
@[simp] theorem State.sckRises_rxdSteady (s : State) (b : Bool) : (s.sckRises b).rxdSteady = s.rxdSteady :=
  (congrArg State.rxdSteady (s.sckRises_frame b) :)
@[simp] theorem State.sckRises_round (s : State) (b : Bool) : (s.sckRises b).round = s.round :=
  (congrArg State.round (s.sckRises_frame b) :)
@[simp] theorem State.sckRises_failCount (s : State) (b : Bool) : (s.sckRises b).failCount = s.failCount :=
  (congrArg State.failCount (s.sckRises_frame b) :)
@[simp] theorem State.sckRises_tx (s : State) (b : Bool) : (s.sckRises b).tx = s.tx :=
  (congrArg State.tx (s.sckRises_frame b) :)
@[simp] theorem State.sckRises_handover (s : State) (b : Bool) : (s.sckRises b).handover = s.handover :=
  (congrArg State.handover (s.sckRises_frame b) :)
@[simp] theorem State.sckRises_replies (s : State) (b : Bool) : (s.sckRises b).replies = s.replies :=
  (congrArg State.replies (s.sckRises_frame b) :)
@[simp] theorem State.sckRises_rrConsumer (s : State) (b : Bool) : (s.sckRises b).rrConsumer = s.rrConsumer :=
  (congrArg State.rrConsumer (s.sckRises_frame b) :)
@[simp] theorem State.sckRises_rrProducer (s : State) (b : Bool) : (s.sckRises b).rrProducer = s.rrProducer :=
  (congrArg State.rrProducer (s.sckRises_frame b) :)
@[simp] theorem State.sckRises_station (s : State) (b : Bool) : (s.sckRises b).station = s.station :=
  (congrArg State.station (s.sckRises_frame b) :)
@[simp] theorem State.sckRises_params (s : State) (b : Bool) : (s.sckRises b).params = s.params :=
  (congrArg State.params (s.sckRises_frame b) :)
@[simp] theorem State.sckRises_stationNo (s : State) (b : Bool) : (s.sckRises b).stationNo = s.stationNo :=
  (congrArg State.stationNo (s.sckRises_frame b) :)
@[simp] theorem State.sckRises_rate (s : State) (b : Bool) : (s.sckRises b).rate = s.rate :=
  (congrArg State.rate (s.sckRises_frame b) :)
@[simp] theorem State.sckRises_quiet (s : State) (b : Bool) : (s.sckRises b).quiet = s.quiet :=
  (congrArg State.quiet (s.sckRises_frame b) :)
@[simp] theorem State.sckRises_msPhase (s : State) (b : Bool) : (s.sckRises b).msPhase = s.msPhase :=
  (congrArg State.msPhase (s.sckRises_frame b) :)
@[simp] theorem State.sckRises_rstnLow (s : State) (b : Bool) : (s.sckRises b).rstnLow = s.rstnLow :=
  (congrArg State.rstnLow (s.sckRises_frame b) :)
@[simp] theorem State.sckRises_power (s : State) (b : Bool) : (s.sckRises b).power = s.power :=
  (congrArg State.power (s.sckRises_frame b) :)
@[simp] theorem State.sckRises_misoDraws (s : State) (b : Bool) : (s.sckRises b).misoDraws = s.misoDraws :=
  (congrArg State.misoDraws (s.sckRises_frame b) :)
@[simp] theorem State.sckRises_pins (s : State) (b : Bool) : (s.sckRises b).pins = s.pins :=
  (congrArg State.pins (s.sckRises_frame b) :)

/-! ### nextAnswerBit -/

theorem State.nextAnswerBit_frame (s : State) (c : ReadCmd) :
    s.nextAnswerBit c = { s with port := (s.nextAnswerBit c).port, pending := (s.nextAnswerBit c).pending } := by
  apply State.ext <;> first
    | rfl
    | (dsimp only [State.nextAnswerBit]; (repeat' split) <;> simp)

@[simp] theorem State.nextAnswerBit_mem (s : State) (c : ReadCmd) : (s.nextAnswerBit c).mem = s.mem :=
  (congrArg State.mem (s.nextAnswerBit_frame c) :)
@[simp] theorem State.nextAnswerBit_entries (s : State) (c : ReadCmd) : (s.nextAnswerBit c).entries = s.entries :=
  (congrArg State.entries (s.nextAnswerBit_frame c) :)
@[simp] theorem State.nextAnswerBit_poolFree (s : State) (c : ReadCmd) : (s.nextAnswerBit c).poolFree = s.poolFree :=
  (congrArg State.poolFree (s.nextAnswerBit_frame c) :)
@[simp] theorem State.nextAnswerBit_items (s : State) (c : ReadCmd) : (s.nextAnswerBit c).items = s.items :=
  (congrArg State.items (s.nextAnswerBit_frame c) :)
@[simp] theorem State.nextAnswerBit_noticeQueue (s : State) (c : ReadCmd) : (s.nextAnswerBit c).noticeQueue = s.noticeQueue :=
  (congrArg State.noticeQueue (s.nextAnswerBit_frame c) :)
@[simp] theorem State.nextAnswerBit_rx (s : State) (c : ReadCmd) : (s.nextAnswerBit c).rx = s.rx :=
  (congrArg State.rx (s.nextAnswerBit_frame c) :)
@[simp] theorem State.nextAnswerBit_line (s : State) (c : ReadCmd) : (s.nextAnswerBit c).line = s.line :=
  (congrArg State.line (s.nextAnswerBit_frame c) :)
@[simp] theorem State.nextAnswerBit_lineGap (s : State) (c : ReadCmd) : (s.nextAnswerBit c).lineGap = s.lineGap :=
  (congrArg State.lineGap (s.nextAnswerBit_frame c) :)
@[simp] theorem State.nextAnswerBit_csnAsserted (s : State) (c : ReadCmd) : (s.nextAnswerBit c).csnAsserted = s.csnAsserted :=
  (congrArg State.csnAsserted (s.nextAnswerBit_frame c) :)
@[simp] theorem State.nextAnswerBit_rxdLow (s : State) (c : ReadCmd) : (s.nextAnswerBit c).rxdLow = s.rxdLow :=
  (congrArg State.rxdLow (s.nextAnswerBit_frame c) :)
@[simp] theorem State.nextAnswerBit_rxdSteady (s : State) (c : ReadCmd) : (s.nextAnswerBit c).rxdSteady = s.rxdSteady :=
  (congrArg State.rxdSteady (s.nextAnswerBit_frame c) :)
@[simp] theorem State.nextAnswerBit_round (s : State) (c : ReadCmd) : (s.nextAnswerBit c).round = s.round :=
  (congrArg State.round (s.nextAnswerBit_frame c) :)
@[simp] theorem State.nextAnswerBit_failCount (s : State) (c : ReadCmd) : (s.nextAnswerBit c).failCount = s.failCount :=
  (congrArg State.failCount (s.nextAnswerBit_frame c) :)
@[simp] theorem State.nextAnswerBit_tx (s : State) (c : ReadCmd) : (s.nextAnswerBit c).tx = s.tx :=
  (congrArg State.tx (s.nextAnswerBit_frame c) :)
@[simp] theorem State.nextAnswerBit_handover (s : State) (c : ReadCmd) : (s.nextAnswerBit c).handover = s.handover :=
  (congrArg State.handover (s.nextAnswerBit_frame c) :)
@[simp] theorem State.nextAnswerBit_replies (s : State) (c : ReadCmd) : (s.nextAnswerBit c).replies = s.replies :=
  (congrArg State.replies (s.nextAnswerBit_frame c) :)
@[simp] theorem State.nextAnswerBit_rrConsumer (s : State) (c : ReadCmd) : (s.nextAnswerBit c).rrConsumer = s.rrConsumer :=
  (congrArg State.rrConsumer (s.nextAnswerBit_frame c) :)
@[simp] theorem State.nextAnswerBit_rrProducer (s : State) (c : ReadCmd) : (s.nextAnswerBit c).rrProducer = s.rrProducer :=
  (congrArg State.rrProducer (s.nextAnswerBit_frame c) :)
@[simp] theorem State.nextAnswerBit_station (s : State) (c : ReadCmd) : (s.nextAnswerBit c).station = s.station :=
  (congrArg State.station (s.nextAnswerBit_frame c) :)
@[simp] theorem State.nextAnswerBit_params (s : State) (c : ReadCmd) : (s.nextAnswerBit c).params = s.params :=
  (congrArg State.params (s.nextAnswerBit_frame c) :)
@[simp] theorem State.nextAnswerBit_stationNo (s : State) (c : ReadCmd) : (s.nextAnswerBit c).stationNo = s.stationNo :=
  (congrArg State.stationNo (s.nextAnswerBit_frame c) :)
@[simp] theorem State.nextAnswerBit_rate (s : State) (c : ReadCmd) : (s.nextAnswerBit c).rate = s.rate :=
  (congrArg State.rate (s.nextAnswerBit_frame c) :)
@[simp] theorem State.nextAnswerBit_quiet (s : State) (c : ReadCmd) : (s.nextAnswerBit c).quiet = s.quiet :=
  (congrArg State.quiet (s.nextAnswerBit_frame c) :)
@[simp] theorem State.nextAnswerBit_msPhase (s : State) (c : ReadCmd) : (s.nextAnswerBit c).msPhase = s.msPhase :=
  (congrArg State.msPhase (s.nextAnswerBit_frame c) :)
@[simp] theorem State.nextAnswerBit_rstnLow (s : State) (c : ReadCmd) : (s.nextAnswerBit c).rstnLow = s.rstnLow :=
  (congrArg State.rstnLow (s.nextAnswerBit_frame c) :)
@[simp] theorem State.nextAnswerBit_power (s : State) (c : ReadCmd) : (s.nextAnswerBit c).power = s.power :=
  (congrArg State.power (s.nextAnswerBit_frame c) :)
@[simp] theorem State.nextAnswerBit_misoDraws (s : State) (c : ReadCmd) : (s.nextAnswerBit c).misoDraws = s.misoDraws :=
  (congrArg State.misoDraws (s.nextAnswerBit_frame c) :)
@[simp] theorem State.nextAnswerBit_pins (s : State) (c : ReadCmd) : (s.nextAnswerBit c).pins = s.pins :=
  (congrArg State.pins (s.nextAnswerBit_frame c) :)

/-! ### sckFalls -/

theorem State.sckFalls_frame (s : State) :
    s.sckFalls = { s with port := s.sckFalls.port, misoDraws := s.sckFalls.misoDraws, pending := s.sckFalls.pending } := by
  apply State.ext <;> first
    | rfl
    | (dsimp only [State.sckFalls]; (repeat' split) <;> simp)

@[simp] theorem State.sckFalls_mem (s : State) : s.sckFalls.mem = s.mem :=
  (congrArg State.mem (s.sckFalls_frame) :)
@[simp] theorem State.sckFalls_entries (s : State) : s.sckFalls.entries = s.entries :=
  (congrArg State.entries (s.sckFalls_frame) :)
@[simp] theorem State.sckFalls_poolFree (s : State) : s.sckFalls.poolFree = s.poolFree :=
  (congrArg State.poolFree (s.sckFalls_frame) :)
@[simp] theorem State.sckFalls_items (s : State) : s.sckFalls.items = s.items :=
  (congrArg State.items (s.sckFalls_frame) :)
@[simp] theorem State.sckFalls_noticeQueue (s : State) : s.sckFalls.noticeQueue = s.noticeQueue :=
  (congrArg State.noticeQueue (s.sckFalls_frame) :)
@[simp] theorem State.sckFalls_rx (s : State) : s.sckFalls.rx = s.rx :=
  (congrArg State.rx (s.sckFalls_frame) :)
@[simp] theorem State.sckFalls_line (s : State) : s.sckFalls.line = s.line :=
  (congrArg State.line (s.sckFalls_frame) :)
@[simp] theorem State.sckFalls_lineGap (s : State) : s.sckFalls.lineGap = s.lineGap :=
  (congrArg State.lineGap (s.sckFalls_frame) :)
@[simp] theorem State.sckFalls_csnAsserted (s : State) : s.sckFalls.csnAsserted = s.csnAsserted :=
  (congrArg State.csnAsserted (s.sckFalls_frame) :)
@[simp] theorem State.sckFalls_rxdLow (s : State) : s.sckFalls.rxdLow = s.rxdLow :=
  (congrArg State.rxdLow (s.sckFalls_frame) :)
@[simp] theorem State.sckFalls_rxdSteady (s : State) : s.sckFalls.rxdSteady = s.rxdSteady :=
  (congrArg State.rxdSteady (s.sckFalls_frame) :)
@[simp] theorem State.sckFalls_round (s : State) : s.sckFalls.round = s.round :=
  (congrArg State.round (s.sckFalls_frame) :)
@[simp] theorem State.sckFalls_failCount (s : State) : s.sckFalls.failCount = s.failCount :=
  (congrArg State.failCount (s.sckFalls_frame) :)
@[simp] theorem State.sckFalls_tx (s : State) : s.sckFalls.tx = s.tx :=
  (congrArg State.tx (s.sckFalls_frame) :)
@[simp] theorem State.sckFalls_handover (s : State) : s.sckFalls.handover = s.handover :=
  (congrArg State.handover (s.sckFalls_frame) :)
@[simp] theorem State.sckFalls_replies (s : State) : s.sckFalls.replies = s.replies :=
  (congrArg State.replies (s.sckFalls_frame) :)
@[simp] theorem State.sckFalls_rrConsumer (s : State) : s.sckFalls.rrConsumer = s.rrConsumer :=
  (congrArg State.rrConsumer (s.sckFalls_frame) :)
@[simp] theorem State.sckFalls_rrProducer (s : State) : s.sckFalls.rrProducer = s.rrProducer :=
  (congrArg State.rrProducer (s.sckFalls_frame) :)
@[simp] theorem State.sckFalls_station (s : State) : s.sckFalls.station = s.station :=
  (congrArg State.station (s.sckFalls_frame) :)
@[simp] theorem State.sckFalls_params (s : State) : s.sckFalls.params = s.params :=
  (congrArg State.params (s.sckFalls_frame) :)
@[simp] theorem State.sckFalls_stationNo (s : State) : s.sckFalls.stationNo = s.stationNo :=
  (congrArg State.stationNo (s.sckFalls_frame) :)
@[simp] theorem State.sckFalls_rate (s : State) : s.sckFalls.rate = s.rate :=
  (congrArg State.rate (s.sckFalls_frame) :)
@[simp] theorem State.sckFalls_quiet (s : State) : s.sckFalls.quiet = s.quiet :=
  (congrArg State.quiet (s.sckFalls_frame) :)
@[simp] theorem State.sckFalls_msPhase (s : State) : s.sckFalls.msPhase = s.msPhase :=
  (congrArg State.msPhase (s.sckFalls_frame) :)
@[simp] theorem State.sckFalls_rstnLow (s : State) : s.sckFalls.rstnLow = s.rstnLow :=
  (congrArg State.rstnLow (s.sckFalls_frame) :)
@[simp] theorem State.sckFalls_power (s : State) : s.sckFalls.power = s.power :=
  (congrArg State.power (s.sckFalls_frame) :)
@[simp] theorem State.sckFalls_pins (s : State) : s.sckFalls.pins = s.pins :=
  (congrArg State.pins (s.sckFalls_frame) :)

/-! ### ssnFalls -/

theorem State.ssnFalls_frame (s : State) :
    s.ssnFalls = { s with port := s.ssnFalls.port } := by
  apply State.ext <;> first
    | rfl
    | (dsimp only [State.ssnFalls]; (repeat' split) <;> simp)

@[simp] theorem State.ssnFalls_mem (s : State) : s.ssnFalls.mem = s.mem :=
  (congrArg State.mem (s.ssnFalls_frame) :)
@[simp] theorem State.ssnFalls_entries (s : State) : s.ssnFalls.entries = s.entries :=
  (congrArg State.entries (s.ssnFalls_frame) :)
@[simp] theorem State.ssnFalls_poolFree (s : State) : s.ssnFalls.poolFree = s.poolFree :=
  (congrArg State.poolFree (s.ssnFalls_frame) :)
@[simp] theorem State.ssnFalls_items (s : State) : s.ssnFalls.items = s.items :=
  (congrArg State.items (s.ssnFalls_frame) :)
@[simp] theorem State.ssnFalls_noticeQueue (s : State) : s.ssnFalls.noticeQueue = s.noticeQueue :=
  (congrArg State.noticeQueue (s.ssnFalls_frame) :)
@[simp] theorem State.ssnFalls_rx (s : State) : s.ssnFalls.rx = s.rx :=
  (congrArg State.rx (s.ssnFalls_frame) :)
@[simp] theorem State.ssnFalls_line (s : State) : s.ssnFalls.line = s.line :=
  (congrArg State.line (s.ssnFalls_frame) :)
@[simp] theorem State.ssnFalls_lineGap (s : State) : s.ssnFalls.lineGap = s.lineGap :=
  (congrArg State.lineGap (s.ssnFalls_frame) :)
@[simp] theorem State.ssnFalls_csnAsserted (s : State) : s.ssnFalls.csnAsserted = s.csnAsserted :=
  (congrArg State.csnAsserted (s.ssnFalls_frame) :)
@[simp] theorem State.ssnFalls_rxdLow (s : State) : s.ssnFalls.rxdLow = s.rxdLow :=
  (congrArg State.rxdLow (s.ssnFalls_frame) :)
@[simp] theorem State.ssnFalls_rxdSteady (s : State) : s.ssnFalls.rxdSteady = s.rxdSteady :=
  (congrArg State.rxdSteady (s.ssnFalls_frame) :)
@[simp] theorem State.ssnFalls_round (s : State) : s.ssnFalls.round = s.round :=
  (congrArg State.round (s.ssnFalls_frame) :)
@[simp] theorem State.ssnFalls_failCount (s : State) : s.ssnFalls.failCount = s.failCount :=
  (congrArg State.failCount (s.ssnFalls_frame) :)
@[simp] theorem State.ssnFalls_tx (s : State) : s.ssnFalls.tx = s.tx :=
  (congrArg State.tx (s.ssnFalls_frame) :)
@[simp] theorem State.ssnFalls_handover (s : State) : s.ssnFalls.handover = s.handover :=
  (congrArg State.handover (s.ssnFalls_frame) :)
@[simp] theorem State.ssnFalls_replies (s : State) : s.ssnFalls.replies = s.replies :=
  (congrArg State.replies (s.ssnFalls_frame) :)
@[simp] theorem State.ssnFalls_rrConsumer (s : State) : s.ssnFalls.rrConsumer = s.rrConsumer :=
  (congrArg State.rrConsumer (s.ssnFalls_frame) :)
@[simp] theorem State.ssnFalls_rrProducer (s : State) : s.ssnFalls.rrProducer = s.rrProducer :=
  (congrArg State.rrProducer (s.ssnFalls_frame) :)
@[simp] theorem State.ssnFalls_station (s : State) : s.ssnFalls.station = s.station :=
  (congrArg State.station (s.ssnFalls_frame) :)
@[simp] theorem State.ssnFalls_params (s : State) : s.ssnFalls.params = s.params :=
  (congrArg State.params (s.ssnFalls_frame) :)
@[simp] theorem State.ssnFalls_stationNo (s : State) : s.ssnFalls.stationNo = s.stationNo :=
  (congrArg State.stationNo (s.ssnFalls_frame) :)
@[simp] theorem State.ssnFalls_rate (s : State) : s.ssnFalls.rate = s.rate :=
  (congrArg State.rate (s.ssnFalls_frame) :)
@[simp] theorem State.ssnFalls_quiet (s : State) : s.ssnFalls.quiet = s.quiet :=
  (congrArg State.quiet (s.ssnFalls_frame) :)
@[simp] theorem State.ssnFalls_msPhase (s : State) : s.ssnFalls.msPhase = s.msPhase :=
  (congrArg State.msPhase (s.ssnFalls_frame) :)
@[simp] theorem State.ssnFalls_rstnLow (s : State) : s.ssnFalls.rstnLow = s.rstnLow :=
  (congrArg State.rstnLow (s.ssnFalls_frame) :)
@[simp] theorem State.ssnFalls_power (s : State) : s.ssnFalls.power = s.power :=
  (congrArg State.power (s.ssnFalls_frame) :)
@[simp] theorem State.ssnFalls_misoDraws (s : State) : s.ssnFalls.misoDraws = s.misoDraws :=
  (congrArg State.misoDraws (s.ssnFalls_frame) :)
@[simp] theorem State.ssnFalls_pins (s : State) : s.ssnFalls.pins = s.pins :=
  (congrArg State.pins (s.ssnFalls_frame) :)
@[simp] theorem State.ssnFalls_pending (s : State) : s.ssnFalls.pending = s.pending :=
  (congrArg State.pending (s.ssnFalls_frame) :)

/-! ### framingEnds -/

theorem State.framingEnds_frame (s : State) (sa : Station) (rs : RateCode) :
    s.framingEnds sa rs = { s with port := (s.framingEnds sa rs).port, pending := (s.framingEnds sa rs).pending } := by
  apply State.ext <;> first
    | rfl
    | (dsimp only [State.framingEnds]; (repeat' split) <;> simp)

@[simp] theorem State.framingEnds_mem (s : State) (sa : Station) (rs : RateCode) : (s.framingEnds sa rs).mem = s.mem :=
  (congrArg State.mem (s.framingEnds_frame sa rs) :)
@[simp] theorem State.framingEnds_entries (s : State) (sa : Station) (rs : RateCode) : (s.framingEnds sa rs).entries = s.entries :=
  (congrArg State.entries (s.framingEnds_frame sa rs) :)
@[simp] theorem State.framingEnds_poolFree (s : State) (sa : Station) (rs : RateCode) : (s.framingEnds sa rs).poolFree = s.poolFree :=
  (congrArg State.poolFree (s.framingEnds_frame sa rs) :)
@[simp] theorem State.framingEnds_items (s : State) (sa : Station) (rs : RateCode) : (s.framingEnds sa rs).items = s.items :=
  (congrArg State.items (s.framingEnds_frame sa rs) :)
@[simp] theorem State.framingEnds_noticeQueue (s : State) (sa : Station) (rs : RateCode) : (s.framingEnds sa rs).noticeQueue = s.noticeQueue :=
  (congrArg State.noticeQueue (s.framingEnds_frame sa rs) :)
@[simp] theorem State.framingEnds_rx (s : State) (sa : Station) (rs : RateCode) : (s.framingEnds sa rs).rx = s.rx :=
  (congrArg State.rx (s.framingEnds_frame sa rs) :)
@[simp] theorem State.framingEnds_line (s : State) (sa : Station) (rs : RateCode) : (s.framingEnds sa rs).line = s.line :=
  (congrArg State.line (s.framingEnds_frame sa rs) :)
@[simp] theorem State.framingEnds_lineGap (s : State) (sa : Station) (rs : RateCode) : (s.framingEnds sa rs).lineGap = s.lineGap :=
  (congrArg State.lineGap (s.framingEnds_frame sa rs) :)
@[simp] theorem State.framingEnds_csnAsserted (s : State) (sa : Station) (rs : RateCode) : (s.framingEnds sa rs).csnAsserted = s.csnAsserted :=
  (congrArg State.csnAsserted (s.framingEnds_frame sa rs) :)
@[simp] theorem State.framingEnds_rxdLow (s : State) (sa : Station) (rs : RateCode) : (s.framingEnds sa rs).rxdLow = s.rxdLow :=
  (congrArg State.rxdLow (s.framingEnds_frame sa rs) :)
@[simp] theorem State.framingEnds_rxdSteady (s : State) (sa : Station) (rs : RateCode) : (s.framingEnds sa rs).rxdSteady = s.rxdSteady :=
  (congrArg State.rxdSteady (s.framingEnds_frame sa rs) :)
@[simp] theorem State.framingEnds_round (s : State) (sa : Station) (rs : RateCode) : (s.framingEnds sa rs).round = s.round :=
  (congrArg State.round (s.framingEnds_frame sa rs) :)
@[simp] theorem State.framingEnds_failCount (s : State) (sa : Station) (rs : RateCode) : (s.framingEnds sa rs).failCount = s.failCount :=
  (congrArg State.failCount (s.framingEnds_frame sa rs) :)
@[simp] theorem State.framingEnds_tx (s : State) (sa : Station) (rs : RateCode) : (s.framingEnds sa rs).tx = s.tx :=
  (congrArg State.tx (s.framingEnds_frame sa rs) :)
@[simp] theorem State.framingEnds_handover (s : State) (sa : Station) (rs : RateCode) : (s.framingEnds sa rs).handover = s.handover :=
  (congrArg State.handover (s.framingEnds_frame sa rs) :)
@[simp] theorem State.framingEnds_replies (s : State) (sa : Station) (rs : RateCode) : (s.framingEnds sa rs).replies = s.replies :=
  (congrArg State.replies (s.framingEnds_frame sa rs) :)
@[simp] theorem State.framingEnds_rrConsumer (s : State) (sa : Station) (rs : RateCode) : (s.framingEnds sa rs).rrConsumer = s.rrConsumer :=
  (congrArg State.rrConsumer (s.framingEnds_frame sa rs) :)
@[simp] theorem State.framingEnds_rrProducer (s : State) (sa : Station) (rs : RateCode) : (s.framingEnds sa rs).rrProducer = s.rrProducer :=
  (congrArg State.rrProducer (s.framingEnds_frame sa rs) :)
@[simp] theorem State.framingEnds_station (s : State) (sa : Station) (rs : RateCode) : (s.framingEnds sa rs).station = s.station :=
  (congrArg State.station (s.framingEnds_frame sa rs) :)
@[simp] theorem State.framingEnds_params (s : State) (sa : Station) (rs : RateCode) : (s.framingEnds sa rs).params = s.params :=
  (congrArg State.params (s.framingEnds_frame sa rs) :)
@[simp] theorem State.framingEnds_stationNo (s : State) (sa : Station) (rs : RateCode) : (s.framingEnds sa rs).stationNo = s.stationNo :=
  (congrArg State.stationNo (s.framingEnds_frame sa rs) :)
@[simp] theorem State.framingEnds_rate (s : State) (sa : Station) (rs : RateCode) : (s.framingEnds sa rs).rate = s.rate :=
  (congrArg State.rate (s.framingEnds_frame sa rs) :)
@[simp] theorem State.framingEnds_quiet (s : State) (sa : Station) (rs : RateCode) : (s.framingEnds sa rs).quiet = s.quiet :=
  (congrArg State.quiet (s.framingEnds_frame sa rs) :)
@[simp] theorem State.framingEnds_msPhase (s : State) (sa : Station) (rs : RateCode) : (s.framingEnds sa rs).msPhase = s.msPhase :=
  (congrArg State.msPhase (s.framingEnds_frame sa rs) :)
@[simp] theorem State.framingEnds_rstnLow (s : State) (sa : Station) (rs : RateCode) : (s.framingEnds sa rs).rstnLow = s.rstnLow :=
  (congrArg State.rstnLow (s.framingEnds_frame sa rs) :)
@[simp] theorem State.framingEnds_power (s : State) (sa : Station) (rs : RateCode) : (s.framingEnds sa rs).power = s.power :=
  (congrArg State.power (s.framingEnds_frame sa rs) :)
@[simp] theorem State.framingEnds_misoDraws (s : State) (sa : Station) (rs : RateCode) : (s.framingEnds sa rs).misoDraws = s.misoDraws :=
  (congrArg State.misoDraws (s.framingEnds_frame sa rs) :)
@[simp] theorem State.framingEnds_pins (s : State) (sa : Station) (rs : RateCode) : (s.framingEnds sa rs).pins = s.pins :=
  (congrArg State.pins (s.framingEnds_frame sa rs) :)

/-! ### ssnRises -/

theorem State.ssnRises_frame (s : State) (sa : Station) (rs : RateCode) :
    s.ssnRises sa rs = { s with port := (s.ssnRises sa rs).port, pending := (s.ssnRises sa rs).pending } := by
  apply State.ext <;> first
    | rfl
    | (dsimp only [State.ssnRises]; (repeat' split) <;> simp)

@[simp] theorem State.ssnRises_mem (s : State) (sa : Station) (rs : RateCode) : (s.ssnRises sa rs).mem = s.mem :=
  (congrArg State.mem (s.ssnRises_frame sa rs) :)
@[simp] theorem State.ssnRises_entries (s : State) (sa : Station) (rs : RateCode) : (s.ssnRises sa rs).entries = s.entries :=
  (congrArg State.entries (s.ssnRises_frame sa rs) :)
@[simp] theorem State.ssnRises_poolFree (s : State) (sa : Station) (rs : RateCode) : (s.ssnRises sa rs).poolFree = s.poolFree :=
  (congrArg State.poolFree (s.ssnRises_frame sa rs) :)
@[simp] theorem State.ssnRises_items (s : State) (sa : Station) (rs : RateCode) : (s.ssnRises sa rs).items = s.items :=
  (congrArg State.items (s.ssnRises_frame sa rs) :)
@[simp] theorem State.ssnRises_noticeQueue (s : State) (sa : Station) (rs : RateCode) : (s.ssnRises sa rs).noticeQueue = s.noticeQueue :=
  (congrArg State.noticeQueue (s.ssnRises_frame sa rs) :)
@[simp] theorem State.ssnRises_rx (s : State) (sa : Station) (rs : RateCode) : (s.ssnRises sa rs).rx = s.rx :=
  (congrArg State.rx (s.ssnRises_frame sa rs) :)
@[simp] theorem State.ssnRises_line (s : State) (sa : Station) (rs : RateCode) : (s.ssnRises sa rs).line = s.line :=
  (congrArg State.line (s.ssnRises_frame sa rs) :)
@[simp] theorem State.ssnRises_lineGap (s : State) (sa : Station) (rs : RateCode) : (s.ssnRises sa rs).lineGap = s.lineGap :=
  (congrArg State.lineGap (s.ssnRises_frame sa rs) :)
@[simp] theorem State.ssnRises_csnAsserted (s : State) (sa : Station) (rs : RateCode) : (s.ssnRises sa rs).csnAsserted = s.csnAsserted :=
  (congrArg State.csnAsserted (s.ssnRises_frame sa rs) :)
@[simp] theorem State.ssnRises_rxdLow (s : State) (sa : Station) (rs : RateCode) : (s.ssnRises sa rs).rxdLow = s.rxdLow :=
  (congrArg State.rxdLow (s.ssnRises_frame sa rs) :)
@[simp] theorem State.ssnRises_rxdSteady (s : State) (sa : Station) (rs : RateCode) : (s.ssnRises sa rs).rxdSteady = s.rxdSteady :=
  (congrArg State.rxdSteady (s.ssnRises_frame sa rs) :)
@[simp] theorem State.ssnRises_round (s : State) (sa : Station) (rs : RateCode) : (s.ssnRises sa rs).round = s.round :=
  (congrArg State.round (s.ssnRises_frame sa rs) :)
@[simp] theorem State.ssnRises_failCount (s : State) (sa : Station) (rs : RateCode) : (s.ssnRises sa rs).failCount = s.failCount :=
  (congrArg State.failCount (s.ssnRises_frame sa rs) :)
@[simp] theorem State.ssnRises_tx (s : State) (sa : Station) (rs : RateCode) : (s.ssnRises sa rs).tx = s.tx :=
  (congrArg State.tx (s.ssnRises_frame sa rs) :)
@[simp] theorem State.ssnRises_handover (s : State) (sa : Station) (rs : RateCode) : (s.ssnRises sa rs).handover = s.handover :=
  (congrArg State.handover (s.ssnRises_frame sa rs) :)
@[simp] theorem State.ssnRises_replies (s : State) (sa : Station) (rs : RateCode) : (s.ssnRises sa rs).replies = s.replies :=
  (congrArg State.replies (s.ssnRises_frame sa rs) :)
@[simp] theorem State.ssnRises_rrConsumer (s : State) (sa : Station) (rs : RateCode) : (s.ssnRises sa rs).rrConsumer = s.rrConsumer :=
  (congrArg State.rrConsumer (s.ssnRises_frame sa rs) :)
@[simp] theorem State.ssnRises_rrProducer (s : State) (sa : Station) (rs : RateCode) : (s.ssnRises sa rs).rrProducer = s.rrProducer :=
  (congrArg State.rrProducer (s.ssnRises_frame sa rs) :)
@[simp] theorem State.ssnRises_station (s : State) (sa : Station) (rs : RateCode) : (s.ssnRises sa rs).station = s.station :=
  (congrArg State.station (s.ssnRises_frame sa rs) :)
@[simp] theorem State.ssnRises_params (s : State) (sa : Station) (rs : RateCode) : (s.ssnRises sa rs).params = s.params :=
  (congrArg State.params (s.ssnRises_frame sa rs) :)
@[simp] theorem State.ssnRises_stationNo (s : State) (sa : Station) (rs : RateCode) : (s.ssnRises sa rs).stationNo = s.stationNo :=
  (congrArg State.stationNo (s.ssnRises_frame sa rs) :)
@[simp] theorem State.ssnRises_rate (s : State) (sa : Station) (rs : RateCode) : (s.ssnRises sa rs).rate = s.rate :=
  (congrArg State.rate (s.ssnRises_frame sa rs) :)
@[simp] theorem State.ssnRises_quiet (s : State) (sa : Station) (rs : RateCode) : (s.ssnRises sa rs).quiet = s.quiet :=
  (congrArg State.quiet (s.ssnRises_frame sa rs) :)
@[simp] theorem State.ssnRises_msPhase (s : State) (sa : Station) (rs : RateCode) : (s.ssnRises sa rs).msPhase = s.msPhase :=
  (congrArg State.msPhase (s.ssnRises_frame sa rs) :)
@[simp] theorem State.ssnRises_rstnLow (s : State) (sa : Station) (rs : RateCode) : (s.ssnRises sa rs).rstnLow = s.rstnLow :=
  (congrArg State.rstnLow (s.ssnRises_frame sa rs) :)
@[simp] theorem State.ssnRises_power (s : State) (sa : Station) (rs : RateCode) : (s.ssnRises sa rs).power = s.power :=
  (congrArg State.power (s.ssnRises_frame sa rs) :)
@[simp] theorem State.ssnRises_misoDraws (s : State) (sa : Station) (rs : RateCode) : (s.ssnRises sa rs).misoDraws = s.misoDraws :=
  (congrArg State.misoDraws (s.ssnRises_frame sa rs) :)
@[simp] theorem State.ssnRises_pins (s : State) (sa : Station) (rs : RateCode) : (s.ssnRises sa rs).pins = s.pins :=
  (congrArg State.pins (s.ssnRises_frame sa rs) :)

/-! ### rxdFalls -/

theorem State.rxdFalls_frame (s : State) :
    s.rxdFalls = { s with rx := s.rxdFalls.rx, rxdLow := s.rxdFalls.rxdLow, rxdSteady := s.rxdFalls.rxdSteady } := by
  apply State.ext <;> first
    | rfl
    | (dsimp only [State.rxdFalls]; (repeat' split) <;> simp)

@[simp] theorem State.rxdFalls_mem (s : State) : s.rxdFalls.mem = s.mem :=
  (congrArg State.mem (s.rxdFalls_frame) :)
@[simp] theorem State.rxdFalls_entries (s : State) : s.rxdFalls.entries = s.entries :=
  (congrArg State.entries (s.rxdFalls_frame) :)
@[simp] theorem State.rxdFalls_poolFree (s : State) : s.rxdFalls.poolFree = s.poolFree :=
  (congrArg State.poolFree (s.rxdFalls_frame) :)
@[simp] theorem State.rxdFalls_items (s : State) : s.rxdFalls.items = s.items :=
  (congrArg State.items (s.rxdFalls_frame) :)
@[simp] theorem State.rxdFalls_noticeQueue (s : State) : s.rxdFalls.noticeQueue = s.noticeQueue :=
  (congrArg State.noticeQueue (s.rxdFalls_frame) :)
@[simp] theorem State.rxdFalls_line (s : State) : s.rxdFalls.line = s.line :=
  (congrArg State.line (s.rxdFalls_frame) :)
@[simp] theorem State.rxdFalls_lineGap (s : State) : s.rxdFalls.lineGap = s.lineGap :=
  (congrArg State.lineGap (s.rxdFalls_frame) :)
@[simp] theorem State.rxdFalls_csnAsserted (s : State) : s.rxdFalls.csnAsserted = s.csnAsserted :=
  (congrArg State.csnAsserted (s.rxdFalls_frame) :)
@[simp] theorem State.rxdFalls_round (s : State) : s.rxdFalls.round = s.round :=
  (congrArg State.round (s.rxdFalls_frame) :)
@[simp] theorem State.rxdFalls_failCount (s : State) : s.rxdFalls.failCount = s.failCount :=
  (congrArg State.failCount (s.rxdFalls_frame) :)
@[simp] theorem State.rxdFalls_tx (s : State) : s.rxdFalls.tx = s.tx :=
  (congrArg State.tx (s.rxdFalls_frame) :)
@[simp] theorem State.rxdFalls_handover (s : State) : s.rxdFalls.handover = s.handover :=
  (congrArg State.handover (s.rxdFalls_frame) :)
@[simp] theorem State.rxdFalls_replies (s : State) : s.rxdFalls.replies = s.replies :=
  (congrArg State.replies (s.rxdFalls_frame) :)
@[simp] theorem State.rxdFalls_rrConsumer (s : State) : s.rxdFalls.rrConsumer = s.rrConsumer :=
  (congrArg State.rrConsumer (s.rxdFalls_frame) :)
@[simp] theorem State.rxdFalls_rrProducer (s : State) : s.rxdFalls.rrProducer = s.rrProducer :=
  (congrArg State.rrProducer (s.rxdFalls_frame) :)
@[simp] theorem State.rxdFalls_station (s : State) : s.rxdFalls.station = s.station :=
  (congrArg State.station (s.rxdFalls_frame) :)
@[simp] theorem State.rxdFalls_params (s : State) : s.rxdFalls.params = s.params :=
  (congrArg State.params (s.rxdFalls_frame) :)
@[simp] theorem State.rxdFalls_stationNo (s : State) : s.rxdFalls.stationNo = s.stationNo :=
  (congrArg State.stationNo (s.rxdFalls_frame) :)
@[simp] theorem State.rxdFalls_rate (s : State) : s.rxdFalls.rate = s.rate :=
  (congrArg State.rate (s.rxdFalls_frame) :)
@[simp] theorem State.rxdFalls_quiet (s : State) : s.rxdFalls.quiet = s.quiet :=
  (congrArg State.quiet (s.rxdFalls_frame) :)
@[simp] theorem State.rxdFalls_msPhase (s : State) : s.rxdFalls.msPhase = s.msPhase :=
  (congrArg State.msPhase (s.rxdFalls_frame) :)
@[simp] theorem State.rxdFalls_rstnLow (s : State) : s.rxdFalls.rstnLow = s.rstnLow :=
  (congrArg State.rstnLow (s.rxdFalls_frame) :)
@[simp] theorem State.rxdFalls_power (s : State) : s.rxdFalls.power = s.power :=
  (congrArg State.power (s.rxdFalls_frame) :)
@[simp] theorem State.rxdFalls_port (s : State) : s.rxdFalls.port = s.port :=
  (congrArg State.port (s.rxdFalls_frame) :)
@[simp] theorem State.rxdFalls_misoDraws (s : State) : s.rxdFalls.misoDraws = s.misoDraws :=
  (congrArg State.misoDraws (s.rxdFalls_frame) :)
@[simp] theorem State.rxdFalls_pins (s : State) : s.rxdFalls.pins = s.pins :=
  (congrArg State.pins (s.rxdFalls_frame) :)
@[simp] theorem State.rxdFalls_pending (s : State) : s.rxdFalls.pending = s.pending :=
  (congrArg State.pending (s.rxdFalls_frame) :)

/-! ### rxdReturns -/

theorem State.rxdReturns_frame (s : State) :
    s.rxdReturns = { s with rxdLow := s.rxdReturns.rxdLow } := rfl

@[simp] theorem State.rxdReturns_mem (s : State) : s.rxdReturns.mem = s.mem :=
  (congrArg State.mem (s.rxdReturns_frame) :)
@[simp] theorem State.rxdReturns_entries (s : State) : s.rxdReturns.entries = s.entries :=
  (congrArg State.entries (s.rxdReturns_frame) :)
@[simp] theorem State.rxdReturns_poolFree (s : State) : s.rxdReturns.poolFree = s.poolFree :=
  (congrArg State.poolFree (s.rxdReturns_frame) :)
@[simp] theorem State.rxdReturns_items (s : State) : s.rxdReturns.items = s.items :=
  (congrArg State.items (s.rxdReturns_frame) :)
@[simp] theorem State.rxdReturns_noticeQueue (s : State) : s.rxdReturns.noticeQueue = s.noticeQueue :=
  (congrArg State.noticeQueue (s.rxdReturns_frame) :)
@[simp] theorem State.rxdReturns_rx (s : State) : s.rxdReturns.rx = s.rx :=
  (congrArg State.rx (s.rxdReturns_frame) :)
@[simp] theorem State.rxdReturns_line (s : State) : s.rxdReturns.line = s.line :=
  (congrArg State.line (s.rxdReturns_frame) :)
@[simp] theorem State.rxdReturns_lineGap (s : State) : s.rxdReturns.lineGap = s.lineGap :=
  (congrArg State.lineGap (s.rxdReturns_frame) :)
@[simp] theorem State.rxdReturns_csnAsserted (s : State) : s.rxdReturns.csnAsserted = s.csnAsserted :=
  (congrArg State.csnAsserted (s.rxdReturns_frame) :)
@[simp] theorem State.rxdReturns_rxdSteady (s : State) : s.rxdReturns.rxdSteady = s.rxdSteady :=
  (congrArg State.rxdSteady (s.rxdReturns_frame) :)
@[simp] theorem State.rxdReturns_round (s : State) : s.rxdReturns.round = s.round :=
  (congrArg State.round (s.rxdReturns_frame) :)
@[simp] theorem State.rxdReturns_failCount (s : State) : s.rxdReturns.failCount = s.failCount :=
  (congrArg State.failCount (s.rxdReturns_frame) :)
@[simp] theorem State.rxdReturns_tx (s : State) : s.rxdReturns.tx = s.tx :=
  (congrArg State.tx (s.rxdReturns_frame) :)
@[simp] theorem State.rxdReturns_handover (s : State) : s.rxdReturns.handover = s.handover :=
  (congrArg State.handover (s.rxdReturns_frame) :)
@[simp] theorem State.rxdReturns_replies (s : State) : s.rxdReturns.replies = s.replies :=
  (congrArg State.replies (s.rxdReturns_frame) :)
@[simp] theorem State.rxdReturns_rrConsumer (s : State) : s.rxdReturns.rrConsumer = s.rrConsumer :=
  (congrArg State.rrConsumer (s.rxdReturns_frame) :)
@[simp] theorem State.rxdReturns_rrProducer (s : State) : s.rxdReturns.rrProducer = s.rrProducer :=
  (congrArg State.rrProducer (s.rxdReturns_frame) :)
@[simp] theorem State.rxdReturns_station (s : State) : s.rxdReturns.station = s.station :=
  (congrArg State.station (s.rxdReturns_frame) :)
@[simp] theorem State.rxdReturns_params (s : State) : s.rxdReturns.params = s.params :=
  (congrArg State.params (s.rxdReturns_frame) :)
@[simp] theorem State.rxdReturns_stationNo (s : State) : s.rxdReturns.stationNo = s.stationNo :=
  (congrArg State.stationNo (s.rxdReturns_frame) :)
@[simp] theorem State.rxdReturns_rate (s : State) : s.rxdReturns.rate = s.rate :=
  (congrArg State.rate (s.rxdReturns_frame) :)
@[simp] theorem State.rxdReturns_quiet (s : State) : s.rxdReturns.quiet = s.quiet :=
  (congrArg State.quiet (s.rxdReturns_frame) :)
@[simp] theorem State.rxdReturns_msPhase (s : State) : s.rxdReturns.msPhase = s.msPhase :=
  (congrArg State.msPhase (s.rxdReturns_frame) :)
@[simp] theorem State.rxdReturns_rstnLow (s : State) : s.rxdReturns.rstnLow = s.rstnLow :=
  (congrArg State.rstnLow (s.rxdReturns_frame) :)
@[simp] theorem State.rxdReturns_power (s : State) : s.rxdReturns.power = s.power :=
  (congrArg State.power (s.rxdReturns_frame) :)
@[simp] theorem State.rxdReturns_port (s : State) : s.rxdReturns.port = s.port :=
  (congrArg State.port (s.rxdReturns_frame) :)
@[simp] theorem State.rxdReturns_misoDraws (s : State) : s.rxdReturns.misoDraws = s.misoDraws :=
  (congrArg State.misoDraws (s.rxdReturns_frame) :)
@[simp] theorem State.rxdReturns_pins (s : State) : s.rxdReturns.pins = s.pins :=
  (congrArg State.pins (s.rxdReturns_frame) :)
@[simp] theorem State.rxdReturns_pending (s : State) : s.rxdReturns.pending = s.pending :=
  (congrArg State.pending (s.rxdReturns_frame) :)

/-! ### csnAsserts -/

theorem State.csnAsserts_frame (s : State) :
    s.csnAsserts = { s with csnAsserted := s.csnAsserts.csnAsserted, pending := s.csnAsserts.pending } := by
  apply State.ext <;> first
    | rfl
    | (dsimp only [State.csnAsserts]; (repeat' split) <;> simp)

@[simp] theorem State.csnAsserts_mem (s : State) : s.csnAsserts.mem = s.mem :=
  (congrArg State.mem (s.csnAsserts_frame) :)
@[simp] theorem State.csnAsserts_entries (s : State) : s.csnAsserts.entries = s.entries :=
  (congrArg State.entries (s.csnAsserts_frame) :)
@[simp] theorem State.csnAsserts_poolFree (s : State) : s.csnAsserts.poolFree = s.poolFree :=
  (congrArg State.poolFree (s.csnAsserts_frame) :)
@[simp] theorem State.csnAsserts_items (s : State) : s.csnAsserts.items = s.items :=
  (congrArg State.items (s.csnAsserts_frame) :)
@[simp] theorem State.csnAsserts_noticeQueue (s : State) : s.csnAsserts.noticeQueue = s.noticeQueue :=
  (congrArg State.noticeQueue (s.csnAsserts_frame) :)
@[simp] theorem State.csnAsserts_rx (s : State) : s.csnAsserts.rx = s.rx :=
  (congrArg State.rx (s.csnAsserts_frame) :)
@[simp] theorem State.csnAsserts_line (s : State) : s.csnAsserts.line = s.line :=
  (congrArg State.line (s.csnAsserts_frame) :)
@[simp] theorem State.csnAsserts_lineGap (s : State) : s.csnAsserts.lineGap = s.lineGap :=
  (congrArg State.lineGap (s.csnAsserts_frame) :)
@[simp] theorem State.csnAsserts_rxdLow (s : State) : s.csnAsserts.rxdLow = s.rxdLow :=
  (congrArg State.rxdLow (s.csnAsserts_frame) :)
@[simp] theorem State.csnAsserts_rxdSteady (s : State) : s.csnAsserts.rxdSteady = s.rxdSteady :=
  (congrArg State.rxdSteady (s.csnAsserts_frame) :)
@[simp] theorem State.csnAsserts_round (s : State) : s.csnAsserts.round = s.round :=
  (congrArg State.round (s.csnAsserts_frame) :)
@[simp] theorem State.csnAsserts_failCount (s : State) : s.csnAsserts.failCount = s.failCount :=
  (congrArg State.failCount (s.csnAsserts_frame) :)
@[simp] theorem State.csnAsserts_tx (s : State) : s.csnAsserts.tx = s.tx :=
  (congrArg State.tx (s.csnAsserts_frame) :)
@[simp] theorem State.csnAsserts_handover (s : State) : s.csnAsserts.handover = s.handover :=
  (congrArg State.handover (s.csnAsserts_frame) :)
@[simp] theorem State.csnAsserts_replies (s : State) : s.csnAsserts.replies = s.replies :=
  (congrArg State.replies (s.csnAsserts_frame) :)
@[simp] theorem State.csnAsserts_rrConsumer (s : State) : s.csnAsserts.rrConsumer = s.rrConsumer :=
  (congrArg State.rrConsumer (s.csnAsserts_frame) :)
@[simp] theorem State.csnAsserts_rrProducer (s : State) : s.csnAsserts.rrProducer = s.rrProducer :=
  (congrArg State.rrProducer (s.csnAsserts_frame) :)
@[simp] theorem State.csnAsserts_station (s : State) : s.csnAsserts.station = s.station :=
  (congrArg State.station (s.csnAsserts_frame) :)
@[simp] theorem State.csnAsserts_params (s : State) : s.csnAsserts.params = s.params :=
  (congrArg State.params (s.csnAsserts_frame) :)
@[simp] theorem State.csnAsserts_stationNo (s : State) : s.csnAsserts.stationNo = s.stationNo :=
  (congrArg State.stationNo (s.csnAsserts_frame) :)
@[simp] theorem State.csnAsserts_rate (s : State) : s.csnAsserts.rate = s.rate :=
  (congrArg State.rate (s.csnAsserts_frame) :)
@[simp] theorem State.csnAsserts_quiet (s : State) : s.csnAsserts.quiet = s.quiet :=
  (congrArg State.quiet (s.csnAsserts_frame) :)
@[simp] theorem State.csnAsserts_msPhase (s : State) : s.csnAsserts.msPhase = s.msPhase :=
  (congrArg State.msPhase (s.csnAsserts_frame) :)
@[simp] theorem State.csnAsserts_rstnLow (s : State) : s.csnAsserts.rstnLow = s.rstnLow :=
  (congrArg State.rstnLow (s.csnAsserts_frame) :)
@[simp] theorem State.csnAsserts_power (s : State) : s.csnAsserts.power = s.power :=
  (congrArg State.power (s.csnAsserts_frame) :)
@[simp] theorem State.csnAsserts_port (s : State) : s.csnAsserts.port = s.port :=
  (congrArg State.port (s.csnAsserts_frame) :)
@[simp] theorem State.csnAsserts_misoDraws (s : State) : s.csnAsserts.misoDraws = s.misoDraws :=
  (congrArg State.misoDraws (s.csnAsserts_frame) :)
@[simp] theorem State.csnAsserts_pins (s : State) : s.csnAsserts.pins = s.pins :=
  (congrArg State.pins (s.csnAsserts_frame) :)

/-! ### csnReleased -/

theorem State.csnReleased_frame (s : State) :
    s.csnReleased = { s with csnAsserted := s.csnReleased.csnAsserted } := rfl

@[simp] theorem State.csnReleased_mem (s : State) : s.csnReleased.mem = s.mem :=
  (congrArg State.mem (s.csnReleased_frame) :)
@[simp] theorem State.csnReleased_entries (s : State) : s.csnReleased.entries = s.entries :=
  (congrArg State.entries (s.csnReleased_frame) :)
@[simp] theorem State.csnReleased_poolFree (s : State) : s.csnReleased.poolFree = s.poolFree :=
  (congrArg State.poolFree (s.csnReleased_frame) :)
@[simp] theorem State.csnReleased_items (s : State) : s.csnReleased.items = s.items :=
  (congrArg State.items (s.csnReleased_frame) :)
@[simp] theorem State.csnReleased_noticeQueue (s : State) : s.csnReleased.noticeQueue = s.noticeQueue :=
  (congrArg State.noticeQueue (s.csnReleased_frame) :)
@[simp] theorem State.csnReleased_rx (s : State) : s.csnReleased.rx = s.rx :=
  (congrArg State.rx (s.csnReleased_frame) :)
@[simp] theorem State.csnReleased_line (s : State) : s.csnReleased.line = s.line :=
  (congrArg State.line (s.csnReleased_frame) :)
@[simp] theorem State.csnReleased_lineGap (s : State) : s.csnReleased.lineGap = s.lineGap :=
  (congrArg State.lineGap (s.csnReleased_frame) :)
@[simp] theorem State.csnReleased_rxdLow (s : State) : s.csnReleased.rxdLow = s.rxdLow :=
  (congrArg State.rxdLow (s.csnReleased_frame) :)
@[simp] theorem State.csnReleased_rxdSteady (s : State) : s.csnReleased.rxdSteady = s.rxdSteady :=
  (congrArg State.rxdSteady (s.csnReleased_frame) :)
@[simp] theorem State.csnReleased_round (s : State) : s.csnReleased.round = s.round :=
  (congrArg State.round (s.csnReleased_frame) :)
@[simp] theorem State.csnReleased_failCount (s : State) : s.csnReleased.failCount = s.failCount :=
  (congrArg State.failCount (s.csnReleased_frame) :)
@[simp] theorem State.csnReleased_tx (s : State) : s.csnReleased.tx = s.tx :=
  (congrArg State.tx (s.csnReleased_frame) :)
@[simp] theorem State.csnReleased_handover (s : State) : s.csnReleased.handover = s.handover :=
  (congrArg State.handover (s.csnReleased_frame) :)
@[simp] theorem State.csnReleased_replies (s : State) : s.csnReleased.replies = s.replies :=
  (congrArg State.replies (s.csnReleased_frame) :)
@[simp] theorem State.csnReleased_rrConsumer (s : State) : s.csnReleased.rrConsumer = s.rrConsumer :=
  (congrArg State.rrConsumer (s.csnReleased_frame) :)
@[simp] theorem State.csnReleased_rrProducer (s : State) : s.csnReleased.rrProducer = s.rrProducer :=
  (congrArg State.rrProducer (s.csnReleased_frame) :)
@[simp] theorem State.csnReleased_station (s : State) : s.csnReleased.station = s.station :=
  (congrArg State.station (s.csnReleased_frame) :)
@[simp] theorem State.csnReleased_params (s : State) : s.csnReleased.params = s.params :=
  (congrArg State.params (s.csnReleased_frame) :)
@[simp] theorem State.csnReleased_stationNo (s : State) : s.csnReleased.stationNo = s.stationNo :=
  (congrArg State.stationNo (s.csnReleased_frame) :)
@[simp] theorem State.csnReleased_rate (s : State) : s.csnReleased.rate = s.rate :=
  (congrArg State.rate (s.csnReleased_frame) :)
@[simp] theorem State.csnReleased_quiet (s : State) : s.csnReleased.quiet = s.quiet :=
  (congrArg State.quiet (s.csnReleased_frame) :)
@[simp] theorem State.csnReleased_msPhase (s : State) : s.csnReleased.msPhase = s.msPhase :=
  (congrArg State.msPhase (s.csnReleased_frame) :)
@[simp] theorem State.csnReleased_rstnLow (s : State) : s.csnReleased.rstnLow = s.rstnLow :=
  (congrArg State.rstnLow (s.csnReleased_frame) :)
@[simp] theorem State.csnReleased_power (s : State) : s.csnReleased.power = s.power :=
  (congrArg State.power (s.csnReleased_frame) :)
@[simp] theorem State.csnReleased_port (s : State) : s.csnReleased.port = s.port :=
  (congrArg State.port (s.csnReleased_frame) :)
@[simp] theorem State.csnReleased_misoDraws (s : State) : s.csnReleased.misoDraws = s.misoDraws :=
  (congrArg State.misoDraws (s.csnReleased_frame) :)
@[simp] theorem State.csnReleased_pins (s : State) : s.csnReleased.pins = s.pins :=
  (congrArg State.pins (s.csnReleased_frame) :)
@[simp] theorem State.csnReleased_pending (s : State) : s.csnReleased.pending = s.pending :=
  (congrArg State.pending (s.csnReleased_frame) :)

/-! ### clearingEnds -/

theorem State.clearingEnds_frame (s : State) :
    s.clearingEnds = { s with power := s.clearingEnds.power } := by
  apply State.ext <;> first
    | rfl
    | (dsimp only [State.clearingEnds]; (repeat' split) <;> simp)

@[simp] theorem State.clearingEnds_mem (s : State) : s.clearingEnds.mem = s.mem :=
  (congrArg State.mem (s.clearingEnds_frame) :)
@[simp] theorem State.clearingEnds_entries (s : State) : s.clearingEnds.entries = s.entries :=
  (congrArg State.entries (s.clearingEnds_frame) :)
@[simp] theorem State.clearingEnds_poolFree (s : State) : s.clearingEnds.poolFree = s.poolFree :=
  (congrArg State.poolFree (s.clearingEnds_frame) :)
@[simp] theorem State.clearingEnds_items (s : State) : s.clearingEnds.items = s.items :=
  (congrArg State.items (s.clearingEnds_frame) :)
@[simp] theorem State.clearingEnds_noticeQueue (s : State) : s.clearingEnds.noticeQueue = s.noticeQueue :=
  (congrArg State.noticeQueue (s.clearingEnds_frame) :)
@[simp] theorem State.clearingEnds_rx (s : State) : s.clearingEnds.rx = s.rx :=
  (congrArg State.rx (s.clearingEnds_frame) :)
@[simp] theorem State.clearingEnds_line (s : State) : s.clearingEnds.line = s.line :=
  (congrArg State.line (s.clearingEnds_frame) :)
@[simp] theorem State.clearingEnds_lineGap (s : State) : s.clearingEnds.lineGap = s.lineGap :=
  (congrArg State.lineGap (s.clearingEnds_frame) :)
@[simp] theorem State.clearingEnds_csnAsserted (s : State) : s.clearingEnds.csnAsserted = s.csnAsserted :=
  (congrArg State.csnAsserted (s.clearingEnds_frame) :)
@[simp] theorem State.clearingEnds_rxdLow (s : State) : s.clearingEnds.rxdLow = s.rxdLow :=
  (congrArg State.rxdLow (s.clearingEnds_frame) :)
@[simp] theorem State.clearingEnds_rxdSteady (s : State) : s.clearingEnds.rxdSteady = s.rxdSteady :=
  (congrArg State.rxdSteady (s.clearingEnds_frame) :)
@[simp] theorem State.clearingEnds_round (s : State) : s.clearingEnds.round = s.round :=
  (congrArg State.round (s.clearingEnds_frame) :)
@[simp] theorem State.clearingEnds_failCount (s : State) : s.clearingEnds.failCount = s.failCount :=
  (congrArg State.failCount (s.clearingEnds_frame) :)
@[simp] theorem State.clearingEnds_tx (s : State) : s.clearingEnds.tx = s.tx :=
  (congrArg State.tx (s.clearingEnds_frame) :)
@[simp] theorem State.clearingEnds_handover (s : State) : s.clearingEnds.handover = s.handover :=
  (congrArg State.handover (s.clearingEnds_frame) :)
@[simp] theorem State.clearingEnds_replies (s : State) : s.clearingEnds.replies = s.replies :=
  (congrArg State.replies (s.clearingEnds_frame) :)
@[simp] theorem State.clearingEnds_rrConsumer (s : State) : s.clearingEnds.rrConsumer = s.rrConsumer :=
  (congrArg State.rrConsumer (s.clearingEnds_frame) :)
@[simp] theorem State.clearingEnds_rrProducer (s : State) : s.clearingEnds.rrProducer = s.rrProducer :=
  (congrArg State.rrProducer (s.clearingEnds_frame) :)
@[simp] theorem State.clearingEnds_station (s : State) : s.clearingEnds.station = s.station :=
  (congrArg State.station (s.clearingEnds_frame) :)
@[simp] theorem State.clearingEnds_params (s : State) : s.clearingEnds.params = s.params :=
  (congrArg State.params (s.clearingEnds_frame) :)
@[simp] theorem State.clearingEnds_stationNo (s : State) : s.clearingEnds.stationNo = s.stationNo :=
  (congrArg State.stationNo (s.clearingEnds_frame) :)
@[simp] theorem State.clearingEnds_rate (s : State) : s.clearingEnds.rate = s.rate :=
  (congrArg State.rate (s.clearingEnds_frame) :)
@[simp] theorem State.clearingEnds_quiet (s : State) : s.clearingEnds.quiet = s.quiet :=
  (congrArg State.quiet (s.clearingEnds_frame) :)
@[simp] theorem State.clearingEnds_msPhase (s : State) : s.clearingEnds.msPhase = s.msPhase :=
  (congrArg State.msPhase (s.clearingEnds_frame) :)
@[simp] theorem State.clearingEnds_rstnLow (s : State) : s.clearingEnds.rstnLow = s.rstnLow :=
  (congrArg State.rstnLow (s.clearingEnds_frame) :)
@[simp] theorem State.clearingEnds_port (s : State) : s.clearingEnds.port = s.port :=
  (congrArg State.port (s.clearingEnds_frame) :)
@[simp] theorem State.clearingEnds_misoDraws (s : State) : s.clearingEnds.misoDraws = s.misoDraws :=
  (congrArg State.misoDraws (s.clearingEnds_frame) :)
@[simp] theorem State.clearingEnds_pins (s : State) : s.clearingEnds.pins = s.pins :=
  (congrArg State.pins (s.clearingEnds_frame) :)
@[simp] theorem State.clearingEnds_pending (s : State) : s.clearingEnds.pending = s.pending :=
  (congrArg State.pending (s.clearingEnds_frame) :)

end Sys2Proof.Machine
end

