-- ==== Sys2Proof/Laws/Ops.lean ====
section
/-! SUPPORT. What each shared operation can do, said once: the guard of resets, the words of the
statements, the notices, the ending of an entry,
retirement, missed counting, the reply queue, dispatch, the host port's write path, the choice and its owner, the line
and the round, completions and resets. -/

namespace Sys2Proof.Machine

open Sys2Proof.Safety

/-! ## The guard of resets (R177, R178) -/

theorem State.held_iff (s : State) : s.held = true ↔ s.rstnLow = true ∨ s.power ≠ .on := by
  simp [State.held]

theorem State.free_iff (s : State) : s.held = false ↔ s.rstnLow = false ∧ s.power = .on := by
  simp [State.held]

@[simp] theorem State.unlessHeld_low {s : State} (h : s.held = true) (f : State → State) :
    s.unlessHeld f = .next s := by simp [State.unlessHeld, h]

@[simp] theorem State.unlessHeld_high {s : State} (h : s.held = false) (f : State → State) :
    s.unlessHeld f = .next (f s) := by simp [State.unlessHeld, h]

/-! ## The words of the statements: each is what the model's operation does -/

theorem AckFlag.owe_eq (a : AckFlag) : a.owe = owing a := by cases a <;> rfl

theorem AckFlag.undone_eq (a : AckFlag) : a.undone = Safety.undone a := by cases a <;> rfl

theorem TxFrame.entry?_eq (f : TxFrame) : f.entry? = ownerOf f := by cases f <;> rfl

theorem Tx.disown_eq (x : Tx) (i : EntryIdx) : x.disown i = withoutOwner x i := by
  cases x <;> simp [Tx.disown, withoutOwner, TxFrame.entry?_eq]

theorem Tx.ungrant_eq (x : Tx) : x.ungrant = grantLost x := by cases x <;> rfl

theorem Assembler.sample_eq (a : Assembler) (low csn : Bool) : a.sample low csn = bitTaken a low csn := by
  obtain ⟨start, bits, c, w⟩ := a
  cases bits with
  | some l => simp [Assembler.sample, bitTaken]
  | none => cases start <;> simp [Assembler.sample, bitTaken]

/-- Eight levels spell one byte, least significant bit first. -/
theorem levels_spell : ∀ a b c d e f g h : Bool,
    [a, b, c, d, e, f, g, h] = (List.range 8).map (fun k => (byteOfBits [h, g, f, e, d, c, b, a]).getLsbD k) := by
  decide +kernel

/-- Ten levels spell one byte and two bits more. -/
theorem levels_split (l : List Bool) (h : l.length = 10) : ∃ (d : Byte) (mark stop : Bool),
    l = (List.range 8).map (fun k => d.getLsbD k) ++ [mark, stop] := by
  rcases l with _ | ⟨a0, _ | ⟨a1, _ | ⟨a2, _ | ⟨a3, _ | ⟨a4, _ | ⟨a5, _ | ⟨a6, _ | ⟨a7, _ | ⟨m, _ | ⟨e, _ | _⟩⟩⟩⟩⟩⟩⟩⟩⟩⟩
    <;> simp at h
  exact ⟨_, m, e, congrArg (· ++ [m, e]) (levels_spell a0 a1 a2 a3 a4 a5 a6 a7)⟩

/-- A byte is read back from its levels. -/
theorem byte_of_levels : ∀ d : Byte, byteOfBits ((List.range 8).map (fun k => d.getLsbD k)).reverse = d := by
  decide +kernel

/-- What the receiver has just sampled is due, and nothing else (R124, R125). -/
theorem Assembler.mem_due (a : Assembler) (c : Instr) : c ∈ a.due ↔ characterTaken a c := by
  obtain ⟨start, bits, csn, w⟩ := a
  rcases bits with _ | _ | ⟨b, l⟩
  · simp [Assembler.due, characterTaken]
  · simp [Assembler.due, characterTaken]
  · by_cases hl : (b :: l).length = 10
    · obtain ⟨d, m, e, hd⟩ := levels_split _ hl
      rw [hd]
      have hdue : (Assembler.mk start (some ((List.range 8).map (fun k => d.getLsbD k) ++ [m, e])) csn w).due
          = [if e = false then .collisionSeen .framingError
              else if csn = true then .collisionSeen .csn
              else if m = true then .markedCharacter d
              else .unmarkedCharacter d] := by
        have := byte_of_levels d
        simp only [Assembler.due]
        cases e <;> cases csn <;> cases m <;> simp_all [List.range, List.range.loop]
      rw [hdue, List.mem_singleton, characterTaken]
      refine ⟨fun h => .inr ⟨d, m, e, rfl, h⟩, ?_⟩
      rintro (⟨h, _⟩ | ⟨d', m', e', h, rfl⟩)
      · simp [List.range, List.range.loop] at h
      · obtain ⟨h1, h2⟩ := List.append_inj (Option.some.inj h) (by simp)
        have hdd : d = d' := by rw [← byte_of_levels d, h1, byte_of_levels]
        simp only [List.cons.injEq, and_true] at h2
        rw [hdd, h2.1, h2.2]
    · refine iff_of_false (by simp only [Assembler.due, hl, if_false]; exact List.not_mem_nil) ?_
      rintro (⟨h, _⟩ | ⟨d, m, e, h, _⟩)
      · cases h
      · exact hl (by rw [Option.some.inj h]; simp)

/-- A readback mismatch is due exactly where a bit driven high is read low (R145). -/
theorem State.mem_readbackDue (s : State) (c : Instr) : c ∈ s.readbackDue ↔
    ∃ f cs bits rd o, s.tx = .sending f cs bits rd o ∧ bits < 11 * cs.length ∧ s.rxdLow = true ∧ s.txd = true
      ∧ c = .transmitCollision .mismatch (decide (bits < 11)) := by
  unfold State.readbackDue
  rcases s.tx with _ | ⟨f, g⟩ | ⟨f, cs, b, rd, o⟩
  · simp
  · simp
  · change (c ∈ if (s.rxdLow && s.txd && decide (b < 11 * cs.length)) = true then
      [Instr.transmitCollision .mismatch (decide (b < 11))] else []) ↔ _
    by_cases hh : (s.rxdLow && s.txd && decide (b < 11 * cs.length)) = true
    · rw [if_pos hh, List.mem_singleton]
      simp only [Bool.and_eq_true, decide_eq_true_eq] at hh
      refine ⟨fun h => ⟨f, cs, b, rd, o, rfl, hh.2, hh.1.1, hh.1.2, h⟩, ?_⟩
      rintro ⟨_, _, _, _, _, he, _, _, _, rfl⟩
      cases he
      rfl
    · rw [if_neg hh]
      refine iff_of_false List.not_mem_nil ?_
      rintro ⟨_, _, _, _, _, he, h1, h2, h3, _⟩
      cases he
      exact hh (by simp [h1, h2, h3])

/-! ## Notices (R113 to R117) -/

@[simp] theorem State.item_setItem_self (s : State) (i : ItemIdx) (t : Item) (q : List ItemIdx) :
    State.item { s with items := s.items.set i t, noticeQueue := q } i = t := by
  simp [State.item]

theorem State.item_setItem_of_ne (s : State) {i j : ItemIdx} (t : Item) (q : List ItemIdx) (h : j ≠ i) :
    State.item { s with items := s.items.set i t, noticeQueue := q } j = s.item j := by
  have : i.val ≠ j.val := fun hv => h (Fin.ext hv.symm)
  simp [State.item, this]

@[simp] theorem State.item_raise_self (s : State) (i : ItemIdx) (k : Kind) (f : Item → Item) :
    (s.raise i k f).item i = { f (s.item i) with kinds := (s.item i).kinds ||| k.bit } := by
  simp [State.raise]

theorem State.item_raise_of_ne (s : State) {i j : ItemIdx} (k : Kind) (f : Item → Item) (h : j ≠ i) :
    (s.raise i k f).item j = s.item j := by
  simp [State.raise, State.item_setItem_of_ne _ _ _ h]

theorem State.noticeQueue_raise (s : State) (i : ItemIdx) (k : Kind) (f : Item → Item) :
    (s.raise i k f).noticeQueue = if (s.item i).kinds = 0#8 then s.noticeQueue ++ [i] else s.noticeQueue := rfl

/-- A raise sets the kind, merges what it carries, and queues an idle item (R113). -/
theorem State.raise_spec (s : State) (i : ItemIdx) (k : Kind) (f : Item → Item) :
    itemRaised s (s.raise i k f) i { f (s.item i) with kinds := (s.item i).kinds ||| k.bit } :=
  ⟨s.item_raise_self i k f, fun _ hj => s.item_raise_of_ne k f hj, rfl⟩

theorem Kind.bit_ne_zero (k : Kind) : k.bit ≠ 0#8 := by cases k <;> decide

theorem kinds_or_bit_ne_zero (kinds : BitVec 8) (k : Kind) : kinds ||| k.bit ≠ 0#8 := by
  intro h
  have : k.bit = 0#8 := by
    apply BitVec.eq_of_getLsbD_eq
    intro n _
    have hn := congrArg (fun v : BitVec 8 => v.getLsbD n) h
    simp only [BitVec.getLsbD_or, BitVec.getLsbD_zero, Bool.or_eq_false_iff] at hn
    simpa using hn.2
  exact k.bit_ne_zero this

/-- A kind is pending after its raise. -/
theorem has_raised (kinds : BitVec 8) (k : Kind) : (kinds ||| k.bit) &&& k.bit ≠ 0#8 := by
  intro h
  apply k.bit_ne_zero
  apply BitVec.eq_of_getLsbD_eq
  intro n _
  have hn := congrArg (fun v : BitVec 8 => v.getLsbD n) h
  simp only [BitVec.getLsbD_and, BitVec.getLsbD_or, BitVec.getLsbD_zero] at hn
  cases hb : k.bit.getLsbD n <;> simp_all

/-- A raise of one kind leaves whether another is pending. -/
theorem and_bit_of_ne (kinds : BitVec 8) {k k' : Kind} (h : k ≠ k') :
    (kinds ||| k.bit) &&& k'.bit = kinds &&& k'.bit := by
  have : k.bit &&& k'.bit = 0#8 := by cases k <;> cases k' <;> first | exact absurd rfl h | decide
  rw [BitVec.and_comm, BitVec.and_or_distrib_left, BitVec.and_comm k'.bit k.bit, this]
  simp [BitVec.and_comm]

/-! ## Station sets -/

theorem stationBit_ne_zero (n : Station) : stationBit n ≠ 0#32 := by revert n; decide

theorem inSet_stationBit (n m : Station) : inSet n (stationBit m) = decide (n = m) := by
  revert n m; decide

theorem inSet_or (n : Station) (a b : StationSet) : inSet n (a ||| b) = (inSet n a || inSet n b) := by
  simp [inSet]

theorem inSet_and_not (n : Station) (a b : StationSet) : inSet n (a &&& ~~~b) = (inSet n a && !inSet n b) := by
  have : n.toNat < 32 := n.isLt
  simp [inSet, this]

/-- The set of a list holds exactly the list's stations. -/
theorem inSet_stationsOf (n : Station) (l : List Station) : inSet n (stationsOf l) = l.contains n := by
  induction l with
  | nil => simp [stationsOf, inSet]
  | cons m l ih => simp [stationsOf, inSet_or, inSet_stationBit, ih]

theorem stationsOf_ne_zero {l : List Station} (h : l ≠ []) : stationsOf l ≠ 0#32 := by
  obtain ⟨m, l, rfl⟩ := List.exists_cons_of_ne_nil h
  intro hz
  have h1 := inSet_stationsOf m (m :: l)
  rw [hz] at h1
  simp [inSet] at h1

/-! ## Entry lookups of the shared operations -/

@[simp] theorem State.entry_setProd_self (s : State) (i : EntryIdx) (p : Producer) :
    (s.setProd i p).entry i = { s.entry i with prod := p } := by simp [State.setProd]

theorem State.entry_setProd_of_ne (s : State) {i j : EntryIdx} (p : Producer) (h : j ≠ i) :
    (s.setProd i p).entry j = s.entry j := by simp [State.setProd, State.entry_setEntry_of_ne _ _ h]

@[simp] theorem State.entry_setCons_self (s : State) (i : EntryIdx) (c : Consumer) :
    (s.setCons i c).entry i = { s.entry i with cons := c } := by simp [State.setCons]

theorem State.entry_setCons_of_ne (s : State) {i j : EntryIdx} (c : Consumer) (h : j ≠ i) :
    (s.setCons i c).entry j = s.entry j := by simp [State.setCons, State.entry_setEntry_of_ne _ _ h]

@[simp] theorem State.entry_raise (s : State) (i : ItemIdx) (k : Kind) (f : Item → Item) (j : EntryIdx) :
    (s.raise i k f).entry j = s.entry j := rfl

@[simp] theorem State.entry_raiseKind (s : State) (i : ItemIdx) (k : Kind) (j : EntryIdx) :
    (s.raiseKind i k).entry j = s.entry j := rfl

@[simp] theorem State.entry_raiseEnded (s : State) (i : EntryIdx) (c : Cause) (j : EntryIdx) :
    (s.raiseEnded i c).entry j = s.entry j := rfl

@[simp] theorem State.entry_raiseEvicted (s : State) (i : EntryIdx) (t : StationSet) (j : EntryIdx) :
    (s.raiseEvicted i t).entry j = s.entry j := rfl

@[simp] theorem State.entry_raiseJoined (s : State) (i : EntryIdx) (n : Station) (j : EntryIdx) :
    (s.raiseJoined i n).entry j = s.entry j := rfl

@[simp] theorem State.entry_raiseDeparted (s : State) (i : EntryIdx) (n : Station) (j : EntryIdx) :
    (s.raiseDeparted i n).entry j = s.entry j := rfl

@[simp] theorem State.item_setEntry (s : State) (i : EntryIdx) (e : Entry) (k : ItemIdx) :
    (s.setEntry i e).item k = s.item k := rfl

/-! ## Ending an entry (R5) -/

@[simp] theorem State.entry_endEntry_self (s : State) (i : EntryIdx) (c : Cause) :
    (s.endEntry i c).entry i = (s.entry i).ended c := by
  have h : (s.endEntry i c).entry i = (s.setEntry i ((s.entry i).ended c)).entry i := rfl
  rw [h]; simp

theorem State.entry_endEntry_of_ne (s : State) {i j : EntryIdx} (c : Cause) (hj : j ≠ i) :
    (s.endEntry i c).entry j = s.entry j := by
  have h : (s.endEntry i c).entry j = (s.setEntry i ((s.entry i).ended c)).entry j := rfl
  rw [h, State.entry_setEntry_of_ne _ _ hj]

/-- An entry's ending or freeing leaves no completed frame of it to be taken (R5, R21, R161). -/
theorem disownDone_eq (h : Option TxFrame) (i : EntryIdx) :
    disownDone h i = if ∃ f, h = some f ∧ f.entry? = some i then none else h := by
  cases h with
  | none => simp [disownDone]
  | some f => by_cases hf : f.entry? = some i <;> simp [disownDone, hf, Option.filter]

/-- An ending changes the entry, the pool, the transmitter's owner and the notice unit, as R5 says, and nothing else. -/
theorem State.endEntry_spec (s : State) (i : EntryIdx) (c : Cause) :
    endsAs s (s.endEntry i c) i c
    ∧ s.endEntry i c = { s with
        entries := (s.endEntry i c).entries, poolFree := (s.endEntry i c).poolFree, items := (s.endEntry i c).items,
        noticeQueue := (s.endEntry i c).noticeQueue, tx := (s.endEntry i c).tx,
        handover := (s.endEntry i c).handover } := by
  refine ⟨⟨?_, fun j hj => s.entry_endEntry_of_ne c hj, rfl, rfl, disownDone_eq _ _, ?_⟩, rfl⟩
  · rw [State.entry_endEntry_self]; rfl
  · exact State.raise_spec _ (itemOf i) .ended (fun t => { t with cause := some c })

/-! ## Retirement (R41 to R43) -/

/-- With no END record in its reach, a run removes the records that nobody owes, up to the first that is owed (R41). -/
theorem retireRun_of_no_end (ring : List FrameRec)
    (h : ∀ r ∈ ring.takeWhile (fun r => r.owed == 0#32), r.endFlag = false) :
    retireRun ring = (ring.takeWhile (fun r => r.owed == 0#32), ring.dropWhile (fun r => r.owed == 0#32)) := by
  induction ring with
  | nil => rfl
  | cons r rs ih =>
    by_cases hr : r.owed = 0#32
    · have hb : (r.owed == 0#32) = true := by simp [hr]
      rw [List.takeWhile_cons_of_pos (p := fun r : FrameRec => r.owed == 0#32) hb] at h
      rw [List.takeWhile_cons_of_pos (p := fun r : FrameRec => r.owed == 0#32) hb,
        List.dropWhile_cons_of_pos (p := fun r : FrameRec => r.owed == 0#32) hb]
      have he : r.endFlag = false := h r (by simp)
      simp [retireRun, hr, he, ih (fun q hq => h q (by simp [hq]))]
    · have hb : ¬(r.owed == 0#32) = true := by simp [hr]
      rw [List.takeWhile_cons_of_neg (p := fun r : FrameRec => r.owed == 0#32) hb,
        List.dropWhile_cons_of_neg (p := fun r : FrameRec => r.owed == 0#32) hb]
      simp [retireRun, hr]

/-- An END record in a run's reach is removed by it (R41, R55). -/
theorem retireRun_any_end (ring : List FrameRec) :
    (retireRun ring).1.any (fun r => r.endFlag)
      = (ring.takeWhile (fun r => r.owed == 0#32)).any (fun r => r.endFlag) := by
  induction ring with
  | nil => rfl
  | cons r rs ih =>
    by_cases hr : r.owed = 0#32
    · have hb : (r.owed == 0#32) = true := by simp [hr]
      rw [List.takeWhile_cons_of_pos (p := fun r : FrameRec => r.owed == 0#32) hb]
      cases he : r.endFlag <;> simp [retireRun, hr, he, ih]
    · have hb : ¬(r.owed == 0#32) = true := by simp [hr]
      rw [List.takeWhile_cons_of_neg (p := fun r : FrameRec => r.owed == 0#32) hb]
      simp [retireRun, hr]

/-- What a run removes and what it leaves make up the ring. -/
theorem retireRun_append (ring : List FrameRec) : (retireRun ring).1 ++ (retireRun ring).2 = ring := by
  induction ring with
  | nil => rfl
  | cons r rs ih =>
    by_cases hr : r.owed = 0#32 <;> cases he : r.endFlag <;> simp [retireRun, hr, he, ih]

/-- A run removes nothing exactly when it reaches no record. -/
theorem retireRun_isEmpty (ring : List FrameRec) :
    (retireRun ring).1.isEmpty = (ring.takeWhile (fun r => r.owed == 0#32)).isEmpty := by
  cases ring with
  | nil => rfl
  | cons r rs =>
    by_cases hr : r.owed = 0#32
    · have hb : (r.owed == 0#32) = true := by simp [hr]
      rw [List.takeWhile_cons_of_pos (p := fun r : FrameRec => r.owed == 0#32) hb]
      cases he : r.endFlag <;> simp [retireRun, hr, he]
    · have hb : ¬(r.owed == 0#32) = true := by simp [hr]
      rw [List.takeWhile_cons_of_neg (p := fun r : FrameRec => r.owed == 0#32) hb]
      simp [retireRun, hr]

theorem freeSlotsOf_eq (e : Entry) : freeSlotsOf e = e.freeSlots := by
  simp [freeSlotsOf, Entry.freeSlots, slotsOut, List.countP_eq_length_filter]

/-- Retirement withdraws a chosen resend of a record that it removes, and leaves every other frame (R41, R47). -/
theorem Tx.withdrawResend_spec (t : Tx) (i : EntryIdx) (gone : List FrameRec) :
    ((∃ st q fin slot len g, t = .chosen (.data i true st q fin slot len) g ∧ ∃ r ∈ gone, r.seq = q) →
      t.withdrawResend i gone = .free)
    ∧ (¬(∃ st q fin slot len g, t = .chosen (.data i true st q fin slot len) g ∧ ∃ r ∈ gone, r.seq = q) →
      t.withdrawResend i gone = t) := by
  refine ⟨?_, fun h => ?_⟩
  · rintro ⟨st, q, fin, slot, len, g, rfl, r, hr, hq⟩
    have : ∃ x ∈ gone, x.seq = q := ⟨r, hr, hq⟩
    simp [Tx.withdrawResend, this]
  · unfold Tx.withdrawResend
    split
    · next j st q e slot len g =>
      refine if_neg fun hc => h ?_
      obtain ⟨rfl, hany⟩ := hc
      rw [List.any_eq_true] at hany
      obtain ⟨r, hr, hq⟩ := hany
      exact ⟨st, q, e, slot, len, g, rfl, r, hr, by simpa using hq⟩
    · rfl

/-- A retirement run does what R41 to R43 and R55 say. -/
theorem State.retire_spec (s : State) (i : EntryIdx) : retirementRun s (s.retire i) i := by
  simp only [retirementRun]
  have hempty := retireRun_isEmpty (s.entry i).prod.ring
  have hend := retireRun_any_end (s.entry i).prod.ring
  refine ⟨fun hg => ?_, fun hg => ?_, fun hg hne => ?_⟩
  · rw [hg] at hempty
    simp only [State.retire, hempty]; rfl
  · have h1 : (retireRun (s.entry i).prod.ring).1.any (fun r => r.endFlag) = true := by
      rw [hend, List.any_eq_true]; exact hg
    have h0 : (retireRun (s.entry i).prod.ring).1.isEmpty = false := by
      cases h : (retireRun (s.entry i).prod.ring).1 <;> simp_all
    have ht : s.retire i = (s.setEntry i { s.entry i with prod := { (s.entry i).prod with
        ring := (retireRun (s.entry i).prod.ring).2 } }).endEntry i (s.entry i).prod.endPending.cause := by
      simp only [State.retire, h0, h1]; rfl
    rw [ht]
    refine ⟨⟨(s.entry i).prod.endPending.cause, ⟨?_, fun j hj => ?_, ?_, rfl, disownDone_eq _ _, ?_⟩, fun h => ?_,
      fun h => ?_⟩, rfl⟩
    · rw [State.entry_endEntry_self]; simp [Entry.ended]
    · rw [State.entry_endEntry_of_ne _ _ hj, State.entry_setEntry_of_ne _ _ hj]
    · simp [State.endEntry]
    · exact State.raise_spec _ (itemOf i) .ended (fun t => { t with cause := some _ })
    · rw [h]; rfl
    · rw [h]; rfl
  · have hrun := retireRun_of_no_end _ hne
    have h1 : (retireRun (s.entry i).prod.ring).1.any (fun r => r.endFlag) = false := by
      rw [hend]; simpa using hne
    have h0 : (retireRun (s.entry i).prod.ring).1.isEmpty = false := by rw [hempty]; simpa using hg
    rw [hrun] at h0 h1
    have ht : s.retire i =
        (let e := s.entry i
         let left := e.prod.ring.dropWhile (fun r => r.owed == 0#32)
         let e1 : Entry := { e with prod := { e.prod with ring := left } }
         let gone := e.prod.ring.takeWhile (fun r => r.owed == 0#32)
         let t := { s.setEntry i { e1 with timer := timerAfterRun s.params left } with
           tx := s.tx.withdrawResend i gone }
         if crossesThreshold e e1 (e.prod.ring.takeWhile (fun r => r.owed == 0#32))
         then t.raiseKind (itemOf i) .spaceReady else t) := by
      simp only [State.retire, hrun, h0, h1]; rfl
    have hcross : ∀ e1 : Entry, crossesThreshold (s.entry i) e1
        ((s.entry i).prod.ring.takeWhile (fun r => r.owed == 0#32)) = true ↔
        (∃ r ∈ (s.entry i).prod.ring.takeWhile (fun r => r.owed == 0#32), r.slot.isSome = true)
          ∧ (s.entry i).state = .producing ∧ freeSlotsOf (s.entry i) < (s.entry i).threshold
          ∧ (s.entry i).threshold ≤ freeSlotsOf e1 := by
      intro e1
      simp only [freeSlotsOf_eq, crossesThreshold, Bool.and_eq_true, List.any_eq_true, beq_iff_eq, decide_eq_true_eq,
        and_assoc]
    rw [ht]
    dsimp only
    rw [← hcross]
    refine ⟨?_, ?_, fun hw => ?_, fun hw => ?_, ?_, ?_, ?_⟩
    · have : ∀ left : List FrameRec, timerAfterRun s.params left =
          if left = [] then Timer.running s.params.tHold
          else if ∃ r ∈ left, r.queued = true then .stopped else .running s.params.tAck := by
        intro left
        cases left <;> simp [timerAfterRun, anyQueued]
      rw [this]
      split <;> simp
    · intro j hj
      split <;> simp [State.entry_setEntry_of_ne _ _ hj]
    · have := (Tx.withdrawResend_spec s.tx i _).1 hw
      split <;> simpa using this
    · have := (Tx.withdrawResend_spec s.tx i _).2 hw
      split <;> simpa using this
    · intro hc
      rw [if_pos hc]
      exact State.raise_spec _ (itemOf i) .spaceReady id
    · intro hc
      rw [if_neg hc]
      exact ⟨rfl, rfl⟩
    · split <;> rfl

/-- A run leaves every other entry as it was. -/
theorem State.entry_retire_of_ne (s : State) {i j : EntryIdx} (hj : j ≠ i) : (s.retire i).entry j = s.entry j := by
  simp only [State.retire]
  split
  · rfl
  · split
    · rw [State.entry_endEntry_of_ne _ _ hj, State.entry_setEntry_of_ne _ _ hj]
    · split <;> simp [State.entry_setEntry_of_ne _ _ hj]

/-! ## Missed counting (R71, R73) -/

/-- Counting misses evicts the subscribers that reach N and counts the others, as R71 and R73 say. -/
theorem State.countMisses_spec (s : State) (i : EntryIdx) (counted : SubRec → Bool) :
    missesCounted s (s.countMisses i counted) i counted := by
  have hgone : ∀ l : List SubRec, l.filter (evictedBy s.params.n counted) = [] ↔
      (l.filter (evictedBy s.params.n counted)).isEmpty = true := fun l => by simp
  unfold missesCounted State.countMisses
  dsimp only
  refine ⟨?_, fun j hj => ?_, ?_, fun hg => ?_, fun hg => ?_, ?_⟩
  · split <;> simp <;> rfl
  · split <;> simp [State.entry_setProd_of_ne _ _ hj]
  · split
    · next h =>
      change s.poolFree = s.poolFree + (List.filter (evictedBy s.params.n counted) _).length
      rw [List.isEmpty_iff.1 h]; rfl
    · rfl
  · rw [if_neg (fun h => hg ((hgone _).2 h))]
    exact State.raise_spec _ (itemOf i) .evicted (fun t => { t with evicted := t.evicted ||| _ })
  · rw [if_pos ((hgone _).1 hg)]
    exact ⟨rfl, rfl⟩
  · split <;> rfl

/-! ## The reply queue (R158 to R160) -/

/-- What is queued after a reply is placed: what was, at most the new reply more. -/
theorem placeReply_keys (q : List Reply) (n : Station) (st : StreamNo) (b : ReplyBody) :
    ((placeReply q n st b).map (fun r => (r.dest, r.stream)) = q.map (fun r => (r.dest, r.stream)))
    ∨ ((placeReply q n st b).map (fun r => (r.dest, r.stream)) = q.map (fun r => (r.dest, r.stream)) ++ [(n, st)]
        ∧ q.length < Config.replyCapacity ∧ (n, st) ∉ q.map (fun r => (r.dest, r.stream))) := by
  unfold placeReply
  split
  · left
    rw [List.map_map]
    refine List.map_congr_left fun r _ => ?_
    simp only [Function.comp]
    split <;> rfl
  · next hany =>
    split
    · next hlen =>
      refine .inr ⟨by simp, hlen, ?_⟩
      simp only [List.any_eq_true, not_exists] at hany
      simp only [List.mem_map, not_exists, Prod.mk.injEq]
      rintro r ⟨hr, h1, h2⟩
      exact hany r ⟨hr, by simp [h1, h2]⟩
    · exact .inl rfl

/-! ## The entry of a stream and dispatch (R136, R137) -/

/-- The lookup of a stream finds its entry. -/
theorem State.entryOf_of_isEntryOf {s : State} {st : StreamNo} {i : EntryIdx} (h : isEntryOf s st i) :
    s.entryOf st = some i := by
  obtain ⟨hf, hst, huniq⟩ := h
  unfold State.entryOf
  cases hfind : allEntries.find? (fun j => (s.entry j).state != .free && (s.entry j).stream == st) with
  | none =>
    rw [List.find?_eq_none] at hfind
    exact absurd (by simp [hf, hst]) (hfind i (List.mem_finRange i))
  | some j =>
    have := List.find?_some hfind
    simp only [Bool.and_eq_true, bne_iff_ne, ne_eq, beq_iff_eq] at this
    rw [huniq j this.1 this.2]

/-- What the lookup finds is an entry that is not FREE and carries the stream. -/
theorem State.entryOf_some {s : State} {st : StreamNo} {i : EntryIdx} (h : s.entryOf st = some i) :
    (s.entry i).state ≠ .free ∧ (s.entry i).stream = st := by
  have := List.find?_some h
  simpa using this

/-- The lookup finds none exactly when no entry that is not FREE carries the stream. -/
theorem State.entryOf_none {s : State} {st : StreamNo} :
    s.entryOf st = none ↔ ∀ j, (s.entry j).state = .free ∨ (s.entry j).stream ≠ st := by
  unfold State.entryOf
  rw [List.find?_eq_none]
  constructor
  · intro h j
    have := h j (List.mem_finRange j)
    by_cases hf : (s.entry j).state = .free
    · exact .inl hf
    · exact .inr (by simpa [hf] using this)
  · intro h j _
    rcases h j with h | h <;> simp [h]

/-- With no complete frame waiting there is nothing to dispatch first. -/
theorem State.flush_none {s : State} (h : s.rx.ready = none) : s.flush = s := by
  simp [State.flush, h]

/-- A complete frame that waits is dispatched and leaves the holding area. -/
theorem State.flush_some {s : State} {f : Frame} (h : s.rx.ready = some f) :
    s.flush = State.dispatch { s with rx := { s.rx with hold := [] } } f := by
  simp [State.flush, h]

/-- A receiver that holds a complete frame is in HUNT, and so takes characters. -/
theorem Receiver.taking_of_ready {r : Receiver} {f : Frame} (h : r.ready = some f) :
    r.state = .hunt ∧ r.taking = true := by
  unfold Receiver.ready at h
  split at h
  · next hs => exact ⟨hs, by simp [Receiver.taking, hs]⟩
  · cases h

/-- An emptied holding area holds no complete frame. -/
theorem Receiver.ready_empty (st : RxState) (g : Option Nat) (a : Assembler) :
    ({ state := st, hold := [], gap := g, char := a } : Receiver).ready = none := by
  unfold Receiver.ready
  split <;> rfl

/-- Nothing waits once the waiting frame has been dispatched: a dispatch leaves the receiver as it was. -/
theorem State.ready_flush (s : State) : s.flush.rx.ready = none := by
  cases h : s.rx.ready with
  | none => rw [State.flush_none h]; exact h
  | some f =>
    rw [State.flush_some h, State.dispatch_rx]
    exact Receiver.ready_empty _ _ _

/-- A frame that reaches the station's entry is dispatched to it. -/
theorem State.frameEvent_of_reaches {s : State} {f : Frame} {i : EntryIdx} (h : reaches s f i) :
    s.frameEvent f = s.dispatchTo i f := by
  obtain ⟨_, htake, hready, hwf, hdest, hent⟩ := h
  have hhears : s.hears f = true := by
    unfold State.hears
    rw [hwf]
    cases hd : frameDest? f with
    | none => rfl
    | some d => simp [hdest d hd]
  simp only [State.frameEvent, htake, hready, State.flush_none hready, hhears, State.dispatch,
    State.entryOf_of_isEntryOf hent, if_true, reduceCtorEq, if_false]

/-- A frame's row is its frame event. -/
theorem exec_frameRow (f : Frame) (s : State) : exec (frameRow f) s = s.unlessHeld (fun s => s.frameEvent f) := by
  cases f <;> rfl

/-! ## The host port's write path (R182, R185) -/

/-- A write-type command with a wrong length changes only the port. -/
theorem State.writeType_false (s : State) (act : State → ResultCode × State) :
    s.writeType false act = { s with port := { s.port.begun with result := .badLength } } := rfl

/-- A write-type command of the right length takes its checks and effect on the state with the port's framing begun, and
sets the result code they give. -/
theorem State.writeType_true (s : State) (act : State → ResultCode × State) :
    s.writeType true act =
      { (act { s with port := s.port.begun }).2 with
        port := { (act { s with port := s.port.begun }).2.port.begun with
          result := (act { s with port := s.port.begun }).1 } } := rfl

@[simp] theorem Port.begun_begun (p : Port) : p.begun.begun = p.begun := rfl
@[simp] theorem Port.begun_phase (p : Port) : p.begun.phase = .idle := rfl
@[simp] theorem Port.begun_answer (p : Port) : p.begun.answer = [] := rfl
@[simp] theorem Port.begun_readAddr (p : Port) : p.begun.readAddr = none := rfl
@[simp] theorem Port.begun_writeHold (p : Port) : p.begun.writeHold = [] := rfl
@[simp] theorem Port.begun_slotLatch (p : Port) : p.begun.slotLatch = p.slotLatch := rfl
@[simp] theorem Port.begun_result (p : Port) : p.begun.result = p.result := rfl

/-! ## Entry indices (R14) -/

theorem entryIdx?_of_eq {b : Byte} {i : EntryIdx} (h : b.toNat = i.val) : entryIdx? b = some i := by
  simp [entryIdx?, h]

theorem entryIdx?_of_gt {b : Byte} (h : 11 < b.toNat) : entryIdx? b = none := by
  simp only [entryIdx?]
  rw [dif_neg (by omega)]

/-- Every entry is in the list of all entries. -/
theorem mem_allEntries (i : EntryIdx) : i ∈ allEntries := List.mem_finRange i

/-! ## Commands that name an entry (R14) -/

/-- A command whose index names no entry changes only the port. -/
theorem State.entryCommand_gt (s : State) {b : Byte} (h : 11 < b.toNat)
    (act : EntryIdx → State → ResultCode × State) :
    s.entryCommand [b] false act = { s with port := { s.port.begun with result := .badEntry } } := by
  simp only [State.entryCommand, entryIdx?_of_gt h, Bool.not_false, State.writeType_true, Port.begun_begun]

/-- A command whose index names an entry takes its checks and effect there. -/
theorem State.entryCommand_eq (s : State) {b : Byte} {i : EntryIdx} (h : b.toNat = i.val)
    (act : EntryIdx → State → ResultCode × State) :
    s.entryCommand [b] false act = s.writeType true (act i) := by
  simp only [State.entryCommand, entryIdx?_of_eq h, Bool.not_false]

theorem State.countCommand_gt (s : State) {b : Byte} (n : Byte) (h : 11 < b.toNat)
    (act : EntryIdx → Nat → State → ResultCode × State) :
    s.countCommand [b, n] false act = { s with port := { s.port.begun with result := .badEntry } } := by
  simp only [State.countCommand, entryIdx?_of_gt h, Bool.not_false, State.writeType_true, Port.begun_begun]

theorem State.countCommand_eq (s : State) {b : Byte} {i : EntryIdx} (n : Byte) (h : b.toNat = i.val)
    (act : EntryIdx → Nat → State → ResultCode × State) :
    s.countCommand [b, n] false act = s.writeType true (act i n.toNat) := by
  simp only [State.countCommand, entryIdx?_of_eq h, Bool.not_false]

/-- An index byte names an entry or none. -/
theorem index_cases (b : Byte) : 11 < b.toNat ∨ ∃ i : EntryIdx, b.toNat = i.val := by
  by_cases h : 11 < b.toNat
  · exact .inl h
  · exact .inr ⟨⟨b.toNat, by omega⟩, rfl⟩

/-! ## The choice and its owner (R5, R21, R81, R94, R160) -/

/-- An entry's ending or freeing leaves the transmitter no chosen frame of it, and its frame on the line disowned. -/
theorem Tx.disown_spec (t : Tx) (i : EntryIdx) :
    (∀ f g, t = .chosen f g → t.disown i = if f.entry? = some i then .free else t)
    ∧ (∀ f cs b r o, t = .sending f cs b r o →
        t.disown i = if f.entry? = some i then .sending f cs b r true else t)
    ∧ (t = .free → t.disown i = .free) := by
  refine ⟨?_, ?_, ?_⟩
  · rintro f g rfl; rfl
  · rintro f cs b r o rfl; rfl
  · rintro rfl; rfl

/-- A withdrawn JOIN frees the transmitter if it was chosen, and changes nothing else. -/
theorem Tx.withdrawJoin_spec (t : Tx) (i : EntryIdx) :
    (∀ st k p g, t = .chosen (.join i st k p) g → t.withdrawJoin i = .free)
    ∧ ((∀ st k p g, t ≠ Tx.chosen (TxFrame.join i st k p) g) → t.withdrawJoin i = t) := by
  refine ⟨?_, ?_⟩
  · rintro st k p g rfl; simp [Tx.withdrawJoin]
  · intro h
    cases t with
    | free => rfl
    | sending => rfl
    | chosen f g =>
      cases f <;> try rfl
      rename_i j st k p
      have : j ≠ i := fun e => h st k p g (e ▸ rfl)
      simp [Tx.withdrawJoin, this]

/-- An undone choice returns the ACK flag of its entry, clears the mark of the head reply, and changes nothing of any
other owner. -/
theorem State.undoChoice_spec (s : State) (f : TxFrame) :
    (∀ i st d a k, f = .ack i st d a k →
      s.undoChoice f = s.setCons i { (s.entry i).cons with ack := (s.entry i).cons.ack.undone })
    ∧ (∀ d st b r rs, f = .reply d st b → s.replies = r :: rs →
      s.undoChoice f = { s with replies := { r with inService := false } :: rs })
    ∧ ((∀ i st d a k, f ≠ .ack i st d a k) → (∀ d st b, f ≠ .reply d st b) → s.undoChoice f = s) := by
  refine ⟨?_, ?_, ?_⟩
  · rintro i st d a k rfl; rfl
  · rintro d st b r rs rfl h; simp [State.undoChoice, h]
  · intro h h'
    cases f with
    | ack i st d a k => exact absurd rfl (h i st d a k)
    | reply d st b => exact absurd rfl (h' d st b)
    | _ => rfl

/-! ## The line and the round (R142 to R153) -/

/-- The line becomes BUSY: in a watched line the quiet timer stops and a running slot is paused; else nothing. -/
theorem State.busyLine_spec (s : State) (source : Option Station) :
    (s.station ≠ .offline → s.busyLine source = { s with
      line := .busy, lineGap := none, quiet := none, tx := s.tx.ungrant,
      round := match s.round with | .slot o r k _ => Round.busy o r k source | w => w })
    ∧ (s.station = .offline → s.busyLine source = s) := by
  refine ⟨fun h => ?_, fun h => ?_⟩
  · simp only [State.busyLine, State.watching, bne_iff_ne, ne_eq, h, not_false_eq_true, if_true]
    cases s.round <;> rfl
  · simp [State.busyLine, State.watching, h]

/-- A collision moves the round by R148's table while ONLINE, and nothing otherwise. -/
theorem State.collide_spec (s : State) :
    (s.station = .online → s.collide = { s with round := roundAfterCollision s.round, tx := s.tx.ungrant })
    ∧ (s.station ≠ .online → s.collide = s) := by
  refine ⟨fun h => ?_, fun h => by simp [State.collide, h]⟩
  simp only [State.collide, h, if_true]
  cases s.round <;> rfl

/-- After a slot is used up the round ends, or the next slot starts and grants a chosen frame if it is this station's. -/
theorem State.nextSlot_spec (s : State) (o : Station) (r : Nat) (k : BitVec 5) :
    (r ≤ 1 → s.nextSlot o r k = { s with round := .contention, tx := s.tx.ungrant })
    ∧ (1 < r → s.nextSlot o r k = s.startSlot o (r - 1) k) := by
  refine ⟨fun h => by simp [State.nextSlot, h], fun h => ?_⟩
  have : ¬r ≤ 1 := by omega
  simp [State.nextSlot, this]

/-- The start of a slot, by what the transmitter holds. -/
theorem State.startSlot_spec (s : State) (o : Station) (r : Nat) (k : BitVec 5) :
    (∀ f g, s.tx = .chosen f g →
      s.startSlot o r k = { s with round := .slot o r k 0, tx := .chosen f (o + k == s.stationNo) })
    ∧ ((∀ f g, s.tx ≠ Tx.chosen f g) → s.startSlot o r k = { s with round := .slot o r k 0 }) := by
  refine ⟨fun f g h => by simp [State.startSlot, h, slotOwner], fun h => ?_⟩
  rcases ht : s.tx with _ | ⟨f, g⟩ | _
  · simp [State.startSlot, ht]
  · exact absurd ht (h f g)
  · simp [State.startSlot, ht]

/-- A transmit failure counted: below eight only the count moves, and the eighth takes the station to LINE_FAULT. -/
theorem State.countFailure_spec (s : State) :
    (s.failCount < 7 → s.countFailure = { s with failCount := s.failCount + 1 })
    ∧ (7 ≤ s.failCount → s.countFailure = State.raiseKind
        { s with failCount := s.failCount + 1, station := .lineFault, round := .contention } stationItem .lineFault) := by
  refine ⟨fun h => ?_, fun h => ?_⟩
  · have : ¬8 ≤ s.failCount + 1 := by omega
    simp [State.countFailure, Config.failureLimit, this]
  · have : 8 ≤ s.failCount + 1 := by omega
    simp [State.countFailure, Config.failureLimit, this]

/-- The line effects of a character that ends, on a watched line. -/
theorem State.characterEnds_spec (s : State) (source : Option Station) (h : s.station ≠ .offline) :
    lineHeard s (s.characterEnds source) source
    ∧ (s.characterEnds source).rx = { s.rx with gap := some 0, char := {} } := by
  have hb := (s.busyLine_spec none).1 h
  simp only [State.characterEnds, lineHeard, hb, Tx.ungrant_eq, and_true, true_and]
  rcases s.round with _ | _ | _ | ⟨o, r, k, _ | n⟩ <;> rfl

/-- Every block but the owner takes a completion as R161 says. -/
theorem State.sent_spec (s : State) (f : TxFrame) : s.sent f = sentOff s f := by
  cases f <;> rfl

/-- A completion that is there to be taken is found, with its owner and the state that the other blocks leave. -/
theorem State.completed_of_completes {s m : State} {f : TxFrame} (h : completes s m f) :
    s.completed = some (f, true, m) := by
  rcases h with ⟨hh, ⟨cs, b, rd, ht, hb⟩, rfl⟩ | ⟨hh, rfl⟩
  · simp [State.completed, hh, State.driven, ht, Config.charBits, hb, State.sent_spec]
  · simp [State.completed, hh]

/-- A completion without an owner is taken by the other blocks alone (R5, R21). -/
theorem State.completed_of_orphan {s : State} {f : TxFrame} {cs : List Byte} {b : Nat} {rd : Bool}
    (hh : s.handover = none) (ht : s.tx = .sending f cs b rd true) (hb : 11 * cs.length ≤ b) :
    s.completed = some (f, false, sentOff s f) := by
  simp [State.completed, hh, State.driven, ht, Config.charBits, hb, State.sent_spec]

/-- Before the last bit has been driven nothing completes (R145). -/
theorem State.completed_none {s : State} {f : TxFrame} {cs : List Byte} {b : Nat} {rd o : Bool}
    (hh : s.handover = none) (ht : s.tx = .sending f cs b rd o) (hb : b < 11 * cs.length) : s.completed = none := by
  simp [State.completed, hh, State.driven, ht, Config.charBits, Nat.not_le.2 hb]

/-! ## Sequences, credit and reset -/

/-- The named outcomes of comparing sequences, by the distance d (00_scope.md, Section 5). -/
theorem seqClass_spec (q e : Seq) :
    (seqClass q e = .inOrder ↔ (q - e).toNat = 0)
    ∧ (seqClass q e = .ahead ↔ 1 ≤ (q - e).toNat ∧ (q - e).toNat ≤ 4)
    ∧ (seqClass q e = .behind ↔ 252 ≤ (q - e).toNat)
    ∧ (seqClass q e = .stale ↔ 5 ≤ (q - e).toNat ∧ (q - e).toNat ≤ 251) := by
  have hd : (q - e).toNat < 256 := (q - e).isLt
  simp only [seqClass]
  generalize (q - e).toNat = d at hd
  split_ifs <;> simp <;> omega

/-- The credit of a consumer entry, by state and mode (R93). -/
theorem Entry.credit_spec (e : Entry) :
    (e.state = .joining ∨ e.state = .receiving → e.mode = .advance → e.credit = min 4 (e.slots - e.cons.held))
    ∧ (e.state = .joining ∨ e.state = .receiving → e.mode = .fixed → e.credit = 4)
    ∧ (e.state ≠ .joining → e.state ≠ .receiving → e.credit = 0) := by
  refine ⟨fun h m => by simp [Entry.credit, h, m, Config.maxCredit], fun h m => by simp [Entry.credit, h, m, Config.maxCredit],
    fun h h' => by simp [Entry.credit, h, h']⟩

/-- After a reset the table and the items read as those of FREE entries. -/
theorem State.entry_resetTo (s : State) (mem : Memory) (sa : Station) (rs : RateCode) (low : Bool) (i : EntryIdx) :
    (s.resetTo mem sa rs low).entry i = {} := by simp [State.resetTo, State.entry, State.reset]

theorem State.item_resetTo (s : State) (mem : Memory) (sa : Station) (rs : RateCode) (low : Bool) (k : ItemIdx) :
    (s.resetTo mem sa rs low).item k = {} := by simp [State.resetTo, State.item, State.reset]

/-- Every reset leaves the reset values. -/
theorem State.resetTo_spec (s : State) (mem : Memory) (sa : Station) (rs : RateCode) (low : Bool) :
    resetValues (s.resetTo mem sa rs low) := by
  unfold resetValues
  simp only [State.entry_resetTo, State.item_resetTo, implies_true, true_and]
  (repeat' apply And.intro) <;> rfl

/-- A reset takes the memory, the strap values and the level of RSTN that it is given. -/
theorem State.resetTo_given (s : State) (mem : Memory) (sa : Station) (rs : RateCode) (low : Bool) :
    s.resetTo mem sa rs low =
      { s.resetTo [] 0 0 false with mem := mem, stationNo := sa, rate := rs, rstnLow := low } := rfl

end Sys2Proof.Machine
end

