-- ==== Sys2Proof/Laws/Exec.lean ====
section
/-! SUPPORT. One lemma per command: while the station is not held, what exec answers for it. -/

namespace Sys2Proof.Machine

theorem exec_readStatus {s : State} (h : s.held = false) :
    exec .readStatus s = .next (s.answer .status s.port.result s.statusBytes) :=
  (State.unlessHeld_high h _ : execReadStatus s = _)

theorem exec_statusRelatch {s : State} (h : s.held = false) :
    exec .statusRelatch s = .next (if s.port.phase = .answering .status then { s with port := { s.port with answer := s.statusBytes } } else s) :=
  (State.unlessHeld_high h _ : execStatusRelatch s = _)

theorem exec_readIdentity {s : State} (h : s.held = false) :
    exec .readIdentity s = .next (s.answer .identity .ok (identityRecord s.stationNo s.rate)) :=
  (State.unlessHeld_high h _ : execReadIdentity s = _)

theorem exec_readNotice {s : State} (h : s.held = false) :
    exec .readNotice s = .next s.popNotice :=
  (State.unlessHeld_high h _ : execReadNotice s = _)

theorem exec_readEntry {s : State} (h : s.held = false) (index : Byte) :
    exec (.readEntry index) s = .next (
    match entryIdx? index with
    | none => s.answer .entry .badEntry (List.replicate 28 0)
    | some i => s.answer .entry .ok (entrySnapshot (s.entry i))) :=
  (State.unlessHeld_high h _ : execReadEntry index s = _)

theorem exec_readSubscribers {s : State} (h : s.held = false) (index : Byte) :
    exec (.readSubscribers index) s = .next (
    match entryIdx? index with
    | none => s.answer .subscribers .badEntry (subscriberAnswer [] s.poolFree)
    | some i => s.answer .subscribers .ok (subscriberAnswer (s.entry i).shownSubs s.poolFree)) :=
  (State.unlessHeld_high h _ : execReadSubscribers index s = _)

theorem exec_readBuffer {s : State} (h : s.held = false) (addrHigh addrLow : Byte) :
    exec (.readBuffer addrHigh addrLow) s = .next (
    if Config.memBytes ≤ word16 addrHigh addrLow then s.answer .buffer .badParameter []
    else
      let t := s.answer .buffer .ok []
      { t with port := { t.port with readAddr := some (word16 addrHigh addrLow) } }) :=
  (State.unlessHeld_high h _ : execReadBuffer addrHigh addrLow s = _)

theorem exec_hostByteRead {s : State} (h : s.held = false) :
    exec .hostByteRead s = .next (
    match s.port.readAddr with
    | none => s
    | some a =>
      { s with port := { s.port with answer := [Memory.read s.mem (addrAt a 0)], readAddr := some (addrAt a 1) } }) :=
  (State.unlessHeld_high h _ : execHostByteRead s = _)

theorem exec_readSlot {s : State} (h : s.held = false) (index : Byte) :
    exec (.readSlot index) s = .next (
    match entryIdx? index with
    | none => s.answer .slot .badEntry []
    | some i =>
      let e := s.entry i
      if e.role = some .consumer ∧ e.mode = .fixed ∧ e.state ≠ .free then
        let t := s.answer .slot .ok (Memory.readRun s.mem (e.slotAddr 0) e.size)
        { t with port := { t.port with slotLatch := s.latchSlot e } }
      else s.answer .slot .refusedState []) :=
  (State.unlessHeld_high h _ : execReadSlot index s = _)

theorem exec_writeBuffer {s : State} (h : s.held = false) (bytes : List Byte) (ragged : Bool) :
    exec (.writeBuffer bytes ragged) s = .next (s.writeType (!ragged && decide (3 ≤ bytes.length ∧ bytes.length ≤ 66)) (State.writeBuffer bytes)) :=
  (State.unlessHeld_high h _ : execWriteBuffer bytes ragged s = _)

theorem exec_setParameters {s : State} (h : s.held = false) (bytes : List Byte) (ragged : Bool) :
    exec (.setParameters bytes ragged) s = .next (
    match bytes with
    | [tAck, n, steps] => s.writeType (!ragged) (State.setParameters tAck n steps)
    | _ => s.writeType false (fun t => (.badLength, t))) :=
  (State.unlessHeld_high h _ : execSetParameters bytes ragged s = _)

theorem exec_goOnline {s : State} (h : s.held = false) (bytes : List Byte) (ragged : Bool) :
    exec (.goOnline bytes ragged) s = .next (s.writeType (bytes.isEmpty && !ragged) State.goOnline) :=
  (State.unlessHeld_high h _ : execGoOnline bytes ragged s = _)

theorem exec_goOffline {s : State} (h : s.held = false) (bytes : List Byte) (ragged : Bool) :
    exec (.goOffline bytes ragged) s = .next (s.writeType (bytes.isEmpty && !ragged) State.goOffline) :=
  (State.unlessHeld_high h _ : execGoOffline bytes ragged s = _)

theorem exec_reset {s : State} (h : s.held = false) (bytes : List Byte) (ragged : Bool) (sa : Station) (rs : RateCode) :
    exec (.reset bytes ragged sa rs) s = .next (s.writeType (bytes.isEmpty && !ragged) (fun t => (.ok, t.resetTo t.mem sa rs false))) :=
  (State.unlessHeld_high h _ : execReset bytes ragged sa rs s = _)

theorem exec_openProduce {s : State} (h : s.held = false) (bytes : List Byte) (ragged : Bool) :
    exec (.openProduce bytes ragged) s = .next (
    match bytes with
    | [e, st, bh, bl, sl, p, fh, fl, th] =>
      s.writeType (!ragged) (fun t =>
        let a := produceArgs st bh bl sl p fh fl th
        t.openWith e a (a.producer t.params))
    | _ => s.writeType false (fun t => (.badLength, t))) :=
  (State.unlessHeld_high h _ : execOpenProduce bytes ragged s = _)

theorem exec_openConsume {s : State} (h : s.held = false) (bytes : List Byte) (ragged : Bool) :
    exec (.openConsume bytes ragged) s = .next (
    match bytes with
    | [e, st, bh, bl, sl, p, fh, fl, th, mode] =>
      s.writeType (!ragged) (fun t =>
        let a := consumeArgs st bh bl sl p fh fl th mode
        t.openWith e a a.consumer)
    | _ => s.writeType false (fun t => (.badLength, t))) :=
  (State.unlessHeld_high h _ : execOpenConsume bytes ragged s = _)

theorem exec_post {s : State} (h : s.held = false) (bytes : List Byte) (ragged : Bool) :
    exec (.post bytes ragged) s = .next (s.countCommand bytes ragged State.post) :=
  (State.unlessHeld_high h _ : execPost bytes ragged s = _)

theorem exec_release {s : State} (h : s.held = false) (bytes : List Byte) (ragged : Bool) :
    exec (.release bytes ragged) s = .next (s.countCommand bytes ragged State.release) :=
  (State.unlessHeld_high h _ : execRelease bytes ragged s = _)

theorem exec_close {s : State} (h : s.held = false) (bytes : List Byte) (ragged : Bool) :
    exec (.close bytes ragged) s = .next (s.entryCommand bytes ragged State.close) :=
  (State.unlessHeld_high h _ : execClose bytes ragged s = _)

theorem exec_abort {s : State} (h : s.held = false) (bytes : List Byte) (ragged : Bool) :
    exec (.abort bytes ragged) s = .next (s.entryCommand bytes ragged State.abort) :=
  (State.unlessHeld_high h _ : execAbort bytes ragged s = _)

theorem exec_free {s : State} (h : s.held = false) (bytes : List Byte) (ragged : Bool) :
    exec (.free bytes ragged) s = .next (s.entryCommand bytes ragged State.freeEntry) :=
  (State.unlessHeld_high h _ : execFree bytes ragged s = _)

theorem exec_unknownCommandCode {s : State} (h : s.held = false) (code : Option Byte) :
    exec (.unknownCommandCode code) s = .next (
    match code with
    | none => { s with port := s.port.begun }
    | some c =>
      if commandCodes.contains c then s
      else { s with port := { s.port.begun with ssnLow := true, phase := .discarding, result := .badCommand } }) :=
  (State.unlessHeld_high h _ : execUnknownCommandCode code s = _)

theorem exec_markedCharacter {s : State} (h : s.held = false) (d : Byte) :
    exec (.markedCharacter d) s = .next (s.marked d) :=
  (State.unlessHeld_high h _ : execMarkedCharacter d s = _)

theorem exec_unmarkedCharacter {s : State} (h : s.held = false) (d : Byte) :
    exec (.unmarkedCharacter d) s = .next (s.unmarked d) :=
  (State.unlessHeld_high h _ : execUnmarkedCharacter d s = _)

theorem exec_collisionSeen {s : State} (h : s.held = false) (cause : SeenCause) :
    exec (.collisionSeen cause) s = .next (s.collisionSeen cause) :=
  (State.unlessHeld_high h _ : execCollisionSeen cause s = _)

theorem exec_receiverIdleGap {s : State} (h : s.held = false) :
    exec .receiverIdleGap s = .next s.receiverGap :=
  (State.unlessHeld_high h _ : execReceiverIdleGap s = _)

theorem exec_lineBusy {s : State} (h : s.held = false) (cause : BusyCause) :
    exec (.lineBusy cause) s = .next (s.lineBusied cause) :=
  (State.unlessHeld_high h _ : execLineBusy cause s = _)

theorem exec_lineIdle {s : State} (h : s.held = false) :
    exec .lineIdle s = .next s.lineIdled :=
  (State.unlessHeld_high h _ : execLineIdle s = _)

theorem exec_slotEnd {s : State} (h : s.held = false) :
    exec .slotEnd s = .next s.slotEnded :=
  (State.unlessHeld_high h _ : execSlotEnd s = _)

theorem exec_quietTimerExpiry {s : State} (h : s.held = false) :
    exec .quietTimerExpiry s = .next s.quietExpired :=
  (State.unlessHeld_high h _ : execQuietTimerExpiry s = _)

theorem exec_ackTimerExpiry {s : State} (h : s.held = false) (i : EntryIdx) :
    exec (.ackTimerExpiry i) s = .next (s.ackExpired i) :=
  (State.unlessHeld_high h _ : execAckTimerExpiry i s = _)

theorem exec_holdTimerExpiry {s : State} (h : s.held = false) (i : EntryIdx) :
    exec (.holdTimerExpiry i) s = .next (s.holdExpired i) :=
  (State.unlessHeld_high h _ : execHoldTimerExpiry i s = _)

theorem exec_joinTimerExpiry {s : State} (h : s.held = false) (i : EntryIdx) :
    exec (.joinTimerExpiry i) s = .next (s.joinExpired i) :=
  (State.unlessHeld_high h _ : execJoinTimerExpiry i s = _)

theorem exec_silenceTimerExpiry {s : State} (h : s.held = false) (i : EntryIdx) :
    exec (.silenceTimerExpiry i) s = .next (s.silenceExpired i) :=
  (State.unlessHeld_high h _ : execSilenceTimerExpiry i s = _)

theorem exec_dataFrame {s : State} (h : s.held = false) (src : Station) (stream : StreamNo) (seq : Seq) (endFlag : Bool) (payload : List Byte) :
    exec (.dataFrame src stream seq endFlag payload) s = .next (s.frameEvent (.data src stream seq endFlag payload)) :=
  (State.unlessHeld_high h _ : execDataFrame src stream seq endFlag payload s = _)

theorem exec_holdFrame {s : State} (h : s.held = false) (src : Station) (stream : StreamNo) (nextSeq : Seq) :
    exec (.holdFrame src stream nextSeq) s = .next (s.frameEvent (.hold src stream nextSeq)) :=
  (State.unlessHeld_high h _ : execHoldFrame src stream nextSeq s = _)

theorem exec_ackFrame {s : State} (h : s.held = false) (src : Station) (stream : StreamNo) (dest : Station) (ackSeq : Seq) (credit : Nat) :
    exec (.ackFrame src stream dest ackSeq credit) s = .next (s.frameEvent (.ack src stream dest ackSeq credit)) :=
  (State.unlessHeld_high h _ : execAckFrame src stream dest ackSeq credit s = _)

theorem exec_joinFrame {s : State} (h : s.held = false) (src : Station) (stream : StreamNo) (credit size : Nat) :
    exec (.joinFrame src stream credit size) s = .next (s.frameEvent (.join src stream credit size)) :=
  (State.unlessHeld_high h _ : execJoinFrame src stream credit size s = _)

theorem exec_acceptFrame {s : State} (h : s.held = false) (src : Station) (stream : StreamNo) (dest : Station) (start : Seq) (size : Nat) :
    exec (.acceptFrame src stream dest start size) s = .next (s.frameEvent (.accept src stream dest start size)) :=
  (State.unlessHeld_high h _ : execAcceptFrame src stream dest start size s = _)

theorem exec_refuseFrame {s : State} (h : s.held = false) (src : Station) (stream : StreamNo) (dest : Station) (reason : Reason) :
    exec (.refuseFrame src stream dest reason) s = .next (s.frameEvent (.refuse src stream dest reason)) :=
  (State.unlessHeld_high h _ : execRefuseFrame src stream dest reason s = _)

theorem exec_leaveFrame {s : State} (h : s.held = false) (src : Station) (stream : StreamNo) :
    exec (.leaveFrame src stream) s = .next (s.frameEvent (.leave src stream)) :=
  (State.unlessHeld_high h _ : execLeaveFrame src stream s = _)

theorem exec_schedulerChoice {s : State} (h : s.held = false) :
    exec .schedulerChoice s = .next s.choose :=
  (State.unlessHeld_high h _ : execSchedulerChoice s = _)

theorem exec_transmitStart {s : State} (h : s.held = false) :
    exec .transmitStart s = .next s.transmitStart :=
  (State.unlessHeld_high h _ : execTransmitStart s = _)

theorem exec_transmitCollision {s : State} (h : s.held = false) (cause : DriveCause) (first : Bool) :
    exec (.transmitCollision cause first) s = .next (s.txCollision cause first) :=
  (State.unlessHeld_high h _ : execTransmitCollision cause first s = _)

theorem exec_newFrameComplete {s : State} (h : s.held = false) :
    exec .newFrameComplete s = .next (
    match s.completed with
    | some (.data i false _ seq e slot len, owned, t) => if owned then t.newDone i seq e slot len else t
    | _ => s) :=
  (State.unlessHeld_high h _ : execNewFrameComplete s = _)

theorem exec_resendComplete {s : State} (h : s.held = false) :
    exec .resendComplete s = .next (
    match s.completed with
    | some (.data i true _ seq _ _ _, owned, t) => if owned then t.resendDone i seq else t
    | _ => s) :=
  (State.unlessHeld_high h _ : execResendComplete s = _)

theorem exec_holdComplete {s : State} (h : s.held = false) :
    exec .holdComplete s = .next (
    match s.completed with
    | some (.hold i _ _, owned, t) => if owned then t.holdDone i else t
    | _ => s) :=
  (State.unlessHeld_high h _ : execHoldComplete s = _)

theorem exec_joinComplete {s : State} (h : s.held = false) :
    exec .joinComplete s = .next (
    match s.completed with
    | some (.join i _ _ _, owned, t) => if owned then t.joinDone i else t
    | _ => s) :=
  (State.unlessHeld_high h _ : execJoinComplete s = _)

theorem exec_ackComplete {s : State} (h : s.held = false) :
    exec .ackComplete s = .next (
    match s.completed with
    | some (.ack i _ _ _ _, owned, t) => if owned then t.ackDone i else t
    | _ => s) :=
  (State.unlessHeld_high h _ : execAckComplete s = _)

theorem exec_leaveComplete {s : State} (h : s.held = false) :
    exec .leaveComplete s = .next (
    match s.completed with
    | some (.leave i _, owned, t) => if owned then t.leaveDone i else t
    | _ => s) :=
  (State.unlessHeld_high h _ : execLeaveComplete s = _)

theorem exec_replyComplete {s : State} (h : s.held = false) :
    exec .replyComplete s = .next (
    match s.completed with
    | some (.reply _ _ _, _, t) => { t with replies := replySent t.replies }
    | _ => s) :=
  (State.unlessHeld_high h _ : execReplyComplete s = _)

theorem exec_readCommandShortFraming {s : State} (h : s.held = false) (code : Byte) (bytes : List Byte) :
    exec (.readCommandShortFraming code bytes) s = .next (if isShortRead code bytes then { s with port := { s.port.begun with result := .badLength } } else s) :=
  (State.unlessHeld_high h _ : execReadCommandShortFraming code bytes s = _)

end Sys2Proof.Machine
end

