-- ==== Sys2Proof/Laws/Memory.lean ====
section
/-! SUPPORT. Buffer memory: the canonical form is kept by every write, a byte reads as it was written, every other byte
reads as before, and canonical memories that read alike are equal. -/

namespace Sys2Proof.Machine

/-! ## The canonical form -/

theorem Memory.wfFrom_mono {lo lo' : Nat} {m : Memory} (h : Memory.wfFrom lo m = true) (hle : lo' ≤ lo) :
    Memory.wfFrom lo' m = true := by
  cases m with
  | nil => rfl
  | cons c m =>
    obtain ⟨a, b⟩ := c
    simp only [Memory.wfFrom, Bool.and_eq_true, decide_eq_true_eq] at h ⊢
    exact ⟨⟨⟨by omega, h.1.1.2⟩, h.1.2⟩, h.2⟩

theorem Memory.read_eq_zero_of_lt {lo : Nat} {m : Memory} (h : Memory.wfFrom lo m = true) {x : Nat} (hx : x < lo) :
    Memory.read m x = 0#8 := by
  induction m generalizing lo with
  | nil => rfl
  | cons c m ih =>
    obtain ⟨a, b⟩ := c
    simp only [Memory.wfFrom, Bool.and_eq_true, decide_eq_true_eq] at h
    have hne : a ≠ x := by omega
    simp only [Memory.read, hne, if_false]
    exact ih h.2 (by omega)

/-- A write keeps the canonical form. -/
theorem Memory.wfFrom_write {lo : Nat} {m : Memory} (h : Memory.wfFrom lo m = true) {x : Nat} (hlo : lo ≤ x)
    (hx : x < Config.memBytes) (v : Byte) : Memory.wfFrom lo (Memory.write m x v) = true := by
  induction m generalizing lo with
  | nil =>
    by_cases hv : v = 0#8 <;> simp [Memory.write, Memory.wfFrom, hv, hlo, hx]
  | cons c m ih =>
    obtain ⟨a, b⟩ := c
    simp only [Memory.wfFrom, Bool.and_eq_true, decide_eq_true_eq] at h
    obtain ⟨⟨⟨ha, hb⟩, hb0⟩, hm⟩ := h
    rcases lt_trichotomy x a with hxa | hxa | hxa
    · by_cases hv : v = 0#8
      · simp [Memory.write, hxa, hv, Memory.wfFrom, ha, hb, hb0, hm]
      · have : Memory.wfFrom (x + 1) ((a, b) :: m) = true := by
          simp [Memory.wfFrom, hb, hb0, hm]; omega
        simp only [Memory.write, hxa, hv, if_true, if_false]
        simp only [Memory.wfFrom, Bool.and_eq_true, decide_eq_true_eq] at this ⊢
        exact ⟨⟨⟨hlo, hx⟩, hv⟩, this⟩
    · subst hxa
      by_cases hv : v = 0#8
      · simp [Memory.write, hv, Memory.wfFrom_mono hm (by omega : lo ≤ x + 1)]
      · simp [Memory.write, hv, Memory.wfFrom, ha, hb, hm]
    · have h1 : ¬x < a := by omega
      have h2 : x ≠ a := by omega
      simp [Memory.write, h1, h2, Memory.wfFrom, ha, hb, hb0, ih hm (by omega : a + 1 ≤ x)]

theorem addrAt_lt (a j : Nat) : addrAt a j < Config.memBytes := Nat.mod_lt _ (by decide)

theorem addrAt_succ (a j : Nat) : addrAt (a + 1) j = addrAt a (j + 1) := by
  simp only [addrAt, Nat.add_assoc, Nat.add_comm 1 j]

theorem Memory.wf_write {m : Memory} (h : Memory.wf m = true) {x : Nat} (hx : x < Config.memBytes) (v : Byte) :
    Memory.wf (Memory.write m x v) = true := Memory.wfFrom_write h (Nat.zero_le x) hx v

/-- A claim that writes keeps the canonical form. -/
theorem Memory.wf_writeRun {m : Memory} (h : Memory.wf m = true) (a : Nat) (bs : List Byte) :
    Memory.wf (Memory.writeRun m a bs) = true := by
  induction bs generalizing m a with
  | nil => exact h
  | cons b bs ih => exact ih (Memory.wf_write h (addrAt_lt a 0) b) (a + 1)

/-- Reset memory has the canonical form. -/
theorem Memory.wf_reset : Memory.wf State.reset.mem = true := rfl

/-! ## Reading after a write -/

theorem Memory.read_write_from {lo : Nat} {m : Memory} (h : Memory.wfFrom lo m = true) (x y : Nat) (v : Byte) :
    Memory.read (Memory.write m x v) y = if y = x then v else Memory.read m y := by
  induction m generalizing lo with
  | nil =>
    by_cases hv : v = 0#8 <;> by_cases hy : y = x <;> simp [Memory.write, Memory.read, hv, hy]
    intro hh; exact absurd hh.symm hy
  | cons c m ih =>
    obtain ⟨a, b⟩ := c
    simp only [Memory.wfFrom, Bool.and_eq_true, decide_eq_true_eq] at h
    obtain ⟨-, hm⟩ := h
    rcases lt_trichotomy x a with hxa | hxa | hxa
    · by_cases hv : v = 0#8
      · by_cases hy : y = x
        · subst hy
          have hya : a ≠ y := by omega
          have := Memory.read_eq_zero_of_lt hm (x := y) (by omega)
          simp [Memory.write, hxa, hv, Memory.read, this, hya]
        · simp [Memory.write, hxa, hv, hy]
      · by_cases hy : y = x
        · simp [Memory.write, hxa, hv, Memory.read, hy]
        · have hxy : x ≠ y := fun hh => hy hh.symm
          simp [Memory.write, hxa, hv, Memory.read, hy, hxy]
    · subst hxa
      by_cases hv : v = 0#8
      · by_cases hy : y = x
        · have := Memory.read_eq_zero_of_lt hm (x := y) (by omega)
          simp [Memory.write, hv, hy]; rw [← hy]; exact this
        · have hxy : x ≠ y := fun hh => hy hh.symm
          simp [Memory.write, hv, hy, Memory.read, hxy]
      · by_cases hy : y = x
        · simp [Memory.write, hv, hy, Memory.read]
        · have hxy : x ≠ y := fun hh => hy hh.symm
          simp [Memory.write, hv, hy, Memory.read, hxy]
    · have h1 : ¬x < a := by omega
      have h2 : x ≠ a := by omega
      simp only [Memory.write, h1, h2, if_false, Memory.read, ih hm]
      by_cases hay : a = y
      · have : y ≠ x := by omega
        simp [hay, this]
      · simp [hay]

/-- A write in canonical memory: the byte written reads as written, every other byte as before. -/
theorem Memory.read_write {m : Memory} (h : Memory.wf m = true) (x y : Nat) (v : Byte) :
    Memory.read (Memory.write m x v) y = if y = x then v else Memory.read m y := Memory.read_write_from h x y v

/-- Every byte outside the run of a claim that writes reads as before. -/
theorem Memory.read_writeRun_other {m : Memory} (h : Memory.wf m = true) (a : Nat) (bs : List Byte) (y : Nat)
    (hy : ∀ j < bs.length, y ≠ addrAt a j) : Memory.read (Memory.writeRun m a bs) y = Memory.read m y := by
  induction bs generalizing m a with
  | nil => rfl
  | cons b bs ih =>
    have h0 : y ≠ addrAt a 0 := hy 0 (by simp)
    have hrest : ∀ j < bs.length, y ≠ addrAt (a + 1) j := by
      intro j hj
      have := hy (j + 1) (by simpa using hj)
      rwa [addrAt_succ]
    rw [Memory.writeRun, ih (Memory.wf_write h (addrAt_lt a 0) b) (a + 1) hrest, Memory.read_write h, if_neg h0]

theorem addrAt_injective {a i j : Nat} (hi : i < Config.memBytes) (hj : j < Config.memBytes)
    (h : addrAt a i = addrAt a j) : i = j := by
  simp only [addrAt, Config.memBytes] at *
  omega

/-- Every byte of a claim that writes at most the whole of buffer memory reads as written. -/
theorem Memory.read_writeRun {m : Memory} (h : Memory.wf m = true) (a : Nat) (bs : List Byte)
    (hlen : bs.length ≤ Config.memBytes) (j : Nat) (hj : j < bs.length) :
    Memory.read (Memory.writeRun m a bs) (addrAt a j) = bs[j] := by
  induction bs generalizing m a j with
  | nil => simp at hj
  | cons b bs ih =>
    have hw := Memory.wf_write h (addrAt_lt a 0) b
    have hl : bs.length + 1 ≤ Config.memBytes := by simpa using hlen
    cases j with
    | zero =>
      have hrest : ∀ k < bs.length, addrAt a 0 ≠ addrAt (a + 1) k := by
        intro k hk heq
        rw [addrAt_succ] at heq
        have := addrAt_injective (i := 0) (j := k + 1) (by omega) (by omega) heq
        omega
      rw [Memory.writeRun, Memory.read_writeRun_other hw (a + 1) bs _ hrest, Memory.read_write h]
      simp
    | succ k =>
      have hk : k < bs.length := by simpa using hj
      rw [← addrAt_succ, Memory.writeRun,
        ih hw (a + 1) (by omega) k hk]
      simp

/-! ## Canonical memories that read alike are equal -/

theorem Memory.ext_from {lo : Nat} {m n : Memory} (hm : Memory.wfFrom lo m = true) (hn : Memory.wfFrom lo n = true)
    (h : ∀ x, Memory.read m x = Memory.read n x) : m = n := by
  induction m generalizing lo n with
  | nil =>
    cases n with
    | nil => rfl
    | cons c n =>
      obtain ⟨a, b⟩ := c
      simp only [Memory.wfFrom, Bool.and_eq_true, decide_eq_true_eq] at hn
      have := h a
      simp [Memory.read] at this
      exact absurd this.symm hn.1.2
  | cons c m ih =>
    obtain ⟨a, b⟩ := c
    simp only [Memory.wfFrom, Bool.and_eq_true, decide_eq_true_eq] at hm
    cases n with
    | nil =>
      have := h a
      simp [Memory.read] at this
      exact absurd this hm.1.2
    | cons d n =>
      obtain ⟨a', b'⟩ := d
      simp only [Memory.wfFrom, Bool.and_eq_true, decide_eq_true_eq] at hn
      have haa : a = a' := by
        rcases lt_trichotomy a a' with hlt | heq | hgt
        · have h1 := h a
          have h2 := Memory.read_eq_zero_of_lt hn.2 (x := a) (by omega)
          have hne : a' ≠ a := by omega
          simp [Memory.read, hne, h2] at h1
          exact absurd h1 hm.1.2
        · exact heq
        · have h1 := h a'
          have h2 := Memory.read_eq_zero_of_lt hm.2 (x := a') (by omega)
          have hne : a ≠ a' := by omega
          simp [Memory.read, hne, h2] at h1
          exact absurd h1.symm hn.1.2
      subst haa
      have hbb : b = b' := by simpa [Memory.read] using h a
      subst hbb
      have hrest : ∀ x, Memory.read m x = Memory.read n x := by
        intro x
        by_cases hx : a = x
        · subst hx
          rw [Memory.read_eq_zero_of_lt hm.2 (by omega), Memory.read_eq_zero_of_lt hn.2 (by omega)]
        · simpa [Memory.read, hx] using h x
      rw [ih hm.2 hn.2 hrest]

/-- Canonical memories that read alike at every address are the same data. -/
theorem Memory.ext {m n : Memory} (hm : Memory.wf m = true) (hn : Memory.wf n = true)
    (h : ∀ x, Memory.read m x = Memory.read n x) : m = n := Memory.ext_from hm hn h

end Sys2Proof.Machine
end

