-- ==== Sys2Proof/Laws/Step.lean ====
section
/-! SUPPORT. What a step on an empty queue can do, by cases: nothing, an event that comes at once, a change on a pin, a bit
time; and how a framing that is not taken goes on. -/

namespace Sys2Proof.Machine

open Sys2Proof.Safety

theorem step_empty (s : State) (h : s.pending = []) : step s = .next s.idle := by simp [step, h]

theorem State.idle_held (s : State) (h : s.held = true) (hp : s.pins = []) : s.idle = s := by
  simp [State.idle, h, hp]

theorem State.idle_atOnce (s : State) (c : Instr) (h : s.held = false) (ha : s.atOnce = some c) :
    s.idle = { s with pending := [c] } := by
  simp [State.idle, h, ha]

theorem State.idle_pin (s : State) (e : PinEvent) (rest : List PinEvent) (ha : s.held = true ∨ s.atOnce = none)
    (hp : s.pins = e :: rest) : s.idle = State.pinEvent { s with pins := rest } e := by
  rcases ha with ha | ha <;> simp [State.idle, ha, hp]

theorem State.idle_bitTime (s : State) (h : s.held = false) (ha : s.atOnce = none) (hp : s.pins = []) :
    s.idle = { s.advance with pending := s.readbackDue ++ s.advance.dueEvents } := by
  simp [State.idle, h, ha, hp]

/-- The change on a pin that stands first is taken from a state with nothing else to do. -/
theorem step_pin (s : State) (e : PinEvent) (rest : List PinEvent) (ha : s.held = true ∨ s.atOnce = none) :
    step { s with pending := [], pins := e :: rest }
      = .next (State.pinEvent { s with pending := [], pins := rest } e) :=
  (step_empty _ rfl).trans
    (congrArg Host.Outcome.next (State.idle_pin { s with pending := [], pins := e :: rest } e rest ha rfl))

/-- A change on a pin leads where the operation of the pin leads. -/
theorem onPin_of (s t : State) (e : PinEvent) (ha : s.held = true ∨ s.atOnce = none)
    (hp : ∀ rest, State.pinEvent { s with pending := [], pins := rest } e = { t with pins := rest }) : onPin s t e := by
  intro rest
  rw [step_pin s e rest ha]
  exact congrArg Host.Outcome.next (hp rest)

/-! ## A framing that is not taken -/

/-- The bits of a byte are put together as they were sent. -/
theorem byteOfBits_portBits (b : Byte) : byteOfBits (portBits b) = b := by
  revert b
  unfold byteOfBits portBits
  decide +kernel

/-- Past its code byte a framing that is not taken stands where 9.2 has its code. -/
theorem Untaken.ofCode_eq (b : Byte) :
    Untaken.ofCode b =
      if b ∈ [0x10#8, 0x11#8, 0x12#8] then .answer false
      else if b ∈ [0x13#8, 0x14#8, 0x16#8] then .parameters 8
      else if b = 0x15#8 then .parameters 16
      else .zeros := by
  revert b
  decide +kernel

/-- One more bit takes a framing that is not taken where the statements say. -/
theorem Untaken.clocked_of_next {u v : Untaken} {mosi : Bool} (h : untakenNext u mosi v) : u.clocked mosi = v := by
  rcases h with ⟨bits, rfl, hl, rfl⟩ | ⟨bits, b, rfl, hb, rfl⟩ | ⟨n, rfl, rfl⟩ | ⟨rfl | rfl | rfl, rfl⟩
  · have : (bits ++ [mosi]).length < 8 := by simp; omega
    simp only [Untaken.clocked, if_pos this]
  · have : ¬(portBits b).length < 8 := by simp [portBits]
    simp only [Untaken.clocked, hb, if_neg this, byteOfBits_portBits, Untaken.ofCode_eq]
  · simp only [Untaken.clocked, Untaken.withLeft, Nat.sub_eq_zero_iff_le]
  all_goals rfl

/-- A reset leaves a framing in progress where the statements say. -/
theorem Port.asUntaken_spec (p : Port) : becomesUntaken p p.asUntaken := by
  refine ⟨fun h => ?_, fun h => ?_, fun h hc hb hl => ?_, fun h hc hb hl => ?_, fun h => ?_, fun cmd h => ?_⟩
  · simp only [Port.asUntaken, h]
  · simp only [Port.asUntaken, h]
  · have : readParameterBytes p.code = some 1 := by
      simp only [List.mem_cons, List.not_mem_nil, or_false] at hc
      rcases hc with hc | hc | hc <;> rw [hc] <;> rfl
    simp only [Port.asUntaken, h, this, hb, Option.getD_some, List.length_nil, Untaken.withLeft]
    rw [if_neg (by omega)]
  · have : readParameterBytes p.code = some 2 := by rw [hc]; rfl
    simp only [Port.asUntaken, h, this, Option.getD_some, Untaken.withLeft]
    rw [if_neg (by omega)]
    congr 1
    omega
  · rcases h with h | h <;> simp only [Port.asUntaken, h]
  · simp only [Port.asUntaken, h]

end Sys2Proof.Machine
end

