-- ==== Sys2Proof/Tests/Slice0.lean ====
section
/-! SUPPORT. The model's own tests: ill-formed terms that the checks refuse, steps of the spec's worked examples, and for
every statement with hypotheses a state that meets them, its clauses taken at the edges of their ranges. Expected results
come from the spec's tables; each test names its section. -/

namespace Sys2Proof.Tests

/- The theorems of this file are elaborated one after another: each asks the kernel, and many at once take a thread each. -/
set_option Elab.async false

open Sys2Proof.Machine Sys2Proof.Safety

/-! ## Small states -/

/-- The state after a command; the state itself if the command stopped. -/
def run (c : Instr) (s : State) : State :=
  match exec c s with
  | .next t => t
  | _ => s

/-- A station that is ONLINE on an idle line, listening in HUNT. -/
def online : State :=
  { State.reset with stationNo := 5, rate := 2, station := .online, line := .idle, rx := { state := .hunt, gap := some 33 } }

/-- A station just taken to LISTENING. -/
def listening : State := { online with station := .listening, quiet := some 704 }

/-- The producer of stream 12 of 11.3. -/
def producer : Entry :=
  { state := .producing, role := some .producer, stream := 12, slots := 8, size := 16, threshold := 8,
    timer := .running 250 }

/-- A subscriber record as a JOIN leaves it. -/
def joinedSub (n : Station) : SubRec := { station := n, acked := 255, credit := 4, missed := 0, heard := true }

/-- A frame record of a full slot, owed by a list of stations. -/
def record (q : Seq) (slot : Nat) (owed : List Station) : FrameRec :=
  { seq := q, slot := some slot, len := 16, endFlag := false, owed := stationsOf owed, queued := false }

/-- Station 5 of 11.3 with both subscribers and frames 0 and 1 outstanding. -/
def twoOut : Entry :=
  { producer with
    timer := .running 20,
    prod := { nextSeq := 2, sendIdx := 2, filled := 1, ring := [record 0 0 [9, 20], record 1 1 [9, 20]],
              subs := [joinedSub 9, joinedSub 20] } }

/-- The consumer of 4.9, RECEIVING from station 17. -/
def consumer : Entry :=
  { state := .receiving, role := some .consumer, stream := 12, base := 256, slots := 2, size := 16, threshold := 2,
    timer := .running 2000, cons := { producer := some 17, expected := 3 } }

/-- The same entry before its ACCEPT. -/
def joiner : Entry :=
  { consumer with state := .joining, timer := .stopped, cons := { joinDue := true } }

/-- The online station with one entry at index 0. -/
def having (e : Entry) : State := { online.setEntry 0 e with poolFree := 48 - e.prod.subs.length }

/-- Sixteen payload bytes. -/
def payload : List Byte := (List.range 16).map (fun n => BitVec.ofNat 8 (n + 1))

/-- The online station sending a chosen frame. -/
def sending (e : Entry) (f : TxFrame) (inRound : Bool) : State :=
  { having e with tx := .sending f [0x69#8] 11 inRound false, rx := { state := .suspended }, line := .busy }

/-! ## Well-formedness refuses -/

theorem test_wf_data_too_long : (Instr.dataFrame 9 12 0 false (List.replicate 65 0)).wf = false := by decide +kernel
theorem test_wf_data_longest : (Instr.dataFrame 9 12 0 false (List.replicate 64 0)).wf = true := by decide +kernel
theorem test_wf_ack_credit : (Instr.ackFrame 9 12 5 2 5).wf = false ∧ (Instr.ackFrame 9 12 5 2 4).wf = true := by decide +kernel
theorem test_wf_join_credit : (Instr.joinFrame 9 12 5 16).wf = false := by decide +kernel
theorem test_wf_join_size : (Instr.joinFrame 9 12 4 0).wf = false ∧ (Instr.joinFrame 9 12 4 65).wf = false := by decide +kernel
theorem test_wf_accept_size : (Instr.acceptFrame 9 12 5 0 0).wf = false ∧ (Instr.acceptFrame 9 12 5 0 65).wf = false := by
  decide +kernel
theorem test_wf_unknown_code_known : (Instr.unknownCommandCode (some 0x10#8)).wf = false := by decide +kernel
theorem test_wf_short_read_not_short : (Instr.readCommandShortFraming 0x15#8 [0, 0]).wf = false := by decide +kernel
theorem test_wf_short_read_no_parameters : (Instr.readCommandShortFraming 0x10#8 []).wf = false := by decide +kernel

/-- The table gives no row any bits, so no word spells a command. -/
theorem test_no_word_is_a_command : decodeTableWord 8 0x10 = none ∧ (online.withFetchWord 8 0x10) = online := by decide +kernel

/-! ## The spec's worked examples -/

/-- The check value of R134's CRC over the ASCII digits 1 to 9, as its rule gives it. -/
theorem test_crc_check_value :
    crc [0x31#8, 0x32#8, 0x33#8, 0x34#8, 0x35#8, 0x36#8, 0x37#8, 0x38#8, 0x39#8] = 0x29B1#16 := by decide +kernel

/-- The ACK of the example in 10.2. -/
theorem test_ack_characters : frameBody (.ack 9 12 5 2 4) = [0x69#8, 0x0C#8, 0x05#8, 0x02#8, 0x04#8] := by decide +kernel

/-- An ACK takes 7 characters, a HOLD 5, DATA of 16 bytes 22 (10.2, 11.4). -/
theorem test_frame_lengths :
    (frameChars (.ack 9 12 5 2 4)).length = 7 ∧ (frameChars (.hold 9 12 0)).length = 5
    ∧ (frameChars (.data 9 12 0 false payload)).length = 22 := by decide +kernel

/-- The status word after reset is 00h, 00h (11.1). -/
theorem test_status_after_reset : (run .readStatus State.reset).port.answer = [0, 0] := by decide +kernel

/-- The default parameters give T_sil 2000 ms (11.3). -/
theorem test_default_silence : (State.reset.params).tSil = 2000 := by decide +kernel

/-- A record of item 0 with JOINED and joined set {9, 20} (5.9): bit n of the mask is station n. -/
theorem test_notice_record_of_two_joins :
    noticeRecord 0 { kinds := 0x01, joined := stationsOf [9, 20] } =
      0x00#8 :: 0x01#8 :: [0, 0, 0x10, 2, 0] ++ List.replicate 8 0 := by decide +kernel

/-- The region table of 1.6, rows 1 and 5: the last region ends at byte 8191. -/
theorem test_region_fits :
    (run (.openProduce [0, 12, 0, 0, 8, 16, 0, 0, 8] false) online).port.result = .ok
    ∧ (run (.openProduce [2, 7, 0, 160, 251, 32, 0, 0, 1] false) online).port.result = .ok := by decide +kernel

/-- The region table of 1.6, rows 2, 4 and 6. -/
theorem test_region_refused :
    (run (.openConsume [1, 40, 0, 120, 1, 32, 0, 0, 1, 1] false) (having producer)).port.result = .overlap
    ∧ (run (.openProduce [2, 7, 0, 160, 255, 32, 0, 0, 1] false) (having producer)).port.result = .badParameter
    ∧ (run (.openProduce [3, 12, 0, 0, 1, 1, 0, 0, 1] false) (having producer)).port.result = .streamInUse := by decide +kernel

/-- POST 3 at station 5 (11.3): filled 3, free slots 5, fill index 3. -/
theorem test_post_three :
    let e := (run (.post [0, 3] false) (having producer)).entry 0
    e.prod.filled = 3 ∧ e.freeSlots = 5 ∧ e.fillIdx = 3 := by decide +kernel

/-- ACK (1, 2) from 9 with frames 0 and 1 out (11.3): both owed sets drop 9, nothing retires. -/
theorem test_first_ack :
    let e := (run (.ackFrame 9 12 5 1 2) (having twoOut)).entry 0
    e.prod.ring = [record 0 0 [20], record 1 1 [20]]
    ∧ e.prod.subs.head? = some { station := 9, acked := 1, credit := 2, missed := 0, heard := true } := by decide +kernel

/-- ACK (1, 4) from 20 once 9 has acknowledged (11.3): the ring empties, free slots rise to 7, the hold timer starts, and
below the threshold of 8 no notice is raised. -/
theorem test_second_ack_retires :
    let out := { twoOut with prod := { twoOut.prod with ring := [record 0 0 [20], record 1 1 [20]] } }
    let t := run (.ackFrame 20 12 5 1 4) (having out)
    (t.entry 0).prod.ring = [] ∧ (t.entry 0).freeSlots = 7 ∧ (t.entry 0).timer = .running 250 ∧ t.noticeQueue = [] := by
  decide +kernel

/-- The ack timer's expiry of 11.3: one miss against 20 alone, record 2 queued, the timer stopped. -/
theorem test_ack_expiry :
    let p := { twoOut.prod with nextSeq := 3, sendIdx := 3, filled := 0, ring := [record 2 2 [20]] }
    let out := { twoOut with timer := .running 0, prod := p }
    let e := (run (.ackTimerExpiry 0) (having out)).entry 0
    e.prod.ring = [{ record 2 2 [20] with queued := true }] ∧ e.timer = .stopped
    ∧ e.prod.subs.map (fun r => r.missed) = [0, 1] := by decide +kernel

/-- A station that joins with frames outstanding (3.3): acked next_seq − 1, and an ACCEPT with start next_seq. -/
theorem test_join_with_frames_out :
    let sub9 := { joinedSub 9 with acked := 0, heard := false }
    let e := { producer with prod := { nextSeq := 3, ring := [record 1 1 [9], record 2 2 [9]], subs := [sub9] } }
    let t := run (.joinFrame 20 12 4 16) (having e)
    (t.entry 0).prod.subs.drop 1 = [{ station := 20, acked := 2, credit := 4, missed := 0, heard := true }]
    ∧ t.replies = [{ dest := 20, stream := 12, body := .accept 3 16, inService := false }] ∧ t.poolFree = 46 := by decide +kernel

/-- DATA 3 accepted into slot 0, then DATA 4 with the ACK in flight (4.9): write index back to 0, credit 0, the flag
renewed, DATA_READY at the threshold of 2. -/
theorem test_data_accepted :
    let c := { consumer.cons with expected := 4, held := 1, writeIdx := 1, ack := .inFlight, lastSeq := some 3 }
    let e := { consumer with cons := c }
    let t := run (.dataFrame 17 12 4 false payload) (having e)
    (t.entry 0).cons.writeIdx = 0 ∧ (t.entry 0).credit = 0 ∧ (t.entry 0).cons.ack = .renewed
    ∧ (t.item 0).kinds = 0x08#8 ∧ Memory.read t.mem 272 = 1#8 ∧ Memory.read t.mem 287 = 16#8
    ∧ Memory.read t.mem 271 = 0#8 := by decide +kernel

/-- RELEASE 1 of a full region (4.9): the credit rises from 0, so an ACK is owed. -/
theorem test_release_owes_ack :
    let e := { consumer with cons := { consumer.cons with expected := 5, held := 2, lastSeq := some 4 } }
    let t := run (.release [0, 1] false) (having e)
    (t.entry 0).cons.held = 1 ∧ (t.entry 0).cons.readIdx = 1 ∧ (t.entry 0).cons.ack = .owed := by decide +kernel

/-- The eviction at HOLD g of 11.3: the sixth miss evicts station 20. -/
theorem test_hold_evicts :
    let sub20 := { joinedSub 20 with missed := 5, heard := false }
    let e := { producer with prod := { nextSeq := 3, subs := [joinedSub 9, sub20], holdDue := true } }
    let t := run .holdComplete (sending e (.hold 0 12 3) false)
    (t.entry 0).prod.subs = [{ joinedSub 9 with heard := false }] ∧ t.poolFree = 47
    ∧ (t.item 0).kinds = 0x04#8 ∧ (t.item 0).evicted = stationsOf [20] := by decide +kernel

/-- Frame 3 of 11.3, posted last before a CLOSE, is chosen with END. -/
theorem test_end_on_last_slot :
    let sub9 := { joinedSub 9 with acked := 2 }
    let p : Producer := { nextSeq := 3, sendIdx := 3, filled := 1, endPending := .byClose, subs := [sub9] }
    let e := { producer with state := .closing, prod := p }
    (run .schedulerChoice (having e)).tx = .chosen (.data 0 false 12 3 true (some 3) 16) false := by decide +kernel

/-- The round of 11.4: after a collision in CONTENTION slot 0 starts with r = 32; after station 17's frame the slot of
station 18 starts with r = 14; after slot 31 the round ends. -/
theorem test_round_of_11_4 :
    let busy := { online with line := .busy, lineGap := some 33 }
    (run .lineIdle { busy with round := .gap 0 32 }).round = .slot 0 32 0 0
    ∧ (run .lineIdle { busy with round := .busy 0 15 17 (some 17) }).round = .slot 0 14 18 0
    ∧ (run .slotEnd { online with round := .slot 0 1 31 22 }).round = .contention := by decide +kernel

/-- WRITE_BUFFER of 4 bytes at 8190 (9.8) fills 8190, 8191, 0 and 1. -/
theorem test_write_wraps :
    (run (.writeBuffer [0x1F, 0xFE, 1, 2, 3, 4] false) State.reset).mem = [(0, 3), (1, 4), (8190, 1), (8191, 2)] := by
  decide +kernel

/-- GO_OFFLINE in 5.9: item 1, queued, merges ENDED in place; item 0, idle, joins at the tail. -/
theorem test_go_offline_notices :
    let s := having producer
    let items := s.items.set 1 { kinds := 0x08#8 }
    let s := { s.setEntry 1 { consumer with stream := 40 } with items := items, noticeQueue := [1, 12] }
    let t := run (.goOffline [] false) s
    t.noticeQueue = [1, 12, 0] ∧ (t.item 1).kinds = 0x28#8 ∧ (t.item 0).cause = some .offline := by decide +kernel

/-- An ACK to another station is dropped at its destination character (6.12). -/
theorem test_ack_for_another_station :
    let rx : Receiver := { state := .assembling, hold := [0x69#8, 0x0C#8], gap := some 0 }
    (run (.unmarkedCharacter 6) { having consumer with rx := rx }).rx.state = .skipping := by decide +kernel

/-- A millisecond is 125 bit times at rate code 0 (R124): the mark that ends it lets the entry timers count. -/
theorem test_millisecond_mark :
    ({ having producer with rate := 0, msPhase := 124 }.idle.entry 0).timer = .running 249
    ∧ ({ having producer with rate := 0, msPhase := 123 }.idle.entry 0).timer = .running 250 := by decide +kernel

/-- An ACK of frame 2 whose resend has been chosen and not started (3.4): the record retires and the resend is withdrawn. -/
theorem test_ack_withdraws_a_chosen_resend :
    let p := { twoOut.prod with nextSeq := 3, filled := 0, ring := [{ record 2 2 [20] with queued := true }] }
    let e := { twoOut with timer := .stopped, prod := p }
    let s := { having e with tx := .chosen (.data 0 true 12 2 false (some 2) 16) false }
    (run (.ackFrame 20 12 5 2 4) s).tx = .free ∧ ((run (.ackFrame 20 12 5 2 4) s).entry 0).prod.ring = []
    ∧ (run (.ackFrame 20 12 5 1 4) s).tx = s.tx := by decide +kernel

/-- A completion without subscribers restarts the hold timer, so the expiry queued behind it does not occur (R25, R48). -/
theorem test_restart_prevents_the_expiry :
    let e := { producer with timer := .running 0, prod := { filled := 1 } }
    let s := { having e with tx := .sending (.data 0 false 12 0 false (some 0) 16) [0x25#8] 11 false false, line := .busy,
                             rx := { state := .suspended }, poolFree := 48 }
    let t := run .newFrameComplete s
    (t.entry 0).timer = .running 250 ∧ run (.holdTimerExpiry 0) t = t
    ∧ ((run (.holdTimerExpiry 0) s).entry 0).prod.holdDue = true := by decide +kernel

/-- A step takes the front command and leaves the rest of the queue; with none it queues the event that comes at once. -/
theorem test_step_order :
    let s := { listening with quiet := some 0 }
    step { s with pending := [.quietTimerExpiry, .readStatus] }
      = .next { run .quietTimerExpiry s with pending := [.readStatus] }
    ∧ step (having joiner) = .next { having joiner with pending := [.schedulerChoice] } := by
  constructor <;> rfl

/-! ## States that meet the hypotheses of the statements, by statement (O1 to O60) -/

/-- O1: a state with a command at the front of its queue. -/
theorem witness_step_runs_front :
    ({ online with pending := [.readStatus, .readNotice] }).pending = .readStatus :: [.readNotice] := by decide +kernel

/-- O2: an empty queue with RSTN low, and every event that comes at once. -/
theorem witness_empty_queue :
    let low := { State.reset with rstnLow := true }
    let hold : TxFrame := .hold 0 12 0
    let owing := having { consumer with cons := { consumer.cons with ack := .owed } }
    let ready : Receiver := { state := .hunt, hold := frameChars (.leave 9 12), gap := some 0 }
    let granted := { having producer with tx := .chosen hold true, round := .slot 0 3 5 0 }
    low.pending = [] ∧ low.idle = low
    ∧ { having producer with handover := some hold, rx := ready }.idle.pending = [.holdComplete]
    ∧ { owing with rx := ready }.rx.ready = some (.leave 9 12) ∧ { owing with rx := ready }.idle.pending = [.leaveFrame 9 12]
    ∧ owing.candidate ≠ none ∧ owing.idle.pending = [.schedulerChoice]
    ∧ granted.idle.pending = [.transmitStart] ∧ { granted with tx := .chosen hold false }.idle.pending = []
    ∧ (having producer).atOnce = none := by decide +kernel

/-- O2: the counters of bit times, with nothing due on the bit time before each end and the event due at it. -/
theorem witness_bit_times :
    let due := fun (s : State) => s.idle.pending
    let gap := fun n => { online with line := .busy, lineGap := some n }
    let skip := fun n => { online with rx := { state := .skipping, gap := some n } }
    let slot := fun n => { online with round := .slot 0 3 9 n }
    let quiet := fun n => { listening with quiet := some n }
    let sent := fun n => { sending consumer (.ack 0 12 17 2 2) false with tx := .sending (.ack 0 12 17 2 2) [0x69#8] n false false }
    due (gap 31) = [] ∧ due (gap 32) = [.lineIdle] ∧ due { gap 32 with csnAsserted := true } = []
    ∧ due { gap 32 with rxdLow := true } = [] ∧ { gap 32 with rxdLow := true }.idle.lineGap = some 0
    ∧ due (skip 31) = [] ∧ due (skip 32) = [.receiverIdleGap] ∧ due (slot 20) = [] ∧ due (slot 21) = [.slotEnd]
    ∧ due (quiet 2) = [] ∧ due (quiet 1) = [.quietTimerExpiry]
    ∧ due (sent 9) = [] ∧ due (sent 10) = [.ackComplete] := by decide +kernel

/-- O2: a start bit confirmed and a glitch; the last bit of a marked and of an unmarked character 31h (10001100b from the least
significant bit on), with CSN in it, with its stop bit low, and a bit before it; nothing is sampled in SUSPENDED. -/
theorem witness_characters_sampled :
    let with' := fun (a : Assembler) => { online with rx := { state := .hunt, char := a } }
    let data := [true, false, false, false, true, true, false, false]
    let started := with' { start := true }
    let at' := fun (mark csn : Bool) => with' { bits := some (data ++ [mark]), csn := csn }
    let due := fun (s : State) => s.idle.pending
    started.atOnce = none ∧ due { started with rxdLow := true } = [.lineBusy .startBit]
    ∧ due started = [] ∧ started.idle.rx.char = {} ∧ started.idle.rxdSteady = true
    ∧ due (with' { bits := some data }) = [] ∧ due (at' true false) = [.markedCharacter 0x31]
    ∧ due (at' false false) = [.unmarkedCharacter 0x31] ∧ due (at' true true) = [.collisionSeen .csn]
    ∧ due { at' true false with csnAsserted := true } = [.collisionSeen .csn]
    ∧ due { at' true true with rxdLow := true } = [.collisionSeen .framingError]
    ∧ due { at' true false with rx := { (at' true false).rx with state := .suspended } } = []
    ∧ (with' { awaitStop := true }).idle.rx.char.awaitStop = false
    ∧ { with' { awaitStop := true } with rxdLow := true }.idle.rx.char.awaitStop = true := by decide +kernel

/-- O2: a bit driven high that is read back low, in the first character and in the second one, and one driven low. -/
theorem witness_readback :
    let f : TxFrame := .hold 0 12 0
    let at' := fun n => { sending producer f false with tx := .sending f [0x45#8, 0x0C#8] n false false, rxdLow := true }
    (at' 1).idle.pending = [.transmitCollision .mismatch true] ∧ (at' 0).idle.pending = [] ∧ (at' 2).idle.pending = []
    ∧ (at' 10).idle.pending = [.transmitCollision .mismatch true]
    ∧ (at' 21).idle.pending = [.transmitCollision .mismatch false, .holdComplete]
    ∧ { at' 1 with rxdLow := false }.idle.pending = [] := by decide +kernel

/-- O2: the expiries at a millisecond mark, one bit time before it, and off ONLINE. -/
theorem witness_millisecond_marks :
    let due := fun (e : Entry) (phase : Nat) => { having { e with timer := .running 1 } with msPhase := phase }.idle.pending
    let joining := { joiner with cons := {} }
    let out := { twoOut with prod := { twoOut.prod with filled := 0 } }
    due producer 498 = [] ∧ due producer 499 = [.holdTimerExpiry 0] ∧ due out 499 = [.ackTimerExpiry 0]
    ∧ due joining 499 = [.joinTimerExpiry 0] ∧ due consumer 499 = [.silenceTimerExpiry 0]
    ∧ { having { consumer with timer := .running 1 } with msPhase := 499, station := .listening }.idle.pending = [] := by
  decide +kernel

/-- O4: RSTN held low and a command that is no reset event; the reset events are taken. -/
theorem witness_held_in_reset :
    let s := { State.reset with rstnLow := true }
    isResetEvent .readStatus = false ∧ run (.goOnline [] false) s = s
    ∧ (run (.rstnRelease 31 3) s).stationNo = 31 ∧ (run (.powerOn 7 1) s).rstnLow = true := by decide +kernel

/-- O4: power-on reset held and buffer memory being cleared, and the edges of SSN and SCK in each. -/
theorem witness_held_pins :
    let low := { State.reset with rstnLow := true }
    let held := { State.reset with power := .held, port := { ssnLow := true } }
    let clears := { held with power := .clearing }
    low.held = true ∧ held.held = true ∧ clears.held = true ∧ online.held = false
    ∧ run (.goOnline [] false) held = held ∧ run (.goOnline [] false) clears = clears
    ∧ (low.pinEvent .ssnFall).port = { ssnLow := true } ∧ (low.pinEvent .ssnFall).miso = none ∧ held.miso = none
    ∧ clears.misoHighZ = false ∧ (held.pinEvent (.ssnRise 5 2)).port = {} ∧ (held.pinEvent (.ssnRise 5 2)).pending = []
    ∧ clears.miso = some false
    ∧ (held.pinEvent (.sckRise true)).port = { ssnLow := true, untaken := .code [true] } ∧ held.pinEvent .sckFall = held
    ∧ (low.pinEvent (.sckRise true)) = low ∧ held.pinEvent .ssnFall = held
    ∧ (low.pinEvent .csnAssert).csnAsserted = true ∧ (low.pinEvent .csnAssert).pending = [] := by decide +kernel

/-- O5: the supply's rise, the release of power-on reset and the end of the clearing, each from the state before it and from
another one. -/
theorem witness_supply :
    let e := { twoOut with prod := { twoOut.prod with filled := 0 } }
    let s := { having e with mem := [(0, 1#8)], port := { ssnLow := true } }
    let held := s.pinEvent .supplyRise
    let clears := held.pinEvent (.powerRelease 9 1)
    s.atOnce = none ∧ held.power = .held ∧ held.mem = [(0, 1#8)] ∧ held.stationNo = 5 ∧ held.poolFree = 48
    ∧ held.port.ssnLow = true ∧ clears.power = .clearing ∧ clears.mem = [] ∧ clears.stationNo = 9
    ∧ (clears.pinEvent .clearingEnd).power = .on ∧ online.pinEvent .clearingEnd = online
    ∧ online.pinEvent (.powerRelease 9 1) = online := by decide +kernel

/-- O5: a reset of a station that is not held, which finds things to clear and memory to keep. -/
theorem witness_resets :
    let s := { having twoOut with mem := [(0, 1#8)] }
    s.held = false ∧ (run (.reset [] false 9 1) s).mem = [(0, 1#8)] ∧ (run (.reset [] false 9 1) s).poolFree = 48
    ∧ (run (.powerOn 9 1) s).mem = [] ∧ (run .rstnLow s).stationNo = 5
    ∧ run (.rstnRelease 9 1) s = s := by decide +kernel

/-- O6: with a status word being answered, with another answer, and with a notice queued and none. -/
theorem witness_status_word :
    let s := run .readStatus { online with noticeQueue := [12] }
    s.held = false ∧ s.port.phase = .answering .status ∧ s.port.answer = [0x82#8, 0x00#8] ∧ s.atnLow = true
    ∧ (run .statusRelatch { s with noticeQueue := [] }).port.answer = [0x02#8, 0x00#8]
    ∧ online.port.phase ≠ .answering .status ∧ run .statusRelatch online = online ∧ online.atnLow = false := by decide +kernel

/-- O7: not held; the identity record of station 5 at rate code 2. -/
theorem witness_identity : online.held = false ∧ (run .readIdentity online).port.answer =
    [0xE7#8, 0xA1#8, 0x41#8, 0x20#8, 0x01#8, 0x05#8, 0x02#8] := by decide +kernel

/-- O8: item 12, an item with ENDED among its kinds and one without, and an empty queue. -/
theorem witness_read_notice :
    let popped := fun (k : ItemIdx) (m : Item) =>
      (run .readNotice { online with items := online.items.set k m, noticeQueue := [k, 3] }).port.answer
    let ended : Item := { kinds := 0x21, cause := some .closed, joined := stationsOf [9] }
    online.noticeQueue = [] ∧ (run .readNotice online).port.result = .empty
    ∧ popped 12 { kinds := 0x40 } = 0x0C#8 :: 0x40#8 :: List.replicate 13 0#8
    ∧ (popped 0 ended).take 7 = [0x00#8, 0x21#8, 0x02#8, 0x00#8, 0x00#8, 0x02#8, 0x00#8]
    ∧ (popped 0 { kinds := 0x08 }).take 3 = [0x00#8, 0x08#8, 0x00#8] := by decide +kernel

/-- O9: indices 11 and 12, a FREE entry, a producer and a consumer. -/
theorem witness_read_entry :
    (run (.readEntry 12) online).port.result = .badEntry ∧ (run (.readEntry 11) online).port.result = .ok
    ∧ (online.entry 11).state = .free
    ∧ ((having twoOut).entry 0).role = some .producer
    ∧ (run (.readEntry 0) (having twoOut)).port.answer.take 7 = [1#8, 1#8, 12#8, 0#8, 0#8, 8#8, 16#8]
    ∧ ((having consumer).entry 0).role = some .consumer
    ∧ (run (.readEntry 0) (having consumer)).port.answer.drop 16 =
        17#8 :: 3#8 :: [0, 0, 0, 2] ++ List.replicate 6 0 := by decide +kernel

/-- O10: indices 11 and 12, a live producer, and an entry in another state. -/
theorem witness_read_subscribers :
    (run (.readSubscribers 12) online).port.result = .badEntry ∧ (run (.readSubscribers 11) online).port.answer = [0, 48]
    ∧ ((having twoOut).entry 0).state = .producing
    ∧ (run (.readSubscribers 0) (having twoOut)).port.answer = [2, 46, 9, 255, 4, 0, 20, 255, 4, 0]
    ∧ (run (.readSubscribers 0) (having consumer)).port.answer = [0, 48] := by decide +kernel

/-- O11: the last address, which wraps to 0, and the first one past it. -/
theorem witness_read_buffer :
    let s := { online with mem := [(0, 7#8), (8191, 9#8)] }
    word16 0x1F 0xFF ≤ 8191 ∧ 8191 < word16 0x20 0x00
    ∧ (run .hostByteRead (run (.readBuffer 0x1F 0xFF) s)).port.answer = [9#8]
    ∧ (run .hostByteRead (run .hostByteRead (run (.readBuffer 0x1F 0xFF) s))).port.answer = [7#8]
    ∧ (run (.readBuffer 0x20 0x00) s).port.result = .badParameter := by decide +kernel

/-- O12: a FIXED consumer, an ADVANCE one, a FREE entry and index 12. -/
theorem witness_read_slot :
    let e := { consumer with mode := .fixed, slots := 1, threshold := 1 }
    let s := { having e with mem := [(256, 5#8), (271, 6#8), (272, 7#8)] }
    (run (.readSlot 0) s).port.slotLatch.take 17 = 5#8 :: List.replicate 14 0#8 ++ [6#8, 0#8]
    ∧ (run (.readSlot 0) (having consumer)).port.result = .refusedState
    ∧ (run (.readSlot 11) s).port.result = .refusedState ∧ (run (.readSlot 12) s).port.result = .badEntry := by
  decide +kernel

/-- O13: a code that names no command, short framings, and write-type framings of a wrong length. -/
theorem witness_refused_framings :
    commandCodes.contains 0x17#8 = false ∧ (run (.unknownCommandCode (some 0x17)) online).port.phase = .discarding
    ∧ run (.unknownCommandCode none) online = online
    ∧ (run (.readCommandShortFraming 0x15 [0]) online).port.result = .badLength
    ∧ wrongLength (.writeBuffer (List.replicate 67 0) false) = true
    ∧ wrongLength (.writeBuffer (List.replicate 66 0) false) = false
    ∧ wrongLength (.post [0, 1] true) = true ∧ (run (.post [0, 1] true) (having producer)).port.result = .badLength := by
  decide +kernel

/-- O13: the edges on MOSI, up to the last bit of a code, of a parameter and of a byte that follows a write-type code. -/
theorem witness_mosi_edges :
    let before := fun (p : Port) (b : Byte) => { online with port := { p with ssnLow := true, bits := (portBits b).take 7 } }
    let eighth := fun (p : Port) (b : Byte) => (before p b).pinEvent (.sckRise (b.getLsbD 0))
    let addr : Port := { phase := .parameters, code := 0x15, bytes := [0x1F] }
    online.atOnce = none ∧ online.pinEvent (.sckRise true) = online
    ∧ (online.pinEvent .ssnFall).port = { ssnLow := true, phase := .code }
    ∧ ((online.pinEvent .ssnFall).pinEvent (.sckRise true)).port = { ssnLow := true, phase := .code, bits := [true] }
    ∧ (eighth { phase := .code } 0x10).pending = [.readStatus] ∧ (eighth { phase := .code } 0x12).pending = [.readNotice]
    ∧ (eighth { phase := .code } 0x16).port = { ssnLow := true, phase := .parameters, code := 0x16 }
    ∧ (eighth { phase := .code } 0x46).port = { ssnLow := true, phase := .writing, code := 0x46 }
    ∧ (eighth { phase := .code } 0x47).pending = [.unknownCommandCode (some 0x47)]
    ∧ (eighth addr 0xFE).pending = [.readBuffer 0x1F 0xFE] ∧ (eighth { addr with bytes := [] } 0xFE).pending = []
    ∧ (eighth { addr with code := 0x13, bytes := [] } 0xFE).pending = [.readEntry 0xFE]
    ∧ (eighth { phase := .writing, code := 0x20, bytes := [0, 1] } 0xA5).port.writeHold = [0xA5]
    ∧ (eighth { phase := .writing, code := 0x42, bytes := [0] } 3).port.bytes = [0, 3] := by decide +kernel

/-- O13: the SSN rise in each state of the port. -/
theorem witness_ssn_rises :
    let at' := fun (phase : PortPhase) => { online with port := { ssnLow := true, phase := phase, code := 0x42, bytes := [0, 3] } }
    let rise := fun (s : State) => s.pinEvent (.ssnRise 5 2)
    let cut := { (at' .writing).port with bits := [true] }
    rise online = online ∧ (rise (at' .code)).pending = [.unknownCommandCode none]
    ∧ (rise (at' .writing)).pending = [.post [0, 3] false]
    ∧ (rise { online with port := cut }).pending = [.post [0, 3] true]
    ∧ (rise { online with port := { ssnLow := true, phase := .writing, code := 0x3C } }).pending = [.reset [] false 5 2]
    ∧ (rise { online with port := { ssnLow := true, phase := .parameters, code := 0x15, bytes := [0] } }).pending
        = [.readCommandShortFraming 0x15 [0]]
    ∧ (rise (at' .code)).miso = none ∧ rise (at' .idle) = { online with port := { (at' .idle).port with ssnLow := false } }
    ∧ (at' .code).pinEvent .ssnFall = at' .code
    ∧ rise (at' .discarding) = online ∧ rise (at' (.answering .entry)) = online := by decide +kernel

/-- O13: the falls of SCK in an answer, at its first bit and where it wraps or ends; MISO in each state of the port. -/
theorem witness_miso_edges :
    let at' := fun (cmd : ReadCmd) (n : Option Nat) =>
      { online with port := { ssnLow := true, phase := .answering cmd, answer := [0x80, 0x01], out := n } }
    let fall := fun (s : State) => ((s.pinEvent .sckFall).port.out, (s.pinEvent .sckFall).pending)
    fall (at' .status none) = (some 0, []) ∧ fall (at' .buffer none) = (some 0, [.hostByteRead])
    ∧ fall (at' .status (some 14)) = (some 15, []) ∧ fall (at' .status (some 15)) = (some 0, [.statusRelatch])
    ∧ fall (at' .buffer (some 6)) = (some 7, []) ∧ fall (at' .buffer (some 7)) = (some 0, [.hostByteRead])
    ∧ fall (at' .entry (some 15)) = (some 16, []) ∧ online.pinEvent .sckFall = online
    ∧ online.miso = none ∧ (online.pinEvent .ssnFall).miso = some false ∧ (at' .entry none).miso = some false
    ∧ (at' .entry (some 0)).miso = some true ∧ (at' .entry (some 7)).miso = some false
    ∧ (at' .entry (some 15)).miso = some true ∧ (at' .entry (some 16)).miso = some false := by decide +kernel

/-- O4, O13: a framing that is not taken, where SSN is low and the port IDLE: the bits that end its code byte and its parameters,
and what MISO carries in each part of it. -/
theorem witness_untaken_framing :
    let at' := fun (u : Untaken) => { online with port := { ssnLow := true, untaken := u } }
    let seven := fun (b : Byte) => at' (.code ((portBits b).take 7))
    let eighth := fun (b : Byte) => ((seven b).pinEvent (.sckRise (b.getLsbD 0))).port.untaken
    eighth 0x10 = .answer false ∧ eighth 0x15 = .parameters 16 ∧ eighth 0x16 = .parameters 8 ∧ eighth 0x42 = .zeros
    ∧ eighth 0x17 = .zeros ∧ ((at' (.parameters 1)).pinEvent (.sckRise true)).port.untaken = .answer false
    ∧ ((at' (.parameters 2)).pinEvent (.sckRise true)).port.untaken = .parameters 1
    ∧ ((at' .zeros).pinEvent .sckFall) = at' .zeros ∧ (seven 0x10).miso = some false ∧ (at' .zeros).miso = some false
    ∧ (at' (.parameters 1)).miso = some false ∧ (at' (.answer false)).miso = some false
    ∧ (at' (.answer true)).miso = some (Config.untakenBit 0)
    ∧ ((at' (.answer false)).pinEvent .sckFall).miso = some (Config.untakenBit 1) := by
  refine ⟨?_, ?_, ?_, ?_, ?_, ?_, ?_, ?_, ?_, ?_, ?_, ?_, rfl, rfl⟩ <;> decide +kernel

/-- O5: RSTN falls in a framing: the part of the framing that stands then. -/
theorem witness_reset_in_a_framing :
    let after := fun (p : Port) => (run .rstnLow { online with port := { p with ssnLow := true } }).port.untaken
    after { phase := .code, bits := [true] } = .code [true]
    ∧ after { phase := .parameters, code := 0x16, bits := [true] } = .parameters 7
    ∧ after { phase := .parameters, code := 0x15, bytes := [0] } = .parameters 8
    ∧ after { phase := .writing, code := 0x42 } = .zeros ∧ after { phase := .discarding } = .zeros
    ∧ after { phase := .answering .status, out := some 3 } = .answer true
    ∧ after { untaken := .parameters 5 } = .parameters 5 := by decide +kernel

/-- O14: 1 byte and 64 bytes, the last address, and the first one past it. -/
theorem witness_write_buffer :
    memorySafe online ∧ 1 ≤ [7#8].length ∧ (run (.writeBuffer [0x1F, 0xFF, 7] false) online).mem = [(8191, 7#8)]
    ∧ (List.replicate 64 (1 : Byte)).length ≤ 64
    ∧ (run (.writeBuffer (0 :: 0 :: List.replicate 64 1) false) online).port.result = .ok
    ∧ (run (.writeBuffer [0x20, 0x00, 7] false) online).port.result = .badParameter := by
  unfold memorySafe
  decide +kernel

/-- O15: each bound of the three parameters, and a station that is not OFFLINE. -/
theorem witness_set_parameters :
    (run (.setParameters [2, 1, 1] false) State.reset).params = { tAck := 2, n := 1, tHold := 10 }
    ∧ (run (.setParameters [255, 15, 255] false) State.reset).params = { tAck := 255, n := 15, tHold := 2550 }
    ∧ (run (.setParameters [1, 6, 25] false) State.reset).port.result = .badParameter
    ∧ (run (.setParameters [20, 16, 25] false) State.reset).port.result = .badParameter
    ∧ (run (.setParameters [20, 6, 0] false) State.reset).port.result = .badParameter
    ∧ (run (.setParameters [20, 6, 25] false) listening).port.result = .refusedState := by decide +kernel

/-- O16: the four station states. -/
theorem witness_go_online :
    (run (.goOnline [] false) State.reset).rx.state = .sync
    ∧ (run (.goOnline [] false) { online with station := .lineFault, failCount := 8 }).quiet = some 704
    ∧ (run (.goOnline [] false) listening).port.result = .refusedState
    ∧ (run (.goOnline [] false) online).port.result = .refusedState := by decide +kernel

/-- O17: live entries, an ENDED one whose lingering ACK is being sent, and completions that an owner has still to take. -/
theorem witness_go_offline :
    let e := { consumer with state := .ended, cause := some .byProducer,
                             cons := { consumer.cons with ack := .inFlight } }
    let s := (sending e (.ack 0 12 17 2 0) false).setEntry 1 { producer with stream := 9 }
    let handed := fun (e : Entry) => (run (.goOffline [] false) { having e with handover := some (.ack 0 12 17 2 0) }).handover
    s.held = false ∧ (s.entry 1).live = true ∧ (s.entry 0).live = false ∧ ackOnHand s.tx = some 0
    ∧ ((run (.goOffline [] false) s).entry 0).cons.ack = .owed
    ∧ ((run (.goOffline [] false) s).entry 1).cause = some .offline
    ∧ handed consumer = none ∧ handed e = some (.ack 0 12 17 2 0) := by decide +kernel

/-- O18: a table in order, and each outcome of the checks. -/
theorem witness_open_checks :
    let s := having { producer with slots := 1, size := 1 }
    tableSafe s ∧ (run (openCommand none 12 0 0 1 1 1 0 0 1) s).port.result = .badEntry
    ∧ (run (openCommand none 0 0 0 1 1 1 0 0 1) s).port.result = .refusedState
    ∧ (run (openCommand none 11 64 0 1 1 1 0 0 1) s).port.result = .badParameter
    ∧ (run (openCommand (some 2) 11 63 0 1 1 1 0 0 1) s).port.result = .badParameter
    ∧ (run (openCommand none 11 12 0 0 1 1 0 0 1) s).port.result = .streamInUse
    ∧ (run (openCommand none 11 63 0 0 1 1 0 0 1) s).port.result = .overlap
    ∧ (run (openCommand (some 1) 11 63 0 1 1 64 0 0 1) s).port.result = .ok := by
  unfold tableSafe regionInside
  decide +kernel

/-- O19: a producer opened up to byte 8191, and a FIXED consumer. -/
theorem witness_opened_entries :
    tableSafe online ∧ online.station ≠ .offline ∧ (online.entry 11).state = .free
    ∧ paramsInRange none 63 (word16 0x1F 0xC0) 1 64 1 ∧ paramsInRange (some 1) 63 0 1 64 1
    ∧ ¬streamTaken online 63 ∧ ¬bytesTaken online (word16 0x1F 0xC0) 64 := by
  have free : ∀ i, (online.entry i).state = .free := by decide +kernel
  refine ⟨by unfold tableSafe regionInside; decide +kernel, by decide, by decide +kernel,
    by unfold paramsInRange; decide +kernel, by unfold paramsInRange; decide +kernel, ?_, ?_⟩
  · rintro ⟨j, h, -⟩; exact h (free j)
  · rintro ⟨j, x, h, -⟩; exact h (free j)

/-- O20: POST of exactly the free slots, of one more, of 0, of more than remains, and in CLOSING. -/
theorem witness_post :
    let e := { producer with count := 8, remaining := 8 }
    (run (.post [0, 8] false) (having e)).port.result = .ok
    ∧ ((run (.post [0, 8] false) (having e)).entry 0).prod.endPending = .byCount
    ∧ (run (.post [0, 9] false) (having producer)).port.result = .noSpace
    ∧ (run (.post [0, 0] false) (having producer)).port.result = .badParameter
    ∧ (run (.post [0, 9] false) (having e)).port.result = .badParameter
    ∧ (run (.post [0, 1] false) (having { producer with state := .closing })).port.result = .refusedState
    ∧ (run (.post [12, 1] false) (having producer)).port.result = .badEntry := by decide +kernel

/-- O21: RELEASE of all that is held, of one more, of 0, and of a FIXED entry. -/
theorem witness_release :
    let e := { consumer with cons := { consumer.cons with held := 2 } }
    (run (.release [0, 2] false) (having e)).port.result = .ok
    ∧ (run (.release [0, 3] false) (having e)).port.result = .badParameter
    ∧ (run (.release [0, 0] false) (having e)).port.result = .badParameter
    ∧ (run (.release [0, 1] false) (having { e with mode := .fixed })).port.result = .refusedState
    ∧ (run (.release [0, 1] false) (having joiner)).port.result = .refusedState
    ∧ (run (.release [12, 1] false) (having e)).port.result = .badEntry := by decide +kernel

/-- O22: CLOSE of a producer, of a JOINING entry whose JOIN is chosen, of a RECEIVING one, and of one LEAVING. -/
theorem witness_close :
    ((run (.close [0] false) (having producer)).entry 0).state = .closing
    ∧ (run (.close [0] false) { having joiner with tx := .chosen (.join 0 12 2 16) false }).tx = .free
    ∧ ((run (.close [0] false) (having consumer)).entry 0).cause = some .closed
    ∧ (run (.close [0] false) (having { consumer with state := .leaving })).port.result = .refusedState
    ∧ (run (.close [12] false) online).port.result = .badEntry := by decide +kernel

/-- O23: ABORT of a live entry and of an ENDED one; FREE of an ENDED entry and of a live one. -/
theorem witness_abort_free :
    let e := { consumer with state := .ended, cause := some .aborted }
    (run (.abort [0] false) (having twoOut)).poolFree = 48
    ∧ (run (.abort [0] false) (having e)).port.result = .refusedState
    ∧ (run (.abort [12] false) online).port.result = .badEntry
    ∧ (run (.free [0] false) (having e)).entry 0 = {}
    ∧ (run (.free [0] false) (having producer)).port.result = .refusedState
    ∧ (run (.free [12] false) online).port.result = .badEntry := by decide +kernel

/-- O24: outstanding records with none queued; one run leaves a record, one empties the ring by an eviction, and one retires
the END record so. -/
theorem witness_ack_expiry :
    let out := { twoOut with timer := .running 0 }
    let last := { joinedSub 20 with missed := 5 }
    let e := { out with prod := { out.prod with ring := [record 1 1 [20]], subs := [last] } }
    (∀ r ∈ out.prod.ring, r.queued = false)
    ∧ anyQueued ((run (.ackTimerExpiry 0) (having out)).entry 0).prod.ring = true
    ∧ ((run (.ackTimerExpiry 0) (having e)).entry 0).prod.ring = []
    ∧ ((run (.ackTimerExpiry 0) (having e)).entry 0).timer = .running 250
    ∧ (run (.ackTimerExpiry 0) (having e)).poolFree = 48
    ∧ (let fin := { record 1 1 [20] with endFlag := true }
       let p := { e.prod with ring := [fin], endPending := .byCount }
       ((run (.ackTimerExpiry 0) (having { e with state := .closing, prod := p })).entry 0).cause = some .countDone) := by
  decide +kernel

/-- O25: a hold timer and a silence timer at 0, with a millisecond left, stopped, and off ONLINE. -/
theorem witness_hold_silence :
    let p := fun t => having { producer with timer := t }
    let c := fun t => having { consumer with timer := t }
    ((run (.holdTimerExpiry 0) (p (.running 0))).entry 0).prod.holdDue = true
    ∧ run (.holdTimerExpiry 0) (p (.running 1)) = p (.running 1)
    ∧ run (.holdTimerExpiry 0) (p .stopped) = p .stopped
    ∧ ((run (.silenceTimerExpiry 0) (c (.running 0))).entry 0).cause = some .producerLost
    ∧ run (.silenceTimerExpiry 0) (c (.running 1)) = c (.running 1)
    ∧ (let s := { c (.running 0) with station := .lineFault }; run (.silenceTimerExpiry 0) s = s) := by decide +kernel

/-- O26: attempts equal to N, one below it, and a station that is not ONLINE. -/
theorem witness_join_expiry :
    let tried := fun n => { joiner with timer := .running 0, cons := { joinAttempts := n } }
    ((run (.joinTimerExpiry 0) (having (tried 6))).entry 0).cause = some .noProducer
    ∧ ((run (.joinTimerExpiry 0) (having (tried 5))).entry 0).cons.joinDue = true
    ∧ (let s := { having (tried 6) with station := .lineFault }; run (.joinTimerExpiry 0) s = s) := by decide +kernel

/-- O27: LISTENING with the quiet timer at 0, with a bit time left, and stopped. -/
theorem witness_quiet_expiry :
    let s := fun q => { listening with quiet := q }
    (s (some 0)).station = .listening ∧ (run .quietTimerExpiry (s (some 0))).station = .online
    ∧ (run .quietTimerExpiry (s (some 0))).noticeQueue = [12]
    ∧ run .quietTimerExpiry (s (some 1)) = s (some 1) ∧ run .quietTimerExpiry (s none) = s none := by decide +kernel

/-- O28: a receiver in SYNC, a frame for another station, a frame that waits, and another frame before which it goes. -/
theorem witness_dispatch_order :
    let f : Frame := .data 17 12 3 false payload
    let s := { having consumer with rx := { state := .hunt, hold := frameChars f, gap := some 0 } }
    (Receiver.taking { state := .sync } = false)
    ∧ (online.rx.ready = none ∧ online.hears (.ack 9 12 6 2 4) = false)
    ∧ (s.rx.ready = some f ∧ s.hears f = true ∧ (s.frameEvent f).rx.hold = []
      ∧ ((s.frameEvent f).entry 0).cons.expected = 4)
    ∧ ((s.frameEvent (.hold 17 12 4)).entry 0).cons.expected = 4 := by decide +kernel

/-- O29 to O41: a frame of the entry's stream reaches the receiver of a station whose entry it is. -/
theorem witness_reaches_consumer :
    reaches (having consumer) (.data 17 12 3 false payload) 0 ∧ reaches (having consumer) (.hold 17 12 3) 0
    ∧ reaches (having joiner) (.accept 17 12 5 3 16) 0 ∧ reaches (having joiner) (.refuse 17 12 5 .full) 0 := by
  unfold reaches isEntryOf
  decide +kernel

/-- O29, O33, O35 to O37, O41: the same of a producer. -/
theorem witness_reaches_producer :
    reaches (having twoOut) (.ack 9 12 5 1 2) 0 ∧ reaches (having twoOut) (.join 31 12 4 16) 0
    ∧ reaches (having twoOut) (.leave 9 12) 0 ∧ reaches (having twoOut) (.hold 17 12 0) 0 := by
  unfold reaches isEntryOf
  decide +kernel

/-- O29: no entry of the stream, an ENDED producer, and the kinds that a role does not take. -/
theorem witness_dropped_frames :
    (∀ j, (online.entry j).state = .free ∨ (online.entry j).stream ≠ frameStream (.leave 9 12))
    ∧ (let s := having { producer with state := .ended }; run (.joinFrame 9 12 4 16) s = s)
    ∧ run (.refuseFrame 9 12 5 .full) (having producer) = having producer
    ∧ run (.leaveFrame 9 12) (having consumer) = having consumer := by decide +kernel

/-- O30: in order, full-size, with room for one more; a FIXED entry; and the last frame of a counted stream. -/
theorem witness_data_accepted :
    let e := { consumer with cons := { consumer.cons with held := 1, writeIdx := 1 } }
    let x := { consumer with mode := .fixed, slots := 1 }
    let l := { consumer with count := 1, remaining := 1 }
    memorySafe (having e) ∧ e.cons.endMark = false ∧ payload.length = e.size ∧ e.cons.held < e.slots
    ∧ ((run (.dataFrame 17 12 3 false payload) (having e)).item 0).kinds = 0x08#8
    ∧ ((run (.dataFrame 17 12 3 false payload) (having x)).item 0).kinds = 0x08#8
    ∧ ((run (.dataFrame 17 12 3 false payload) (having l)).entry 0).state = .leaving
    ∧ ((run (.dataFrame 17 12 3 true payload) (having l)).entry 0).state = .receiving := by
  unfold memorySafe
  decide +kernel

/-- O31: distances 4, 5, 251 and 252, a full region, a zero-length END, and a frame shorter than P. -/
theorem witness_data_out_of_order :
    let full := { consumer with cons := { consumer.cons with held := 2 } }
    let owes := fun (e : Entry) (q : Seq) (fin : Bool) (p : List Byte) =>
      ((run (.dataFrame 17 12 q fin p) (having e)).entry 0).cons.ack
    owes consumer 7 false payload = .owed ∧ owes consumer 8 false payload = .clear
    ∧ owes consumer 254 false payload = .clear ∧ owes consumer 255 false payload = .owed
    ∧ owes full 3 false payload = .owed ∧ owes consumer 3 true [] = .owed ∧ owes consumer 3 false [] = .clear
    ∧ owes consumer 3 false (payload.drop 1) = .clear ∧ owes joiner 3 false payload = .clear := by decide +kernel

/-- O32: the last accepted sequence and another one, after END, in LEAVING, in ENDED BY_PRODUCER and ENDED ABORTED. -/
theorem witness_data_lingers :
    let done := { consumer with cons := { consumer.cons with lastSeq := some 2, endMark := true } }
    let owes := fun (e : Entry) (q : Seq) => ((run (.dataFrame 17 12 q false payload) (having e)).entry 0).cons.ack
    owes done 2 = .owed ∧ owes done 3 = .clear
    ∧ owes { done with state := .leaving } 2 = .owed ∧ owes { done with state := .leaving } 3 = .clear
    ∧ owes { done with state := .ended, cause := some .byProducer } 2 = .owed
    ∧ owes { done with state := .ended, cause := some .aborted } 2 = .clear := by decide +kernel

/-- O33: a HOLD of another station for a stream that is produced here. -/
theorem witness_conflict :
    ((run (.holdFrame 17 12 0) (having twoOut)).entry 0).cause = some .conflict
    ∧ ((run (.acceptFrame 17 12 5 0 16) (having twoOut)).entry 0).cause = some .conflict
    ∧ ((run (.dataFrame 17 12 0 false payload) (having { twoOut with state := .closing })).entry 0).cause
        = some .conflict := by decide +kernel

/-- O34: distances 4, 5, 251 and 252, another source, and the END mark set. -/
theorem witness_hold_frame :
    let done := { consumer with cons := { consumer.cons with endMark := true } }
    let after := fun (e : Entry) (n : Station) (q : Seq) => (run (.holdFrame n 12 q) (having e)).entry 0
    (after consumer 17 7).cons.ack = .owed ∧ after consumer 17 8 = consumer ∧ after consumer 17 254 = consumer
    ∧ (after consumer 17 255).cons.ack = .owed ∧ after consumer 16 3 = consumer ∧ after done 17 3 = done := by
  decide +kernel

/-- O35: no subscriber; the newest sequence sent, which is valid, and the one after it, which is stale. -/
theorem witness_strange_acks :
    (∀ r ∈ twoOut.prod.subs, r.station ≠ 10) ∧ (twoOut.prod.subs.map (fun r => r.station)).Nodup
    ∧ (run (.ackFrame 10 12 5 1 4) (having twoOut)).replies.length = 1
    ∧ ((2#8 : Seq) - 1 - 255).toNat < ((2#8 : Seq) - 255).toNat
    ∧ (run (.ackFrame 9 12 5 2 0) (having twoOut)).entry 0 = twoOut := by decide +kernel

/-- O36: the acks that are just valid, the newest sequence and the old acked. -/
theorem witness_valid_ack :
    joinedSub 9 ∈ twoOut.prod.subs ∧ (twoOut.prod.subs.map (fun r => r.station)).Nodup
    ∧ ((1#8 : Seq) - 255).toNat ≤ (twoOut.prod.nextSeq - 1 - 255).toNat
    ∧ ((255#8 : Seq) - 255).toNat ≤ (twoOut.prod.nextSeq - 1 - 255).toNat
    ∧ ((run (.ackFrame 9 12 5 255 1) (having twoOut)).entry 0).prod.ring = twoOut.prod.ring
    ∧ ((run (.ackFrame 9 12 5 0 1) (having twoOut)).entry 0).prod.ring = [record 0 0 [20], record 1 1 [9, 20]] := by
  decide +kernel

/-- O37: each row of the table of R62, with the pool at 0 and at 1. -/
theorem witness_join_rows :
    let answer := fun (s : State) (n : Station) (p : Nat) => (run (.joinFrame n 12 4 p) s).replies.map (fun r => r.body)
    answer (having { twoOut with state := .ended }) 31 16 = [] ∧ answer (having twoOut) 5 16 = []
    ∧ answer (having { twoOut with state := .closing }) 31 16 = [.refuse .closing]
    ∧ answer (having twoOut) 31 15 = [.refuse .size] ∧ answer (having twoOut) 9 16 = [.accept 0 16]
    ∧ answer { having twoOut with poolFree := 0 } 31 16 = [.refuse .full]
    ∧ answer { having twoOut with poolFree := 1 } 31 16 = [.accept 2 16] := by decide +kernel

/-- O38: 7 and 8 queued replies, with and without one of the same destination and stream. -/
theorem witness_replies :
    let q := fun n => (List.range n).map (fun j => Reply.mk (BitVec.ofNat 5 j) 12 (.refuse .full) true)
    (∀ r ∈ q 7, ¬(r.dest = 31#5 ∧ r.stream = 12#6)) ∧ (placeReply (q 7) 31 12 (.refuse .size)).length = 8
    ∧ placeReply (q 8) 31 12 (.refuse .size) = q 8
    ∧ (placeReply (q 8) 7 12 (.refuse .size))[7]? = some (Reply.mk 7 12 (.refuse .size) false) := by decide +kernel

/-- O39: P equal and P not equal, the JOIN chosen, and an entry no longer JOINING. -/
theorem witness_accept :
    let s := { having joiner with tx := .chosen (.join 0 12 2 16) false }
    (run (.acceptFrame 17 12 5 3 16) s).tx = .free
    ∧ ((run (.acceptFrame 17 12 5 3 16) s).entry 0).cons.expected = 3
    ∧ run (.acceptFrame 17 12 5 3 15) s = s
    ∧ run (.acceptFrame 17 12 5 9 16) (having consumer) = having consumer := by decide +kernel

/-- O40: each reason in JOINING, and NOT_SUBSCRIBED in RECEIVING from the producer and from another station. -/
theorem witness_refuse :
    let ended := fun (e : Entry) (n : Station) (r : Reason) => ((run (.refuseFrame n 12 5 r) (having e)).entry 0).cause
    ended joiner 17 .full = some .refusedFull ∧ ended joiner 17 .closing = some .refusedClosing
    ∧ ended joiner 17 .size = some .sizeMismatch ∧ ended joiner 17 .notSubscribed = none
    ∧ ended consumer 17 .notSubscribed = some .evicted ∧ ended consumer 16 .notSubscribed = none
    ∧ ended consumer 17 .full = none := by decide +kernel

/-- O41: a LEAVE of a subscriber and of another station. -/
theorem witness_leave :
    (∃ r ∈ twoOut.prod.subs, r.station = 9)
    ∧ ((run (.leaveFrame 9 12) (having twoOut)).entry 0).prod.ring = [record 0 0 [20], record 1 1 [20]]
    ∧ (run (.leaveFrame 9 12) (having twoOut)).poolFree = 47
    ∧ run (.leaveFrame 10 12) (having twoOut) = having twoOut := by decide +kernel

/-- O42: a first character of kind 1 and of kind 0, the states of the receiver, the last character, and the idle gap. -/
theorem witness_characters :
    let at' := fun (r : RxState) (h : List Byte) => { having consumer with rx := { state := r, hold := h, gap := some 33 } }
    let near := { at' .assembling [0x31] with rx := { state := .assembling, hold := [0x31], gap := some 32 } }
    let leaving : List Byte := [0xE9, 0x0C, (crc [0xE9, 0x0C]).extractLsb' 8 8]
    (run (.markedCharacter 0x20) online).rx.state = .assembling ∧ (run (.markedCharacter 0x1F) online).rx.state = .skipping
    ∧ (run (.unmarkedCharacter 0x20) (at' .skipping [])).rx.state = .skipping
    ∧ (run (.unmarkedCharacter 0x0C) (at' .assembling [0x31])).rx.hold = [0x31, 0x0C]
    ∧ (run (.unmarkedCharacter ((crc [0xE9, 0x0C]).extractLsb' 0 8)) (at' .assembling leaving)).rx.ready = some (.leave 9 12)
    ∧ (run (.unmarkedCharacter (~~~(crc [0xE9, 0x0C]).extractLsb' 0 8)) (at' .assembling leaving)).rx.hold = []
    ∧ (run (.markedCharacter 0x31) (at' .sync [])).rx.state = .sync
    ∧ run (.markedCharacter 0x31) (at' .suspended []) = at' .suspended []
    ∧ (run .receiverIdleGap (at' .assembling [0x31])).rx.state = .hunt ∧ run .receiverIdleGap near = near
    ∧ run .receiverIdleGap (at' .suspended []) = at' .suspended [] ∧ run .receiverIdleGap (at' .hunt []) = at' .hunt [] := by
  decide +kernel

/-- O42, O44, O45: a station that GO_OFFLINE took off the line, and one after reset: the receiver is OFF, no round
runs, and no row of the line has an effect but for the level on CSN. -/
theorem witness_offline_line :
    let gone := run (.goOffline [] false) (having twoOut)
    let rows : List Instr := [.markedCharacter 0x31, .unmarkedCharacter 0x31, .receiverIdleGap, .collisionSeen .csn,
      .collisionSeen .framingError, .lineBusy .startBit, .lineBusy .ownStart, .lineIdle, .slotEnd]
    (∀ s ∈ [gone, State.reset], s.station = .offline ∧ s.held = false ∧ s.rx.state = .off ∧ s.rx.ready = none
      ∧ s.round = .contention ∧ s.rx.char.awaitStop = false ∧ s.rx.char.bits = none ∧ (∀ c ∈ rows, run c s = s)
      ∧ run (.lineBusy .csn) s = { s with csnAsserted := true }) := by decide +kernel

/-- O42: a frame that waits is dispatched before a character and at the idle gap. -/
theorem witness_characters_after_a_frame :
    let s := { having twoOut with rx := { state := .hunt, hold := frameChars (.join 31 12 4 16), gap := some 33 } }
    let joined := fun (c : Instr) => ((run c s).entry 0).prod.subs.length
    s.rx.ready = some (.join 31 12 4 16) ∧ joined (.markedCharacter 0x31) = 3 ∧ joined (.unmarkedCharacter 0x31) = 3
    ∧ joined .receiverIdleGap = 3 ∧ joined (.collisionSeen .csn) = 3 := by decide +kernel

/-- O42: the bounds of R131's table, character by character, and the filters of R132 and R133. -/
theorem witness_dropped_characters :
    let after := fun (h : List Byte) (d : Byte) =>
      (run (.unmarkedCharacter d) { having consumer with rx := { state := .assembling, hold := h } }).rx.state
    let kept := fun (h : List Byte) (d : Byte) => after h d == .assembling
    kept [0x31] 0x0C && kept [0x31] 0x4C && !kept [0x31] 0x8C && !kept [0x31] 0x0D
    && kept [0x51] 0x3F && !kept [0x51] 0x40
    && kept [0x71, 12] 5 && !kept [0x71, 12] 6 && !kept [0x71, 12] 32
    && kept [0x71, 12, 5, 0] 4 && !kept [0x71, 12, 5, 0] 5
    && kept [0x31, 12, 0] 64 && !kept [0x31, 12, 0] 65
    && kept [0x91, 12] 4 && !kept [0x91, 12] 5 && kept [0x91, 12, 4] 64 && !kept [0x91, 12, 4] 65 && !kept [0x91, 12, 4] 0
    && kept [0xB1, 12, 5, 0] 64 && !kept [0xB1, 12, 5, 0] 0 && kept [0xD1, 12, 5] 4 && !kept [0xD1, 12, 5] 5
    && !kept [0xD1, 12, 5] 0 := by decide +kernel

/-- O43: a frame of one of the station's streams that fits, and another pair of CRC characters. -/
theorem witness_whole_frame :
    let f : Frame := .ack 9 12 5 1 4
    let s := having twoOut
    s.station ≠ .offline ∧ s.rx.taking = true ∧ s.rx.ready = none ∧ f.wf = true
    ∧ (∀ d, frameDest? f = some d → d = s.stationNo)
    ∧ (s.entry 0).state ≠ .free ∧ (s.entry 0).stream = frameStream f
    ∧ frameBody f ++ [0#8, 0#8] ≠ frameChars f := by decide +kernel

/-- O44: a collision in a slot of a round, in CONTENTION, in LISTENING and in SYNC, and the level it leaves. -/
theorem witness_collision_seen :
    let slot := { online with round := .slot 17 9 31 5 }
    let sync := { listening with rx := { state := .sync, gap := some 0 } }
    slot.rx.ready = none ∧ (run (.collisionSeen .framingError) slot).round = .gap 16 32
    ∧ (run (.collisionSeen .framingError) slot).rxdLow = true
    ∧ (let s := run (.collisionSeen .framingError) slot; run (.collisionSeen .framingError) s = s)
    ∧ (run (.collisionSeen .csn) (run (.collisionSeen .framingError) slot)).rx.char = {}
    ∧ (run (.collisionSeen .framingError) slot).csnAsserted = false
    ∧ (run (.collisionSeen .csn) online).round = .gap 0 32 ∧ (run (.collisionSeen .csn) online).csnAsserted = false
    ∧ (run (.collisionSeen .csn) { online with csnAsserted := true }).csnAsserted = true
    ∧ (listening.round = .contention ∧ (run (.collisionSeen .csn) listening).round = .contention)
    ∧ sync.rx.taking = false ∧ (run (.collisionSeen .csn) sync).rx.state = .sync := by decide +kernel

/-- O44, O2: a CSN pulse told by edges inside a character: its collision leaves CSN negated, so the gap counts, and the next
character is a good one. -/
theorem test_csn_pulse_in_a_character :
    let data := [true, false, false, false, true, true, false, false]
    let pulsed := { online with rx := { state := .hunt, char := { bits := some (data ++ [true]), csn := true } } }
    let after := run (.collisionSeen .csn) pulsed
    pulsed.idle.pending = [.collisionSeen .csn] ∧ after.csnAsserted = false ∧ after.idle.lineGap = some 1
    ∧ ({ after with rx := { after.rx with char := { start := true } }, rxdLow := true }.idle.rx.char).csn = false := by
  decide +kernel

/-- O24: with N = 1 the ack expiry evicts a subscriber that still owes the oldest record, its count at 0. -/
theorem test_ack_expiry_with_one_attempt :
    let e := { twoOut with timer := .running 0 }
    let s := { having e with params := { n := 1 } }
    ((run (.ackTimerExpiry 0) s).entry 0).prod.subs = [] ∧ (run (.ackTimerExpiry 0) s).poolFree = 48 := by decide +kernel

/-- O45: a slot made busy, a line that goes idle in LISTENING and in each round state, and the last slot. -/
theorem witness_line_events :
    let busy := fun r => { online with line := .busy, lineGap := some 33, round := r, tx := .chosen (.hold 0 12 0) false }
    let slot := { online with round := .slot 0 2 4 22, tx := .chosen (.hold 0 12 0) false }
    (run (.lineBusy .startBit) { online with round := .slot 0 32 4 3 }).round = .busy 0 32 4 none
    ∧ (run (.lineBusy .csn) listening).quiet = none
    ∧ (run (.lineBusy .ownStart) { sending producer (.hold 0 12 0) true with round := .slot 0 9 5 0 }).round
        = .busy 0 9 5 (some 5)
    ∧ (run .lineIdle { listening with line := .busy, lineGap := some 33, quiet := none }).quiet = some 704
    ∧ (run .lineIdle (busy (.gap 5 1))).tx = .chosen (.hold 0 12 0) true
    ∧ (run .lineIdle (busy (.busy 0 2 3 none))).round = .slot 0 1 4 0
    ∧ (run .lineIdle (busy (.busy 0 1 3 (some 3)))).round = .contention
    ∧ (run .slotEnd slot).tx = .chosen (.hold 0 12 0) true
    ∧ (let s := { slot with round := .slot 0 2 4 21 }; run .slotEnd s = s)
    ∧ (let s := { busy .contention with lineGap := some 32 }; run .lineIdle s = s) := by decide +kernel

/-- O45: a fall of RXD after a whole bit time at stop level, before it, in a character and in OFF; CSN asserted while nothing
is driven, in the first character of a frame and past it. -/
theorem witness_line_pins :
    let f : TxFrame := .hold 0 12 0
    let at' := fun n => { sending producer f false with tx := .sending f [0x45#8, 0x0C#8] n false false }
    let started := fun (s : State) => (s.pinEvent .rxdFall).rx.char.start
    let rx := fun (r : RxState) (a : Assembler) => { online with rx := { state := r, char := a } }
    started online = true ∧ started { online with rxdSteady := false } = false
    ∧ started (rx .hunt { bits := some [true] }) = false ∧ started (rx .off {}) = false ∧ started (rx .sync {}) = true
    ∧ (let s := { online with rxdLow := true }; s.pinEvent .rxdFall = s ∧ (s.pinEvent .rxdReturn).rxdLow = false)
    ∧ (online.pinEvent .csnAssert).pending = [.lineBusy .csn]
    ∧ ((at' 0).pinEvent .csnAssert).pending = [.transmitCollision .csn true]
    ∧ ((at' 10).pinEvent .csnAssert).pending = [.transmitCollision .csn true]
    ∧ ((at' 11).pinEvent .csnAssert).pending = [.transmitCollision .csn false]
    ∧ (let s := { online with csnAsserted := true }; s.pinEvent .csnAssert = s)
    ∧ (run (.lineBusy .csn) (rx .hunt { bits := some [] })).rx.char.csn = true
    ∧ (run (.lineBusy .csn) (at' 5)).tx = (at' 5).tx := by decide +kernel

/-- O45: CSN asserted on an idle line and on a busy one, its negation and RXD's return, and a line held back by each. -/
theorem witness_line_levels :
    let busy := { online with line := .busy, lineGap := some 33 }
    let csn := run (.lineBusy .csn) online
    csn.csnAsserted = true ∧ csn.lineGap = some 0 ∧ (run (.lineBusy .csn) { busy with lineGap := none }).lineGap = none
    ∧ (csn.pinEvent .csnRelease).csnAsserted = false ∧ csn.idle.lineGap = some 0
    ∧ (csn.pinEvent .csnRelease).idle.lineGap = some 1
    ∧ busy.atOnce = none ∧ busy.pending = []
    ∧ (let s := { busy with csnAsserted := true }; run .lineIdle s = s)
    ∧ (let s := { busy with rxdLow := true }; run .lineIdle s = s) := by decide +kernel

/-- O46: a reply, a consumer's candidate at the round-robin position, a producer's, and none. -/
theorem witness_choice :
    let owing := { consumer with cons := { consumer.cons with ack := .owed, expected := 5 } }
    let s := { (having { producer with prod := { filled := 1 } }).setEntry 11 { owing with stream := 40 } with
      poolFree := 48 }
    s.tx = .free ∧ (run .schedulerChoice s).tx = .chosen (.ack 11 40 17 4 2) false
    ∧ turnsBefore s.rrConsumer 0 = 0 ∧ turnsBefore s.rrConsumer 11 = 11
    ∧ ((run .schedulerChoice s).entry 11).cons.ack = .inFlight
    ∧ (run .schedulerChoice { s with replies := [Reply.mk 9 12 (.refuse .full) false] }).tx
        = .chosen (.reply 9 12 (.refuse .full)) false
    ∧ (run .schedulerChoice (having { producer with prod := { filled := 1 } })).tx
        = .chosen (.data 0 false 12 0 false (some 0) 16) false
    ∧ run .schedulerChoice (having producer) = having producer := by decide +kernel

/-- O46: a choice before the owner has the completion, of a frame driven to its end and of one a bit short of it. -/
theorem witness_early_choice :
    let f : TxFrame := .hold 0 12 0
    let s := (sending producer f false).setEntry 1 { joiner with stream := 9 }
    let short := { s with tx := .sending f [0x69#8] 10 false false }
    let lone := sending producer f false
    (run .schedulerChoice s).tx = .chosen (.join 1 9 2 16) false ∧ (run .schedulerChoice s).handover = some f
    ∧ ((run .holdComplete (run .schedulerChoice s)).entry 0).timer = .running 250
    ∧ (run .holdComplete (run .schedulerChoice s)).handover = none
    ∧ run .schedulerChoice short = short ∧ run .schedulerChoice lone = lone := by decide +kernel

/-- O47: an entry that offers each kind of frame, one with a completion to take, and choices from a FREE transmitter. -/
theorem witness_chosen_frames :
    let chosen := fun (e : Entry) => (run .schedulerChoice (having e)).tx
    let p : Producer := { nextSeq := 2, ring := [record 0 0 [9], { record 1 1 [9] with queued := true }] }
    let c := { producer with state := .closing, prod := { endPending := .byClose } }
    let due := { producer with prod := { holdDue := true } }
    let gated := { producer with prod := { nextSeq := 3, filled := 1, subs := [{ joinedSub 9 with acked := 2, credit := 0 }] } }
    chosen { producer with prod := p } = .chosen (.data 0 true 12 1 false (some 1) 16) false
    ∧ chosen c = .chosen (.data 0 false 12 0 true none 0) false
    ∧ chosen due = .chosen (.hold 0 12 0) false
    ∧ (having gated).producerCandidate 0 = none
    ∧ { having due with handover := some (.hold 0 12 0) }.producerCandidate 0 = none
    ∧ chosen joiner = .chosen (.join 0 12 2 16) false
    ∧ chosen { consumer with state := .leaving } = .chosen (.leave 0 12) false
    ∧ chosen { consumer with state := .leaving, cons := { consumer.cons with ack := .owed } }
        = .chosen (.ack 0 12 17 2 0) false := by decide +kernel

/-- O48: a grant in CONTENTION, one in a slot, a round without a grant, a frame that waits for its dispatch, and a
completion that an owner has still to take. -/
theorem witness_start :
    let s := { having producer with tx := .chosen (.hold 0 12 0) false }
    let waits := { s with rx := { state := .hunt, hold := frameChars (.join 9 12 4 16), gap := some 33 } }
    (run .transmitStart s).tx = .sending (.hold 0 12 0) (frameChars (.hold 5 12 0)) 0 false false
    ∧ (run .transmitStart { s with round := .slot 0 3 5 0, tx := .chosen (.hold 0 12 0) true }).round
        = .busy 0 3 5 (some 5)
    ∧ (let b := { s with round := .slot 0 3 5 0 }; run .transmitStart b = b)
    ∧ (let b := { s with handover := some (.hold 0 12 0) }; run .transmitStart b = b)
    ∧ waits.rx.ready = some (.join 9 12 4 16) ∧ ((run .transmitStart waits).entry 0).prod.subs.length = 1 := by
  decide +kernel

/-- O48: TXD in each bit time of a first character and of a second one, and with nothing driven (10.1). -/
theorem witness_txd :
    let at' := fun n => { sending producer (.hold 0 12 0) false with tx := .sending (.hold 0 12 0) [0x45#8, 0x0C#8] n false false }
    (List.range 11).map (fun n => (at' n).txd) = [false, true, false, true, false, false, false, true, false, true, true]
    ∧ (at' 20).txd = false ∧ (at' 21).txd = true ∧ (at' 22).txd = true ∧ (at' 0).txe = true
    ∧ online.txe = false ∧ online.txd = true := by decide +kernel

/-- O49: a first character in CONTENTION, the seventh failure and the eighth, and positions that the bits do not allow. -/
theorem witness_collision_sent :
    let e := { consumer with cons := { consumer.cons with ack := .renewed } }
    let s := fun n r => { sending e (.ack 0 12 17 2 2) r with failCount := n }
    let driven := fun n => { s 0 false with tx := .sending (.ack 0 12 17 2 2) [0x69#8, 0x0C#8] n false false }
    (run (.transmitCollision .mismatch true) (s 7 false)).failCount = 7
    ∧ ((run (.transmitCollision .mismatch true) (s 7 false)).entry 0).cons.ack = .owed
    ∧ (run (.transmitCollision .csn true) (s 6 true)).station = .online
    ∧ (run (.transmitCollision .csn true) (s 7 true)).station = .lineFault
    ∧ (run (.transmitCollision .csn true) (s 7 true)).csnAsserted = true
    ∧ (run (.transmitCollision .csn false) (s 7 false)).noticeQueue = [12]
    ∧ (run (.transmitCollision .csn true) (driven 11)).tx = .free
    ∧ run (.transmitCollision .csn true) (driven 12) = driven 12
    ∧ (run (.transmitCollision .csn false) (driven 11)).tx = .free
    ∧ run (.transmitCollision .csn false) (driven 10) = driven 10 := by decide +kernel

/-- O50: a new frame that completes with subscribers, one without, one that finds the entry ENDED, and one whose owner takes
the completion after the next choice. -/
theorem witness_new_frame :
    let f : TxFrame := .data 0 false 12 2 false (some 2) 16
    let alone := { producer with prod := { nextSeq := 2, sendIdx := 7, filled := 1 } }
    let past := { producer with state := .ended }
    let handed := { having twoOut with handover := some f, tx := .chosen (.reply 9 12 (.refuse .full)) false }
    ((run .newFrameComplete (sending twoOut f false)).entry 0).prod.ring.length = 3
    ∧ ((run .newFrameComplete (sending alone f false)).entry 0).prod.ring = []
    ∧ ((run .newFrameComplete (sending alone f false)).entry 0).prod.sendIdx = 0
    ∧ (run .newFrameComplete (sending past f false)).entry 0 = past
    ∧ ((run .newFrameComplete handed).entry 0).prod.ring.length = 3
    ∧ (run .newFrameComplete handed).tx = handed.tx ∧ (run .newFrameComplete handed).handover = none := by decide +kernel

/-- O51: a resend, a JOIN, an ACK that ends the entry, a LEAVE and a reply that complete; a disowned frame. -/
theorem witness_completions :
    let queued := { twoOut with timer := .stopped,
                                prod := { twoOut.prod with ring := [{ record 1 1 [9] with queued := true }] } }
    let done := { consumer with cons := { consumer.cons with ack := .inFlight, endMark := true } }
    let left := { consumer with state := .leaving, cause := some .countDone }
    let r := { sending producer (.reply 9 12 (.refuse .full)) false with
      replies := [Reply.mk 9 12 (.refuse .full) true] }
    ((run .resendComplete (sending queued (.data 0 true 12 1 false (some 1) 16) false)).entry 0).timer = .running 20
    ∧ ((run .joinComplete (sending joiner (.join 0 12 2 16) false)).entry 0).cons.joinAttempts = 1
    ∧ ((run .ackComplete (sending done (.ack 0 12 17 2 2) false)).entry 0).cause = some .byProducer
    ∧ ((run .leaveComplete (sending left (.leave 0 12) false)).entry 0).cause = some .countDone
    ∧ (run .replyComplete r).replies = []
    ∧ (let tx : Tx := .sending (.ack 0 12 17 2 2) [0x69#8] 11 false true
       (run .ackComplete { sending done (.ack 0 12 17 2 2) false with tx := tx }).entry 0 = done) := by decide +kernel

/-- O51: the owner takes its completion after the next choice; a bit short of its end no frame completes. -/
theorem witness_late_completions :
    let handed := { having joiner with handover := some (.join 0 12 2 16), tx := .chosen (.hold 1 9 0) false }
    let short := { having joiner with tx := .sending (.join 0 12 2 16) [0x85#8] 10 false false }
    completes handed { handed with handover := none } (.join 0 12 2 16)
    ∧ ((run .joinComplete handed).entry 0).cons.joinAttempts = 1 ∧ (run .joinComplete handed).tx = handed.tx
    ∧ run .joinComplete short = short := by
  refine ⟨.inr ⟨rfl, rfl⟩, ?_⟩
  decide +kernel

/-- O53 to O59: a state that is not the reset state. -/
def busyStation : State := { having twoOut with mem := [(0, 1#8)] }

/-- O53, O58: its memory is canonical, and its streams and regions lie apart. -/
theorem witness_memory_and_table : memorySafe busyStation ∧ tableSafe busyStation ∧ slotsSafe busyStation := by
  unfold memorySafe tableSafe regionInside slotsSafe
  decide +kernel

/-- O54, O55, O57: its records number 48, and its notices and replies are in order. -/
theorem witness_queues_and_pool :
    poolSafe busyStation ∧ noticeSafe busyStation ∧ setsSafe busyStation ∧ replySafe busyStation := by
  unfold poolSafe noticeSafe setsSafe replySafe
  decide +kernel

/-- O56: its station state is in charge. -/
theorem witness_station_in_charge : onlineSafe busyStation ∧ offlineSafe busyStation ∧ receiverSafe busyStation := by
  unfold onlineSafe offlineSafe receiverSafe
  decide +kernel

/-- O59: its producer is within its window, with no frame on hand. -/
theorem witness_window : windowSafe busyStation ∧ owedSafe busyStation := by
  have none_held : ∀ i, heldNewFrame busyStation.tx i = none := by decide +kernel
  have none_handed : ∀ i, handedNewFrame busyStation.handover i = none := by decide +kernel
  constructor
  · intro i
    simp only [none_held, none_handed, reduceCtorEq, or_self, false_implies, implies_true, and_true]
    revert i
    decide +kernel
  · unfold owedSafe
    decide +kernel

/-- O60: a command other than WRITE_BUFFER and POWER_ON that answers next, and a byte outside the consumer's region. -/
theorem witness_frame_of_memory :
    let c : Instr := .dataFrame 17 12 3 false payload
    (∀ bytes ragged, c ≠ .writeBuffer bytes ragged) ∧ (∀ sa rs, c ≠ .powerOn sa rs)
    ∧ exec c (having consumer) = .next (run c (having consumer))
    ∧ memorySafe (having consumer) ∧ tableSafe (having consumer) ∧ slotsSafe (having consumer)
    ∧ ¬inConsumerRegion (having consumer) 288 ∧ ¬inConsumerRegion (having consumer) 255 := by
  refine ⟨by simp, by simp, rfl, by unfold memorySafe; decide +kernel, by unfold tableSafe regionInside; decide +kernel,
    by unfold slotsSafe; decide +kernel, ?_⟩
  unfold inConsumerRegion
  decide +kernel

end Sys2Proof.Tests
end

section
/-! PROOFS. Producing a stream (02): POST's checks and effect (R28), and the conflict of two producers (R56). -/

namespace Sys2Proof.Machine

open Sys2Proof.Safety

/-! ## Write-type commands, from what their act answers -/

/-- A write-type command sets the result code and keeps the state that its act answers (R182, R185). -/
theorem State.writeType_of_act {s t : State} {rc : ResultCode} {act : State → ResultCode × State}
    (h : act { s with port := s.port.begun } = (rc, t)) :
    s.writeType true act = { t with port := { t.port.begun with result := rc } } := by
  rw [State.writeType_true, h]

/-- A write-type command whose act changes no more than the entries changes no more than the entries and the port. -/
theorem State.writeType_frame_entries {s : State} {act : State → ResultCode × State}
    (h : ∀ t : State, (act t).2 = { t with entries := (act t).2.entries }) :
    s.writeType true act =
      { s with entries := (s.writeType true act).entries, port := (s.writeType true act).port } := by
  rw [State.writeType_true, h]

/-! ## POST (R28) -/

section Post

variable {s : State} {i : EntryIdx} {n : Nat}

theorem State.post_of_state (h : (s.entry i).state ≠ .producing) : State.post i n s = (.refusedState, s) :=
  if_pos h

theorem State.post_of_bad (h : (s.entry i).state = .producing)
    (hbad : n = 0 ∨ (s.entry i).count ≠ 0 ∧ (s.entry i).remaining < n) :
    State.post i n s = (.badParameter, s) := by
  simp only [State.post, h, ne_eq, not_true_eq_false, if_false]
  exact if_pos hbad

theorem State.post_of_full (h : (s.entry i).state = .producing)
    (hgood : ¬(n = 0 ∨ (s.entry i).count ≠ 0 ∧ (s.entry i).remaining < n)) (hfull : (s.entry i).freeSlots < n) :
    State.post i n s = (.noSpace, s) := by
  simp only [State.post, h, ne_eq, not_true_eq_false, if_false]
  rw [if_neg hgood, if_pos hfull]

theorem State.post_of_room (h : (s.entry i).state = .producing)
    (hgood : ¬(n = 0 ∨ (s.entry i).count ≠ 0 ∧ (s.entry i).remaining < n)) (hroom : n ≤ (s.entry i).freeSlots) :
    State.post i n s = (.ok, s.setEntry i ((s.entry i).posted n)) := by
  simp only [State.post, h, ne_eq, not_true_eq_false, if_false]
  rw [if_neg hgood, if_neg (Nat.not_lt.mpr hroom)]

theorem State.post_frame (i : EntryIdx) (n : Nat) (s : State) :
    (State.post i n s).2 = { s with entries := (State.post i n s).2.entries } := by
  unfold State.post
  dsimp only
  split_ifs <;> rfl

end Post

/-- POST changes no more than the entries and the port, whatever entry its index names (R14, R28). -/
theorem State.countCommand_post_frame (s : State) (index n : Byte) :
    s.countCommand [index, n] false State.post =
      { s with
        entries := (s.countCommand [index, n] false State.post).entries
        port := (s.countCommand [index, n] false State.post).port } := by
  rcases index_cases index with hgt | ⟨i, hi⟩
  · rw [State.countCommand_gt s n hgt]
  · rw [State.countCommand_eq s n hi]
    exact State.writeType_frame_entries (State.post_frame i n.toNat)

/-- For a count that the remaining count allows, the remaining count reaches 0 exactly when the whole of it is posted. -/
theorem Entry.posted_eq {e : Entry} {n : Nat} (hgood : ¬(n = 0 ∨ e.count ≠ 0 ∧ e.remaining < n)) :
    e.posted n = { e with
      remaining := if e.count = 0 then e.remaining else e.remaining - n
      prod := { e.prod with
        filled := e.prod.filled + n
        endPending := if e.count ≠ 0 ∧ e.remaining = n ∧ e.prod.endPending = .clear then .byCount
          else e.prod.endPending } } := by
  by_cases hc : e.count = 0
  · simp [Entry.posted, hc]
  · have hle : n ≤ e.remaining := by
      by_contra hlt
      exact hgood (.inr ⟨hc, Nat.not_le.mp hlt⟩)
    have hzero : e.remaining - n = 0 ↔ e.remaining = n := by omega
    simp [Entry.posted, hc, hzero]

/-- A POST moves the fill index on by its count, modulo the slots (R27). -/
theorem Entry.fillIdx_posted (e : Entry) (n : Nat) : (e.posted n).fillIdx = (e.fillIdx + n) % e.slots := by
  change (e.prod.sendIdx + (e.prod.filled + n)) % e.slots = ((e.prod.sendIdx + e.prod.filled) % e.slots + n) % e.slots
  rw [Nat.mod_add_mod, Nat.add_assoc]

/-- Settles O20: the state that POST answers is read off, check by check, from what POST's act answers. -/
theorem postFollowsItsChecks : Obligations.PostFollowsItsChecks := by
  intro s index n hheld
  refine ⟨_, exec_post hheld _ _, State.countCommand_post_frame s index n, ?_, ?_⟩
  · intro hgt
    rw [State.countCommand_gt s n hgt]
    exact ⟨rfl, rfl⟩
  · intro i hi
    dsimp only
    rw [State.countCommand_eq s n hi, freeSlotsOf_eq]
    refine ⟨fun hst => ?_, fun hst hbad => ?_, fun hst hgood hfull => ?_, fun hst hgood hroom => ?_⟩
    · rw [State.writeType_of_act (State.post_of_state hst)]
      exact ⟨rfl, rfl⟩
    · rw [State.writeType_of_act (State.post_of_bad hst hbad)]
      exact ⟨rfl, rfl⟩
    · rw [State.writeType_of_act (State.post_of_full hst hgood hfull)]
      exact ⟨rfl, rfl⟩
    · rw [State.writeType_of_act (State.post_of_room hst hgood hroom)]
      have hself := s.entry_setEntry_self i ((s.entry i).posted n.toNat)
      refine ⟨rfl, fun j hj => s.entry_setEntry_of_ne _ hj, hself.trans (Entry.posted_eq hgood), ?_⟩
      exact (congrArg Entry.fillIdx hself).trans (Entry.fillIdx_posted _ _)

/-! ## Two producers of one stream (R56) -/

/-- A frame of a kind that only a producer of its stream sends: DATA, HOLD or ACCEPT (R56). -/
def fromProducer : Frame → Prop
  | .data _ _ _ _ _ => True
  | .hold _ _ _ => True
  | .accept _ _ _ _ _ => True
  | _ => False

/-- A frame of another producer is a conflict at a producer entry of its stream (R56, R136). -/
theorem State.dispatchTo_producer_of_fromProducer {s : State} {i : EntryIdx} {f : Frame}
    (hrole : (s.entry i).role = some .producer) (hf : fromProducer f) : s.dispatchTo i f = s.conflict i := by
  unfold State.dispatchTo
  rw [hrole]
  cases f with
  | data => rfl
  | hold => rfl
  | accept => rfl
  | ack => cases hf
  | join => cases hf
  | leave => cases hf
  | refuse => cases hf

theorem Entry.liveProducer_iff (e : Entry) : e.liveProducer = true ↔ e.state = .producing ∨ e.state = .closing := by
  simp [Entry.liveProducer]

/-- A conflict at a producer entry in PRODUCING or CLOSING ends it (R56). -/
theorem State.conflict_of_live {s : State} {i : EntryIdx}
    (h : (s.entry i).state = .producing ∨ (s.entry i).state = .closing) : s.conflict i = s.endEntry i .conflict :=
  if_pos ((Entry.liveProducer_iff _).mpr h)

/-- Settles O33: the frame is dispatched to the entry of its stream, which it ends with cause CONFLICT. -/
theorem foreignProducerCausesConflict : Obligations.ForeignProducerCausesConflict := by
  intro s i f hreach hrole hlive hkind
  have ⟨hheld, _⟩ := hreach
  have hf : fromProducer f := by cases f <;> exact hkind
  have hexec : exec (frameRow f) s = .next (s.endEntry i .conflict) := by
    rw [exec_frameRow, State.unlessHeld_high hheld, State.frameEvent_of_reaches hreach,
      State.dispatchTo_producer_of_fromProducer hrole hf, State.conflict_of_live hlive]
  exact ⟨_, hexec, s.endEntry_spec i .conflict⟩

end Sys2Proof.Machine
end

section
/-! PROOFS. Consuming a stream (04): RELEASE (R99), and what HOLD, ACCEPT and REFUSE do at a consumer entry (R84, R85,
R96, R104). -/

namespace Sys2Proof.Machine

open Sys2Proof.Safety

/-! ## RELEASE (R99) -/

/-- A command with an entry index and a frame count whose act changes no more than the entries changes no more than the
entries and the port, whatever entry its index names (R14). -/
theorem State.countCommand_frame_entries {act : EntryIdx → Nat → State → ResultCode × State}
    (h : ∀ i k t, (act i k t).2 = { t with entries := (act i k t).2.entries }) (s : State) (index n : Byte) :
    s.countCommand [index, n] false act =
      { s with
        entries := (s.countCommand [index, n] false act).entries
        port := (s.countCommand [index, n] false act).port } := by
  rcases index_cases index with hgt | ⟨i, hi⟩
  · rw [State.countCommand_gt s n hgt]
  · rw [State.countCommand_eq s n hi]
    exact State.writeType_frame_entries (h i n.toNat)

/-- An entry that refuses RELEASE by its state: no consumer in RECEIVING, LEAVING or ENDED, or in FIXED mode (R99). -/
def Entry.shutToRelease (e : Entry) : Prop :=
  ¬(e.role = some .consumer ∧ (e.state = .receiving ∨ e.state = .leaving ∨ e.state = .ended)) ∨ e.mode = .fixed

theorem Mode.ne_fixed_iff (m : Mode) : m ≠ .fixed ↔ m = .advance := by
  cases m <;> simp

theorem Entry.not_shutToRelease_iff (e : Entry) : ¬e.shutToRelease ↔
    e.role = some .consumer ∧ (e.state = .receiving ∨ e.state = .leaving ∨ e.state = .ended) ∧ e.mode = .advance := by
  rw [Entry.shutToRelease, not_or, not_not, ← ne_eq e.mode, Mode.ne_fixed_iff, and_assoc]

section Release

variable {s : State} {i : EntryIdx} {n : Nat}

theorem State.release_of_shut (h : (s.entry i).shutToRelease) : State.release i n s = (.refusedState, s) :=
  if_pos fun hopen => (Entry.not_shutToRelease_iff _).mpr hopen h

theorem State.release_of_open (h : ¬(s.entry i).shutToRelease) : State.release i n s =
    if n = 0 ∨ (s.entry i).cons.held < n then (.badParameter, s)
    else (.ok, s.setEntry i ((s.entry i).released n)) :=
  if_neg (not_not_intro ((Entry.not_shutToRelease_iff _).mp h))

theorem State.release_of_bad (h : ¬(s.entry i).shutToRelease) (hbad : n = 0 ∨ (s.entry i).cons.held < n) :
    State.release i n s = (.badParameter, s) :=
  (State.release_of_open h).trans (if_pos hbad)

theorem State.release_of_good (h : ¬(s.entry i).shutToRelease) (hgood : ¬(n = 0 ∨ (s.entry i).cons.held < n)) :
    State.release i n s = (.ok, s.setEntry i ((s.entry i).released n)) :=
  (State.release_of_open h).trans (if_neg hgood)

theorem State.release_frame (i : EntryIdx) (n : Nat) (s : State) :
    (State.release i n s).2 = { s with entries := (State.release i n s).2.entries } := by
  by_cases hshut : (s.entry i).shutToRelease
  · rw [State.release_of_shut hshut]
  · rw [State.release_of_open hshut]
    split_ifs <;> rfl

end Release

/-- In ADVANCE mode the credit of an entry in RECEIVING is 0 exactly when its slots leave none (R93), so an accepted
RELEASE owes an ACK just then (R99). -/
theorem Entry.released_eq {e : Entry} (n : Nat) (hmode : e.mode = .advance) :
    e.released n = { e with cons := { e.cons with
      held := e.cons.held - n
      readIdx := (e.cons.readIdx + n) % e.slots
      ack := if e.state = .receiving ∧ min 4 (e.slots - e.cons.held) = 0 then owing e.cons.ack else e.cons.ack } } := by
  obtain ⟨hadvance, _, _⟩ := e.credit_spec
  have hcredit : (e.state = .receiving ∧ e.credit = 0) ↔
      (e.state = .receiving ∧ min 4 (e.slots - e.cons.held) = 0) :=
    and_congr_right fun hst => by rw [hadvance (.inr hst) hmode]
  simp only [Entry.released, hcredit, AckFlag.owe_eq]

/-- Settles O21: the state that RELEASE answers is read off, check by check, from what RELEASE's act answers. -/
theorem releaseFollowsItsChecks : Obligations.ReleaseFollowsItsChecks := by
  intro s index n hheld
  refine ⟨_, exec_release hheld _ _, State.countCommand_frame_entries State.release_frame s index n, ?_, ?_⟩
  · intro hgt
    rw [State.countCommand_gt s n hgt]
    exact ⟨rfl, rfl⟩
  · intro i hi
    dsimp only
    rw [State.countCommand_eq s n hi]
    refine ⟨fun hshut => ?_, fun hopen hbad => ?_, fun hopen hgood => ?_⟩
    · rw [State.writeType_of_act (State.release_of_shut hshut)]
      exact ⟨rfl, rfl⟩
    · rw [State.writeType_of_act (State.release_of_bad hopen hbad)]
      exact ⟨rfl, rfl⟩
    · rw [State.writeType_of_act (State.release_of_good hopen hgood)]
      obtain ⟨_, _, hmode⟩ := (Entry.not_shutToRelease_iff _).mp hopen
      have hself := s.entry_setEntry_self i ((s.entry i).released n.toNat)
      exact ⟨rfl, fun j hj => s.entry_setEntry_of_ne _ hj, hself.trans (Entry.released_eq _ hmode)⟩

/-! ## Frames at a consumer entry (R136) -/

/-- The row of a frame that reaches an entry is its dispatch there. -/
theorem exec_frameRow_of_reaches {s : State} {f : Frame} {i : EntryIdx} (h : reaches s f i) :
    exec (frameRow f) s = .next (s.dispatchTo i f) := by
  have ⟨hheld, _⟩ := h
  rw [exec_frameRow, State.unlessHeld_high hheld, State.frameEvent_of_reaches h]

section ConsumerRows

variable {s : State} {i : EntryIdx} (n : Station) (st : StreamNo) (d : Station) (q : Seq) (size : Nat) (reason : Reason)

theorem State.dispatchTo_consumer_hold (hrole : (s.entry i).role = some .consumer) :
    s.dispatchTo i (.hold n st q) = s.consumerHold i n q := by
  simp only [State.dispatchTo, hrole]

theorem State.dispatchTo_consumer_accept (hrole : (s.entry i).role = some .consumer) :
    s.dispatchTo i (.accept n st d q size) = s.consumerAccept i n q size := by
  simp only [State.dispatchTo, hrole]

theorem State.dispatchTo_consumer_refuse (hrole : (s.entry i).role = some .consumer) :
    s.dispatchTo i (.refuse n st d reason) = s.consumerRefuse i n reason := by
  simp only [State.dispatchTo, hrole]

end ConsumerRows

/-! ## HOLD (R96, R102) -/

/-- In order, ahead and behind together reach 4 to either side of the expected sequence, modulo 256 (00_scope.md,
Section 5). -/
theorem seqClass_ne_stale_iff (q e : Seq) : seqClass q e ≠ .stale ↔ (q - e).toNat ≤ 4 ∨ 252 ≤ (q - e).toNat := by
  obtain ⟨_, _, _, hstale⟩ := seqClass_spec q e
  rw [ne_eq, hstale]
  omega

/-- A consumer entry after a HOLD that it takes: its silence timer restarted, and an ACK owed except while the END mark
is set (R96, R102). -/
def Entry.afterHold (e : Entry) (p : Params) : Entry :=
  { e with
    timer := .running p.tSil
    cons := { e.cons with ack := if e.cons.endMark = true then e.cons.ack else owing e.cons.ack } }

theorem Entry.afterHold_of_endMark {e : Entry} (p : Params) (h : e.cons.endMark = true) :
    e.afterHold p = { e with timer := .running p.tSil } := by
  rw [Entry.afterHold, if_pos h]

theorem Entry.afterHold_of_no_endMark {e : Entry} (p : Params) (h : ¬e.cons.endMark = true) :
    e.afterHold p = { e with timer := .running p.tSil, cons := { e.cons with ack := owing e.cons.ack } } := by
  rw [Entry.afterHold, if_neg h]

/-- The second of two writes of one entry stands. -/
theorem State.setEntry_setEntry (s : State) (i : EntryIdx) (e e' : Entry) :
    (s.setEntry i e).setEntry i e' = s.setEntry i e' := by
  simp [State.setEntry]

theorem State.consumerHold_of_taken {s : State} {i : EntryIdx} {n : Station} {next : Seq}
    (h : (s.entry i).state = .receiving ∧ (s.entry i).cons.producer = some n
      ∧ seqClass next (s.entry i).cons.expected ≠ .stale) :
    s.consumerHold i n next = s.setEntry i ((s.entry i).afterHold s.params) := by
  refine (if_pos h).trans ?_
  by_cases hmark : (s.entry i).cons.endMark = true
  · rw [Entry.afterHold_of_endMark _ hmark]
    exact if_pos hmark
  · rw [Entry.afterHold_of_no_endMark _ hmark]
    refine (if_neg hmark).trans ?_
    simp only [State.restartSilence, State.oweAck, State.setCons, State.entry_setEntry_self, State.setEntry_setEntry,
      AckFlag.owe_eq]

theorem State.consumerHold_of_not_taken {s : State} {i : EntryIdx} {n : Station} {next : Seq}
    (h : ¬((s.entry i).state = .receiving ∧ (s.entry i).cons.producer = some n
      ∧ seqClass next (s.entry i).cons.expected ≠ .stale)) :
    s.consumerHold i n next = s :=
  if_neg h

/-- Settles O34: the HOLD is dispatched to the consumer entry of its stream, which takes it or leaves everything. -/
theorem holdDrawsAnAckInReceiving : Obligations.HoldDrawsAnAckInReceiving := by
  intro s i n st next hreach hrole
  have hexec : exec (.holdFrame n st next) s = .next (s.consumerHold i n next) := by
    rw [← State.dispatchTo_consumer_hold n st next hrole]
    exact exec_frameRow_of_reaches hreach
  dsimp only
  rw [hexec, ← seqClass_ne_stale_iff]
  refine ⟨fun htaken => ?_, fun hnot => ?_⟩
  · rw [State.consumerHold_of_taken htaken]
    exact ⟨_, rfl, rfl, fun j hj => s.entry_setEntry_of_ne _ hj, s.entry_setEntry_self i _⟩
  · rw [State.consumerHold_of_not_taken hnot]

/-! ## ACCEPT (R84) -/

/-- A joining entry bound to its producer: RECEIVING, the start sequence expected, its silence timer started and its due
JOIN withdrawn (R84). -/
def Entry.boundTo (e : Entry) (p : Params) (src : Station) (start : Seq) : Entry :=
  { e with
    state := .receiving
    timer := .running p.tSil
    cons := { e.cons with producer := some src, expected := start, joinDue := false } }

theorem State.consumerAccept_of_joining {s : State} {i : EntryIdx} {size : Nat} (n : Station) (start : Seq)
    (h : (s.entry i).state = .joining ∧ size = (s.entry i).size) :
    s.consumerAccept i n start size =
      State.raiseJoined { s.setEntry i ((s.entry i).boundTo s.params n start) with tx := s.tx.withdrawJoin i } i n :=
  if_pos h

theorem State.consumerAccept_of_other {s : State} {i : EntryIdx} {size : Nat} (n : Station) (start : Seq)
    (h : ¬((s.entry i).state = .joining ∧ size = (s.entry i).size)) : s.consumerAccept i n start size = s :=
  if_neg h

/-- Settles O39: the ACCEPT is dispatched to the consumer entry of its stream; the entry's binding, the withdrawal of its
JOIN and the raise of JOINED each touch a part of the state of their own. -/
theorem acceptBindsAJoiningEntry : Obligations.AcceptBindsAJoiningEntry := by
  intro s i n st d start size hreach hrole
  have hexec : exec (.acceptFrame n st d start size) s = .next (s.consumerAccept i n start size) := by
    rw [← State.dispatchTo_consumer_accept n st d start size hrole]
    exact exec_frameRow_of_reaches hreach
  dsimp only
  rw [hexec]
  refine ⟨fun hst hsize => ?_, fun hother => ?_⟩
  · obtain ⟨hwithdrawn, hkept⟩ := s.tx.withdrawJoin_spec i
    refine ⟨_, rfl, State.consumerAccept_frame s i n start size, ?_⟩
    rw [State.consumerAccept_of_joining n start ⟨hst, hsize⟩]
    exact ⟨fun j hj => s.entry_setEntry_of_ne _ hj, s.entry_setEntry_self i _, hwithdrawn, hkept,
      State.raise_spec _ (itemOf i) .joined _⟩
  · rw [State.consumerAccept_of_other n start (not_and_or.mpr hother)]

/-! ## REFUSE (R85, R104) -/

/-- The reasons that end a joining entry, each with its cause (R85). -/
theorem refusalCause_eq_some_iff (reason : Reason) (c : Cause) : refusalCause reason = some c ↔
    (reason = .full ∧ c = .refusedFull ∨ reason = .closing ∧ c = .refusedClosing
      ∨ reason = .size ∧ c = .sizeMismatch) := by
  cases reason <;> simp [refusalCause, eq_comm]

section ConsumerRefuse

variable {s : State} {i : EntryIdx} {n : Station} {reason : Reason}

theorem State.consumerRefuse_of_joining {c : Cause} (hst : (s.entry i).state = .joining)
    (hc : refusalCause reason = some c) : s.consumerRefuse i n reason = s.endEntry i c := by
  simp only [State.consumerRefuse, hst, hc, if_true]

theorem State.consumerRefuse_of_evicted
    (h : (s.entry i).state = .receiving ∧ reason = .notSubscribed ∧ (s.entry i).cons.producer = some n) :
    s.consumerRefuse i n reason = s.endEntry i .evicted := by
  have ⟨hst, _⟩ := h
  have hne : (s.entry i).state ≠ .joining := by simp [hst]
  exact (if_neg hne).trans (if_pos h)

/-- NOT_SUBSCRIBED names no cause for a joining entry, and in any other state only an eviction acts (R85, R104). -/
theorem State.consumerRefuse_of_other (hjoining : ¬((s.entry i).state = .joining ∧ reason ≠ .notSubscribed))
    (hevicts : ¬((s.entry i).state = .receiving ∧ reason = .notSubscribed ∧ (s.entry i).cons.producer = some n)) :
    s.consumerRefuse i n reason = s := by
  by_cases hst : (s.entry i).state = .joining
  · have hreason : reason = .notSubscribed := by
      by_contra hne
      exact hjoining ⟨hst, hne⟩
    simp only [State.consumerRefuse, hst, hreason, refusalCause, if_true]
  · exact (if_neg hst).trans (if_neg hevicts)

end ConsumerRefuse

/-- Settles O40: the REFUSE is dispatched to the consumer entry of its stream, which it ends with the cause of its reason,
evicts or leaves as it was. -/
theorem refuseEndsAConsumer : Obligations.RefuseEndsAConsumer := by
  intro s i n st d reason hreach hrole
  have hexec : exec (.refuseFrame n st d reason) s = .next (s.consumerRefuse i n reason) := by
    rw [← State.dispatchTo_consumer_refuse n st d reason hrole]
    exact exec_frameRow_of_reaches hreach
  dsimp only
  rw [hexec]
  refine ⟨fun c hst hreason => ?_, fun hevicts => ?_, fun hjoining hevicts => ?_⟩
  · rw [State.consumerRefuse_of_joining hst ((refusalCause_eq_some_iff reason c).mpr hreason)]
    exact ⟨_, rfl, s.endEntry_spec i c⟩
  · rw [State.consumerRefuse_of_evicted hevicts]
    exact ⟨_, rfl, s.endEntry_spec i .evicted⟩
  · rw [State.consumerRefuse_of_other hjoining hevicts]

end Sys2Proof.Machine
end

section
/-! PROOFS. Notices and the attention line (05): READ_NOTICE, its record and its EMPTY answer (R118, R119). -/

namespace Sys2Proof.Machine

/-! ## The bytes of an answer -/

/-- Past the end of the latched answer the port shifts out 00h (R183, R196). -/
theorem State.misoByte_of_length_le {s : State} {n : Nat} (h : s.port.answer.length ≤ n) : s.misoByte n = 0#8 := by
  rw [State.misoByte, List.getElem?_eq_none h]
  rfl

/-! ## The notice record (10.8) -/

/-- ENDED is bit 5 of the kinds byte (10.8). -/
theorem Item.has_ended (t : Item) : t.has .ended = t.kinds.getLsbD 5 := by
  have hbit : Kind.bit .ended = BitVec.twoPow 8 5 := by decide
  rw [Item.has, hbit, BitVec.and_twoPow]
  cases t.kinds.getLsbD 5 <;> decide

@[simp] theorem length_bytes32 (m : StationSet) : (bytes32 m).length = 4 := rfl

@[simp] theorem length_noticeRecord (i : ItemIdx) (t : Item) : (noticeRecord i t).length = 15 := by
  simp [noticeRecord]

/-- The end cause is reported exactly when ENDED is among the item's kinds (R118). -/
theorem causeCode_of_ended (t : Item) :
    causeCode (if t.has .ended then t.cause else none)
      = if t.kinds.getLsbD 5 = true then causeCode t.cause else 0 := by
  rw [Item.has_ended, apply_ite causeCode, causeCode]

/-- The record is three bytes and then the three sets of four bytes each, which are empty for item 12 (10.8). -/
theorem noticeRecord_eq_flatMap (i : ItemIdx) (t : Item) :
    noticeRecord i t =
      [BitVec.ofNat 8 i.val, t.kinds,
       BitVec.ofNat 8 (if t.kinds.getLsbD 5 = true then causeCode t.cause else 0)]
      ++ (if i = 12 then [0#32, 0#32, 0#32] else [t.joined, t.departed, t.evicted]).flatMap bytes32 := by
  have hlast : Fin.last 12 = (12 : ItemIdx) := rfl
  rw [noticeRecord, causeCode_of_ended, hlast]
  by_cases hi : i = 12
  · simp [hi]
  · simp [hi]

/-! ## READ_NOTICE (R118, R119) -/

theorem State.popNotice_of_cons {s : State} {i : ItemIdx} {rest : List ItemIdx} (h : s.noticeQueue = i :: rest) :
    s.popNotice =
      State.answer { s with items := s.items.set i {}, noticeQueue := rest } .notice .ok (noticeRecord i (s.item i)) := by
  simp only [State.popNotice, h]

theorem State.popNotice_of_nil {s : State} (h : s.noticeQueue = []) :
    s.popNotice = s.answer .notice .empty emptyNotice := by
  simp only [State.popNotice, h]

/-- An answer leaves the items as they were. -/
theorem State.item_answer (s : State) (cmd : ReadCmd) (rc : ResultCode) (b : List Byte) (j : ItemIdx) :
    (s.answer cmd rc b).item j = s.item j :=
  State.item_congr rfl j

/-- From its second byte on the EMPTY answer is 00h, within its length and past it (R119). -/
theorem State.misoByte_of_emptyNotice {s : State} (h : s.port.answer = emptyNotice) {n : Nat} (hn : 1 ≤ n) :
    s.misoByte n = 0#8 := by
  obtain ⟨m, rfl⟩ := Nat.exists_eq_add_of_le' hn
  rw [State.misoByte, h, emptyNotice, List.getElem?_cons_succ, List.getElem?_replicate]
  split <;> rfl

/-- Settles O8: the queue is split as READ_NOTICE splits it; a head item is answered by its record and cleared, an empty
queue by the EMPTY answer. -/
theorem readNoticePopsOrAnswersEmpty : Obligations.ReadNoticePopsOrAnswersEmpty := by
  intro s hheld
  rw [exec_readNotice hheld]
  refine ⟨fun k rest hq => ?_, fun hq => ?_⟩
  · rw [State.popNotice_of_cons hq]
    refine ⟨_, rfl, rfl, ?_, fun j hj => ?_, rfl, rfl, noticeRecord_eq_flatMap k (s.item k), fun n hn => ?_⟩
    · rw [State.item_answer, State.item_setItem_self]
    · rw [State.item_answer, State.item_setItem_of_ne s {} rest hj]
    · exact State.misoByte_of_length_le ((length_noticeRecord k (s.item k)).trans_le hn)
  · rw [State.popNotice_of_nil hq]
    exact ⟨_, rfl, rfl, rfl, rfl, rfl, fun n hn => State.misoByte_of_emptyNotice rfl hn⟩

end Sys2Proof.Machine
end

section
/-! PROOFS. Station life cycle and parameters (08): SET_PARAMETERS's checks and effect (R175). -/

namespace Sys2Proof.Machine

/-! ## SET_PARAMETERS (R175) -/

section SetParameters

variable {s : State} {tAck n steps : Byte}

theorem State.setParameters_of_state (h : s.station ≠ .offline) :
    State.setParameters tAck n steps s = (.refusedState, s) :=
  if_pos h

theorem State.setParameters_of_bad (h : s.station = .offline)
    (hbad : tAck.toNat < 2 ∨ n.toNat = 0 ∨ 15 < n.toNat ∨ steps.toNat = 0) :
    State.setParameters tAck n steps s = (.badParameter, s) :=
  (if_neg (not_not_intro h)).trans (if_pos hbad)

theorem State.setParameters_of_good (h : s.station = .offline)
    (hgood : ¬(tAck.toNat < 2 ∨ n.toNat = 0 ∨ 15 < n.toNat ∨ steps.toNat = 0)) :
    State.setParameters tAck n steps s =
      (.ok, { s with params := { tAck := tAck.toNat, n := n.toNat, tHold := 10 * steps.toNat } }) :=
  (if_neg (not_not_intro h)).trans (if_neg hgood)

theorem State.setParameters_frame (tAck n steps : Byte) (s : State) :
    (State.setParameters tAck n steps s).2 = { s with params := (State.setParameters tAck n steps s).2.params } := by
  unfold State.setParameters
  split_ifs <;> rfl

end SetParameters

/-- A write-type command whose act changes no more than the parameters changes no more than the parameters and the
port. -/
theorem State.writeType_frame_params {s : State} {act : State → ResultCode × State}
    (h : ∀ t : State, (act t).2 = { t with params := (act t).2.params }) :
    s.writeType true act =
      { s with params := (s.writeType true act).params, port := (s.writeType true act).port } := by
  rw [State.writeType_true, h]

/-- Settles O15: the defaults are the reset state's own, and the state that SET_PARAMETERS answers is read off, check by
check, from what its act answers. -/
theorem setParametersReplacesAllThree : Obligations.SetParametersReplacesAllThree := by
  refine ⟨⟨rfl, rfl⟩, fun s tAck n steps hheld => ?_⟩
  have hexec : exec (.setParameters [tAck, n, steps] false) s =
      .next (s.writeType true (State.setParameters tAck n steps)) := exec_setParameters hheld _ _
  refine ⟨_, hexec, State.writeType_frame_params (State.setParameters_frame tAck n steps),
    fun hst => ?_, fun hst hbad => ?_, fun hst hgood => ?_⟩
  · rw [State.writeType_of_act (State.setParameters_of_state hst)]
    exact ⟨rfl, rfl⟩
  · rw [State.writeType_of_act (State.setParameters_of_bad hst hbad)]
    exact ⟨rfl, rfl⟩
  · rw [State.writeType_of_act (State.setParameters_of_good hst hgood)]
    exact ⟨rfl, rfl, rfl⟩

end Sys2Proof.Machine
end

section
/-! PROOFS. Host port (09): READ_IDENTITY and the identity record that it shifts out (R192, 10.9). -/

namespace Sys2Proof.Machine

/-- The latched answer is shifted out whole, byte by byte (R180, R183). -/
theorem State.map_misoByte_range (s : State) :
    (List.range s.port.answer.length).map s.misoByte = s.port.answer := by
  refine List.ext_getElem (by simp) fun n _ hn => ?_
  rw [List.getElem_map, List.getElem_range, State.misoByte, List.getElem?_eq_getElem hn, Option.getD_some]

@[simp] theorem length_identityRecord (stationNo : Station) (rate : RateCode) :
    (identityRecord stationNo rate).length = 7 := rfl

/-- Settles O7: the record is latched as the answer, so the first seven bytes are its own and the rest lie past its
end. -/
theorem identityRecordIsShiftedOut : Obligations.IdentityRecordIsShiftedOut := by
  intro s hheld
  refine ⟨_, exec_readIdentity hheld, rfl, rfl, rfl, ?_, fun n hn => ?_⟩
  · exact State.map_misoByte_range (s.answer .identity .ok (identityRecord s.stationNo s.rate))
  · exact State.misoByte_of_length_le ((length_identityRecord s.stationNo s.rate).trans_le hn)

end Sys2Proof.Machine
end

section
/-! PROOFS. What every change of the station keeps: the invariants of Safety on buffer memory, the pool, the notices, the
replies, the regions and the window, bundled as one relation between the states before and after, which operations compose. -/

namespace Sys2Proof.Machine

/- One after another: many theorems elaborated at once take a thread each. -/
set_option Elab.async false

open Sys2Proof.Safety

/-! ## The relation -/

/-- The invariants on memory, table, pool, notices, replies and window that hold in s hold in t. -/
structure Keeps (s t : State) : Prop where
  memory : memorySafe s → memorySafe t
  pool : poolSafe s → poolSafe t
  notices : noticeSafe s ∧ setsSafe s → noticeSafe t ∧ setsSafe t
  replies : replySafe s → replySafe t
  table : tableSafe s ∧ slotsSafe s → tableSafe t ∧ slotsSafe t
  window : windowSafe s ∧ owedSafe s → windowSafe t ∧ owedSafe t

theorem Keeps.refl (s : State) : Keeps s s := ⟨id, id, id, id, id, id⟩

theorem Keeps.trans {s t u : State} (h : Keeps s t) (h' : Keeps t u) : Keeps s u :=
  ⟨h'.memory ∘ h.memory, h'.pool ∘ h.pool, h'.notices ∘ h.notices, h'.replies ∘ h.replies, h'.table ∘ h.table,
    h'.window ∘ h.window⟩

/-! ## Changes within an entry that no invariant sees -/

/-- R88, R7: the indices of a consumer entry agree with what it holds. -/
def Entry.placesAgree (e : Entry) : Prop :=
  (e.mode = .advance →
    e.cons.held ≤ e.slots ∧ e.cons.writeIdx = (e.cons.readIdx + e.cons.held) % e.slots)
  ∧ (e.mode = .fixed → e.cons.held = 0 ∧ e.cons.writeIdx = 0 ∧ e.cons.readIdx = 0)

theorem slotsSafe_iff (s : State) : slotsSafe s ↔ ∀ i, (s.entry i).placesAgree := Iff.rfl

/-- A record that stands where r stood: no more stations owe it. -/
def FrameRec.Follows (r r' : FrameRec) : Prop :=
  r'.seq = r.seq ∧ r'.endFlag = r.endFlag ∧ ∀ n, inSet n r'.owed = true → inSet n r.owed = true

theorem FrameRec.Follows.refl (r : FrameRec) : r.Follows r := ⟨rfl, rfl, fun _ h => h⟩

/-- The entry e' takes the place of e in the table: FREE as before, with the same stream and region, its indices agreeing. -/
structure Entry.SamePlace (e e' : Entry) : Prop where
  free : e'.state = .free ↔ e.state = .free
  region : e'.stream = e.stream ∧ e'.base = e.base ∧ e'.slots = e.slots ∧ e'.size = e.size ∧ e'.mode = e.mode
  places : e.placesAgree → e'.placesAgree

theorem Entry.SamePlace.refl (e : Entry) : e.SamePlace e := ⟨Iff.rfl, ⟨rfl, rfl, rfl, rfl, rfl⟩, id⟩

/-- The entry e' may stand where e stood: the same place in the table, the same records with no more stations owing them, no
frame of the host lost. -/
structure Entry.Follows (e e' : Entry) : Prop extends Entry.SamePlace e e' where
  liveProducer : e'.liveProducer = e.liveProducer
  stations : e'.prod.subs.map (fun r => r.station) = e.prod.subs.map (fun r => r.station)
  nextSeq : e'.prod.nextSeq = e.prod.nextSeq
  endPending : e.prod.endPending ≠ .clear → e'.prod.endPending ≠ .clear
  filled : e.prod.filled ≤ e'.prod.filled
  room : e.prod.filled + slotsOut e.prod.ring ≤ e.slots → e'.prod.filled + slotsOut e'.prod.ring ≤ e'.slots
  ring : List.Forall₂ FrameRec.Follows e.prod.ring e'.prod.ring

theorem ring_follows_self (ring : List FrameRec) : List.Forall₂ FrameRec.Follows ring ring :=
  List.forall₂_same.mpr fun r _ => FrameRec.Follows.refl r

theorem Entry.Follows.refl (e : Entry) : e.Follows e :=
  ⟨Entry.SamePlace.refl e, rfl, rfl, rfl, id, Nat.le_refl _, id, ring_follows_self _⟩

/-- A change of the timer, the counts, the cause and the consumer's part alone, its indices still agreeing. -/
theorem Entry.Follows.of_prod {e e' : Entry} (hfree : e'.state = .free ↔ e.state = .free)
    (hlive : e'.liveProducer = e.liveProducer)
    (hregion : e'.stream = e.stream ∧ e'.base = e.base ∧ e'.slots = e.slots ∧ e'.size = e.size ∧ e'.mode = e.mode)
    (hprod : e'.prod = e.prod) (hplaces : e.placesAgree → e'.placesAgree) : e.Follows e' := by
  have hslots := hregion.2.2.1
  refine ⟨⟨hfree, hregion, hplaces⟩, hlive, ?_, ?_, ?_, ?_, ?_, ?_⟩
  all_goals rw [hprod]
  · exact id
  · rw [hslots]; exact id
  · exact ring_follows_self _

/-- A change of the timer and the producer's part, the ring's records kept in place and the list's stations. -/
theorem Entry.Follows.of_ring {e : Entry} (p : Producer) (timer : Timer)
    (hstations : p.subs.map (fun r => r.station) = e.prod.subs.map (fun r => r.station))
    (hnext : p.nextSeq = e.prod.nextSeq) (hend : p.endPending = e.prod.endPending) (hfilled : p.filled = e.prod.filled)
    (hring : List.Forall₂ FrameRec.Follows e.prod.ring p.ring) (hslots : slotsOut p.ring = slotsOut e.prod.ring) :
    e.Follows { e with timer := timer, prod := p } :=
  ⟨⟨Iff.rfl, ⟨rfl, rfl, rfl, rfl, rfl⟩, id⟩, rfl, hstations, hnext, by simp only [hend]; exact id, by simp [hfilled],
    by simp [hfilled, hslots], hring⟩

/-- The records of a ring changed one by one, each to one that may stand in its place. -/
theorem ring_follows_map {f : FrameRec → FrameRec} (h : ∀ r : FrameRec, r.Follows (f r)) (ring : List FrameRec) :
    List.Forall₂ FrameRec.Follows ring (ring.map f) :=
  List.forall₂_map_right_iff.mpr (List.forall₂_same.mpr fun r _ => h r)

theorem slotsOut_map {f : FrameRec → FrameRec} (h : ∀ r, (f r).slot = r.slot) (ring : List FrameRec) :
    slotsOut (ring.map f) = slotsOut ring := by
  simp only [slotsOut, List.countP_map, Function.comp_def, h]

/-- The stations of a list whose records are changed one by one. -/
theorem stations_map {f : SubRec → SubRec} (h : ∀ r, (f r).station = r.station) (subs : List SubRec) :
    (subs.map f).map (fun r => r.station) = subs.map (fun r => r.station) := by
  simp only [List.map_map, Function.comp_def, h]

theorem isSubscriber_iff (subs : List SubRec) (n : Station) :
    isSubscriber subs n = true ↔ n ∈ subs.map (fun r => r.station) := by
  simp [isSubscriber]

/-! ## Frames at the transmitter and handed over -/

/-- The transmitter y holds no new frame that x does not hold. -/
def Tx.NoNewFrame (x y : Tx) : Prop := ∀ i v, heldNewFrame y i = some v → heldNewFrame x i = some v

theorem Tx.NoNewFrame.refl (x : Tx) : x.NoNewFrame x := fun _ _ h => h

theorem Tx.NoNewFrame.trans {x y z : Tx} (h : x.NoNewFrame y) (h' : y.NoNewFrame z) : x.NoNewFrame z :=
  fun i v hv => h i v (h' i v hv)

theorem Tx.noNewFrame_free (x : Tx) : x.NoNewFrame .free := fun _ _ h => nomatch h

theorem heldNewFrame_chosen (f : TxFrame) (g : Bool) (i : EntryIdx) :
    heldNewFrame (.chosen f g) i = handedNewFrame (some f) i := by
  rcases f with ⟨j, _ | _, st, q, e, slot, len⟩ | _ | _ | _ | _ | _ <;> rfl

theorem heldNewFrame_sending (f : TxFrame) (cs : List Byte) (b : Nat) (rd o : Bool) (i : EntryIdx) :
    heldNewFrame (.sending f cs b rd o) i = if o then none else handedNewFrame (some f) i := by
  rcases f with ⟨j, _ | _, st, q, e, slot, len⟩ | _ | _ | _ | _ | _ <;> cases o <;> rfl

theorem Tx.noNewFrame_ungrant (x : Tx) : x.NoNewFrame x.ungrant := by
  intro i v h
  rcases x with _ | ⟨f, g⟩ | _
  · exact h
  · rwa [Tx.ungrant, heldNewFrame_chosen, ← heldNewFrame_chosen f g] at h
  · exact h

theorem Tx.noNewFrame_tick (x : Tx) : x.NoNewFrame x.tick := by
  intro i v h
  rcases x with _ | _ | ⟨f, cs, b, rd, o⟩
  · exact h
  · exact h
  · rwa [Tx.tick, heldNewFrame_sending, ← heldNewFrame_sending f cs b rd o] at h

theorem Tx.noNewFrame_withdrawJoin (x : Tx) (i : EntryIdx) : x.NoNewFrame (x.withdrawJoin i) := by
  unfold Tx.withdrawJoin
  split
  · split
    · exact Tx.noNewFrame_free _
    · exact Tx.NoNewFrame.refl _
  · exact Tx.NoNewFrame.refl _

theorem Tx.noNewFrame_withdrawResend (x : Tx) (i : EntryIdx) (gone : List FrameRec) :
    x.NoNewFrame (x.withdrawResend i gone) := by
  unfold Tx.withdrawResend
  split
  · split
    · exact Tx.noNewFrame_free _
    · exact Tx.NoNewFrame.refl _
  · exact Tx.NoNewFrame.refl _

/-- A new frame that is held has an owner, which is the entry it is held for. -/
theorem entry?_of_handedNewFrame {f : TxFrame} {i : EntryIdx} {v : Seq × Option Nat × Bool}
    (h : handedNewFrame (some f) i = some v) : f.entry? = some i := by
  rcases f with ⟨j, _ | _, st, q, e, slot, len⟩ | _ | _ | _ | _ | _ <;> simp [handedNewFrame] at h
  exact congrArg some h.1

theorem Tx.heldNewFrame_disown_self (x : Tx) (i : EntryIdx) : heldNewFrame (x.disown i) i = none := by
  rcases x with _ | ⟨f, g⟩ | ⟨f, cs, b, rd, o⟩
  · rfl
  · unfold Tx.disown
    dsimp only
    split
    · rfl
    · next hf =>
      rw [heldNewFrame_chosen, Option.eq_none_iff_forall_not_mem]
      exact fun v hv => hf (entry?_of_handedNewFrame hv)
  · unfold Tx.disown
    dsimp only
    split
    · rw [heldNewFrame_sending, if_pos rfl]
    · next hf =>
      rw [heldNewFrame_sending, Option.eq_none_iff_forall_not_mem]
      intro v hv
      split at hv
      · cases hv
      · exact hf (entry?_of_handedNewFrame hv)

theorem Tx.noNewFrame_disown (x : Tx) (i : EntryIdx) : x.NoNewFrame (x.disown i) := by
  intro j v h
  rcases x with _ | ⟨f, g⟩ | ⟨f, cs, b, rd, o⟩
  · exact h
  · unfold Tx.disown at h
    dsimp only at h
    split at h
    · cases h
    · exact h
  · unfold Tx.disown at h
    dsimp only at h
    split at h
    · rw [heldNewFrame_sending, if_pos rfl] at h; cases h
    · exact h

theorem disownDone_some {h : Option TxFrame} {i : EntryIdx} {f : TxFrame} (hf : disownDone h i = some f) :
    h = some f ∧ f.entry? ≠ some i := by
  simpa [disownDone, Option.filter_eq_some_iff] using hf

/-! ## Invariants carried from state to state -/

theorem sequencesBefore_length (next : Seq) (n : Nat) : (sequencesBefore next n).length = n := by
  simp [sequencesBefore]

theorem recordsHeld_eq_sum (s : State) : recordsHeld s = ∑ i, (s.entry i).prod.subs.length :=
  (Fin.sum_univ_def _).symm

theorem poolSafe_of_stations {s t : State} (hpool : t.poolFree = s.poolFree) (hno : t.stationNo = s.stationNo)
    (hlive : ∀ i, (t.entry i).liveProducer = (s.entry i).liveProducer)
    (hsubs : ∀ i, (t.entry i).prod.subs.map (fun r => r.station) = (s.entry i).prod.subs.map (fun r => r.station))
    (h : poolSafe s) : poolSafe t := by
  obtain ⟨hsum, hlist⟩ := h
  have hlen : ∀ i, (t.entry i).prod.subs.length = (s.entry i).prod.subs.length := fun i => by
    simpa using congrArg List.length (hsubs i)
  refine ⟨?_, fun i => ?_⟩
  · rw [hpool, recordsHeld_eq_sum, Finset.sum_congr rfl fun i _ => hlen i, ← recordsHeld_eq_sum, hsum]
  · obtain ⟨hnone, hnodup, hown⟩ := hlist i
    refine ⟨fun hl => ?_, hsubs i ▸ hnodup, fun r hr => ?_⟩
    · have := hlen i
      rw [hnone (hlive i ▸ hl)] at this
      exact List.length_eq_zero_iff.mp this
    · have hmem : r.station ∈ (s.entry i).prod.subs.map (fun r => r.station) := hsubs i ▸ List.mem_map_of_mem hr
      obtain ⟨r', hr', heq⟩ := List.mem_map.mp hmem
      exact hno ▸ heq ▸ hown r' hr'

theorem noticesSafe_congr {s t : State} (hitems : t.items = s.items) (hqueue : t.noticeQueue = s.noticeQueue)
    (h : noticeSafe s ∧ setsSafe s) : noticeSafe t ∧ setsSafe t := by
  have hitem : ∀ i, t.item i = s.item i := State.item_congr hitems
  simpa only [noticeSafe, setsSafe, hqueue, hitem] using h

theorem tableSafe_of_samePlace {s t : State} (h : ∀ i, (s.entry i).SamePlace (t.entry i)) (hs : tableSafe s ∧ slotsSafe s) :
    tableSafe t ∧ slotsSafe t := by
  obtain ⟨⟨hin, hapart⟩, hslots⟩ := hs
  refine ⟨⟨fun i hi => ?_, fun i j hij hi hj => ?_⟩, fun i => (h i).places (hslots i)⟩
  · obtain ⟨_, hbase, hsl, hsize, hmode⟩ := (h i).region
    simpa only [regionInside, hbase, hsl, hsize, hmode] using hin i (mt (h i).free.mpr hi)
  · obtain ⟨hst, hbase, hsl, hsize, _⟩ := (h i).region
    obtain ⟨hst', hbase', hsl', hsize', _⟩ := (h j).region
    simpa only [Entry.regionEnd, hst, hbase, hsl, hsize, hst', hbase', hsl', hsize'] using
      hapart i j hij (mt (h i).free.mpr hi) (mt (h j).free.mpr hj)

theorem ring_seqs_of_follows {ring ring' : List FrameRec} (h : List.Forall₂ FrameRec.Follows ring ring') :
    ring'.map (fun r => r.seq) = ring.map (fun r => r.seq) := by
  induction h with
  | nil => rfl
  | cons hr _ ih => simp only [List.map_cons, hr.1, ih]

theorem exists_followed {ring ring' : List FrameRec} (h : List.Forall₂ FrameRec.Follows ring ring') {r' : FrameRec}
    (hr' : r' ∈ ring') : ∃ r ∈ ring, r.Follows r' := by
  induction h with
  | nil => cases hr'
  | cons hr _ ih =>
    rcases List.mem_cons.mp hr' with rfl | hmem
    · exact ⟨_, List.mem_cons_self, hr⟩
    · obtain ⟨r, hmem', hf⟩ := ih hmem
      exact ⟨r, List.mem_cons_of_mem _ hmem', hf⟩

theorem handedNewFrame_mono {h h' : Option TxFrame} (hh : ∀ f, h' = some f → h = some f) {i : EntryIdx}
    {v : Seq × Option Nat × Bool} (hv : handedNewFrame h' i = some v) : handedNewFrame h i = some v := by
  cases h' with
  | none => cases hv
  | some f => rwa [hh f rfl]

/-- R36, R27, R53, R161 at one entry, with the transmitter's frame and the one handed over. -/
def Entry.windowAt (e : Entry) (x : Tx) (h : Option TxFrame) (i : EntryIdx) : Prop :=
  e.prod.ring.length ≤ 4
  ∧ e.prod.ring.map (fun r => r.seq) = sequencesBefore e.prod.nextSeq e.prod.ring.length
  ∧ e.prod.filled + slotsOut e.prod.ring ≤ e.slots
  ∧ (∀ r ∈ e.prod.ring, r.endFlag = true → e.prod.endPending ≠ .clear)
  ∧ (∀ q slot fin, heldNewFrame x i = some (q, slot, fin) ∨ handedNewFrame h i = some (q, slot, fin) →
      e.liveProducer = true ∧ q = e.prod.nextSeq ∧ e.prod.ring.length < 4 ∧ (slot.isSome = true → 0 < e.prod.filled)
      ∧ (fin = true → e.prod.endPending ≠ .clear))
  ∧ ((∃ f, h = some f ∧ ownerOf f = some i) → heldNewFrame x i = none)

/-- R37 at one entry. -/
def Entry.owedAt (e : Entry) : Prop :=
  ∀ r ∈ e.prod.ring, ∀ n, inSet n r.owed = true → isSubscriber e.prod.subs n = true

theorem windowSafe_iff (s : State) : windowSafe s ↔ ∀ i, (s.entry i).windowAt s.tx s.handover i := Iff.rfl

theorem owedSafe_iff (s : State) : owedSafe s ↔ ∀ i, (s.entry i).owedAt := Iff.rfl

theorem Entry.windowAt.follows {e e' : Entry} {x y : Tx} {h h' : Option TxFrame} {i : EntryIdx} (he : e.Follows e')
    (htx : x.NoNewFrame y) (hhand : ∀ f, h' = some f → h = some f) (hw : e.windowAt x h i) : e'.windowAt y h' i := by
  obtain ⟨hlen, hseq, hroom, hend, hframe, halone⟩ := hw
  have hlen' : e'.prod.ring.length = e.prod.ring.length := he.ring.length_eq.symm
  refine ⟨hlen' ▸ hlen, ?_, he.room hroom, fun r' hr' hfin => ?_, fun q slot fin hv => ?_, fun ⟨f, hf, howner⟩ => ?_⟩
  · rw [ring_seqs_of_follows he.ring, hseq, he.nextSeq, hlen']
  · obtain ⟨r, hr, _, hre, _⟩ := exists_followed he.ring hr'
    exact he.endPending (hend r hr (hre ▸ hfin))
  · obtain ⟨hl, hq, hr, hslot, hfin⟩ := hframe q slot fin (hv.imp (htx i _) (handedNewFrame_mono hhand))
    exact ⟨he.liveProducer.trans hl, hq.trans he.nextSeq.symm, hlen' ▸ hr,
      fun hs => (hslot hs).trans_le he.filled, fun h' => he.endPending (hfin h')⟩
  · rw [Option.eq_none_iff_forall_not_mem]
    intro v hv
    exact nomatch (halone ⟨f, hhand f hf, howner⟩).symm.trans (htx i v hv)

theorem Entry.owedAt.follows {e e' : Entry} (he : e.Follows e') (ho : e.owedAt) : e'.owedAt := by
  intro r' hr' n hn
  obtain ⟨r, hr, _, _, hrn⟩ := exists_followed he.ring hr'
  rw [isSubscriber_iff, he.stations, ← isSubscriber_iff]
  exact ho r hr n (hrn n hn)

theorem windowSafe_of_follows {s t : State} (h : ∀ i, (s.entry i).Follows (t.entry i)) (htx : s.tx.NoNewFrame t.tx)
    (hhand : ∀ f, t.handover = some f → s.handover = some f) (hs : windowSafe s ∧ owedSafe s) :
    windowSafe t ∧ owedSafe t :=
  ⟨fun i => Entry.windowAt.follows (h i) htx hhand (hs.1 i), fun i => Entry.owedAt.follows (h i) (hs.2 i)⟩

/-- A change after which every entry stands where one stood, the pool and the notices are as before, and the transmitter
and the owners have no new frame, keeps the invariants. -/
theorem Keeps.of_follows {s t : State} (hmem : memorySafe s → memorySafe t) (hreplies : replySafe s → replySafe t)
    (hentries : ∀ i, (s.entry i).Follows (t.entry i)) (hpool : t.poolFree = s.poolFree)
    (hno : t.stationNo = s.stationNo) (hitems : t.items = s.items) (hqueue : t.noticeQueue = s.noticeQueue)
    (htx : s.tx.NoNewFrame t.tx) (hhand : ∀ f, t.handover = some f → s.handover = some f) : Keeps s t :=
  ⟨hmem, poolSafe_of_stations hpool hno (fun i => (hentries i).liveProducer) fun i => (hentries i).stations,
    noticesSafe_congr hitems hqueue, hreplies,
    tableSafe_of_samePlace fun i => (hentries i).toSamePlace, windowSafe_of_follows hentries htx hhand⟩

/-- The fields of s and t that the invariants read are the same, but that the transmitter of t may hold no new frame. -/
structure SameTable (s t : State) : Prop where
  mem : t.mem = s.mem
  entries : t.entries = s.entries
  poolFree : t.poolFree = s.poolFree
  items : t.items = s.items
  noticeQueue : t.noticeQueue = s.noticeQueue
  replies : t.replies = s.replies
  stationNo : t.stationNo = s.stationNo
  handover : t.handover = s.handover
  tx : s.tx.NoNewFrame t.tx

theorem SameTable.keeps {s t : State} (h : SameTable s t) : Keeps s t :=
  Keeps.of_follows (by simp only [memorySafe, h.mem]; exact id) (by simp only [replySafe, h.replies]; exact id)
    (fun i => by rw [State.entry_congr h.entries]; exact Entry.Follows.refl _) h.poolFree h.stationNo h.items
    h.noticeQueue h.tx (fun f hf => h.handover ▸ hf)

/-- One entry replaced by one that may stand in its place. -/
theorem Keeps.setEntry {s : State} {i : EntryIdx} {e : Entry} (h : (s.entry i).Follows e) : Keeps s (s.setEntry i e) := by
  refine Keeps.of_follows id id (fun j => ?_) rfl rfl rfl rfl (Tx.NoNewFrame.refl _) fun _ hf => hf
  rw [State.entry_setEntry]
  split
  · next hj => exact hj ▸ h
  · exact Entry.Follows.refl _

/-! ## A change of one entry with the pool -/

/-- R58, R61 at one entry of a station. -/
def Entry.listAt (e : Entry) (own : Station) : Prop :=
  (e.liveProducer = false → e.prod.subs = []) ∧ (e.prod.subs.map (fun r => r.station)).Nodup
  ∧ ∀ r ∈ e.prod.subs, r.station ≠ own

theorem poolSafe_iff (s : State) :
    poolSafe s ↔ s.poolFree + recordsHeld s = 48 ∧ ∀ i, (s.entry i).listAt s.stationNo := Iff.rfl

/-- The records on the lists, with one entry's list changed. -/
theorem recordsHeld_of_others {s t : State} {i : EntryIdx} (h : otherEntries s t i) :
    recordsHeld t + (s.entry i).prod.subs.length = recordsHeld s + (t.entry i).prod.subs.length := by
  simp only [recordsHeld_eq_sum]
  rw [← Finset.add_sum_erase _ _ (Finset.mem_univ i), ← Finset.add_sum_erase Finset.univ
    (fun j => (s.entry j).prod.subs.length) (Finset.mem_univ i),
    Finset.sum_congr rfl fun j hj => by rw [h j (Finset.ne_of_mem_erase hj)]]
  omega

/-- A change of one entry, with the records that the pool gives and takes, keeps the invariants if it keeps them at that
entry; the transmitter and the owners have no new frame. -/
theorem Keeps.of_entry {s t : State} (i : EntryIdx) (hmem : t.mem = s.mem) (hreplies : t.replies = s.replies)
    (hno : t.stationNo = s.stationNo) (hitems : t.items = s.items) (hqueue : t.noticeQueue = s.noticeQueue)
    (hothers : otherEntries s t i) (hplace : (s.entry i).SamePlace (t.entry i))
    (hlist : (s.entry i).listAt s.stationNo → (t.entry i).listAt s.stationNo
      ∧ (s.poolFree + recordsHeld s = 48 →
          t.poolFree + (t.entry i).prod.subs.length = s.poolFree + (s.entry i).prod.subs.length))
    (hwindow : (s.entry i).windowAt s.tx s.handover i → (s.entry i).owedAt →
      (t.entry i).windowAt t.tx t.handover i ∧ (t.entry i).owedAt)
    (htx : s.tx.NoNewFrame t.tx) (hhand : ∀ f, t.handover = some f → s.handover = some f) : Keeps s t := by
  refine ⟨by simp only [memorySafe, hmem]; exact id, fun ⟨hsum, hlists⟩ => ⟨?_, fun j => ?_⟩,
    noticesSafe_congr hitems hqueue, by simp only [replySafe, hreplies]; exact id,
    tableSafe_of_samePlace fun j => ?_, fun ⟨hwin, howed⟩ => ⟨fun j => ?_, fun j => ?_⟩⟩
  · have := recordsHeld_of_others hothers
    have := (hlist (hlists i)).2 hsum
    omega
  · by_cases hj : j = i
    · subst hj; rw [hno]; exact (hlist (hlists j)).1
    · rw [hothers j hj, hno]; exact hlists j
  · by_cases hj : j = i
    · subst hj; exact hplace
    · rw [hothers j hj]; exact Entry.SamePlace.refl _
  · by_cases hj : j = i
    · subst hj; exact (hwindow (hwin j) (howed j)).1
    · rw [hothers j hj]
      exact Entry.windowAt.follows (Entry.Follows.refl _) htx hhand (hwin j)
  · by_cases hj : j = i
    · subst hj; exact (hwindow (hwin j) (howed j)).2
    · rw [hothers j hj]; exact howed j

/-! ## Notices (R113 to R121) -/

/-- R114, R110 at one item: what a kind carries is there exactly while the kind is pending. -/
def Item.exact (t : Item) : Prop :=
  (t.joined ≠ 0#32 ↔ t.kinds &&& Kind.joined.bit ≠ 0#8) ∧ (t.departed ≠ 0#32 ↔ t.kinds &&& Kind.departed.bit ≠ 0#8)
  ∧ (t.evicted ≠ 0#32 ↔ t.kinds &&& Kind.evicted.bit ≠ 0#8)
  ∧ (t.cause.isSome = true ↔ t.kinds &&& Kind.ended.bit ≠ 0#8)

theorem setsSafe_iff (s : State) : setsSafe s ↔ ∀ i, (s.item i).exact := by
  simp only [setsSafe, Item.exact, Item.has, bne_iff_ne]
  rfl

/-- The kinds pending after a raise are the one raised and those before. -/
theorem pending_raised_iff (kinds : BitVec 8) (k k' : Kind) :
    (kinds ||| k.bit) &&& k'.bit ≠ 0#8 ↔ k' = k ∨ kinds &&& k'.bit ≠ 0#8 := by
  by_cases hk : k' = k
  · subst hk
    simp only [true_or, iff_true]
    exact has_raised kinds k'
  · rw [and_bit_of_ne kinds (Ne.symm hk)]
    simp [hk]

/-- A raise keeps the notices exact if what the kind carries comes with it. -/
theorem Keeps.raise (s : State) (i : ItemIdx) (k : Kind) (change : Item → Item)
    (h : (s.item i).exact → ({ change (s.item i) with kinds := (s.item i).kinds ||| k.bit } : Item).exact) :
    Keeps s (s.raise i k change) := by
  refine ⟨id, id, fun ⟨⟨hnodup, hmem⟩, hsets⟩ => ⟨⟨?_, fun j => ?_⟩, (setsSafe_iff _).mpr fun j => ?_⟩, id, id, id⟩
  · rw [State.noticeQueue_raise]
    split
    · next hidle =>
      refine hnodup.append (List.nodup_singleton _) (List.disjoint_singleton.mpr fun hq => ?_)
      exact (hmem i).mp hq hidle
    · exact hnodup
  · by_cases hj : j = i
    · subst hj
      rw [State.noticeQueue_raise, State.item_raise_self]
      refine iff_of_true ?_ (kinds_or_bit_ne_zero _ k)
      split
      · simp
      · next hbusy => exact (hmem j).mpr hbusy
    · rw [State.noticeQueue_raise, State.item_raise_of_ne s k change hj, ← hmem j]
      split <;> simp [hj]
  · by_cases hj : j = i
    · subst hj
      have := h ((setsSafe_iff s).mp hsets j)
      rwa [← State.item_raise_self] at this
    · have := (setsSafe_iff s).mp hsets j
      rwa [← State.item_raise_of_ne s k change hj] at this

theorem Keeps.raiseKind (s : State) (i : ItemIdx) {k : Kind}
    (h : k ≠ .joined ∧ k ≠ .departed ∧ k ≠ .evicted ∧ k ≠ .ended) : Keeps s (s.raiseKind i k) := by
  refine Keeps.raise s i k id fun hs => ?_
  obtain ⟨h1, h2, h3, h4⟩ := h
  simpa only [Item.exact, id, pending_raised_iff, h1.symm, h2.symm, h3.symm, h4.symm, false_or] using hs

theorem Keeps.raiseEnded (s : State) (i : EntryIdx) (c : Cause) : Keeps s (s.raiseEnded i c) := by
  refine Keeps.raise s _ .ended _ fun ⟨h1, h2, h3, _⟩ => ?_
  simp [Item.exact, pending_raised_iff, h1, h2, h3]

theorem Keeps.raiseJoined (s : State) (i : EntryIdx) (n : Station) : Keeps s (s.raiseJoined i n) := by
  refine Keeps.raise s _ .joined _ fun ⟨_, h2, h3, h4⟩ => ?_
  simp [Item.exact, pending_raised_iff, h2, h3, h4, stationBit_ne_zero]

theorem Keeps.raiseDeparted (s : State) (i : EntryIdx) (n : Station) : Keeps s (s.raiseDeparted i n) := by
  refine Keeps.raise s _ .departed _ fun ⟨h1, _, h3, h4⟩ => ?_
  simp [Item.exact, pending_raised_iff, h1, h3, h4, stationBit_ne_zero]

theorem Keeps.raiseEvicted (s : State) (i : EntryIdx) {set : StationSet} (h : set ≠ 0#32) :
    Keeps s (s.raiseEvicted i set) := by
  refine Keeps.raise s _ .evicted _ fun ⟨h1, h2, _, h4⟩ => ?_
  simp [Item.exact, pending_raised_iff, h1, h2, h4, h]

theorem Item.exact_idle : ({} : Item).exact := by simp [Item.exact]

/-- An item cleared and out of the queue. -/
theorem noticesSafe_of_cleared {s t : State} (i : ItemIdx) (hself : t.item i = {})
    (hothers : ∀ j, j ≠ i → t.item j = s.item j) (hqueue : t.noticeQueue = s.noticeQueue.filter (fun j => j != i))
    (h : noticeSafe s ∧ setsSafe s) : noticeSafe t ∧ setsSafe t := by
  obtain ⟨⟨hnodup, hmem⟩, hsets⟩ := h
  refine ⟨⟨hqueue ▸ hnodup.filter _, fun j => ?_⟩, (setsSafe_iff t).mpr fun j => ?_⟩
  · by_cases hj : j = i
    · subst hj; simp [hqueue, hself]
    · rw [hothers j hj, ← hmem j, hqueue]; simp [hj]
  · by_cases hj : j = i
    · subst hj; rw [hself]; exact Item.exact_idle
    · rw [hothers j hj]; exact (setsSafe_iff s).mp hsets j

end Sys2Proof.Machine
end

section
/-! PROOFS. What the operations on entries keep: ending, retirement, missed counting, and each row of dispatch (R136). -/

namespace Sys2Proof.Machine

/- One after another: many theorems elaborated at once take a thread each. -/
set_option Elab.async false

open Sys2Proof.Safety

/-! ## Ending an entry (R5) -/

theorem disownDone_mono {h : Option TxFrame} {i : EntryIdx} (f : TxFrame) (hf : disownDone h i = some f) : h = some f :=
  (disownDone_some hf).1

theorem handedNewFrame_disownDone (h : Option TxFrame) (i : EntryIdx) : handedNewFrame (disownDone h i) i = none := by
  cases hd : disownDone h i with
  | none => rfl
  | some f =>
    rw [Option.eq_none_iff_forall_not_mem]
    exact fun v hv => (disownDone_some hd).2 (entry?_of_handedNewFrame hv)

/-- An entry with no frame at the transmitter and none handed over is within its window if its ring is. -/
theorem Entry.windowAt_of_no_frame {e : Entry} {x : Tx} {h : Option TxFrame} {i : EntryIdx}
    (hx : heldNewFrame x i = none) (hh : handedNewFrame h i = none) (hlen : e.prod.ring.length ≤ 4)
    (hseq : e.prod.ring.map (fun r => r.seq) = sequencesBefore e.prod.nextSeq e.prod.ring.length)
    (hroom : e.prod.filled + slotsOut e.prod.ring ≤ e.slots)
    (hend : ∀ r ∈ e.prod.ring, r.endFlag = true → e.prod.endPending ≠ .clear) : e.windowAt x h i := by
  refine ⟨hlen, hseq, hroom, hend, fun q slot fin hv => ?_, fun _ => hx⟩
  rcases hv with hv | hv
  · exact nomatch hx.symm.trans hv
  · exact nomatch hh.symm.trans hv

theorem Entry.ended_samePlace {e : Entry} (c : Cause) (h : e.state ≠ .free) : e.SamePlace (e.ended c) :=
  ⟨iff_of_false (by simp [Entry.ended]) h, ⟨rfl, rfl, rfl, rfl, rfl⟩, id⟩

/-- The ending of an entry that is not FREE keeps the invariants. -/
theorem Keeps.endEntry {s : State} {i : EntryIdx} (c : Cause) (h : (s.entry i).state ≠ .free) :
    Keeps s (s.endEntry i c) := by
  refine Keeps.trans ?_ (Keeps.raiseEnded _ i c)
  refine Keeps.of_entry i rfl rfl rfl rfl rfl (fun j hj => ?_) ?_ (fun _ => ?_) (fun hw _ => ?_)
    (Tx.noNewFrame_disown _ i) disownDone_mono
  · simp [State.entry_setEntry_of_ne _ _ hj]
  · simpa using Entry.ended_samePlace c h
  · simp [Entry.listAt, Entry.ended]
  · obtain ⟨_, _, hroom, _⟩ := hw
    simp only [State.entry_mk, State.entry_setEntry_self]
    refine ⟨Entry.windowAt_of_no_frame (Tx.heldNewFrame_disown_self _ i) (handedNewFrame_disownDone _ i) ?_ ?_ ?_ ?_,
      fun r hr => nomatch hr⟩
    · simp [Entry.ended]
    · simp [Entry.ended, sequencesBefore]
    · exact (Nat.le_add_right _ _).trans hroom
    · exact fun r hr => nomatch hr

/-! ## Retirement (R41 to R43) -/

theorem sequencesBefore_add (next : Seq) (a b : Nat) :
    sequencesBefore next (a + b) =
      (List.range a).map (fun k => next - BitVec.ofNat 8 (a + b) + BitVec.ofNat 8 k) ++ sequencesBefore next b := by
  simp only [sequencesBefore, List.range_add, List.map_append, List.map_map]
  congr 1
  refine List.map_congr_left fun k _ => ?_
  simp only [Function.comp, BitVec.ofNat_add]
  generalize BitVec.ofNat 8 a = x
  generalize BitVec.ofNat 8 b = y
  generalize BitVec.ofNat 8 k = z
  bv_omega

/-- The newest records of a ring with consecutive sequences have consecutive sequences. -/
theorem seqs_of_append {next : Seq} {gone left : List FrameRec}
    (h : (gone ++ left).map (fun r => r.seq) = sequencesBefore next (gone ++ left).length) :
    left.map (fun r => r.seq) = sequencesBefore next left.length := by
  rw [List.length_append, sequencesBefore_add, List.map_append] at h
  exact (List.append_inj h (by simp)).2

theorem slotsOut_append (a b : List FrameRec) : slotsOut (a ++ b) = slotsOut a + slotsOut b := by
  simp [slotsOut]

/-- An entry whose oldest records are removed stays within its window. -/
theorem Entry.windowAt.remove_oldest {e : Entry} {x y : Tx} {h : Option TxFrame} {i : EntryIdx} {gone left : List FrameRec}
    (timer : Timer) (happ : gone ++ left = e.prod.ring) (hx : x.NoNewFrame y) (hw : e.windowAt x h i) :
    ({ e with timer := timer, prod := { e.prod with ring := left } } : Entry).windowAt y h i := by
  obtain ⟨hlen, hseq, hroom, hend, hframe, halone⟩ := hw
  have hle : left.length ≤ e.prod.ring.length := by rw [← happ]; simp
  have hslots : slotsOut left ≤ slotsOut e.prod.ring := by rw [← happ, slotsOut_append]; omega
  refine ⟨hle.trans hlen, seqs_of_append (by rw [happ]; exact hseq), by dsimp only; omega, fun r hr => ?_,
    fun q slot fin hv => ?_, fun hh => ?_⟩
  · exact hend r (happ ▸ List.mem_append_right _ hr)
  · obtain ⟨hl, hq, hr, hrest⟩ := hframe q slot fin (hv.imp_left (hx i _))
    exact ⟨hl, hq, hle.trans_lt hr, hrest⟩
  · rw [Option.eq_none_iff_forall_not_mem]
    exact fun v hv => nomatch (halone hh).symm.trans (hx i v hv)

theorem Entry.owedAt.remove_oldest {e : Entry} {gone left : List FrameRec} (timer : Timer)
    (happ : gone ++ left = e.prod.ring) (ho : e.owedAt) :
    ({ e with timer := timer, prod := { e.prod with ring := left } } : Entry).owedAt :=
  fun r hr => ho r (happ ▸ List.mem_append_right _ hr)

/-- The removal of an entry's oldest records, and of a chosen resend of one of them, keeps the invariants. -/
theorem Keeps.removeOldest {s : State} {i : EntryIdx} {gone left : List FrameRec} (timer : Timer) {x : Tx}
    (hx : s.tx.NoNewFrame x) (happ : gone ++ left = (s.entry i).prod.ring) :
    Keeps s { s.setEntry i { s.entry i with timer := timer, prod := { (s.entry i).prod with ring := left } } with
      tx := x } := by
  refine Keeps.of_entry i rfl rfl rfl rfl rfl (fun j hj => ?_) ?_ (fun hl => ?_) (fun hw ho => ?_) hx fun _ hf => hf
  · simp [State.entry_setEntry_of_ne _ _ hj]
  · simp only [State.entry_mk, State.entry_setEntry_self]
    exact ⟨Iff.rfl, ⟨rfl, rfl, rfl, rfl, rfl⟩, id⟩
  · simp only [State.entry_mk, State.entry_setEntry_self]
    exact ⟨hl, fun _ => rfl⟩
  · simp only [State.entry_mk, State.entry_setEntry_self]
    exact ⟨hw.remove_oldest timer happ hx, ho.remove_oldest timer happ⟩

/-- A retirement run at an entry that is not FREE keeps the invariants. -/
theorem Keeps.retire {s : State} {i : EntryIdx} (h : (s.entry i).state ≠ .free) : Keeps s (s.retire i) := by
  have happ := retireRun_append (s.entry i).prod.ring
  simp only [State.retire]
  split
  · exact Keeps.refl s
  · split
    · refine Keeps.trans (Keeps.removeOldest (s.entry i).timer (Tx.NoNewFrame.refl s.tx) happ) (Keeps.endEntry _ ?_)
      simpa using h
    · have hrun := Keeps.removeOldest (timerAfterRun s.params (retireRun (s.entry i).prod.ring).2)
        (Tx.noNewFrame_withdrawResend s.tx i (retireRun (s.entry i).prod.ring).1) happ
      split
      · exact hrun.trans (Keeps.raiseKind _ _ (by decide))
      · exact hrun

/-! ## Missed counting (R71, R73) -/

theorem Entry.owedAt.evict {e : Entry} {stay : List SubRec} {set : StationSet}
    (hstay : ∀ n, n ∈ e.prod.subs.map (fun r => r.station) → inSet n set = false → n ∈ stay.map (fun r => r.station))
    (ho : e.owedAt) :
    ({ e with prod := { e.prod with subs := stay, ring := dropOwed e.prod.ring set } } : Entry).owedAt := by
  intro r' hr' n hn
  obtain ⟨r, hr, rfl⟩ := List.mem_map.mp hr'
  simp only [inSet_and_not, Bool.and_eq_true, Bool.not_eq_true'] at hn
  obtain ⟨howed, hset⟩ := hn
  have hsub := (isSubscriber_iff _ _).mp (ho r hr n howed)
  exact (isSubscriber_iff _ _).mpr (hstay n hsub hset)

theorem dropOwed_follows (ring : List FrameRec) (set : StationSet) :
    List.Forall₂ FrameRec.Follows ring (dropOwed ring set) := by
  refine ring_follows_map (f := fun r => { r with owed := r.owed &&& ~~~set }) (fun r => ⟨rfl, rfl, fun n hn => ?_⟩) ring
  simp only [inSet_and_not, Bool.and_eq_true] at hn
  exact hn.1

theorem slotsOut_dropOwed (ring : List FrameRec) (set : StationSet) : slotsOut (dropOwed ring set) = slotsOut ring :=
  slotsOut_map (f := fun r => { r with owed := r.owed &&& ~~~set }) (fun _ => rfl) ring

theorem Entry.windowAt.evict {e : Entry} {x : Tx} {h : Option TxFrame} {i : EntryIdx} (stay : List SubRec)
    (set : StationSet) (hw : e.windowAt x h i) :
    ({ e with prod := { e.prod with subs := stay, ring := dropOwed e.prod.ring set } } : Entry).windowAt x h i := by
  have hf : e.Follows { e with prod := { e.prod with ring := dropOwed e.prod.ring set } } :=
    Entry.Follows.of_ring _ _ rfl rfl rfl rfl (dropOwed_follows _ _) (slotsOut_dropOwed _ _)
  have hw' := Entry.windowAt.follows hf (Tx.NoNewFrame.refl x) (fun _ hh => hh) hw
  exact hw'

/-- Subscribers that leave a list give their records back and leave every owed set. -/
theorem Keeps.evict {s : State} {i : EntryIdx} {stay : List SubRec} {set : StationSet} {back : Nat}
    (hsub : List.Sublist (stay.map (fun r => r.station)) ((s.entry i).prod.subs.map (fun r => r.station)))
    (hback : ((s.entry i).prod.subs.map (fun r => r.station)).Nodup → back + stay.length = (s.entry i).prod.subs.length)
    (hstay : ∀ n, n ∈ (s.entry i).prod.subs.map (fun r => r.station) → inSet n set = false →
      n ∈ stay.map (fun r => r.station)) :
    Keeps s { s.setProd i { (s.entry i).prod with subs := stay, ring := dropOwed (s.entry i).prod.ring set } with
      poolFree := s.poolFree + back } := by
  refine Keeps.of_entry i rfl rfl rfl rfl rfl (fun j hj => ?_) ?_ (fun hl => ?_) (fun hw ho => ?_)
    (Tx.NoNewFrame.refl _) fun _ hf => hf
  · simp [State.entry_setProd_of_ne _ _ hj]
  · simp only [State.entry_mk, State.entry_setProd_self]
    exact ⟨Iff.rfl, ⟨rfl, rfl, rfl, rfl, rfl⟩, id⟩
  · obtain ⟨hnone, hnodup, hown⟩ := hl
    simp only [State.entry_mk, State.entry_setProd_self]
    refine ⟨⟨fun hlive => ?_, hnodup.sublist hsub, fun r hr => ?_⟩, fun _ => ?_⟩
    · have := hsub.length_le
      rw [hnone hlive] at this
      simpa using this
    · obtain ⟨r', hr', heq⟩ := List.mem_map.mp (hsub.subset (List.mem_map_of_mem (f := fun r => r.station) hr))
      exact heq ▸ hown r' hr'
    · have := hback hnodup
      omega
  · simp only [State.entry_mk, State.entry_setProd_self]
    exact ⟨hw.evict stay set, ho.evict hstay⟩

/-- Misses counted at an entry keep the invariants. -/
theorem Keeps.countMisses (s : State) (i : EntryIdx) (counted : SubRec → Bool) : Keeps s (s.countMisses i counted) := by
  have hstations : (((s.entry i).prod.subs.filter (fun r => !evictedBy s.params.n counted r)).map (countMiss counted)).map
      (fun r => r.station) = ((s.entry i).prod.subs.filter (fun r => !evictedBy s.params.n counted r)).map
        (fun r => r.station) :=
    stations_map (fun r => by unfold countMiss; split <;> rfl) _
  have hevict := Keeps.evict (s := s) (i := i)
    (stay := ((s.entry i).prod.subs.filter (fun r => !evictedBy s.params.n counted r)).map (countMiss counted))
    (set := stationsOf (((s.entry i).prod.subs.filter (evictedBy s.params.n counted)).map (fun r => r.station)))
    (back := ((s.entry i).prod.subs.filter (evictedBy s.params.n counted)).length)
    (by rw [hstations]; exact List.filter_sublist.map _)
    (fun _ => by
      rw [List.length_map, List.length_eq_length_filter_add (evictedBy s.params.n counted) (l := (s.entry i).prod.subs)])
    (fun n hn hset => by
      rw [hstations]
      obtain ⟨r, hr, rfl⟩ := List.mem_map.mp hn
      refine List.mem_map_of_mem (f := fun r => r.station) (List.mem_filter.mpr ⟨hr, ?_⟩)
      by_contra hev
      rw [inSet_stationsOf] at hset
      simp only [Bool.not_eq_true', Bool.not_eq_false] at hev
      simp only [List.contains_eq_mem, decide_eq_false_iff_not] at hset
      exact hset (List.mem_map_of_mem (f := fun r => r.station) (List.mem_filter.mpr ⟨hr, hev⟩)))
  simp only [State.countMisses]
  split
  · next hnone =>
    rw [List.isEmpty_iff.mp hnone] at hevict
    rw [List.isEmpty_iff.mp hnone]
    exact hevict
  · next hsome =>
    refine hevict.trans (Keeps.raiseEvicted _ i (stationsOf_ne_zero fun hz => hsome ?_))
    rw [List.map_eq_nil_iff.mp hz]
    rfl

end Sys2Proof.Machine
end

section
/-! PROOFS. What each row of dispatch (R136), the expiries and the commands on entries keep. -/

namespace Sys2Proof.Machine

/- One after another: many theorems elaborated at once take a thread each. -/
set_option Elab.async false

open Sys2Proof.Safety

/-! ## The reply queue (R158 to R160) -/

theorem replySafe_of_keys {s t : State}
    (h : t.replies.map (fun r => (r.dest, r.stream)) = s.replies.map (fun r => (r.dest, r.stream)))
    (hs : replySafe s) : replySafe t := by
  obtain ⟨hlen, hnodup⟩ := hs
  have := congrArg List.length h
  simp only [List.length_map] at this
  exact ⟨this.trans_le hlen, h ▸ hnodup⟩

theorem Keeps.of_replies {s : State} {q : List Reply} (h : replySafe s → replySafe { s with replies := q }) :
    Keeps s { s with replies := q } :=
  ⟨id, id, id, h, id, id⟩

theorem Keeps.reply (s : State) (n : Station) (st : StreamNo) (b : ReplyBody) : Keeps s (s.reply n st b) := by
  refine Keeps.of_replies fun hs => ?_
  rcases placeReply_keys s.replies n st b with hkeys | ⟨hkeys, hroom, hnew⟩
  · exact replySafe_of_keys hkeys hs
  · have := congrArg List.length hkeys
    simp only [List.length_map, List.length_append, List.length_singleton] at this
    have hcap : s.replies.length < 8 := hroom
    refine ⟨by dsimp only; omega, ?_⟩
    dsimp only
    rw [hkeys]
    exact hs.2.append (List.nodup_singleton _) (List.disjoint_singleton.mpr hnew)

/-! ## Producer entries -/

theorem Entry.state_ne_free_of_liveProducer {e : Entry} (h : e.liveProducer = true) : e.state ≠ .free := by
  rcases (Entry.liveProducer_iff e).mp h with h | h <;> simp [h]

theorem Keeps.conflict (s : State) (i : EntryIdx) : Keeps s (s.conflict i) := by
  unfold State.conflict
  split
  · next h => exact Keeps.endEntry _ (Entry.state_ne_free_of_liveProducer h)
  · exact Keeps.refl s

theorem updateSub_stations {f : SubRec → SubRec} (h : ∀ r, (f r).station = r.station) (subs : List SubRec) (n : Station) :
    (updateSub subs n f).map (fun r => r.station) = subs.map (fun r => r.station) :=
  stations_map (fun r => by split <;> simp [h]) subs

theorem ackRing_follows (ring : List FrameRec) (n : Station) (a : Seq) :
    List.Forall₂ FrameRec.Follows ring (ackRing ring n a) ∧ slotsOut (ackRing ring n a) = slotsOut ring := by
  unfold ackRing
  split
  · exact ⟨ring_follows_self _, rfl⟩
  · split
    · refine ⟨ring_follows_map (fun r => ?_) _, slotsOut_map (fun r => by split <;> rfl) _⟩
      split
      · refine ⟨rfl, rfl, fun m hm => ?_⟩
        simp only [inSet_and_not, Bool.and_eq_true] at hm
        exact hm.1
      · exact FrameRec.Follows.refl r
    · exact ⟨ring_follows_self _, rfl⟩

/-- The subscribers and the records of an entry changed in place. -/
theorem Keeps.setRing {s : State} {i : EntryIdx} {subs : List SubRec} {ring : List FrameRec}
    (h : subs.map (fun r => r.station) = (s.entry i).prod.subs.map (fun r => r.station))
    (hring : List.Forall₂ FrameRec.Follows (s.entry i).prod.ring ring)
    (hslots : slotsOut ring = slotsOut (s.entry i).prod.ring) :
    Keeps s (s.setProd i { (s.entry i).prod with subs := subs, ring := ring }) :=
  Keeps.setEntry (Entry.Follows.of_ring _ _ h rfl rfl rfl hring hslots)

theorem Keeps.setSubs {s : State} {i : EntryIdx} {subs : List SubRec}
    (h : subs.map (fun r => r.station) = (s.entry i).prod.subs.map (fun r => r.station)) :
    Keeps s (s.setProd i { (s.entry i).prod with subs := subs }) :=
  Keeps.setRing h (ring_follows_self _) rfl

theorem Keeps.producerAck (s : State) (i : EntryIdx) (n : Station) (a : Seq) (k : Nat) :
    Keeps s (s.producerAck i n a k) := by
  simp only [State.producerAck]
  split
  · next hlive =>
    split
    · exact Keeps.reply s _ _ _
    · split
      · exact Keeps.setSubs (updateSub_stations (fun _ => by rfl) _ n)
      · obtain ⟨hring, hslots⟩ := ackRing_follows (s.entry i).prod.ring n a
        refine (Keeps.setRing (updateSub_stations (fun _ => by rfl) _ n) hring hslots).trans (Keeps.retire ?_)
        simpa using Entry.state_ne_free_of_liveProducer hlive
  · exact Keeps.refl s

/-- A subscriber that joins takes one record of the pool (R62). -/
theorem Keeps.addSub {s : State} {i : EntryIdx} {r : SubRec} (hlive : (s.entry i).liveProducer = true)
    (hpool : s.poolFree ≠ 0) (hnew : ∀ q ∈ (s.entry i).prod.subs, q.station ≠ r.station)
    (hown : r.station ≠ s.stationNo) :
    Keeps s { s.setProd i { (s.entry i).prod with subs := (s.entry i).prod.subs ++ [r] } with
      poolFree := s.poolFree - 1 } := by
  refine Keeps.of_entry i rfl rfl rfl rfl rfl (fun j hj => ?_) ?_ (fun hl => ?_) (fun hw ho => ?_)
    (Tx.NoNewFrame.refl _) fun _ hf => hf
  · simp [State.entry_setProd_of_ne _ _ hj]
  · simp only [State.entry_mk, State.entry_setProd_self]
    exact ⟨Iff.rfl, ⟨rfl, rfl, rfl, rfl, rfl⟩, id⟩
  · obtain ⟨_, hnodup, hno⟩ := hl
    simp only [State.entry_mk, State.entry_setProd_self]
    refine ⟨⟨fun hdead => absurd (hlive.symm.trans hdead) (by simp), ?_, fun q hq => ?_⟩, fun _ => ?_⟩
    · rw [List.map_append]
      refine hnodup.append (List.nodup_singleton _) (List.disjoint_singleton.mpr fun hmem => ?_)
      obtain ⟨q, hq, heq⟩ := List.mem_map.mp hmem
      exact hnew q hq heq
    · rcases List.mem_append.mp hq with hq | hq
      · exact hno q hq
      · rw [List.mem_singleton.mp hq]; exact hown
    · simp only [List.length_append, List.length_singleton]
      omega
  · simp only [State.entry_mk, State.entry_setProd_self]
    refine ⟨hw, fun q hq m hm => ?_⟩
    have := ho q hq m hm
    simp only [isSubscriber, List.any_append, Bool.or_eq_true] at this ⊢
    exact .inl this

theorem Keeps.producerJoin (s : State) (i : EntryIdx) (n : Station) (k size : Nat) :
    Keeps s (s.producerJoin i n k size) := by
  simp only [State.producerJoin]
  split
  · exact Keeps.refl s
  · next hlive =>
    split
    · exact Keeps.refl s
    · next hown =>
      split
      · exact Keeps.reply s _ _ _
      · split
        · exact Keeps.reply s _ _ _
        · split
          · exact (Keeps.setSubs (updateSub_stations (fun _ => by rfl) _ n)).trans (Keeps.reply _ _ _ _)
          · next hfind =>
            split
            · exact Keeps.reply s _ _ _
            · next hpool =>
              have hnew : ∀ q ∈ (s.entry i).prod.subs, q.station ≠ (newSub n (s.entry i).prod.nextSeq k).station := by
                simpa [newSub] using List.find?_eq_none.mp hfind
              exact ((Keeps.addSub (by simpa using hlive) hpool hnew hown).trans (Keeps.reply _ _ _ _)).trans
                (Keeps.raiseJoined _ i n)

/-- The station of a list without repetition leaves it with one record. -/
theorem length_without_station {subs : List SubRec} {n : Station} (hmem : n ∈ subs.map (fun r => r.station))
    (hnodup : (subs.map (fun r => r.station)).Nodup) :
    1 + (subs.filter (fun r => r.station != n)).length = subs.length := by
  have hcount := List.count_eq_one_of_mem hnodup hmem
  rw [List.length_eq_length_filter_add (fun r => r.station != n) (l := subs), Nat.add_comm]
  congr 1
  rw [← hcount, List.count, List.countP_map, List.countP_eq_length_filter]
  congr 1
  exact List.filter_congr fun r _ => by simp [bne, Bool.not_not]

theorem Keeps.producerLeave (s : State) (i : EntryIdx) (n : Station) : Keeps s (s.producerLeave i n) := by
  simp only [State.producerLeave]
  split
  · next h =>
    obtain ⟨hlive, hsub⟩ := Bool.and_eq_true_iff.mp h
    refine Keeps.trans (Keeps.trans (Keeps.evict (back := 1) ?_ ?_ ?_) (Keeps.raiseDeparted _ i n)) (Keeps.retire ?_)
    · exact List.filter_sublist.map _
    · exact fun hnodup => length_without_station ((isSubscriber_iff _ _).mp hsub) hnodup
    · intro m hm hset
      obtain ⟨r, hr, rfl⟩ := List.mem_map.mp hm
      rw [inSet_stationBit, decide_eq_false_iff_not] at hset
      have hkept : r ∈ (s.entry i).prod.subs.filter (fun q => q.station != n) :=
        List.mem_filter.mpr ⟨hr, bne_iff_ne.mpr hset⟩
      exact List.mem_map_of_mem (f := fun r => r.station) hkept
    · simpa using Entry.state_ne_free_of_liveProducer hlive
  · exact Keeps.refl s

/-! ## Consumer entries -/

theorem Keeps.restartSilence (s : State) (i : EntryIdx) : Keeps s (s.restartSilence i) :=
  Keeps.setEntry (Entry.Follows.of_prod Iff.rfl rfl ⟨rfl, rfl, rfl, rfl, rfl⟩ rfl id)

theorem Keeps.setAck (s : State) (i : EntryIdx) (a : AckFlag) :
    Keeps s (s.setCons i { (s.entry i).cons with ack := a }) :=
  Keeps.setEntry (Entry.Follows.of_prod Iff.rfl rfl ⟨rfl, rfl, rfl, rfl, rfl⟩ rfl id)

theorem Keeps.oweAck (s : State) (i : EntryIdx) : Keeps s (s.oweAck i) := Keeps.setAck s i _

/-- An entry replaced and a JOIN withdrawn. -/
theorem Keeps.setEntry_withdrawJoin {s : State} {i : EntryIdx} {e : Entry} (h : (s.entry i).Follows e) :
    Keeps s { s.setEntry i e with tx := s.tx.withdrawJoin i } := by
  refine Keeps.of_follows id id (fun j => ?_) rfl rfl rfl rfl (Tx.noNewFrame_withdrawJoin _ i) fun _ hf => hf
  simp only [State.entry_mk, State.entry_setEntry]
  split
  · next hj => exact hj ▸ h
  · exact Entry.Follows.refl _

/-- A change of state among the live states of a consumer, of which the invariants see nothing. -/
theorem Entry.Follows.of_consumer {e e' : Entry} (hs : e.state = .joining ∨ e.state = .receiving)
    (hs' : e'.state = .receiving ∨ e'.state = .leaving)
    (hregion : e'.stream = e.stream ∧ e'.base = e.base ∧ e'.slots = e.slots ∧ e'.size = e.size ∧ e'.mode = e.mode)
    (hprod : e'.prod = e.prod) (hplaces : e.placesAgree → e'.placesAgree) : e.Follows e' := by
  refine Entry.Follows.of_prod (iff_of_false ?_ ?_) ?_ hregion hprod hplaces
  · rcases hs' with h | h <;> simp [h]
  · rcases hs with h | h <;> simp [h]
  · rcases hs with h | h <;> rcases hs' with h' | h' <;> simp only [Entry.liveProducer, h, h'] <;> rfl

theorem Keeps.consumerAccept (s : State) (i : EntryIdx) (src : Station) (start : Seq) (size : Nat) :
    Keeps s (s.consumerAccept i src start size) := by
  simp only [State.consumerAccept]
  split
  · next h =>
    refine Keeps.trans (Keeps.setEntry_withdrawJoin ?_) (Keeps.raiseJoined _ i src)
    exact Entry.Follows.of_consumer (.inl h.1) (.inl rfl) ⟨rfl, rfl, rfl, rfl, rfl⟩ rfl id
  · exact Keeps.refl s

theorem Keeps.consumerRefuse (s : State) (i : EntryIdx) (src : Station) (reason : Reason) :
    Keeps s (s.consumerRefuse i src reason) := by
  simp only [State.consumerRefuse]
  split
  · next h =>
    split
    · exact Keeps.endEntry _ (by simp [h])
    · exact Keeps.refl s
  · split
    · next h => exact Keeps.endEntry _ (by simp [h.1])
    · exact Keeps.refl s

theorem Keeps.consumerHold (s : State) (i : EntryIdx) (src : Station) (next : Seq) :
    Keeps s (s.consumerHold i src next) := by
  simp only [State.consumerHold]
  split
  · split
    · exact Keeps.restartSilence s i
    · exact (Keeps.restartSilence s i).trans (Keeps.oweAck _ i)
  · exact Keeps.refl s

/-- A full-size frame accepted in order moves a consumer's indices on together (R88). -/
theorem Entry.accepted_follows {e : Entry} (p : Params) (q : Seq) (fin : Bool) (hstate : e.state = .receiving)
    (hroom : ¬(e.mode = .advance ∧ e.slots ≤ e.cons.held)) : e.Follows (e.accepted p q fin) := by
  have hplaces : e.placesAgree → (e.accepted p q fin).placesAgree := by
    rintro ⟨hadv, hfix⟩
    have hadv' : e.mode = .advance → e.cons.held + 1 ≤ e.slots
        ∧ (e.cons.writeIdx + 1) % e.slots = (e.cons.readIdx + (e.cons.held + 1)) % e.slots := fun hm => by
      obtain ⟨_, hw⟩ := hadv hm
      rw [hw, Nat.mod_add_mod, Nat.add_assoc]
      exact ⟨Nat.lt_of_not_le fun hle => hroom ⟨hm, hle⟩, rfl⟩
    unfold Entry.accepted
    dsimp only
    split <;>
    · refine ⟨fun hm => ?_, fun hm => ?_⟩ <;> dsimp only [Entry.leavingWith] at hm ⊢ <;> simp only [hm, if_true, if_false,
        reduceCtorEq]
      · exact hadv' hm
      · exact hfix hm
  refine Entry.Follows.of_consumer (.inr hstate) ?_ ?_ ?_ hplaces
  · unfold Entry.accepted
    dsimp only
    split
    · exact .inr rfl
    · exact .inl hstate
  all_goals
    unfold Entry.accepted
    dsimp only
    split
  · exact ⟨rfl, rfl, rfl, rfl, rfl⟩
  · exact ⟨rfl, rfl, rfl, rfl, rfl⟩
  · rfl
  · rfl

theorem Keeps.acceptFull {s : State} {i : EntryIdx} (q : Seq) (fin : Bool) (payload : List Byte)
    (hstate : (s.entry i).state = .receiving)
    (hroom : ¬((s.entry i).mode = .advance ∧ (s.entry i).slots ≤ (s.entry i).cons.held)) :
    Keeps s (s.acceptFull i q fin payload) := by
  have hentry : ∀ m : Memory, (memorySafe s → Memory.wf m = true) →
      Keeps s { s.setEntry i ((s.entry i).accepted s.params q fin) with mem := m } := fun m hm => by
    refine Keeps.of_follows hm id (fun j => ?_) rfl rfl rfl rfl (Tx.NoNewFrame.refl _) fun _ hf => hf
    simp only [State.entry_mk, State.entry_setEntry]
    split
    · next hj =>
      subst hj
      exact Entry.accepted_follows _ _ _ hstate hroom
    · exact Entry.Follows.refl _
  have hstored := hentry _ fun h => Memory.wf_writeRun h ((s.entry i).slotAddr (s.entry i).fillSlot) payload
  simp only [State.acceptFull]
  split
  · exact hstored.trans (Keeps.raiseKind _ _ (by decide))
  · exact hstored

theorem Keeps.receivingData {s : State} {i : EntryIdx} (q : Seq) (fin : Bool) (payload : List Byte)
    (hstate : (s.entry i).state = .receiving) : Keeps s (s.receivingData i q fin payload) := by
  have hanswer := (Keeps.restartSilence s i).trans (Keeps.oweAck _ i)
  simp only [State.receivingData]
  split
  · exact Keeps.refl s
  · split
    · exact Keeps.refl s
    · split
      · split
        · exact hanswer
        · exact Keeps.restartSilence s i
      · split
        · split
          · exact Keeps.setEntry (Entry.Follows.of_prod Iff.rfl rfl ⟨rfl, rfl, rfl, rfl, rfl⟩ rfl id)
          · split
            · exact hanswer
            · next hroom => exact Keeps.acceptFull q fin payload hstate hroom
        · exact hanswer

theorem Keeps.consumerData (s : State) (i : EntryIdx) (src : Station) (q : Seq) (fin : Bool) (payload : List Byte) :
    Keeps s (s.consumerData i src q fin payload) := by
  simp only [State.consumerData]
  split
  · exact Keeps.refl s
  · split
    · next h => exact Keeps.receivingData q fin payload h
    · split
      · exact Keeps.oweAck s i
      · exact Keeps.refl s

/-! ## Dispatch (R136, R137) -/

theorem Keeps.dispatchTo (s : State) (i : EntryIdx) (f : Frame) : Keeps s (s.dispatchTo i f) := by
  unfold State.dispatchTo
  split
  · exact Keeps.conflict s i
  · exact Keeps.conflict s i
  · exact Keeps.conflict s i
  · exact Keeps.producerAck s i _ _ _
  · exact Keeps.producerJoin s i _ _ _
  · exact Keeps.producerLeave s i _
  · exact Keeps.consumerData s i _ _ _ _
  · exact Keeps.consumerHold s i _ _
  · exact Keeps.consumerAccept s i _ _ _
  · exact Keeps.consumerRefuse s i _ _
  · exact Keeps.refl s

theorem Keeps.dispatch (s : State) (f : Frame) : Keeps s (s.dispatch f) := by
  unfold State.dispatch
  split
  · exact Keeps.dispatchTo s _ f
  · exact Keeps.refl s

theorem Keeps.flush (s : State) : Keeps s s.flush := by
  unfold State.flush
  split
  · refine Keeps.trans (SameTable.keeps ?_) (Keeps.dispatch _ _)
    exact ⟨rfl, rfl, rfl, rfl, rfl, rfl, rfl, rfl, Tx.NoNewFrame.refl _⟩
  · exact Keeps.refl s

theorem Keeps.frameEvent (s : State) (f : Frame) : Keeps s (s.frameEvent f) := by
  simp only [State.frameEvent]
  split
  · split
    · exact Keeps.flush s
    · split
      · exact (Keeps.flush s).trans (Keeps.dispatch _ f)
      · exact Keeps.flush s
  · exact Keeps.refl s

end Sys2Proof.Machine
end

section
/-! PROOFS. Candidates (07, Section 7.6): an entry has one exactly when its rules offer it, and a choice takes no other frame
than a candidate or the head reply (R30, R80, R154). -/

namespace Sys2Proof.Machine

/- One after another: many theorems elaborated at once take a thread each. -/
set_option Elab.async false

open Sys2Proof.Safety

/-! ## The conditions of the rules -/

theorem State.ownsDone_iff (s : State) (i : EntryIdx) : s.ownsDone i = false ↔ ¬owesCompletion s i := by
  unfold State.ownsDone owesCompletion
  cases s.handover with
  | none => simp
  | some f => simp [TxFrame.entry?_eq]

theorem Tx.holdsEnd_iff (s : State) (i : EntryIdx) : s.tx.holdsEnd i = true ↔ carriesEnd s i := by
  unfold carriesEnd
  rcases s.tx with _ | ⟨f, g⟩ | ⟨f, cs, b, rd, o⟩
  · simp [Tx.holdsEnd]
  · cases f <;> simp [Tx.holdsEnd]
  · cases f <;> simp [Tx.holdsEnd]

theorem oldestQueued_some_iff (ring : List FrameRec) (r : FrameRec) :
    oldestQueued ring = some r ↔
      ∃ before later, ring = before ++ r :: later ∧ (∀ b ∈ before, b.queued = false) ∧ r.queued = true := by
  rw [oldestQueued, List.find?_eq_some_iff_append]
  constructor
  · rintro ⟨hq, before, later, happ, hb⟩
    exact ⟨before, later, happ, by simpa using hb, hq⟩
  · rintro ⟨before, later, happ, hb, hq⟩
    exact ⟨hq, before, later, happ, by simpa using hb⟩

theorem oldestQueued_none_iff (ring : List FrameRec) : oldestQueued ring = none ↔ ∀ r ∈ ring, r.queued = false := by
  simp [oldestQueued, List.find?_eq_none]

theorem anyQueued_false_iff (ring : List FrameRec) : anyQueued ring = false ↔ ∀ r ∈ ring, r.queued = false := by
  simp [anyQueued]

theorem Entry.offersNew_iff (e : Entry) : e.offersNew = true ↔ newFramePresent e := by
  simp only [Entry.offersNew, newFramePresent, creditGate, Bool.and_eq_true, Bool.not_eq_true', decide_eq_true_eq,
    anyQueued_false_iff, List.all_eq_true, and_assoc]
  rfl

theorem Entry.offersEnd_iff (s : State) (i : EntryIdx) :
    ((s.entry i).offersEnd && !s.tx.holdsEnd i) = true ↔ endFramePresent s i := by
  simp only [Entry.offersEnd, endFramePresent, ← Tx.holdsEnd_iff, Bool.and_eq_true, Bool.not_eq_true', beq_iff_eq,
    bne_iff_ne, decide_eq_true_eq, anyQueued_false_iff, List.any_eq_false, Bool.not_eq_true]
  constructor
  · rintro ⟨⟨⟨⟨⟨⟨hst, hend⟩, hfill⟩, hfin⟩, hlen⟩, hq⟩, hheld⟩
    exact ⟨hst, hend, hfill, hlen, fun r hr => ⟨hq r hr, hfin r hr⟩, hheld⟩
  · rintro ⟨hst, hend, hfill, hlen, hr, hheld⟩
    exact ⟨⟨⟨⟨⟨⟨hst, hend⟩, hfill⟩, fun r h => (hr r h).2⟩, hlen⟩, fun r h => (hr r h).1⟩, hheld⟩

/-! ## Candidates of an entry -/

/-- A producer entry that is live and has taken its completions: it may offer a frame (R30, R161). -/
def State.mayProduce (s : State) (i : EntryIdx) : Prop :=
  (s.entry i).role = some .producer ∧ ((s.entry i).state = .producing ∨ (s.entry i).state = .closing)
  ∧ ¬owesCompletion s i

/-- A consumer entry that has taken its completions: it may offer a frame (R80, R161). -/
def State.mayConsume (s : State) (i : EntryIdx) : Prop := (s.entry i).role = some .consumer ∧ ¬owesCompletion s i

/-- The new frame that a producer entry would send next (R33, R53). -/
def Entry.nextNew (e : Entry) (i : EntryIdx) : TxFrame :=
  .data i false e.stream e.prod.nextSeq (e.prod.endPending != .clear && e.prod.filled == 1) (some e.prod.sendIdx) e.size

/-- The candidate of a producer entry that may offer one, by the order of its rules. -/
theorem State.producerCandidate_of_may {s : State} {i : EntryIdx} (h : s.mayProduce i) :
    s.producerCandidate i =
      match oldestQueued (s.entry i).prod.ring with
      | some r => some (.data i true (s.entry i).stream r.seq r.endFlag r.slot r.len)
      | none =>
        if (s.entry i).offersNew then some ((s.entry i).nextNew i)
        else if (s.entry i).offersEnd && !s.tx.holdsEnd i then
          some (.data i false (s.entry i).stream (s.entry i).prod.nextSeq true none 0)
        else if (s.entry i).prod.holdDue then some (.hold i (s.entry i).stream (s.entry i).prod.nextSeq)
        else none := by
  obtain ⟨hrole, hlive, howes⟩ := h
  have hmay : (s.entry i).role = some .producer ∧ (s.entry i).liveProducer = true ∧ s.ownsDone i = false :=
    ⟨hrole, (Entry.liveProducer_iff _).mpr hlive, (s.ownsDone_iff i).mpr howes⟩
  simp only [State.producerCandidate, if_pos hmay]
  rfl

theorem State.producerCandidate_of_not_may {s : State} {i : EntryIdx} (h : ¬s.mayProduce i) :
    s.producerCandidate i = none := by
  refine if_neg fun ⟨hrole, hlive, howns⟩ => h ⟨hrole, (Entry.liveProducer_iff _).mp hlive, ?_⟩
  exact (s.ownsDone_iff i).mp howns

/-- A producer's candidate is one of four: the oldest queued resend, a new frame, a zero-length END, or a due HOLD. -/
theorem State.producerCandidate_iff (s : State) (i : EntryIdx) (f : TxFrame) :
    s.producerCandidate i = some f ↔ s.mayProduce i
      ∧ ((∃ r, oldestQueued (s.entry i).prod.ring = some r
            ∧ f = .data i true (s.entry i).stream r.seq r.endFlag r.slot r.len)
        ∨ newFramePresent (s.entry i) ∧ f = (s.entry i).nextNew i
        ∨ endFramePresent s i ∧ f = .data i false (s.entry i).stream (s.entry i).prod.nextSeq true none 0
        ∨ (∀ r ∈ (s.entry i).prod.ring, r.queued = false) ∧ ¬newFramePresent (s.entry i) ∧ ¬endFramePresent s i
          ∧ (s.entry i).prod.holdDue = true ∧ f = .hold i (s.entry i).stream (s.entry i).prod.nextSeq) := by
  by_cases hmay : s.mayProduce i
  · rw [State.producerCandidate_of_may hmay]
    have hquiet : ∀ r, oldestQueued (s.entry i).prod.ring = some r →
        ¬newFramePresent (s.entry i) ∧ ¬endFramePresent s i ∧ ¬∀ r ∈ (s.entry i).prod.ring, r.queued = false :=
      fun r hr => by
        have hno : ¬∀ r ∈ (s.entry i).prod.ring, r.queued = false := fun h =>
          nomatch ((oldestQueued_none_iff _).mpr h).symm.trans hr
        exact ⟨fun h => hno h.2.2.1, fun h => hno fun r hr => (h.2.2.2.2.1 r hr).1, hno⟩
    have hapart : newFramePresent (s.entry i) → ¬endFramePresent s i := fun h h' => (h.1.ne' h'.2.2.1)
    cases hq : oldestQueued (s.entry i).prod.ring with
    | some r =>
      obtain ⟨hnew, hend, hno⟩ := hquiet r hq
      simp only [hmay, hnew, hend, hno, Option.some.injEq, true_and, false_and, or_false, exists_eq_left']
      exact eq_comm
    | none =>
      have hnone := (oldestQueued_none_iff _).mp hq
      dsimp only
      simp only [hmay, reduceCtorEq, false_and, exists_false, false_or, true_and]
      by_cases hnew : newFramePresent (s.entry i)
      · rw [if_pos ((Entry.offersNew_iff _).mpr hnew)]
        simp [hnew, hapart hnew, eq_comm (a := f)]
      · rw [if_neg (mt (Entry.offersNew_iff _).mp hnew)]
        by_cases hend : endFramePresent s i
        · rw [if_pos ((Entry.offersEnd_iff s i).mpr hend)]
          simp [hnew, hend, eq_comm (a := f)]
        · rw [if_neg (mt (Entry.offersEnd_iff s i).mp hend)]
          by_cases hdue : (s.entry i).prod.holdDue = true
          · simp only [hnew, hend, hdue, if_true, Option.some.injEq, false_and, false_or, not_false_iff, true_and]
            exact ⟨fun h => ⟨hnone, h.symm⟩, fun h => h.2.symm⟩
          · simp [hnew, hend, hdue]
  · simp [State.producerCandidate_of_not_may hmay, hmay]

theorem Entry.ackFrame_some_iff (e : Entry) (i : EntryIdx) (f : TxFrame) :
    e.ackFrame i = some f ↔ ∃ n, e.cons.producer = some n ∧ f = .ack i e.stream n (e.cons.expected - 1) e.credit := by
  simp [Entry.ackFrame, eq_comm (a := f)]

theorem Entry.lingers_iff (e : Entry) : e.lingers = true ↔
    e.state = .leaving ∨ e.state = .ended ∧ (e.cause = some .byProducer ∨ e.cause = some .countDone) := by
  simp [Entry.lingers]

/-- A consumer's candidate is one of three: a due JOIN, an owed ACK, or a LEAVE with no ACK owed (R80). -/
theorem State.consumerCandidate_iff (s : State) (i : EntryIdx) (f : TxFrame) :
    s.consumerCandidate i = some f ↔ s.mayConsume i
      ∧ ((s.entry i).state = .joining ∧ (s.entry i).cons.joinDue = true
          ∧ f = .join i (s.entry i).stream (s.entry i).credit (s.entry i).size
        ∨ ((s.entry i).state = .receiving ∨ (s.entry i).lingers = true) ∧ (s.entry i).cons.ack = .owed
          ∧ (s.entry i).ackFrame i = some f
        ∨ (s.entry i).state = .leaving ∧ (s.entry i).cons.ack = .clear ∧ f = .leave i (s.entry i).stream) := by
  by_cases hmay : s.mayConsume i
  · have hcond : (s.entry i).role = some .consumer ∧ s.ownsDone i = false :=
      ⟨hmay.1, (s.ownsDone_iff i).mpr hmay.2⟩
    have hlinger := (s.entry i).lingers_iff
    simp only [hmay, true_and, State.consumerCandidate]
    rw [if_pos hcond]
    cases hst : (s.entry i).state with
    | joining => by_cases hdue : (s.entry i).cons.joinDue = true <;> simp [hst, hlinger, hdue, eq_comm (a := f)]
    | receiving => by_cases hack : (s.entry i).cons.ack = .owed <;> simp [hack]
    | leaving => cases hack : (s.entry i).cons.ack <;> simp [hst, hlinger, eq_comm (a := f)]
    | ended =>
      by_cases hack : (s.entry i).lingers = true ∧ (s.entry i).cons.ack = .owed
      · simp [hack]
      · simp only [if_neg hack, reduceCtorEq, false_and, false_or, or_false, false_iff]
        exact fun h => hack ⟨h.1, h.2.1⟩
    | _ => simp [hst, hlinger]
  · have hcond : ¬((s.entry i).role = some .consumer ∧ s.ownsDone i = false) :=
      fun h => hmay ⟨h.1, (s.ownsDone_iff i).mp h.2⟩
    simp only [State.consumerCandidate, if_neg hcond, hmay]
    simp

/-! ## The rules of the statements -/

/-- The frames of a producer entry. -/
def TxFrame.ofProducer : TxFrame → Prop
  | .data _ _ _ _ _ _ _ => True
  | .hold _ _ _ => True
  | _ => False

/-- The frames of a consumer entry. -/
def TxFrame.ofConsumer : TxFrame → Prop
  | .join _ _ _ _ => True
  | .ack _ _ _ _ _ => True
  | .leave _ _ => True
  | _ => False

/-- What a producer entry offers by the rules is its candidate. -/
theorem State.producerCandidate_iff_offered (s : State) (i : EntryIdx) (f : TxFrame) :
    s.producerCandidate i = some f ↔
      offered s i f ∧ f.ofProducer := by
  rw [State.producerCandidate_iff]
  cases f with
  | data j again st q fin slot len =>
    cases again with
    | true =>
      simp only [offered, TxFrame.ofProducer, State.mayProduce, oldestQueued_some_iff, Entry.nextNew, TxFrame.data.injEq, reduceCtorEq,
        Bool.true_eq_false, false_and, and_false, or_false, true_and, and_true]
      constructor
      · rintro ⟨hmay, r, ⟨before, later, happ, hb, hq⟩, rfl, rfl, rfl, rfl, rfl, rfl⟩
        exact ⟨hmay, rfl, rfl, before, r, later, happ, hb, hq, rfl, rfl, rfl, rfl⟩
      · rintro ⟨hmay, rfl, rfl, before, r, later, happ, hb, hq, rfl, rfl, rfl, rfl⟩
        exact ⟨hmay, r, ⟨before, later, happ, hb, hq⟩, rfl, rfl, rfl, rfl, rfl, rfl⟩
    | false =>
      cases slot with
      | some k =>
        simp only [offered, TxFrame.ofProducer, State.mayProduce, Entry.nextNew, TxFrame.data.injEq, reduceCtorEq, Bool.false_eq_true,
          false_and, and_false, exists_false, false_or, or_false, Option.some.injEq, and_true,
          true_and]
        have hfin : ∀ e : Entry, (fin = (e.prod.endPending != .clear && e.prod.filled == 1))
            ↔ (fin = true ↔ e.prod.endPending ≠ .clear ∧ e.prod.filled = 1) := fun e => by
          rw [Bool.eq_iff_iff]; simp
        rw [hfin]
        constructor
        · rintro ⟨hmay, hnew, rfl, rfl, rfl, hf, rfl, rfl⟩
          exact ⟨hmay, rfl, rfl, hnew, rfl, rfl, rfl, hf⟩
        · rintro ⟨hmay, rfl, rfl, hnew, rfl, rfl, rfl, hf⟩
          exact ⟨hmay, hnew, rfl, rfl, rfl, hf, rfl, rfl⟩
      | none =>
        simp only [offered, TxFrame.ofProducer, State.mayProduce, Entry.nextNew, TxFrame.data.injEq, reduceCtorEq, Bool.false_eq_true,
          false_and, and_false, exists_false, false_or, or_false, and_true, true_and]
        constructor
        · rintro ⟨hmay, hend, rfl, rfl, rfl, rfl, rfl⟩
          exact ⟨hmay, rfl, rfl, hend, rfl, rfl, rfl⟩
        · rintro ⟨hmay, rfl, rfl, hend, rfl, rfl, rfl⟩
          exact ⟨hmay, hend, rfl, rfl, rfl, rfl, rfl⟩
  | hold j st q =>
    simp only [offered, TxFrame.ofProducer, State.mayProduce, Entry.nextNew, TxFrame.hold.injEq, reduceCtorEq, and_false, exists_false,
      false_or, and_true]
    constructor
    · rintro ⟨hmay, hquiet, hnew, hend, hdue, rfl, rfl, rfl⟩
      exact ⟨hmay, rfl, rfl, rfl, hdue, hquiet, hnew, hend⟩
    · rintro ⟨hmay, rfl, rfl, rfl, hdue, hquiet, hnew, hend⟩
      exact ⟨hmay, hquiet, hnew, hend, hdue, rfl, rfl, rfl⟩
  | _ => simp [Entry.nextNew, TxFrame.ofProducer]

/-- The credit that an entry in JOINING or RECEIVING reports is that of the statements (R93). -/
theorem Entry.credit_of_open {e : Entry} (h : e.state = .joining ∨ e.state = .receiving) :
    e.credit = if e.mode = .fixed then 4 else min 4 (e.slots - e.cons.held) := by
  obtain ⟨hadv, hfix, _⟩ := e.credit_spec
  cases hm : e.mode with
  | advance => rw [hadv h hm, if_neg (by simp)]
  | fixed => rw [hfix h hm, if_pos rfl]

theorem Entry.credit_of_lingers {e : Entry} (h : e.lingers = true) : e.credit = 0 := by
  obtain ⟨_, _, hzero⟩ := e.credit_spec
  rcases (Entry.lingers_iff e).mp h with h | ⟨h, _⟩ <;> exact hzero (by simp [h]) (by simp [h])

/-- What a consumer entry offers by the rules is its candidate. -/
theorem State.consumerCandidate_iff_offered (s : State) (i : EntryIdx) (f : TxFrame) :
    s.consumerCandidate i = some f ↔
      offered s i f ∧ f.ofConsumer := by
  rw [State.consumerCandidate_iff, Entry.ackFrame_some_iff]
  cases f with
  | join j st k p =>
    simp only [offered, TxFrame.ofConsumer, State.mayConsume, TxFrame.join.injEq, reduceCtorEq, and_false, exists_false, or_false,
      and_true]
    constructor
    · rintro ⟨hmay, hst, hdue, rfl, rfl, rfl, rfl⟩
      exact ⟨hmay, rfl, rfl, hst, hdue, rfl, Entry.credit_of_open (.inl hst)⟩
    · rintro ⟨hmay, rfl, rfl, hst, hdue, rfl, rfl⟩
      exact ⟨hmay, hst, hdue, rfl, rfl, (Entry.credit_of_open (.inl hst)).symm, rfl⟩
  | ack j st n a k =>
    simp only [offered, TxFrame.ofConsumer, State.mayConsume, TxFrame.ack.injEq, reduceCtorEq, and_false, or_false, false_or,
      and_true, ← Entry.lingers_iff]
    constructor
    · rintro ⟨hmay, hst, hack, m, hm, rfl, rfl, rfl, rfl, rfl⟩
      refine ⟨hmay, rfl, rfl, hack, hm, rfl, ?_⟩
      exact hst.imp (fun h => ⟨h, Entry.credit_of_open (.inr h)⟩) (fun h => ⟨h, Entry.credit_of_lingers h⟩)
    · rintro ⟨hmay, rfl, rfl, hack, hn, rfl, hst⟩
      refine ⟨hmay, hst.imp And.left And.left, hack, n, hn, rfl, rfl, rfl, rfl, ?_⟩
      rcases hst with ⟨h, rfl⟩ | ⟨h, rfl⟩
      · exact (Entry.credit_of_open (.inr h)).symm
      · exact (Entry.credit_of_lingers h).symm
  | leave j st =>
    simp only [offered, TxFrame.ofConsumer, State.mayConsume, TxFrame.leave.injEq, reduceCtorEq, and_false, exists_false, false_or,
      and_true]
    constructor
    · rintro ⟨hmay, hst, hack, rfl, rfl⟩
      exact ⟨hmay, rfl, rfl, hst, hack⟩
    · rintro ⟨hmay, rfl, rfl, hst, hack⟩
      exact ⟨hmay, hst, hack, rfl, rfl⟩
  | _ => simp [TxFrame.ofConsumer]

/-- An entry has a candidate exactly when its rules offer it. -/
theorem State.candidate_iff_offered (s : State) (i : EntryIdx) (f : TxFrame) :
    s.producerCandidate i = some f ∨ s.consumerCandidate i = some f ↔ offered s i f := by
  rw [State.producerCandidate_iff_offered, State.consumerCandidate_iff_offered, ← and_or_left]
  refine and_iff_left_of_imp fun h => ?_
  cases f with
  | reply => exact h.elim
  | _ => simp [TxFrame.ofProducer, TxFrame.ofConsumer]

/-! ## The choice (R154) -/

theorem State.candidate_cases {s : State} {f : TxFrame} (h : s.candidate = some f) :
    (∃ r rs, s.replies = r :: rs ∧ f = .reply r.dest r.stream r.body)
    ∨ (∃ i, s.consumerCandidate i = some f) ∨ ∃ i, s.producerCandidate i = some f := by
  unfold State.candidate at h
  split at h
  · next g hg =>
    cases h
    unfold State.replyCandidate at hg
    split at hg
    · cases hg
    · cases hr : s.replies with
      | nil => simp [hr] at hg
      | cons r rs => exact .inl ⟨r, rs, rfl, by simpa [hr, eq_comm] using hg⟩
  · split at h
    · next g hg =>
      cases h
      obtain ⟨i, _, hi⟩ := List.exists_of_findSome?_eq_some hg
      exact .inr (.inl ⟨i, hi⟩)
    · obtain ⟨i, _, hi⟩ := List.exists_of_findSome?_eq_some h
      exact .inr (.inr ⟨i, hi⟩)

/-- With the transmitter FREE no completion is taken ahead of the choice. -/
theorem State.vacated_of_free {s : State} (h : s.tx = .free) : s.vacated = s := by
  have hd : s.driven = none := by simp [State.driven, h]
  unfold State.vacated
  rw [hd]
  cases s.handover <;> rfl

/-- A choice at a FREE transmitter changes nothing, or passes it a candidate. -/
theorem State.choose_of_free {s : State} (h : s.tx = .free) :
    s.choose = s ∨ ∃ f, s.candidate = some f ∧ s.choose = { s.takeChoice f with tx := .chosen f false } := by
  unfold State.choose
  rw [State.vacated_of_free h]
  split
  · next f hf =>
    unfold State.choosable at hf
    split at hf
    · exact .inr ⟨f, hf, rfl⟩
    · cases hf
  · exact .inl rfl

/-- Settles O47: an entry's candidate is read off rule by rule, and a choice takes the candidate of an entry or the head
reply. -/
theorem chosenFramesFollowTheirRules : Obligations.ChosenFramesFollowTheirRules := by
  refine ⟨State.candidate_iff_offered, fun s t f g hfree hexec htx => ?_⟩
  cases hheld : s.held with
  | true =>
    have ht : s = t := by simpa [exec, execSchedulerChoice, hheld] using hexec
    rw [← ht, hfree] at htx
    cases htx
  | false =>
    rw [exec_schedulerChoice hheld] at hexec
    cases hexec
    rcases State.choose_of_free hfree with hsame | ⟨f', hcand, hchoose⟩
    · rw [hsame, hfree] at htx
      cases htx
    · rw [hchoose] at htx
      cases htx
      refine ⟨rfl, ?_⟩
      rcases State.candidate_cases hcand with hreply | ⟨i, hi⟩ | ⟨i, hi⟩
      · exact .inr hreply
      · exact .inl ⟨i, (s.candidate_iff_offered i f).mp (.inr hi)⟩
      · exact .inl ⟨i, (s.candidate_iff_offered i f).mp (.inl hi)⟩

end Sys2Proof.Machine
end

section
/-! PROOFS. What the host's commands, the resets, the expiries and the events of the line keep. -/

namespace Sys2Proof.Machine

/- One after another: many theorems elaborated at once take a thread each. -/
set_option Elab.async false

open Sys2Proof.Safety

/-! ## Changes outside the table -/

theorem SameTable.trans {s t u : State} (h : SameTable s t) (h' : SameTable t u) : SameTable s u :=
  ⟨h'.mem.trans h.mem, h'.entries.trans h.entries, h'.poolFree.trans h.poolFree, h'.items.trans h.items,
    h'.noticeQueue.trans h.noticeQueue, h'.replies.trans h.replies, h'.stationNo.trans h.stationNo,
    h'.handover.trans h.handover, h.tx.trans h'.tx⟩

theorem SameTable.setPort (s : State) (p : Port) : SameTable s { s with port := p } :=
  ⟨rfl, rfl, rfl, rfl, rfl, rfl, rfl, rfl, Tx.NoNewFrame.refl _⟩

/-- The line busied moves the line, the round and the grant alone (R142, R149). -/
theorem SameTable.busyLine (s : State) (source : Option Station) : SameTable s (s.busyLine source) := by
  refine ⟨by simp, by simp, by simp, by simp, by simp, by simp, by simp, by simp, ?_⟩
  unfold State.busyLine
  split
  · exact Tx.noNewFrame_ungrant _
  · exact Tx.NoNewFrame.refl _

theorem SameTable.collide (s : State) : SameTable s s.collide := by
  refine ⟨by simp, by simp, by simp, by simp, by simp, by simp, by simp, by simp, ?_⟩
  unfold State.collide
  split
  · exact Tx.noNewFrame_ungrant _
  · exact Tx.NoNewFrame.refl _

/-- A change of the grant of a chosen frame brings no new frame. -/
theorem Tx.noNewFrame_grant {x : Tx} {f : TxFrame} {g : Bool} (g' : Bool) (h : x = .chosen f g) :
    x.NoNewFrame (.chosen f g') := by
  intro i v hv
  rwa [h, heldNewFrame_chosen, ← heldNewFrame_chosen f g']

theorem SameTable.nextSlot (s : State) (o : Station) (r : Nat) (k : BitVec 5) : SameTable s (s.nextSlot o r k) := by
  refine ⟨by simp, by simp, by simp, by simp, by simp, by simp, by simp, by simp, ?_⟩
  unfold State.nextSlot
  split
  · exact Tx.noNewFrame_ungrant _
  · unfold State.startSlot
    dsimp only
    split
    · next h => exact Tx.noNewFrame_grant _ h
    · exact Tx.NoNewFrame.refl _

theorem SameTable.startSlot (s : State) (o : Station) (r : Nat) (k : BitVec 5) : SameTable s (s.startSlot o r k) := by
  refine ⟨rfl, rfl, rfl, rfl, rfl, rfl, rfl, rfl, ?_⟩
  unfold State.startSlot
  dsimp only
  split
  · next h => exact Tx.noNewFrame_grant _ h
  · exact Tx.NoNewFrame.refl _

theorem SameTable.roundIdle (s : State) : SameTable s s.roundIdle := by
  unfold State.roundIdle
  split
  · exact SameTable.startSlot s _ _ _
  · exact SameTable.nextSlot s _ _ _
  · exact ⟨rfl, rfl, rfl, rfl, rfl, rfl, rfl, rfl, Tx.NoNewFrame.refl _⟩

/-- A change of the fields that no invariant of the table reads. -/
theorem SameTable.of_rest {s : State} (rx : Receiver) (line : LineState) (gap : Option Nat) (csn low steady : Bool)
    (round : Round) (fails : Nat) (quiet : Option Nat) :
    SameTable s { s with rx := rx, line := line, lineGap := gap, csnAsserted := csn, rxdLow := low, rxdSteady := steady,
                         round := round, failCount := fails, quiet := quiet } :=
  ⟨rfl, rfl, rfl, rfl, rfl, rfl, rfl, rfl, Tx.NoNewFrame.refl _⟩

theorem SameTable.characterEnds (s : State) (source : Option Station) : SameTable s (s.characterEnds source) :=
  (SameTable.busyLine s none).trans (SameTable.of_rest _ _ _ _ _ _ _ _ _)

theorem SameTable.goodCharacter (s : State) (source : Option Station) : SameTable s (s.goodCharacter source) :=
  (SameTable.characterEnds s source).trans (SameTable.of_rest _ _ _ _ _ _ _ _ _)

theorem SameTable.rxTo (s : State) (r : RxState) : SameTable s (s.rxTo r) := SameTable.of_rest _ _ _ _ _ _ _ _ _

theorem SameTable.badCharacter (s : State) (cause : SeenCause) : SameTable s (s.badCharacter cause) := by
  unfold State.badCharacter
  cases cause with
  | framingError => exact (SameTable.characterEnds s none).trans (SameTable.of_rest _ _ _ _ _ _ _ _ _)
  | csn => exact SameTable.characterEnds s none

/-! ## Characters and the line -/

theorem Keeps.marked (s : State) (d : Byte) : Keeps s (s.marked d) := by
  have hframe := (Keeps.flush s).trans (SameTable.goodCharacter s.flush (some (srcOf d))).keeps
  simp only [State.marked]
  split
  · split
    · exact hframe.trans (SameTable.rxTo _ _).keeps
    · exact hframe.trans (SameTable.of_rest _ _ _ _ _ _ _ _ _).keeps
  · split
    · exact (SameTable.goodCharacter s none).keeps
    · exact Keeps.refl s

theorem SameTable.store (s : State) (d : Byte) : SameTable s (s.store d) := by
  simp only [State.store]
  split
  · exact SameTable.rxTo s _
  · split <;> exact SameTable.of_rest _ _ _ _ _ _ _ _ _

theorem Keeps.unmarked (s : State) (d : Byte) : Keeps s (s.unmarked d) := by
  simp only [State.unmarked]
  split
  · exact ((SameTable.goodCharacter s none).trans (SameTable.store _ d)).keeps
  · split
    · exact (Keeps.flush s).trans (SameTable.goodCharacter _ none).keeps
    · split
      · exact (SameTable.goodCharacter s none).keeps
      · exact Keeps.refl s

theorem Keeps.collisionSeen (s : State) (cause : SeenCause) : Keeps s (s.collisionSeen cause) := by
  simp only [State.collisionSeen]
  split
  · exact Keeps.refl s
  · split
    · exact (Keeps.flush s).trans
        (((SameTable.badCharacter _ cause).trans (SameTable.rxTo _ _)).trans (SameTable.collide _)).keeps
    · split
      · exact (SameTable.badCharacter s cause).keeps
      · exact Keeps.refl s

theorem Keeps.receiverGap (s : State) : Keeps s s.receiverGap := by
  unfold State.receiverGap
  split
  · split
    · exact (SameTable.rxTo s _).keeps
    · exact (SameTable.rxTo s _).keeps
    · exact (SameTable.rxTo s _).keeps
    · exact Keeps.flush s
    · exact Keeps.refl s
  · exact Keeps.refl s

theorem Keeps.lineBusied (s : State) (cause : BusyCause) : Keeps s (s.lineBusied cause) := by
  unfold State.lineBusied
  cases cause with
  | startBit => exact ((SameTable.busyLine s none).trans (SameTable.of_rest _ _ _ _ _ _ _ _ _)).keeps
  | csn => exact ((SameTable.busyLine s none).trans (SameTable.of_rest _ _ _ _ _ _ _ _ _)).keeps
  | ownStart =>
    dsimp only
    split
    · exact (SameTable.busyLine s _).keeps
    · exact Keeps.refl s

theorem Keeps.lineIdled (s : State) : Keeps s s.lineIdled := by
  unfold State.lineIdled
  split
  · exact Keeps.refl s
  · split
    · dsimp only
      split
      · exact (SameTable.of_rest _ _ _ _ _ _ _ _ _).keeps
      · exact ((SameTable.of_rest _ _ _ _ _ _ _ _ _).trans (SameTable.roundIdle _)).keeps
    · exact Keeps.refl s

theorem Keeps.slotEnded (s : State) : Keeps s s.slotEnded := by
  unfold State.slotEnded
  split
  · exact Keeps.refl s
  · split
    · exact (SameTable.nextSlot s _ _ _).keeps
    · exact Keeps.refl s
  · exact Keeps.refl s

theorem Keeps.quietExpired (s : State) : Keeps s s.quietExpired := by
  unfold State.quietExpired
  split
  · refine Keeps.trans (SameTable.keeps ?_) (Keeps.raiseKind _ _ (by decide))
    exact ⟨rfl, rfl, rfl, rfl, rfl, rfl, rfl, rfl, Tx.NoNewFrame.refl _⟩
  · exact Keeps.refl s

/-! ## The expiries (R25) -/

theorem Keeps.goBack (s : State) (i : EntryIdx) : Keeps s (s.goBack i) := by
  simp only [State.goBack]
  split
  · exact Keeps.refl s
  · split
    · exact Keeps.setEntry (Entry.Follows.of_ring _ _ rfl rfl rfl rfl (ring_follows_self _) rfl)
    · refine Keeps.setEntry (Entry.Follows.of_ring _ _ rfl rfl rfl rfl ?_ ?_)
      · exact ring_follows_map (fun r => (⟨rfl, rfl, fun _ h => h⟩ : r.Follows { r with queued := true })) _
      · exact slotsOut_map (f := fun r => { r with queued := true }) (fun _ => rfl) _

theorem Keeps.ackExpired (s : State) (i : EntryIdx) : Keeps s (s.ackExpired i) := by
  simp only [State.ackExpired]
  split
  · next h =>
    have hlive : (s.entry i).liveProducer = true := by simp only [Bool.and_eq_true] at h; exact h.1.2
    split
    · exact Keeps.refl s
    · refine ((Keeps.countMisses s i _).trans (Keeps.retire ?_)).trans (Keeps.goBack _ i)
      obtain ⟨hentry, _⟩ := State.countMisses_spec s i fun r => inSet r.station _
      rw [hentry]
      exact Entry.state_ne_free_of_liveProducer hlive
  · exact Keeps.refl s

theorem Keeps.holdExpired (s : State) (i : EntryIdx) : Keeps s (s.holdExpired i) := by
  simp only [State.holdExpired]
  split
  · exact Keeps.setEntry (Entry.Follows.of_ring _ _ rfl rfl rfl rfl (ring_follows_self _) rfl)
  · exact Keeps.refl s

theorem Keeps.joinExpired (s : State) (i : EntryIdx) : Keeps s (s.joinExpired i) := by
  simp only [State.joinExpired]
  split
  · next h =>
    have hst : (s.entry i).state = .joining := by simp only [Bool.and_eq_true, beq_iff_eq] at h; exact h.2
    split
    · exact Keeps.endEntry _ (by simp [hst])
    · exact Keeps.setEntry (Entry.Follows.of_prod Iff.rfl rfl ⟨rfl, rfl, rfl, rfl, rfl⟩ rfl id)
  · exact Keeps.refl s

theorem Keeps.silenceExpired (s : State) (i : EntryIdx) : Keeps s (s.silenceExpired i) := by
  simp only [State.silenceExpired]
  split
  · next h =>
    have hst : (s.entry i).state = .receiving := by simp only [Bool.and_eq_true, beq_iff_eq] at h; exact h.2
    exact Keeps.endEntry _ (by simp [hst])
  · exact Keeps.refl s

/-! ## Host commands on entries -/

/-- A write-type command keeps the invariants if its act does (R182). -/
theorem Keeps.writeType {s : State} (exact : Bool) {act : State → ResultCode × State} (h : ∀ t, Keeps t (act t).2) :
    Keeps s (s.writeType exact act) := by
  cases exact with
  | false => exact (SameTable.setPort s _).keeps
  | true =>
    rw [State.writeType_true]
    exact ((SameTable.setPort s _).keeps.trans (h _)).trans (SameTable.setPort _ _).keeps

theorem Keeps.entryCommand {s : State} (bytes : List Byte) (ragged : Bool) {act : EntryIdx → State → ResultCode × State}
    (h : ∀ i t, Keeps t (act i t).2) : Keeps s (s.entryCommand bytes ragged act) := by
  unfold State.entryCommand
  split
  · refine Keeps.writeType _ fun t => ?_
    split
    · exact Keeps.refl t
    · exact h _ t
  · exact Keeps.writeType _ fun t => Keeps.refl t

theorem Keeps.countCommand {s : State} (bytes : List Byte) (ragged : Bool)
    {act : EntryIdx → Nat → State → ResultCode × State} (h : ∀ i n t, Keeps t (act i n t).2) :
    Keeps s (s.countCommand bytes ragged act) := by
  unfold State.countCommand
  split
  · refine Keeps.writeType _ fun t => ?_
    split
    · exact Keeps.refl t
    · exact h _ _ t
  · exact Keeps.writeType _ fun t => Keeps.refl t

/-- A POST within the free slots leaves the slots enough (R27, R28). -/
theorem Entry.posted_follows {e : Entry} {n : Nat} (h : n ≤ e.freeSlots) : e.Follows (e.posted n) := by
  refine ⟨⟨Iff.rfl, ⟨rfl, rfl, rfl, rfl, rfl⟩, id⟩, rfl, rfl, rfl, fun hend => ?_, Nat.le_add_right _ _, fun hroom => ?_,
    ring_follows_self _⟩
  · simp only [Entry.posted]
    rw [if_neg fun hc => hend hc.2.2]
    exact hend
  · simp only [Entry.posted, Entry.freeSlots] at h ⊢
    omega

theorem Keeps.post (i : EntryIdx) (n : Nat) (s : State) : Keeps s (s.post i n).2 := by
  simp only [State.post]
  split
  · exact Keeps.refl s
  · split
    · exact Keeps.refl s
    · split
      · exact Keeps.refl s
      · next hroom => exact Keeps.setEntry (Entry.posted_follows (Nat.le_of_not_lt hroom))

/-- A RELEASE of frames held moves the read index and the count together (R99). -/
theorem Entry.released_follows {e : Entry} {n : Nat} (hmode : e.mode = .advance) (h : n ≤ e.cons.held) :
    e.Follows (e.released n) := by
  refine Entry.Follows.of_prod Iff.rfl rfl ⟨rfl, rfl, rfl, rfl, rfl⟩ rfl fun ⟨hadv, _⟩ => ⟨fun _ => ?_, fun hfix => ?_⟩
  · obtain ⟨hle, hw⟩ := hadv hmode
    refine ⟨(Nat.sub_le _ _).trans hle, ?_⟩
    simp only [Entry.released]
    rw [hw, Nat.mod_add_mod, Nat.add_assoc, Nat.add_sub_of_le h]
  · exact nomatch hmode.symm.trans hfix

theorem Keeps.release (i : EntryIdx) (n : Nat) (s : State) : Keeps s (s.release i n).2 := by
  by_cases hshut : (s.entry i).shutToRelease
  · rw [State.release_of_shut hshut]
    exact Keeps.refl s
  · rw [State.release_of_open hshut]
    split
    · exact Keeps.refl s
    · next hgood =>
      obtain ⟨_, _, hmode⟩ := (Entry.not_shutToRelease_iff _).mp hshut
      exact Keeps.setEntry (Entry.released_follows hmode (Nat.le_of_not_lt fun h => hgood (.inr h)))

theorem Entry.closedProducer_follows {e : Entry} (h : e.state = .producing) : e.Follows e.closedProducer := by
  refine ⟨⟨iff_of_false (by simp [Entry.closedProducer]) (by simp [h]), ⟨rfl, rfl, rfl, rfl, rfl⟩, id⟩, ?_, rfl, rfl,
    fun hend => ?_, Nat.le_refl _, id, ring_follows_self _⟩
  · simp only [Entry.liveProducer, Entry.closedProducer, h]
    rfl
  · simp only [Entry.closedProducer]
    split
    · simp
    · exact hend

theorem Entry.leavingWith_follows {e : Entry} (c : Cause) (h : e.state = .joining ∨ e.state = .receiving) :
    e.Follows (e.leavingWith c) :=
  Entry.Follows.of_consumer h (.inr rfl) ⟨rfl, rfl, rfl, rfl, rfl⟩ rfl id

theorem Keeps.close (i : EntryIdx) (s : State) : Keeps s (s.close i).2 := by
  simp only [State.close]
  split
  · next h => exact Keeps.setEntry (Entry.closedProducer_follows h)
  · next h => exact Keeps.setEntry_withdrawJoin (Entry.leavingWith_follows _ (.inl h))
  · next h => exact Keeps.setEntry_withdrawJoin (Entry.leavingWith_follows _ (.inr h))
  · exact Keeps.refl s

theorem Keeps.abort (i : EntryIdx) (s : State) : Keeps s (s.abort i).2 := by
  simp only [State.abort]
  split
  · next h => exact Keeps.endEntry _ fun hfree => by simp [Entry.live, hfree] at h
  · exact Keeps.refl s

end Sys2Proof.Machine
end

section
/-! PROOFS. What opening and freeing an entry, the resets, the choice, the start and the completions keep. -/

namespace Sys2Proof.Machine

/- One after another: many theorems elaborated at once take a thread each. -/
set_option Elab.async false

open Sys2Proof.Safety

/-- A command that moves neither RSTN nor the supply has the one guard of resets before its effect. -/
theorem exec_guarded {c : Instr} (hc : isResetEvent c = false) : ∃ f, ∀ s, exec c s = s.unlessHeld f := by
  cases c with
  | powerOn => cases hc
  | rstnLow => cases hc
  | rstnRelease => cases hc
  | _ => exact ⟨_, fun _ => rfl⟩

/-- While the station is held a command that moves neither RSTN nor the supply is not taken (R177, R178). -/
theorem exec_of_held {s : State} (h : s.held = true) {c : Instr} (hc : isResetEvent c = false) : exec c s = .next s := by
  obtain ⟨f, hf⟩ := exec_guarded hc
  rw [hf, State.unlessHeld_low h]

/-! ## Opening and freeing (R13 to R21) -/

/-- The regions of two entries lie apart, and so do their streams (R16, R17). -/
def Entry.apart (e e' : Entry) : Prop :=
  e.stream ≠ e'.stream ∧ (e.regionEnd ≤ e'.base ∨ e'.regionEnd ≤ e.base)

theorem Entry.apart.symm {e e' : Entry} (h : e.apart e') : e'.apart e := ⟨h.1.symm, h.2.symm⟩

/-- One entry replaced by one whose region is free of the others. -/
theorem tableSafe_of_replaced {s t : State} {i : EntryIdx} (hothers : otherEntries s t i)
    (hin : (t.entry i).state ≠ .free → regionInside (t.entry i)) (hplaces : (t.entry i).placesAgree)
    (hapart : (t.entry i).state ≠ .free → ∀ j, j ≠ i → (s.entry j).state ≠ .free → (t.entry i).apart (s.entry j))
    (hs : tableSafe s ∧ slotsSafe s) : tableSafe t ∧ slotsSafe t := by
  obtain ⟨⟨hins, hapts⟩, hslots⟩ := hs
  refine ⟨⟨fun j => ?_, fun j k hjk hj hk => ?_⟩, fun j => ?_⟩
  · by_cases hj : j = i
    · subst hj; exact hin
    · rw [hothers j hj]; exact hins j
  · by_cases hji : j = i
    · subst hji
      have hkj : k ≠ j := fun h => hjk h.symm
      rw [hothers k hkj] at hk ⊢
      exact hapart hj k hkj hk
    · rw [hothers j hji] at hj ⊢
      by_cases hki : k = i
      · subst hki
        exact (hapart hk j hji hj).symm
      · rw [hothers k hki] at hk ⊢
        exact hapts j k hjk hj hk
  · by_cases hj : j = i
    · subst hj; exact hplaces
    · rw [hothers j hj]; exact hslots j

/-- An entry replaced by one that holds no records, no subscribers and no frames of the host. -/
theorem Keeps.of_replaced {s t : State} (i : EntryIdx) (hmem : t.mem = s.mem) (hreplies : t.replies = s.replies)
    (hno : t.stationNo = s.stationNo) (hitems : t.items = s.items) (hqueue : t.noticeQueue = s.noticeQueue)
    (hpool : t.poolFree = s.poolFree) (hothers : otherEntries s t i) (hdead : (s.entry i).liveProducer = false)
    (hprod : (t.entry i).prod = {}) (hin : (t.entry i).state ≠ .free → regionInside (t.entry i))
    (hplaces : (t.entry i).placesAgree)
    (hapart : (t.entry i).state ≠ .free → ∀ j, j ≠ i → (s.entry j).state ≠ .free → (t.entry i).apart (s.entry j))
    (htx : s.tx.NoNewFrame t.tx) (hhand : ∀ f, t.handover = some f → s.handover = some f) : Keeps s t := by
  have hlist : (s.entry i).listAt s.stationNo → (s.entry i).prod.subs = [] := fun h => h.1 hdead
  have hwindow : (s.entry i).windowAt s.tx s.handover i → (t.entry i).windowAt t.tx t.handover i ∧ (t.entry i).owedAt := by
    rintro ⟨_, _, _, _, hframe, _⟩
    have hno : ∀ v, ¬(heldNewFrame s.tx i = some v ∨ handedNewFrame s.handover i = some v) := fun v hv =>
      nomatch hdead.symm.trans (hframe v.1 v.2.1 v.2.2 hv).1
    refine ⟨Entry.windowAt_of_no_frame ?_ ?_ ?_ ?_ ?_ ?_, ?_⟩
    · exact Option.eq_none_iff_forall_not_mem.mpr fun v hv => hno v (.inl (htx i v hv))
    · exact Option.eq_none_iff_forall_not_mem.mpr fun v hv => hno v (.inr (handedNewFrame_mono hhand hv))
    · simp [hprod]
    · simp [hprod, sequencesBefore]
    · simp [hprod, slotsOut]
    · simp [hprod]
    · simp [Entry.owedAt, hprod]
  have hkeep := tableSafe_of_replaced hothers hin hplaces hapart
  refine ⟨by simp only [memorySafe, hmem]; exact id, fun ⟨hsum, hlists⟩ => ⟨?_, fun j => ?_⟩,
    noticesSafe_congr hitems hqueue, by simp only [replySafe, hreplies]; exact id, hkeep,
    fun ⟨hwin, howed⟩ => ⟨fun j => ?_, fun j => ?_⟩⟩
  · have h := recordsHeld_of_others hothers
    rw [hlist (hlists i), hprod] at h
    have hsame : recordsHeld t = recordsHeld s := by simpa using h
    rw [hpool, hsame, hsum]
  · by_cases hj : j = i
    · subst hj; simp [hprod]
    · rw [hothers j hj, hno]; exact hlists j
  · by_cases hj : j = i
    · subst hj; exact (hwindow (hwin j)).1
    · rw [hothers j hj]
      exact Entry.windowAt.follows (Entry.Follows.refl _) htx hhand (hwin j)
  · by_cases hj : j = i
    · subst hj; exact (hwindow (hwin j)).2
    · rw [hothers j hj]; exact howed j

theorem Keeps.withdrawItem (s : State) (i : ItemIdx) : Keeps s (s.withdrawItem i) :=
  ⟨id, id, noticesSafe_of_cleared i (s.item_setItem_self i {} _) (fun _ hj => s.item_setItem_of_ne {} _ hj) rfl, id, id, id⟩

theorem Keeps.freeEntry (i : EntryIdx) (s : State) : Keeps s (s.freeEntry i).2 := by
  simp only [State.freeEntry]
  split
  · next h =>
    refine Keeps.trans ?_ (Keeps.withdrawItem _ (itemOf i))
    refine Keeps.of_replaced i rfl rfl rfl rfl rfl rfl (fun j hj => ?_) ?_ ?_ ?_ ?_ ?_ (Tx.noNewFrame_disown _ i)
      disownDone_mono
    · simp [State.entry_setEntry_of_ne _ _ hj]
    · simp [Entry.liveProducer, h]
    all_goals simp [Entry.placesAgree]
  · exact Keeps.refl s

/-- The parameters of an open command that R15 lets pass. -/
theorem OpenArgs.good_iff (a : OpenArgs) : a.bad = false ↔
    a.stream ≤ 63 ∧ 1 ≤ a.size ∧ a.size ≤ 64 ∧ 1 ≤ a.slots ∧ a.base ≤ 8191 ∧ a.base + a.slots * a.size ≤ 8192
    ∧ 1 ≤ a.threshold ∧ a.threshold ≤ a.slots ∧ a.modeCode ≤ 1 ∧ (a.modeCode = 1 → a.slots = 1) := by
  simp only [OpenArgs.bad, Bool.or_eq_false_iff, Bool.and_eq_false_iff, decide_eq_false_iff_not]
  simp only [Config.maxPayload, Config.memBytes]
  omega

/-- What the checks of R13 have found when they all pass. -/
theorem State.openCheck_ok {s : State} {i : EntryIdx} {a : OpenArgs} (h : s.openCheck i a = .ok) :
    s.station ≠ .offline ∧ (s.entry i).state = .free ∧ a.bad = false
    ∧ (∀ j, (s.entry j).state ≠ .free → (s.entry j).stream.toNat ≠ a.stream)
    ∧ ∀ j, (s.entry j).state ≠ .free → a.overlaps (s.entry j) = false := by
  unfold State.openCheck at h
  split at h
  · cases h
  · next hopen =>
    split at h
    · cases h
    · next hgood =>
      split at h
      · cases h
      · next hstream =>
        split at h
        · cases h
        · next hover =>
          rw [not_or, not_not] at hopen
          simp only [List.any_eq_true, Bool.and_eq_true, bne_iff_ne, beq_iff_eq, not_exists, not_and,
            Bool.not_eq_true] at hstream hover hgood
          exact ⟨hopen.1, hopen.2, hgood, fun j hj => hstream j (mem_allEntries j) hj,
            fun j hj => hover j (mem_allEntries j) hj⟩

/-- An open command keeps the invariants, whatever role it gives the entry (R13 to R19). -/
theorem Keeps.openWith {s : State} (index : Byte) {a : OpenArgs} {e : Entry} (hregion : e.stream = BitVec.ofNat 6 a.stream
      ∧ e.base = a.base ∧ e.slots = a.slots ∧ e.size = a.size ∧ (e.mode = .fixed → a.modeCode = 1))
    (hprod : e.prod = {}) (hcons : e.cons.held = 0 ∧ e.cons.writeIdx = 0 ∧ e.cons.readIdx = 0) :
    Keeps s (s.openWith index a e).2 := by
  simp only [State.openWith]
  split
  · exact Keeps.refl s
  · next i _ =>
    split
    · next hok =>
      obtain ⟨_, hfree, hgood, hstream, hover⟩ := State.openCheck_ok hok
      obtain ⟨hst, hs1, hs64, hsl, _, hend, _, _, _, hone⟩ := (OpenArgs.good_iff a).mp hgood
      obtain ⟨est, ebase, eslots, esize, emode⟩ := hregion
      obtain ⟨hheld, hwrite, hread⟩ := hcons
      refine Keeps.of_replaced i rfl rfl rfl rfl rfl rfl (fun j hj => State.entry_setEntry_of_ne _ _ hj) ?_ ?_
        (fun _ => ?_) ?_ (fun _ j hj hjf => ?_) (Tx.NoNewFrame.refl _) fun _ hf => hf
      · simp [Entry.liveProducer, hfree]
      · simpa using hprod
      · simp only [State.entry_setEntry_self, regionInside, ebase, eslots, esize]
        exact ⟨hsl, hs1, hs64, hend, fun hm => hone (emode hm)⟩
      · simp [Entry.placesAgree, hheld, hwrite, hread]
      · rw [State.entry_setEntry_self]
        refine ⟨fun heq => hstream j hjf ?_, ?_⟩
        · rw [← heq, est, BitVec.toNat_ofNat]
          exact Nat.mod_eq_of_lt (by omega)
        · have := hover j hjf
          simp only [OpenArgs.overlaps, Bool.and_eq_false_iff, decide_eq_false_iff_not, not_lt] at this
          simp only [Entry.regionEnd, ebase, eslots, esize] at this ⊢
          omega
    · exact Keeps.refl s

theorem modeOf_fixed {code : Nat} (h : modeOf code = .fixed) : code = 1 := by
  unfold modeOf at h
  split at h
  · assumption
  · cases h

theorem Keeps.execOpenProduce (s : State) (bytes : List Byte) (ragged : Bool) :
    ∃ t, exec (.openProduce bytes ragged) s = .next t ∧ Keeps s t := by
  cases hheld : s.held with
  | true => exact ⟨s, exec_of_held hheld rfl, Keeps.refl s⟩
  | false =>
    refine ⟨_, exec_openProduce hheld _ _, ?_⟩
    split
    · exact Keeps.writeType _ fun t => Keeps.openWith _ ⟨rfl, rfl, rfl, rfl, fun h => nomatch h⟩ rfl ⟨rfl, rfl, rfl⟩
    · exact Keeps.writeType _ fun t => Keeps.refl t

theorem Keeps.execOpenConsume (s : State) (bytes : List Byte) (ragged : Bool) :
    ∃ t, exec (.openConsume bytes ragged) s = .next t ∧ Keeps s t := by
  cases hheld : s.held with
  | true => exact ⟨s, exec_of_held hheld rfl, Keeps.refl s⟩
  | false =>
    refine ⟨_, exec_openConsume hheld _ _, ?_⟩
    split
    · exact Keeps.writeType _ fun t => Keeps.openWith _ ⟨rfl, rfl, rfl, rfl, modeOf_fixed⟩ rfl ⟨rfl, rfl, rfl⟩
    · exact Keeps.writeType _ fun t => Keeps.refl t

/-! ## Buffer memory, notices, parameters, resets -/

theorem Keeps.setMem {s : State} {m : Memory} (h : memorySafe s → Memory.wf m = true) : Keeps s { s with mem := m } :=
  ⟨h, id, id, id, id, id⟩

theorem Keeps.writeBuffer (bytes : List Byte) (s : State) : Keeps s (s.writeBuffer bytes).2 := by
  unfold State.writeBuffer
  split
  · split
    · exact Keeps.refl s
    · exact (SameTable.setPort s _).keeps.trans (Keeps.setMem fun h => Memory.wf_writeRun h _ _)
  · exact Keeps.refl s

theorem Keeps.setParameters (a b c : Byte) (s : State) : Keeps s (s.setParameters a b c).2 := by
  unfold State.setParameters
  split
  · exact Keeps.refl s
  · split
    · exact Keeps.refl s
    · refine SameTable.keeps ?_
      exact ⟨rfl, rfl, rfl, rfl, rfl, rfl, rfl, rfl, Tx.NoNewFrame.refl _⟩

theorem Keeps.goOnline (s : State) : Keeps s s.goOnline.2 := by
  unfold State.goOnline
  split
  · refine SameTable.keeps ?_
    exact ⟨rfl, rfl, rfl, rfl, rfl, rfl, rfl, rfl, Tx.NoNewFrame.refl _⟩
  · refine SameTable.keeps ?_
    exact ⟨rfl, rfl, rfl, rfl, rfl, rfl, rfl, rfl, Tx.NoNewFrame.refl _⟩
  · exact Keeps.refl s

theorem Keeps.answer (s : State) (cmd : ReadCmd) (rc : ResultCode) (bytes : List Byte) : Keeps s (s.answer cmd rc bytes) :=
  (SameTable.setPort s _).keeps

theorem Keeps.popNotice (s : State) : Keeps s s.popNotice := by
  unfold State.popNotice
  split
  · exact Keeps.answer s _ _ _
  · next i rest hq =>
    refine Keeps.trans ?_ (Keeps.answer _ _ _ _)
    have hpop : (noticeSafe s ∧ setsSafe s) → rest = s.noticeQueue.filter (fun j => j != i) := fun ⟨⟨hnodup, _⟩, _⟩ => by
      rw [hq] at hnodup ⊢
      have hi := (List.nodup_cons.mp hnodup).1
      rw [List.filter_cons_of_neg (by simp)]
      exact (List.filter_eq_self.mpr fun j hj => bne_iff_ne.mpr fun h : j = i => hi (h ▸ hj)).symm
    exact ⟨id, id, fun h => noticesSafe_of_cleared i (s.item_setItem_self i {} _)
      (fun _ hj => s.item_setItem_of_ne {} _ hj) (hpop h) h, id, id, id⟩

/-- A state with the values of a reset meets every invariant of the table, the notices and the replies. -/
theorem sound_of_resetValues {t : State} (h : resetValues t) : poolSafe t ∧ (noticeSafe t ∧ setsSafe t) ∧ replySafe t
    ∧ (tableSafe t ∧ slotsSafe t) ∧ windowSafe t ∧ owedSafe t := by
  obtain ⟨hentry, hpool, hitem, hqueue, _, _, _, _, htx, hhand, hreplies, _⟩ := h
  have hsum : recordsHeld t = 0 := by simp [recordsHeld_eq_sum, hentry]
  refine ⟨⟨by rw [hpool, hsum], fun i => ?_⟩, ⟨⟨?_, fun i => ?_⟩, (setsSafe_iff t).mpr fun i => ?_⟩, ?_,
    ⟨⟨fun i hi => ?_, fun i j _ hi => ?_⟩, fun i => ?_⟩, fun i => ?_, fun i => ?_⟩
  · simp [hentry]
  · simp [hqueue]
  · simp [hqueue, hitem]
  · rw [hitem]; exact Item.exact_idle
  · simp [replySafe, hreplies]
  · simp [hentry] at hi
  · simp [hentry] at hi
  · simp [hentry]
  · simp [hentry, htx, hhand, sequencesBefore, slotsOut, heldNewFrame, handedNewFrame]
  · simp [hentry]

/-- A reset keeps every invariant, if buffer memory keeps its own. -/
theorem Keeps.of_resetValues {s t : State} (hmem : memorySafe s → memorySafe t) (h : resetValues t) : Keeps s t := by
  obtain ⟨hpool, hnotices, hreplies, htable, hwindow⟩ := sound_of_resetValues h
  exact ⟨hmem, fun _ => hpool, fun _ => hnotices, fun _ => hreplies, fun _ => htable, fun _ => hwindow⟩

theorem Keeps.resetTo (s : State) {mem : Memory} (sa : Station) (rs : RateCode) (low : Bool)
    (hmem : memorySafe s → Memory.wf mem = true) : Keeps s (s.resetTo mem sa rs low) :=
  Keeps.of_resetValues hmem (s.resetTo_spec mem sa rs low)

theorem Keeps.of_power {s t : State} (p : Power) (h : Keeps s t) : Keeps s { t with power := p } :=
  h.trans (SameTable.keeps ⟨rfl, rfl, rfl, rfl, rfl, rfl, rfl, rfl, Tx.NoNewFrame.refl _⟩)

/-! ## GO_OFFLINE (R171) -/

theorem replies_head_mark (q : List Reply) (mark : Bool) :
    (match q with
      | [] => []
      | r :: rs => { r with inService := mark } :: rs).map (fun r : Reply => (r.dest, r.stream))
      = q.map (fun r => (r.dest, r.stream)) := by
  cases q <;> rfl

theorem Keeps.undoChoice (s : State) (f : TxFrame) : Keeps s (s.undoChoice f) := by
  unfold State.undoChoice
  split
  · exact Keeps.setAck s _ _
  · exact Keeps.of_replies (replySafe_of_keys (s := s) (by cases s.replies <;> rfl))
  · exact Keeps.refl s

theorem Keeps.dropFrame (s : State) : Keeps s { s with tx := .free } :=
  SameTable.keeps ⟨rfl, rfl, rfl, rfl, rfl, rfl, rfl, rfl, Tx.noNewFrame_free _⟩

theorem Keeps.stopTransmitter (s : State) : Keeps s s.stopTransmitter := by
  unfold State.stopTransmitter
  split
  · exact Keeps.refl s
  · exact (Keeps.undoChoice s _).trans (Keeps.dropFrame _)
  · split
    · exact Keeps.dropFrame s
    · exact (Keeps.undoChoice s _).trans (Keeps.dropFrame _)

theorem Keeps.endLive (s : State) (i : EntryIdx) (c : Cause) :
    Keeps s (if (s.entry i).live then s.endEntry i c else s) := by
  split
  · next h => exact Keeps.endEntry _ fun hfree => by simp [Entry.live, hfree] at h
  · exact Keeps.refl s

theorem Keeps.endAllLive (s : State) : Keeps s s.endAllLive := by
  unfold State.endAllLive
  generalize allEntries = l
  induction l generalizing s with
  | nil => exact Keeps.refl s
  | cons i l ih => exact (Keeps.endLive s i .offline).trans (ih _)

theorem Keeps.goOffline (s : State) : Keeps s s.goOffline.2 := by
  refine ((Keeps.stopTransmitter s).trans (Keeps.endAllLive _)).trans (Keeps.trans (Keeps.of_replies (q := []) ?_)
    (SameTable.keeps ?_))
  · exact fun _ => by simp [replySafe]
  · exact ⟨rfl, rfl, rfl, rfl, rfl, rfl, rfl, rfl, Tx.NoNewFrame.refl _⟩

end Sys2Proof.Machine
end

section
/-! PROOFS. What the choice, the start, a collision and the completions keep; then what every step keeps: the invariants of
Safety on buffer memory, the pool, the notices, the replies, the regions and the window. -/

namespace Sys2Proof.Machine

/- One after another: many theorems elaborated at once take a thread each. -/
set_option Elab.async false

open Sys2Proof.Safety

/-! ## A frame driven to its end (R145, R161) -/

theorem State.sent_sameTable (s : State) (f : TxFrame) : SameTable s (s.sent f) := by
  rw [State.sent_spec]
  exact ⟨rfl, rfl, rfl, rfl, rfl, rfl, rfl, rfl, Tx.noNewFrame_free _⟩

theorem State.driven_some {s : State} {f : TxFrame} {o : Bool} (h : s.driven = some (f, o)) :
    ∃ cs b rd, s.tx = .sending f cs b rd o := by
  unfold State.driven at h
  split at h
  · next g cs b rd o' htx =>
    split at h
    · cases h
      exact ⟨cs, b, rd, htx⟩
    · cases h
  · cases h

/-- What a completion that is taken finds: a frame handed over, or one just driven. -/
theorem State.completed_cases {s t : State} {f : TxFrame} {owned : Bool} (h : s.completed = some (f, owned, t)) :
    s.handover = some f ∧ owned = true ∧ t = { s with handover := none }
    ∨ s.handover = none ∧ (∃ cs b rd, s.tx = .sending f cs b rd (!owned)) ∧ t = s.sent f := by
  unfold State.completed at h
  split at h
  · next g hg =>
    cases h
    exact .inl ⟨hg, rfl, rfl⟩
  · next hnone =>
    obtain ⟨⟨g, o⟩, hd, hg⟩ := Option.map_eq_some_iff.mp h
    cases hg
    obtain ⟨cs, b, rd, htx⟩ := State.driven_some hd
    exact .inr ⟨hnone, ⟨cs, b, rd, by simpa using htx⟩, rfl⟩

/-- The other blocks' part of a completion keeps the invariants. -/
theorem Keeps.completed {s t : State} {f : TxFrame} {owned : Bool} (h : s.completed = some (f, owned, t)) : Keeps s t := by
  rcases State.completed_cases h with ⟨_, _, rfl⟩ | ⟨_, _, rfl⟩
  · exact Keeps.of_follows id id (fun i => Entry.Follows.refl _) rfl rfl rfl rfl (Tx.NoNewFrame.refl _) fun _ hf => nomatch hf
  · exact (s.sent_sameTable f).keeps

/-! ## The choice (R154, R161) -/

/-- A new frame whose transmission is over, handed over to its owner, is the one that the transmitter held. -/
theorem Keeps.vacated (s : State) : Keeps s s.vacated := by
  unfold State.vacated
  split
  · next d hnone hdriven =>
    obtain ⟨f, o⟩ := d
    obtain ⟨cs, b, rd, htx⟩ := State.driven_some hdriven
    rw [State.sent_spec]
    refine ⟨id, id, id, id, id, fun ⟨hwin, howed⟩ => ⟨fun i => ?_, howed⟩⟩
    obtain ⟨hlen, hseq, hroom, hend, hframe, _⟩ := hwin i
    refine ⟨hlen, hseq, hroom, hend, fun q slot fin hv => hframe q slot fin (.inl ?_), fun _ => rfl⟩
    rcases hv with hv | hv
    · cases hv
    · rw [htx, heldNewFrame_sending]
      cases o with
      | true => cases hv
      | false => exact hv
  · exact Keeps.refl s

theorem Keeps.takeChoice (s : State) (f : TxFrame) : Keeps s (s.takeChoice f) := by
  unfold State.takeChoice
  split
  · exact Keeps.setAck s _ _
  · exact Keeps.of_replies (replySafe_of_keys (s := s) (by cases s.replies <;> rfl))
  · exact Keeps.refl s

/-- A new frame that an entry offers carries next_seq, and the window has room for its record (R31, R33, R54). -/
theorem newFrame_of_offered {s : State} {i j : EntryIdx} {f : TxFrame} {q : Seq} {slot : Option Nat} {fin : Bool}
    (h : offered s i f) (hv : handedNewFrame (some f) j = some (q, slot, fin)) :
    i = j ∧ ¬owesCompletion s i ∧ (s.entry i).liveProducer = true ∧ q = (s.entry i).prod.nextSeq
    ∧ (s.entry i).prod.ring.length < 4 ∧ (slot.isSome = true → 0 < (s.entry i).prod.filled)
    ∧ (fin = true → (s.entry i).prod.endPending ≠ .clear) := by
  cases f with
  | data k again st q' fin' slot' len =>
    cases again with
    | true => cases hv
    | false =>
      simp only [handedNewFrame, Option.ite_none_right_eq_some, Option.some.injEq, Prod.mk.injEq] at hv
      obtain ⟨rfl, rfl, rfl, rfl⟩ := hv
      cases slot' with
      | some n =>
        obtain ⟨⟨_, hst, howes⟩, hki, _, ⟨hfill, hlen, _⟩, hq, _, _, hfin⟩ := h
        exact ⟨hki.symm, howes, (Entry.liveProducer_iff _).mpr hst, hq, hlen, fun _ => hfill, fun hf => (hfin.mp hf).1⟩
      | none =>
        obtain ⟨⟨_, hst, howes⟩, hki, _, ⟨_, hend, _, hlen, _⟩, hq, _⟩ := h
        exact ⟨hki.symm, howes, (Entry.liveProducer_iff _).mpr hst, hq, hlen, (fun hs => nomatch hs), fun _ => hend⟩
  | _ => cases hv

theorem not_newFrame_reply {d : Station} {st : StreamNo} {b : ReplyBody} {j : EntryIdx} {v : Seq × Option Nat × Bool} :
    handedNewFrame (some (.reply d st b)) j ≠ some v := fun h => nomatch h

/-- A candidate passed to the transmitter keeps the window (R36, R161). -/
theorem Keeps.chosen {s : State} {f : TxFrame} (hcand : s.candidate = some f) :
    Keeps s { s with tx := .chosen f false } := by
  refine ⟨id, id, id, id, id, fun ⟨hwin, howed⟩ => ⟨fun j => ?_, howed⟩⟩
  obtain ⟨hlen, hseq, hroom, hend, hframe, _⟩ := hwin j
  have hnew : ∀ q slot fin, handedNewFrame (some f) j = some (q, slot, fin) → offered s j f := fun q slot fin hv => by
    rcases State.candidate_cases hcand with ⟨r, rs, _, rfl⟩ | ⟨i, hi⟩ | ⟨i, hi⟩
    · exact absurd hv not_newFrame_reply
    · have hoff := (s.candidate_iff_offered i f).mp (.inr hi)
      exact (newFrame_of_offered hoff hv).1 ▸ hoff
    · have hoff := (s.candidate_iff_offered i f).mp (.inl hi)
      exact (newFrame_of_offered hoff hv).1 ▸ hoff
  refine ⟨hlen, hseq, hroom, hend, fun q slot fin hv => ?_, fun howes => ?_⟩
  · rcases hv with hv | hv
    · rw [heldNewFrame_chosen] at hv
      obtain ⟨_, _, hrest⟩ := newFrame_of_offered (hnew q slot fin hv) hv
      exact hrest
    · exact hframe q slot fin (.inr hv)
  · rw [heldNewFrame_chosen, Option.eq_none_iff_forall_not_mem]
    exact fun v hv => (newFrame_of_offered (hnew v.1 v.2.1 v.2.2 hv) hv).2.1 howes

theorem State.takeChoice_with_tx (s : State) (f : TxFrame) (x : Tx) :
    { s.takeChoice f with tx := x } = State.takeChoice { s with tx := x } f := by
  unfold State.takeChoice
  cases f <;> rfl

theorem Keeps.choose (s : State) : Keeps s s.choose := by
  unfold State.choose
  split
  · next f hf =>
    have hcand : s.vacated.candidate = some f := by
      unfold State.choosable at hf
      split at hf
      · exact hf
      · cases hf
    rw [State.takeChoice_with_tx]
    exact ((Keeps.vacated s).trans (Keeps.chosen hcand)).trans (Keeps.takeChoice _ f)
  · exact Keeps.refl s

/-! ## The start and a collision (R144, R145) -/

theorem Keeps.start {s : State} {f : TxFrame} (h : s.startable = some f) : Keeps s (s.start f) := by
  refine SameTable.keeps ?_
  refine ⟨by simp, by simp, by simp, by simp, by simp, by simp, by simp, by simp, fun i v hv => ?_⟩
  unfold State.startable at h
  split at h
  · next g granted htx =>
    split at h
    · cases h
      have hv' : heldNewFrame (.sending f (frameChars (s.onLine f)) 0 (decide (s.round ≠ .contention)) false) i = some v := hv
      rwa [heldNewFrame_sending, if_neg (by simp), ← heldNewFrame_chosen f granted, ← htx] at hv'
    · cases h
  · cases h

theorem Keeps.transmitStart (s : State) : Keeps s s.transmitStart := by
  simp only [State.transmitStart]
  split
  · exact Keeps.refl s
  · split
    · exact Keeps.flush s
    · next f hf => exact (Keeps.flush s).trans (Keeps.start hf)

theorem SameTable.stopDriving (s : State) : SameTable s s.stopDriving :=
  ⟨rfl, rfl, rfl, rfl, rfl, rfl, rfl, rfl, Tx.noNewFrame_free _⟩

theorem Keeps.countFailure (s : State) : Keeps s s.countFailure := by
  simp only [State.countFailure]
  split
  · refine Keeps.trans (SameTable.keeps ?_) (Keeps.raiseKind _ _ (by decide))
    exact ⟨rfl, rfl, rfl, rfl, rfl, rfl, rfl, rfl, Tx.NoNewFrame.refl _⟩
  · exact (SameTable.of_rest _ _ _ _ _ _ _ _ _).keeps

theorem Keeps.txCollision (s : State) (cause : DriveCause) (first : Bool) : Keeps s (s.txCollision cause first) := by
  unfold State.txCollision
  split
  · next f cs b rd o htx =>
    split
    · have hundo : Keeps s (if o then s else s.undoChoice f) := by
        split
        · exact Keeps.refl s
        · exact Keeps.undoChoice s f
      have hstop := hundo.trans ((SameTable.stopDriving _).trans (SameTable.collide _)).keeps
      dsimp only
      split
      · exact (hstop.trans (SameTable.of_rest _ _ _ _ _ _ _ _ _).keeps).trans (Keeps.countFailure _)
      · exact hstop.trans (SameTable.of_rest _ _ _ _ _ _ _ _ _).keeps
    · exact Keeps.refl s
  · exact Keeps.refl s

end Sys2Proof.Machine
end

section
/-! PROOFS. What the completions and the changes on pins keep; then what every command and every step keeps: the invariants
of Safety on buffer memory, the pool, the notices, the replies, the regions and the window (O53 to O55, O57 to O59). -/

namespace Sys2Proof.Machine

/- One after another: many theorems elaborated at once take a thread each. -/
set_option Elab.async false

open Sys2Proof.Safety

/-! ## A new frame completes (R34) -/

/-- The sequences before the next but one end with the next. -/
theorem sequencesBefore_succ (next : Seq) (n : Nat) :
    sequencesBefore (next + 1) (n + 1) = sequencesBefore next n ++ [next] := by
  rw [sequencesBefore_add]
  have hone : sequencesBefore (next + 1) 1 = [next] := by simp [sequencesBefore]
  rw [hone, sequencesBefore, BitVec.ofNat_add]
  congr 1
  refine List.map_congr_left fun k _ => ?_
  congr 1
  generalize BitVec.ofNat 8 n = x
  bv_omega

theorem Entry.afterNew_liveProducer {e : Entry} (p : Params) (q : Seq) (fin : Bool) (slot : Option Nat) (len : Nat)
    (h : e.liveProducer = true) : (e.afterNew p q fin slot len).liveProducer = true := by
  rw [Entry.liveProducer_iff] at h ⊢
  simp only [Entry.afterNew]
  split
  · exact .inr rfl
  · exact h

/-- The record of a completed new frame keeps the entry within its window, if the frame was the entry's next (R34, R36). -/
theorem Entry.windowAt.afterNew {e : Entry} {x y : Tx} {h h' : Option TxFrame} {i : EntryIdx} (p : Params) {q : Seq}
    {fin : Bool} {slot : Option Nat} (len : Nat) (hw : e.windowAt x h i)
    (hnew : heldNewFrame x i = some (q, slot, fin) ∨ handedNewFrame h i = some (q, slot, fin))
    (hx : heldNewFrame y i = none) (hh : handedNewFrame h' i = none) : (e.afterNew p q fin slot len).windowAt y h' i := by
  obtain ⟨_, hseq, hroom, hend, hframe, _⟩ := hw
  obtain ⟨_, rfl, hlen, hfill, hfin⟩ := hframe q slot fin hnew
  refine Entry.windowAt_of_no_frame hx hh ?_ ?_ ?_ fun r hr hre => ?_
  · simp only [Entry.afterNew, List.length_append, List.length_singleton]
    omega
  · simp only [Entry.afterNew, List.map_append, hseq, List.length_append, List.length_singleton, sequencesBefore_succ]
    rfl
  · simp only [Entry.afterNew, slotsOut_append]
    cases slot with
    | none => simpa [slotsOut, newRecord] using hroom
    | some k =>
      have hpos := hfill rfl
      simp only [slotsOut, newRecord, Option.isSome_some, if_true, List.countP_singleton] at hroom ⊢
      omega
  · rcases List.mem_append.mp hr with hr | hr
    · exact hend r hr hre
    · rw [List.mem_singleton.mp hr] at hre
      exact hfin hre

theorem Entry.owedAt.afterNew {e : Entry} (p : Params) (q : Seq) (fin : Bool) (slot : Option Nat) (len : Nat)
    (ho : e.owedAt) : (e.afterNew p q fin slot len).owedAt := by
  intro r hr n hn
  rcases List.mem_append.mp hr with hr | hr
  · exact ho r hr n hn
  · rw [List.mem_singleton.mp hr] at hn
    simp only [newRecord, inSet_stationsOf, List.contains_eq_mem, decide_eq_true_eq] at hn
    exact (isSubscriber_iff _ _).mpr hn

/-- The completion of a new frame at its entry keeps the invariants (R34, R161). -/
theorem Keeps.newDone {s t : State} {i : EntryIdx} {st : StreamNo} {q : Seq} {fin : Bool} {slot : Option Nat} {len : Nat}
    (h : s.completed = some (.data i false st q fin slot len, true, t)) : Keeps s (t.newDone i q fin slot len) := by
  have hsame : SameTable s { t with handover := s.handover } ∧ t.handover = none := by
    rcases State.completed_cases h with ⟨_, _, rfl⟩ | ⟨hnone, _, rfl⟩
    · exact ⟨⟨rfl, rfl, rfl, rfl, rfl, rfl, rfl, rfl, Tx.NoNewFrame.refl _⟩, rfl⟩
    · have hsent := s.sent_sameTable (.data i false st q fin slot len)
      exact ⟨⟨hsent.mem, hsent.entries, hsent.poolFree, hsent.items, hsent.noticeQueue, hsent.replies, hsent.stationNo,
        rfl, hsent.tx⟩, hsent.handover.trans hnone⟩
  obtain ⟨hsame, hhand⟩ := hsame
  have hentry : ∀ j, t.entry j = s.entry j := State.entry_congr hsame.entries
  have hfound : (s.entry i).windowAt s.tx s.handover i →
      (heldNewFrame s.tx i = some (q, slot, fin) ∨ handedNewFrame s.handover i = some (q, slot, fin))
      ∧ heldNewFrame t.tx i = none := fun hw => by
    rcases State.completed_cases h with ⟨hs, _, rfl⟩ | ⟨_, ⟨cs, b, rd, htx⟩, rfl⟩
    · obtain ⟨_, _, _, _, _, halone⟩ := hw
      exact ⟨.inr (by simp [hs, handedNewFrame]), halone ⟨_, hs, rfl⟩⟩
    · exact ⟨.inl (by simp [htx, heldNewFrame_sending, handedNewFrame]), by rw [State.sent_spec]; rfl⟩
  simp only [State.newDone]
  split
  · next hlive =>
    have hset : Keeps s (t.setEntry i ((t.entry i).afterNew t.params q fin slot len)) := by
      refine Keeps.of_entry i hsame.mem hsame.replies hsame.stationNo hsame.items hsame.noticeQueue (fun j hj => ?_) ?_
        (fun hl => ?_) (fun hw ho => ?_) hsame.tx fun f hf => nomatch hhand.symm.trans hf
      · rw [State.entry_setEntry_of_ne _ _ hj, hentry]
      · rw [State.entry_setEntry_self, hentry]
        have hfree := Entry.state_ne_free_of_liveProducer (hentry i ▸ hlive)
        have hfree' := Entry.state_ne_free_of_liveProducer
          (Entry.afterNew_liveProducer t.params q fin slot len (hentry i ▸ hlive))
        exact ⟨iff_of_false hfree' hfree, ⟨rfl, rfl, rfl, rfl, rfl⟩, id⟩
      · rw [State.entry_setEntry_self, hentry]
        have hdead : ((s.entry i).afterNew t.params q fin slot len).liveProducer ≠ false := fun hf => nomatch
          (Entry.afterNew_liveProducer t.params q fin slot len (hentry i ▸ hlive)).symm.trans hf
        exact ⟨⟨fun hf => absurd hf hdead, hl.2⟩, fun _ => congrArg (· + _) hsame.poolFree⟩
      · obtain ⟨hnew, hnone⟩ := hfound hw
        rw [State.entry_setEntry_self, hentry]
        refine ⟨hw.afterNew t.params len hnew hnone ?_, ho.afterNew _ _ _ _ _⟩
        rw [State.setEntry_handover, hhand]
        rfl
    split
    · refine hset.trans (Keeps.retire ?_)
      rw [State.entry_setEntry_self]
      exact Entry.state_ne_free_of_liveProducer (Entry.afterNew_liveProducer _ _ _ _ _ hlive)
    · exact hset
  · exact Keeps.completed h

/-! ## The other completions -/

theorem Keeps.resendDone (s : State) (i : EntryIdx) (q : Seq) : Keeps s (s.resendDone i q) := by
  simp only [State.resendDone]
  split
  · refine Keeps.setEntry (Entry.Follows.of_ring _ _ rfl rfl rfl rfl ?_ ?_)
    · refine ring_follows_map (fun r => ?_) _
      split
      · exact ⟨rfl, rfl, fun _ h => h⟩
      · exact FrameRec.Follows.refl r
    · exact slotsOut_map (fun r => by split <;> rfl) _
  · exact Keeps.refl s

theorem Keeps.holdDone (s : State) (i : EntryIdx) : Keeps s (s.holdDone i) := by
  simp only [State.holdDone]
  split
  · refine (Keeps.countMisses s i _).trans (Keeps.setEntry (Entry.Follows.of_ring _ _ ?_ rfl rfl rfl (ring_follows_self _) rfl))
    exact stations_map (f := fun r => { r with heard := false }) (fun _ => rfl) _
  · exact Keeps.refl s

theorem Keeps.joinDone (s : State) (i : EntryIdx) : Keeps s (s.joinDone i) := by
  simp only [State.joinDone]
  split
  · exact Keeps.setEntry (Entry.Follows.of_prod Iff.rfl rfl ⟨rfl, rfl, rfl, rfl, rfl⟩ rfl id)
  · exact Keeps.refl s

theorem Keeps.ackDone (s : State) (i : EntryIdx) : Keeps s (s.ackDone i) := by
  simp only [State.ackDone]
  split
  · next h =>
    refine (Keeps.setAck s i _).trans (Keeps.endEntry _ ?_)
    simp [h.2.2]
  · exact Keeps.setAck s i _

theorem Keeps.leaveDone (s : State) (i : EntryIdx) : Keeps s (s.leaveDone i) := by
  simp only [State.leaveDone]
  split
  · next h => exact Keeps.endEntry _ (by simp [h])
  · exact Keeps.refl s

theorem replySent_sublist (q : List Reply) : List.Sublist (replySent q) q := by
  cases q with
  | nil => exact List.Sublist.refl _
  | cons r rs =>
    simp only [Machine.replySent]
    split
    · exact List.sublist_cons_self _ _
    · exact List.Sublist.refl _

theorem Keeps.replySent (s : State) : Keeps s { s with replies := replySent s.replies } := by
  refine Keeps.of_replies fun ⟨hlen, hnodup⟩ => ?_
  have hsub := replySent_sublist s.replies
  exact ⟨hsub.length_le.trans hlen, hnodup.sublist (hsub.map _)⟩

/-- A completion keeps the invariants if its owner's part does. -/
theorem Keeps.owned {s t : State} {f : TxFrame} {owned : Bool} {act : State → State}
    (h : s.completed = some (f, owned, t)) (hact : ∀ u, Keeps u (act u)) : Keeps s (if owned then act t else t) := by
  split
  · exact (Keeps.completed h).trans (hact t)
  · exact Keeps.completed h

/-! ## Pins, time and the queue -/

/-- A change of the host port, of the levels on the pins and of the queues. -/
theorem SameTable.of_pins {s : State} (port : Port) (draws : Nat) (rx : Receiver) (csn low steady : Bool) (power : Power)
    (pins : List PinEvent) (pending : List Instr) :
    SameTable s { s with
      port := port, misoDraws := draws, rx := rx, csnAsserted := csn, rxdLow := low, rxdSteady := steady,
      power := power, pins := pins, pending := pending } :=
  ⟨rfl, rfl, rfl, rfl, rfl, rfl, rfl, rfl, Tx.NoNewFrame.refl _⟩

theorem SameTable.refl (s : State) : SameTable s s := SameTable.of_pins _ _ _ _ _ _ _ _ _

theorem SameTable.ssnFall (s : State) : SameTable s (s.pinEvent .ssnFall) := by
  simp only [State.pinEvent, State.heldSsnFalls]
  split
  · split
    · exact SameTable.refl s
    · exact SameTable.of_pins _ _ _ _ _ _ _ _ _
  · rw [State.ssnFalls_frame]
    exact SameTable.of_pins _ _ _ _ _ _ _ _ _

theorem SameTable.sckRise (s : State) (mosi : Bool) : SameTable s (s.pinEvent (.sckRise mosi)) := by
  simp only [State.pinEvent, State.heldSckRises]
  split
  · split
    · exact SameTable.of_pins _ _ _ _ _ _ _ _ _
    · exact SameTable.refl s
  · rw [State.sckRises_frame]
    exact SameTable.of_pins _ _ _ _ _ _ _ _ _

theorem SameTable.sckFall (s : State) : SameTable s (s.pinEvent .sckFall) := by
  simp only [State.pinEvent, State.heldSckFalls]
  split
  · split
    · rw [State.untakenFalls_frame]
      exact SameTable.of_pins _ _ _ _ _ _ _ _ _
    · exact SameTable.refl s
  · rw [State.sckFalls_frame]
    exact SameTable.of_pins _ _ _ _ _ _ _ _ _

theorem SameTable.ssnRise (s : State) (sa : Station) (rs : RateCode) : SameTable s (s.pinEvent (.ssnRise sa rs)) := by
  simp only [State.pinEvent]
  split
  · exact SameTable.of_pins _ _ _ _ _ _ _ _ _
  · rw [State.ssnRises_frame]
    exact SameTable.of_pins _ _ _ _ _ _ _ _ _

theorem Keeps.pinEvent (s : State) (e : PinEvent) : Keeps s (s.pinEvent e) := by
  cases e with
  | ssnFall => exact (SameTable.ssnFall s).keeps
  | sckRise mosi => exact (SameTable.sckRise s mosi).keeps
  | sckFall => exact (SameTable.sckFall s).keeps
  | ssnRise sa rs => exact (SameTable.ssnRise s sa rs).keeps
  | rxdFall =>
    rw [State.pinEvent, State.rxdFalls_frame]
    exact (SameTable.of_pins _ _ _ _ _ _ _ _ _).keeps
  | rxdReturn => exact (SameTable.of_pins _ _ _ _ _ _ _ _ _).keeps
  | csnAssert =>
    rw [State.pinEvent, State.csnAsserts_frame]
    exact (SameTable.of_pins _ _ _ _ _ _ _ _ _).keeps
  | csnRelease => exact (SameTable.of_pins _ _ _ _ _ _ _ _ _).keeps
  | supplyRise => exact Keeps.of_power _ (Keeps.resetTo s _ _ _ id)
  | powerRelease sa rs =>
    simp only [State.pinEvent, State.powerReleased]
    split
    · exact Keeps.of_power _ (Keeps.resetTo s _ _ _ fun _ => rfl)
    · exact Keeps.refl s
  | clearingEnd =>
    rw [State.pinEvent, State.clearingEnds_frame]
    exact (SameTable.of_pins _ _ _ _ _ _ _ _ _).keeps

/-- A bit time moves the timers of the entries and no other field of theirs (R173). -/
theorem State.entry_advance (s : State) (i : EntryIdx) :
    s.advance.entry i = { s.entry i with
      timer := if s.atMark && s.station == .online then (s.entry i).timer.tick else (s.entry i).timer } := by
  simp only [State.advance, State.entry]
  split <;> simp

theorem Keeps.advance (s : State) : Keeps s s.advance := by
  refine Keeps.of_follows id id (fun i => ?_) rfl rfl rfl rfl (Tx.noNewFrame_tick s.tx) fun _ hf => hf
  rw [State.entry_advance]
  exact Entry.Follows.of_prod Iff.rfl rfl ⟨rfl, rfl, rfl, rfl, rfl⟩ rfl id

theorem Keeps.setPending {s t : State} (q : List Instr) (h : Keeps s t) : Keeps s { t with pending := q } :=
  h.trans (SameTable.of_pins _ _ _ _ _ _ _ _ _).keeps

theorem Keeps.idle (s : State) : Keeps s s.idle := by
  unfold State.idle
  split
  · exact (Keeps.refl s).setPending _
  · exact Keeps.trans (SameTable.of_pins _ _ _ _ _ _ _ _ _).keeps (Keeps.pinEvent _ _)
  · split
    · exact Keeps.refl s
    · exact (Keeps.advance s).setPending _

/-! ## Every command and every step -/

theorem Keeps.setPort (s : State) (p : Port) : Keeps s { s with port := p } := (SameTable.setPort s p).keeps

/-- The commands of the host port that only answer (R180 to R182, R188). -/
theorem Keeps.of_read {s : State} (hh : s.held = false) {c : Instr}
    (hc : c ∈ [Instr.readStatus, .statusRelatch, .readIdentity, .readNotice, .hostByteRead]
      ∨ (∃ b, c = .readEntry b ∨ c = .readSubscribers b ∨ c = .readSlot b) ∨ (∃ b b', c = .readBuffer b b')
      ∨ (∃ b, c = .unknownCommandCode b) ∨ ∃ b bs, c = .readCommandShortFraming b bs) :
    ∃ t, exec c s = .next t ∧ Keeps s t := by
  rcases hc with hc | ⟨b, rfl | rfl | rfl⟩ | ⟨b, b', rfl⟩ | ⟨b, rfl⟩ | ⟨b, bs, rfl⟩
  · simp only [List.mem_cons, List.not_mem_nil, or_false] at hc
    rcases hc with rfl | rfl | rfl | rfl | rfl
    · exact ⟨_, exec_readStatus hh, Keeps.answer s _ _ _⟩
    · refine ⟨_, exec_statusRelatch hh, ?_⟩
      split
      · exact Keeps.setPort s _
      · exact Keeps.refl s
    · exact ⟨_, exec_readIdentity hh, Keeps.answer s _ _ _⟩
    · exact ⟨_, exec_readNotice hh, Keeps.popNotice s⟩
    · refine ⟨_, exec_hostByteRead hh, ?_⟩
      split
      · exact Keeps.refl s
      · exact Keeps.setPort s _
  · refine ⟨_, exec_readEntry hh b, ?_⟩
    split
    · exact Keeps.answer s _ _ _
    · exact Keeps.answer s _ _ _
  · refine ⟨_, exec_readSubscribers hh b, ?_⟩
    split
    · exact Keeps.answer s _ _ _
    · exact Keeps.answer s _ _ _
  · refine ⟨_, exec_readSlot hh b, ?_⟩
    split
    · exact Keeps.answer s _ _ _
    · dsimp only
      split
      · exact (Keeps.answer s _ _ _).trans (Keeps.setPort _ _)
      · exact Keeps.answer s _ _ _
  · refine ⟨_, exec_readBuffer hh b b', ?_⟩
    split
    · exact Keeps.answer s _ _ _
    · exact (Keeps.answer s _ _ _).trans (Keeps.setPort _ _)
  · refine ⟨_, exec_unknownCommandCode hh b, ?_⟩
    split
    · exact Keeps.setPort s _
    · split
      · exact Keeps.refl s
      · exact Keeps.setPort s _
  · refine ⟨_, exec_readCommandShortFraming hh b bs, ?_⟩
    split
    · exact Keeps.setPort s _
    · exact Keeps.refl s

/-- The command of a completion keeps the invariants: it takes a completion of its kind with its owner's part, or none. -/
theorem Keeps.of_completion {s : State} (hh : s.held = false) {c : Instr}
    (hc : c ∈ [Instr.newFrameComplete, .resendComplete, .holdComplete, .joinComplete, .ackComplete, .leaveComplete,
      .replyComplete]) : ∃ t, exec c s = .next t ∧ Keeps s t := by
  simp only [List.mem_cons, List.not_mem_nil, or_false] at hc
  rcases hc with rfl | rfl | rfl | rfl | rfl | rfl | rfl
  · refine ⟨_, exec_newFrameComplete hh, ?_⟩
    split
    · next owned t h =>
      cases owned with
      | true => exact Keeps.newDone h
      | false => exact Keeps.completed h
    · exact Keeps.refl s
  · refine ⟨_, exec_resendComplete hh, ?_⟩
    split
    · next h => exact Keeps.owned (act := fun u => u.resendDone _ _) h fun u => Keeps.resendDone u _ _
    · exact Keeps.refl s
  · refine ⟨_, exec_holdComplete hh, ?_⟩
    split
    · next h => exact Keeps.owned (act := fun u => u.holdDone _) h fun u => Keeps.holdDone u _
    · exact Keeps.refl s
  · refine ⟨_, exec_joinComplete hh, ?_⟩
    split
    · next h => exact Keeps.owned (act := fun u => u.joinDone _) h fun u => Keeps.joinDone u _
    · exact Keeps.refl s
  · refine ⟨_, exec_ackComplete hh, ?_⟩
    split
    · next h => exact Keeps.owned (act := fun u => u.ackDone _) h fun u => Keeps.ackDone u _
    · exact Keeps.refl s
  · refine ⟨_, exec_leaveComplete hh, ?_⟩
    split
    · next h => exact Keeps.owned (act := fun u => u.leaveDone _) h fun u => Keeps.leaveDone u _
    · exact Keeps.refl s
  · refine ⟨_, exec_replyComplete hh, ?_⟩
    split
    · next h => exact (Keeps.completed h).trans (Keeps.replySent _)
    · exact Keeps.refl s

/-- Every command keeps the invariants. -/
theorem Keeps.exec (c : Instr) (s : State) : ∃ t, exec c s = .next t ∧ Keeps s t := by
  by_cases hheld : s.held = true ∧ isResetEvent c = false
  · exact ⟨s, exec_of_held hheld.1 hheld.2, Keeps.refl s⟩
  have hh : isResetEvent c = false → s.held = false := fun hc => by simpa [hc] using hheld
  cases c with
  | powerOn sa rs => exact ⟨_, rfl, Keeps.of_power _ (Keeps.resetTo s _ _ _ fun _ => rfl)⟩
  | rstnLow => exact ⟨_, rfl, Keeps.resetTo s _ _ _ id⟩
  | rstnRelease sa rs =>
    refine ⟨_, rfl, ?_⟩
    split
    · exact Keeps.resetTo s _ _ _ id
    · exact Keeps.refl s
  | readStatus | statusRelatch | readIdentity | readNotice | hostByteRead => exact Keeps.of_read (hh rfl) (by simp)
  | readEntry | readSubscribers | readSlot | readBuffer | unknownCommandCode | readCommandShortFraming =>
    exact Keeps.of_read (hh rfl) (by simp)
  | newFrameComplete | resendComplete | holdComplete | joinComplete | ackComplete | leaveComplete | replyComplete =>
    exact Keeps.of_completion (hh rfl) (by simp)
  | writeBuffer bs g => exact ⟨_, exec_writeBuffer (hh rfl) bs g, Keeps.writeType _ fun t => Keeps.writeBuffer bs t⟩
  | setParameters bs g =>
    refine ⟨_, exec_setParameters (hh rfl) bs g, ?_⟩
    split
    · exact Keeps.writeType _ fun t => Keeps.setParameters _ _ _ t
    · exact Keeps.writeType _ fun t => Keeps.refl t
  | goOnline bs g => exact ⟨_, exec_goOnline (hh rfl) bs g, Keeps.writeType _ Keeps.goOnline⟩
  | goOffline bs g => exact ⟨_, exec_goOffline (hh rfl) bs g, Keeps.writeType _ Keeps.goOffline⟩
  | reset bs g sa rs =>
    exact ⟨_, exec_reset (hh rfl) bs g sa rs, Keeps.writeType _ fun t => Keeps.resetTo t _ _ _ id⟩
  | openProduce bs g => exact Keeps.execOpenProduce s bs g
  | openConsume bs g => exact Keeps.execOpenConsume s bs g
  | post bs g => exact ⟨_, exec_post (hh rfl) bs g, Keeps.countCommand _ _ Keeps.post⟩
  | release bs g => exact ⟨_, exec_release (hh rfl) bs g, Keeps.countCommand _ _ Keeps.release⟩
  | close bs g => exact ⟨_, exec_close (hh rfl) bs g, Keeps.entryCommand _ _ Keeps.close⟩
  | abort bs g => exact ⟨_, exec_abort (hh rfl) bs g, Keeps.entryCommand _ _ Keeps.abort⟩
  | free bs g => exact ⟨_, exec_free (hh rfl) bs g, Keeps.entryCommand _ _ Keeps.freeEntry⟩
  | markedCharacter d => exact ⟨_, exec_markedCharacter (hh rfl) d, Keeps.marked s d⟩
  | unmarkedCharacter d => exact ⟨_, exec_unmarkedCharacter (hh rfl) d, Keeps.unmarked s d⟩
  | collisionSeen k => exact ⟨_, exec_collisionSeen (hh rfl) k, Keeps.collisionSeen s k⟩
  | receiverIdleGap => exact ⟨_, exec_receiverIdleGap (hh rfl), Keeps.receiverGap s⟩
  | lineBusy k => exact ⟨_, exec_lineBusy (hh rfl) k, Keeps.lineBusied s k⟩
  | lineIdle => exact ⟨_, exec_lineIdle (hh rfl), Keeps.lineIdled s⟩
  | slotEnd => exact ⟨_, exec_slotEnd (hh rfl), Keeps.slotEnded s⟩
  | quietTimerExpiry => exact ⟨_, exec_quietTimerExpiry (hh rfl), Keeps.quietExpired s⟩
  | ackTimerExpiry i => exact ⟨_, exec_ackTimerExpiry (hh rfl) i, Keeps.ackExpired s i⟩
  | holdTimerExpiry i => exact ⟨_, exec_holdTimerExpiry (hh rfl) i, Keeps.holdExpired s i⟩
  | joinTimerExpiry i => exact ⟨_, exec_joinTimerExpiry (hh rfl) i, Keeps.joinExpired s i⟩
  | silenceTimerExpiry i => exact ⟨_, exec_silenceTimerExpiry (hh rfl) i, Keeps.silenceExpired s i⟩
  | dataFrame n st q fin p => exact ⟨_, exec_dataFrame (hh rfl) n st q fin p, Keeps.frameEvent s _⟩
  | holdFrame n st q => exact ⟨_, exec_holdFrame (hh rfl) n st q, Keeps.frameEvent s _⟩
  | ackFrame n st d q k => exact ⟨_, exec_ackFrame (hh rfl) n st d q k, Keeps.frameEvent s _⟩
  | joinFrame n st k z => exact ⟨_, exec_joinFrame (hh rfl) n st k z, Keeps.frameEvent s _⟩
  | acceptFrame n st d q z => exact ⟨_, exec_acceptFrame (hh rfl) n st d q z, Keeps.frameEvent s _⟩
  | refuseFrame n st d r => exact ⟨_, exec_refuseFrame (hh rfl) n st d r, Keeps.frameEvent s _⟩
  | leaveFrame n st => exact ⟨_, exec_leaveFrame (hh rfl) n st, Keeps.frameEvent s _⟩
  | schedulerChoice => exact ⟨_, exec_schedulerChoice (hh rfl), Keeps.choose s⟩
  | transmitStart => exact ⟨_, exec_transmitStart (hh rfl), Keeps.transmitStart s⟩
  | transmitCollision k first => exact ⟨_, exec_transmitCollision (hh rfl) k first, Keeps.txCollision s k first⟩

/-- Every step keeps the invariants. -/
theorem Keeps.step {s t : State} (h : step s = .next t) : Keeps s t := by
  cases hp : s.pending with
  | nil =>
    rw [step_empty s hp] at h
    cases h
    exact Keeps.idle s
  | cons c rest =>
    simp only [Machine.step, hp] at h
    obtain ⟨u, hu, hk⟩ := Keeps.exec c { s with pending := rest }
    cases hu.symm.trans h
    exact ((Keeps.refl s).setPending rest).trans hk

/-! ## The invariants as the obligations state them -/

/-- Settles O53: `Keeps.step`, on buffer memory. -/
theorem stepKeepsMemoryCanonical : Obligations.StepKeepsMemoryCanonical :=
  fun _ _ hs h => (Keeps.step h).memory hs

/-- Settles O54: `Keeps.step`, on the pool and the subscriber lists. -/
theorem stepKeepsThePoolWhole : Obligations.StepKeepsThePoolWhole :=
  fun _ _ hs h => (Keeps.step h).pool hs

/-- Settles O55: `Keeps.step`, on the notice queue and the items. -/
theorem stepKeepsTheNoticeQueueExact : Obligations.StepKeepsTheNoticeQueueExact :=
  fun _ _ hnotice hsets h => (Keeps.step h).notices ⟨hnotice, hsets⟩

/-- Settles O57: `Keeps.step`, on the reply queue. -/
theorem stepKeepsTheReplyQueue : Obligations.StepKeepsTheReplyQueue :=
  fun _ _ hs h => (Keeps.step h).replies hs

/-- Settles O58: `Keeps.step`, on the table and the slots. -/
theorem stepKeepsRegionsAndSlotsApart : Obligations.StepKeepsRegionsAndSlotsApart :=
  fun _ _ htable hslots h => (Keeps.step h).table ⟨htable, hslots⟩

/-- Settles O59: `Keeps.step`, on the window and the owed sets. -/
theorem stepKeepsTheWindowAndOwedSets : Obligations.StepKeepsTheWindowAndOwedSets :=
  fun _ _ hwindow howed h => (Keeps.step h).window ⟨hwindow, howed⟩

end Sys2Proof.Machine
end

section
/-! PROOFS. What the owners of frames, the host and the expiries leave to the station: the transmitter starts nothing, no
entry comes to life, and the receiver, the round and the quiet timer stay under the station state. -/

namespace Sys2Proof.Machine

/- One after another: many theorems elaborated at once take a thread each. -/
set_option Elab.async false

open Sys2Proof.Safety

/-! ## The relation -/

/-- Whether the transmitter drives a frame (R143). -/
def Tx.driving : Tx → Bool
  | .sending _ _ _ _ _ => true
  | _ => false

theorem State.txe_eq (s : State) : s.txe = s.tx.driving := by cases h : s.tx <;> simp [State.txe, h, Tx.driving]

/-- The transmitter at most loses its frame, and goes on driving if it drives. -/
def Tx.Rests (x y : Tx) : Prop := (y ≠ .free → x ≠ .free) ∧ y.driving = x.driving

theorem Tx.rests_disown (x : Tx) (i : EntryIdx) : x.Rests (x.disown i) := by
  cases x with
  | free => exact ⟨id, rfl⟩
  | chosen f g =>
    refine ⟨fun _ => nofun, ?_⟩
    simp only [Tx.disown]
    split
    · rfl
    · rfl
  | sending f cs b r o =>
    refine ⟨fun _ => nofun, ?_⟩
    simp only [Tx.disown]
    split
    · rfl
    · rfl

theorem Tx.rests_withdrawJoin (x : Tx) (i : EntryIdx) : x.Rests (x.withdrawJoin i) := by
  unfold Tx.withdrawJoin
  split
  · refine ⟨fun _ => nofun, ?_⟩
    split
    · rfl
    · rfl
  · exact ⟨id, rfl⟩

theorem Tx.rests_withdrawResend (x : Tx) (i : EntryIdx) (gone : List FrameRec) : x.Rests (x.withdrawResend i gone) := by
  unfold Tx.withdrawResend
  split
  · refine ⟨fun _ => nofun, ?_⟩
    split
    · rfl
    · rfl
  · exact ⟨id, rfl⟩

/-- An entry that comes to no life and, unless it becomes FREE, keeps its role and its region. -/
def Entry.Rests (e e' : Entry) : Prop :=
  (e'.live = true → e.live = true)
  ∧ (e'.state ≠ .free → e.state ≠ .free ∧ e'.role = e.role ∧ e'.base = e.base ∧ e'.slots = e.slots ∧ e'.size = e.size)

theorem Entry.Rests.refl (e : Entry) : e.Rests e := ⟨id, fun h => ⟨h, rfl, rfl, rfl, rfl⟩⟩

theorem Entry.Rests.trans {e e' e'' : Entry} (h : e.Rests e') (h' : e'.Rests e'') : e.Rests e'' := by
  refine ⟨h.1 ∘ h'.1, fun hfree => ?_⟩
  obtain ⟨hfree', hrole', hbase', hslots', hsize'⟩ := h'.2 hfree
  obtain ⟨hfree, hrole, hbase, hslots, hsize⟩ := h.2 hfree'
  exact ⟨hfree, hrole'.trans hrole, hbase'.trans hbase, hslots'.trans hslots, hsize'.trans hsize⟩

/-- A change of other fields. -/
theorem Entry.Rests.of_same {e e' : Entry} (hstate : e'.state = e.state) (hrole : e'.role = e.role)
    (hregion : e'.base = e.base ∧ e'.slots = e.slots ∧ e'.size = e.size) : e.Rests e' := by
  refine ⟨fun h => ?_, fun h => ⟨hstate ▸ h, hrole, hregion⟩⟩
  simpa only [Entry.live, hstate] using h

/-- A change of the state of a live entry. -/
theorem Entry.Rests.of_live {e e' : Entry} (hlive : e.live = true) (hrole : e'.role = e.role)
    (hregion : e'.base = e.base ∧ e'.slots = e.slots ∧ e'.size = e.size) : e.Rests e' := by
  refine ⟨fun _ => hlive, fun _ => ⟨fun h => ?_, hrole, hregion⟩⟩
  simp [Entry.live, h] at hlive

/-- A step that leaves the station state, starts nothing at the transmitter and brings no entry to life; it starts a round
only while ONLINE and the quiet timer only in LISTENING, and keeps the receiver in or out of OFF and SUSPENDED. -/
structure Rests (s t : State) : Prop where
  station : t.station = s.station
  round : t.round ≠ .contention → s.round ≠ .contention ∨ s.station = .online
  quiet : t.quiet.isSome = true → s.quiet.isSome = true ∨ s.station = .listening
  off : t.rx.state = .off ↔ s.rx.state = .off
  suspended : t.rx.state = .suspended ↔ s.rx.state = .suspended
  tx : s.tx.Rests t.tx
  entry : ∀ i, (s.entry i).Rests (t.entry i)

theorem Rests.trans {s t u : State} (h : Rests s t) (h' : Rests t u) : Rests s u where
  station := h'.station.trans h.station
  round hu := (h'.round hu).elim h.round fun ht => .inr (h.station ▸ ht)
  quiet hu := (h'.quiet hu).elim h.quiet fun ht => .inr (h.station ▸ ht)
  off := h'.off.trans h.off
  suspended := h'.suspended.trans h.suspended
  tx := ⟨h.tx.1 ∘ h'.tx.1, h'.tx.2.trans h.tx.2⟩
  entry i := (h.entry i).trans (h'.entry i)

/-- A change outside the table and the blocks of the line. -/
theorem Rests.of_rest {s t : State} (hstation : t.station = s.station) (hround : t.round = s.round)
    (hquiet : t.quiet = s.quiet) (hrx : t.rx.state = s.rx.state) (htx : t.tx = s.tx) (hentries : t.entries = s.entries) :
    Rests s t where
  station := hstation
  round h := .inl (hround ▸ h)
  quiet h := .inl (hquiet ▸ h)
  off := by rw [hrx]
  suspended := by rw [hrx]
  tx := htx ▸ ⟨id, rfl⟩
  entry i := State.entry_congr hentries i ▸ Entry.Rests.refl _

theorem Rests.refl (s : State) : Rests s s := Rests.of_rest rfl rfl rfl rfl rfl rfl

theorem Rests.setEntry {s : State} {i : EntryIdx} {e : Entry} (h : (s.entry i).Rests e) : Rests s (s.setEntry i e) := by
  refine ⟨rfl, .inl, .inl, Iff.rfl, Iff.rfl, ⟨id, rfl⟩, fun j => ?_⟩
  rw [State.entry_setEntry]
  split
  · next hj => exact hj ▸ h
  · exact Entry.Rests.refl _

theorem Rests.setProd (s : State) (i : EntryIdx) (p : Producer) : Rests s (s.setProd i p) :=
  Rests.setEntry (Entry.Rests.of_same rfl rfl ⟨rfl, rfl, rfl⟩)

theorem Rests.setCons (s : State) (i : EntryIdx) (c : Consumer) : Rests s (s.setCons i c) :=
  Rests.setEntry (Entry.Rests.of_same rfl rfl ⟨rfl, rfl, rfl⟩)

theorem Rests.setTx {s : State} {x : Tx} (h : s.tx.Rests x) : Rests s { s with tx := x } :=
  ⟨rfl, .inl, .inl, Iff.rfl, Iff.rfl, h, fun _ => Entry.Rests.refl _⟩

theorem Rests.raise (s : State) (i : ItemIdx) (k : Kind) (change : Item → Item) : Rests s (s.raise i k change) :=
  Rests.of_rest rfl rfl rfl rfl rfl rfl

theorem Rests.reply (s : State) (n : Station) (st : StreamNo) (b : ReplyBody) : Rests s (s.reply n st b) :=
  Rests.of_rest rfl rfl rfl rfl rfl rfl

theorem Rests.setPool {s t : State} (n : Nat) (h : Rests s t) : Rests s { t with poolFree := n } :=
  h.trans (Rests.of_rest rfl rfl rfl rfl rfl rfl)

/-! ## The shared operations -/

theorem Rests.endEntry {s : State} {i : EntryIdx} (c : Cause) (h : (s.entry i).state ≠ .free) :
    Rests s (s.endEntry i c) := by
  have hentry : (s.entry i).Rests ((s.entry i).ended c) := ⟨nofun, fun _ => ⟨h, rfl, rfl, rfl, rfl⟩⟩
  refine Rests.trans (Rests.setEntry hentry) (Rests.trans (Rests.setTx (Tx.rests_disown s.tx i)) ?_)
  exact Rests.of_rest rfl rfl rfl rfl rfl rfl

theorem Rests.retire {s : State} {i : EntryIdx} (h : (s.entry i).state ≠ .free) : Rests s (s.retire i) := by
  have hring : ∀ (p : Producer) (timer : Timer), (s.entry i).Rests { s.entry i with prod := p, timer := timer } :=
    fun _ _ => Entry.Rests.of_same rfl rfl ⟨rfl, rfl, rfl⟩
  simp only [State.retire]
  split
  · exact Rests.refl s
  · split
    · refine (Rests.setEntry (hring _ _)).trans (Rests.endEntry _ ?_)
      rw [State.entry_setEntry_self]
      exact h
    · have hset := (Rests.setEntry (s := s) (hring { (s.entry i).prod with ring := (retireRun (s.entry i).prod.ring).2 }
        (timerAfterRun s.params (retireRun (s.entry i).prod.ring).2))).trans
          (Rests.setTx (Tx.rests_withdrawResend s.tx i (retireRun (s.entry i).prod.ring).1))
      split
      · exact hset.trans (Rests.raise _ _ _ _)
      · exact hset

theorem Rests.countMisses (s : State) (i : EntryIdx) (counted : SubRec → Bool) : Rests s (s.countMisses i counted) := by
  simp only [State.countMisses]
  split
  · exact Rests.setProd s i _
  · exact ((Rests.setProd s i _).setPool _).trans (Rests.raise _ _ _ _)

theorem Rests.undoChoice (s : State) (f : TxFrame) : Rests s (s.undoChoice f) := by
  cases f with
  | ack => exact Rests.setCons s _ _
  | reply => exact Rests.of_rest rfl rfl rfl rfl rfl rfl
  | data | hold | join | leave => exact Rests.refl s

theorem Rests.takeChoice (s : State) (f : TxFrame) : Rests s (s.takeChoice f) := by
  cases f with
  | ack => exact Rests.setCons s _ _
  | reply => exact Rests.of_rest rfl rfl rfl rfl rfl rfl
  | data | hold | join | leave => exact Rests.refl s

/-! ## Frames at their entries (R136) -/

theorem Rests.conflict (s : State) (i : EntryIdx) : Rests s (s.conflict i) := by
  unfold State.conflict
  split
  · next h => exact Rests.endEntry _ (Entry.state_ne_free_of_liveProducer h)
  · exact Rests.refl s

theorem Rests.producerAck (s : State) (i : EntryIdx) (n : Station) (a : Seq) (k : Nat) :
    Rests s (s.producerAck i n a k) := by
  simp only [State.producerAck]
  split
  · next hlive =>
    split
    · exact Rests.reply s _ _ _
    · split
      · exact Rests.setProd s i _
      · refine (Rests.setProd s i _).trans (Rests.retire ?_)
        simpa using Entry.state_ne_free_of_liveProducer hlive
  · exact Rests.refl s

theorem Rests.producerJoin (s : State) (i : EntryIdx) (n : Station) (k size : Nat) :
    Rests s (s.producerJoin i n k size) := by
  simp only [State.producerJoin]
  split
  · exact Rests.refl s
  · split
    · exact Rests.refl s
    · split
      · exact Rests.reply s _ _ _
      · split
        · exact Rests.reply s _ _ _
        · split
          · exact (Rests.setProd s i _).trans (Rests.reply _ _ _ _)
          · split
            · exact Rests.reply s _ _ _
            · exact (((Rests.setProd s i _).setPool _).trans (Rests.reply _ _ _ _)).trans (Rests.raise _ _ _ _)

theorem Rests.producerLeave (s : State) (i : EntryIdx) (n : Station) : Rests s (s.producerLeave i n) := by
  simp only [State.producerLeave]
  split
  · next h =>
    refine (((Rests.setProd s i _).setPool _).trans (Rests.raise _ _ _ _)).trans (Rests.retire ?_)
    simpa using Entry.state_ne_free_of_liveProducer (Bool.and_eq_true_iff.mp h).1
  · exact Rests.refl s

theorem Rests.restartSilence (s : State) (i : EntryIdx) : Rests s (s.restartSilence i) :=
  Rests.setEntry (Entry.Rests.of_same rfl rfl ⟨rfl, rfl, rfl⟩)

theorem Rests.oweAck (s : State) (i : EntryIdx) : Rests s (s.oweAck i) := Rests.setCons s i _

theorem Entry.live_of_state {e : Entry} (h : e.state = .joining ∨ e.state = .receiving ∨ e.state = .leaving) :
    e.live = true := by
  rcases h with h | h | h <;> simp [Entry.live, h]

theorem Rests.consumerAccept (s : State) (i : EntryIdx) (src : Station) (start : Seq) (size : Nat) :
    Rests s (s.consumerAccept i src start size) := by
  simp only [State.consumerAccept]
  split
  · next h =>
    refine Rests.trans (Rests.trans (Rests.setEntry ?_) (Rests.setTx (Tx.rests_withdrawJoin s.tx i))) (Rests.raise _ _ _ _)
    exact Entry.Rests.of_live (Entry.live_of_state (.inl h.1)) rfl ⟨rfl, rfl, rfl⟩
  · exact Rests.refl s

theorem Rests.consumerRefuse (s : State) (i : EntryIdx) (src : Station) (reason : Reason) :
    Rests s (s.consumerRefuse i src reason) := by
  simp only [State.consumerRefuse]
  split
  · next h =>
    split
    · exact Rests.endEntry _ (by simp [h])
    · exact Rests.refl s
  · split
    · next h => exact Rests.endEntry _ (by simp [h.1])
    · exact Rests.refl s

theorem Rests.consumerHold (s : State) (i : EntryIdx) (src : Station) (next : Seq) :
    Rests s (s.consumerHold i src next) := by
  simp only [State.consumerHold]
  split
  · split
    · exact Rests.restartSilence s i
    · exact (Rests.restartSilence s i).trans (Rests.oweAck _ i)
  · exact Rests.refl s

theorem Rests.acceptFull {s : State} {i : EntryIdx} (q : Seq) (fin : Bool) (payload : List Byte)
    (hstate : (s.entry i).state = .receiving) : Rests s (s.acceptFull i q fin payload) := by
  have hentry : (s.entry i).Rests ((s.entry i).accepted s.params q fin) := by
    have hlive := Entry.live_of_state (.inr (.inl hstate))
    unfold Entry.accepted
    dsimp only
    split
    · exact Entry.Rests.of_live hlive rfl ⟨rfl, rfl, rfl⟩
    · exact Entry.Rests.of_live hlive rfl ⟨rfl, rfl, rfl⟩
  have hstored := (Rests.setEntry hentry).trans (Rests.of_rest (t := { s.setEntry i _ with
    mem := Memory.writeRun s.mem ((s.entry i).slotAddr (s.entry i).fillSlot) payload }) rfl rfl rfl rfl rfl rfl)
  simp only [State.acceptFull]
  split
  · exact hstored.trans (Rests.raise _ _ _ _)
  · exact hstored

theorem Rests.receivingData {s : State} {i : EntryIdx} (q : Seq) (fin : Bool) (payload : List Byte)
    (hstate : (s.entry i).state = .receiving) : Rests s (s.receivingData i q fin payload) := by
  have hanswer := (Rests.restartSilence s i).trans (Rests.oweAck _ i)
  simp only [State.receivingData]
  split
  · exact Rests.refl s
  · split
    · exact Rests.refl s
    · split
      · split
        · exact hanswer
        · exact Rests.restartSilence s i
      · split
        · split
          · exact Rests.setEntry (Entry.Rests.of_same rfl rfl ⟨rfl, rfl, rfl⟩)
          · split
            · exact hanswer
            · exact Rests.acceptFull q fin payload hstate
        · exact hanswer

theorem Rests.consumerData (s : State) (i : EntryIdx) (src : Station) (q : Seq) (fin : Bool) (payload : List Byte) :
    Rests s (s.consumerData i src q fin payload) := by
  simp only [State.consumerData]
  split
  · exact Rests.refl s
  · split
    · next h => exact Rests.receivingData q fin payload h
    · split
      · exact Rests.oweAck s i
      · exact Rests.refl s

theorem Rests.dispatchTo (s : State) (i : EntryIdx) (f : Frame) : Rests s (s.dispatchTo i f) := by
  unfold State.dispatchTo
  split
  · exact Rests.conflict s i
  · exact Rests.conflict s i
  · exact Rests.conflict s i
  · exact Rests.producerAck s i _ _ _
  · exact Rests.producerJoin s i _ _ _
  · exact Rests.producerLeave s i _
  · exact Rests.consumerData s i _ _ _ _
  · exact Rests.consumerHold s i _ _
  · exact Rests.consumerAccept s i _ _ _
  · exact Rests.consumerRefuse s i _ _
  · exact Rests.refl s

theorem Rests.dispatch (s : State) (f : Frame) : Rests s (s.dispatch f) := by
  unfold State.dispatch
  split
  · exact Rests.dispatchTo s _ f
  · exact Rests.refl s

theorem Rests.flush (s : State) : Rests s s.flush := by
  unfold State.flush
  split
  · refine Rests.trans (Rests.of_rest ?_ ?_ ?_ ?_ ?_ ?_) (Rests.dispatch _ _)
    all_goals rfl
  · exact Rests.refl s

theorem Rests.frameEvent (s : State) (f : Frame) : Rests s (s.frameEvent f) := by
  simp only [State.frameEvent]
  split
  · split
    · exact Rests.flush s
    · split
      · exact (Rests.flush s).trans (Rests.dispatch _ f)
      · exact Rests.flush s
  · exact Rests.refl s

/-! ## Expiries -/

theorem Rests.goBack (s : State) (i : EntryIdx) : Rests s (s.goBack i) := by
  simp only [State.goBack]
  split
  · exact Rests.refl s
  · split
    · exact Rests.setEntry (Entry.Rests.of_same rfl rfl ⟨rfl, rfl, rfl⟩)
    · exact Rests.setEntry (Entry.Rests.of_same rfl rfl ⟨rfl, rfl, rfl⟩)

theorem Rests.ackExpired (s : State) (i : EntryIdx) : Rests s (s.ackExpired i) := by
  simp only [State.ackExpired]
  split
  · next h =>
    split
    · exact Rests.refl s
    · refine ((Rests.countMisses s i _).trans (Rests.retire ?_)).trans (Rests.goBack _ i)
      have hlive : (s.entry i).liveProducer = true := by
        simp only [Bool.and_eq_true] at h
        exact h.1.2
      obtain ⟨hentry, _⟩ := State.countMisses_spec s i fun r => inSet r.station _
      rw [hentry]
      exact Entry.state_ne_free_of_liveProducer hlive
  · exact Rests.refl s

theorem Rests.holdExpired (s : State) (i : EntryIdx) : Rests s (s.holdExpired i) := by
  simp only [State.holdExpired]
  split
  · exact Rests.setEntry (Entry.Rests.of_same rfl rfl ⟨rfl, rfl, rfl⟩)
  · exact Rests.refl s

theorem Rests.joinExpired (s : State) (i : EntryIdx) : Rests s (s.joinExpired i) := by
  simp only [State.joinExpired]
  split
  · next h =>
    simp only [Bool.and_eq_true, beq_iff_eq] at h
    split
    · exact Rests.endEntry _ (by simp [h.2])
    · exact Rests.setEntry (Entry.Rests.of_same rfl rfl ⟨rfl, rfl, rfl⟩)
  · exact Rests.refl s

theorem Rests.silenceExpired (s : State) (i : EntryIdx) : Rests s (s.silenceExpired i) := by
  simp only [State.silenceExpired]
  split
  · next h =>
    simp only [Bool.and_eq_true, beq_iff_eq] at h
    exact Rests.endEntry _ (by simp [h.2])
  · exact Rests.refl s

/-! ## Commands of the host -/

theorem Rests.setPort {s t : State} (p : Port) (h : Rests s t) : Rests s { t with port := p } :=
  h.trans (Rests.of_rest rfl rfl rfl rfl rfl rfl)

theorem Rests.answer (s : State) (cmd : ReadCmd) (rc : ResultCode) (bytes : List Byte) : Rests s (s.answer cmd rc bytes) :=
  (Rests.refl s).setPort _

theorem Rests.popNotice (s : State) : Rests s s.popNotice :=
  Rests.of_rest (by simp) (by simp) (by simp) (by simp) (by simp) (by simp)

theorem Rests.post (i : EntryIdx) (n : Nat) (s : State) : Rests s (s.post i n).2 := by
  simp only [State.post]
  split
  · exact Rests.refl s
  · split
    · exact Rests.refl s
    · split
      · exact Rests.refl s
      · exact Rests.setEntry (Entry.Rests.of_same rfl rfl ⟨rfl, rfl, rfl⟩)

theorem Rests.release (i : EntryIdx) (n : Nat) (s : State) : Rests s (s.release i n).2 := by
  simp only [State.release]
  split
  · exact Rests.refl s
  · split
    · exact Rests.refl s
    · exact Rests.setEntry (Entry.Rests.of_same rfl rfl ⟨rfl, rfl, rfl⟩)

theorem Rests.leaving {s : State} {i : EntryIdx} (c : Cause) (h : (s.entry i).state = .joining ∨ (s.entry i).state = .receiving) :
    Rests s { s.setEntry i ((s.entry i).leavingWith c) with tx := s.tx.withdrawJoin i } := by
  have hlive : (s.entry i).live = true := Entry.live_of_state (h.imp_right .inl)
  refine Rests.trans (Rests.setEntry ?_) (Rests.setTx (Tx.rests_withdrawJoin s.tx i))
  exact Entry.Rests.of_live hlive rfl ⟨rfl, rfl, rfl⟩

theorem Rests.close (i : EntryIdx) (s : State) : Rests s (s.close i).2 := by
  simp only [State.close]
  split
  · next h =>
    have hlive : (s.entry i).live = true := by simp [Entry.live, h]
    exact Rests.setEntry (Entry.Rests.of_live hlive rfl ⟨rfl, rfl, rfl⟩)
  · next h => exact Rests.leaving _ (.inl h)
  · next h => exact Rests.leaving _ (.inr h)
  · exact Rests.refl s

theorem Rests.abort (i : EntryIdx) (s : State) : Rests s (s.abort i).2 := by
  simp only [State.abort]
  split
  · next h => exact Rests.endEntry _ fun hf => by simp [Entry.live, hf] at h
  · exact Rests.refl s

theorem Rests.freeEntry (i : EntryIdx) (s : State) : Rests s (s.freeEntry i).2 := by
  simp only [State.freeEntry]
  split
  · have hentry : (s.entry i).Rests {} := ⟨nofun, fun h => absurd rfl h⟩
    refine Rests.trans (Rests.setEntry hentry) (Rests.trans (Rests.setTx (Tx.rests_disown s.tx i)) ?_)
    exact Rests.of_rest rfl rfl rfl rfl rfl rfl
  · exact Rests.refl s

theorem Rests.writeBuffer (bytes : List Byte) (s : State) : Rests s (s.writeBuffer bytes).2 := by
  unfold State.writeBuffer
  split
  · split
    · exact Rests.refl s
    · exact Rests.of_rest rfl rfl rfl rfl rfl rfl
  · exact Rests.refl s

theorem Rests.setParameters (a b c : Byte) (s : State) : Rests s (s.setParameters a b c).2 := by
  unfold State.setParameters
  split
  · exact Rests.refl s
  · split
    · exact Rests.refl s
    · exact Rests.of_rest rfl rfl rfl rfl rfl rfl

/-! ## Completions at their owners (R161) -/

theorem Rests.newDone (s : State) (i : EntryIdx) (q : Seq) (fin : Bool) (slot : Option Nat) (len : Nat) :
    Rests s (s.newDone i q fin slot len) := by
  simp only [State.newDone]
  split
  · next hlive =>
    have hlive' : (s.entry i).live = true := by
      rcases (Entry.liveProducer_iff _).mp hlive with h | h <;> simp [Entry.live, h]
    have hset : Rests s (s.setEntry i ((s.entry i).afterNew s.params q fin slot len)) :=
      Rests.setEntry (Entry.Rests.of_live hlive' rfl ⟨rfl, rfl, rfl⟩)
    split
    · refine hset.trans (Rests.retire ?_)
      rw [State.entry_setEntry_self]
      exact Entry.state_ne_free_of_liveProducer (Entry.afterNew_liveProducer _ _ _ _ _ hlive)
    · exact hset
  · exact Rests.refl s

theorem Rests.resendDone (s : State) (i : EntryIdx) (q : Seq) : Rests s (s.resendDone i q) := by
  simp only [State.resendDone]
  split
  · exact Rests.setEntry (Entry.Rests.of_same rfl rfl ⟨rfl, rfl, rfl⟩)
  · exact Rests.refl s

theorem Rests.holdDone (s : State) (i : EntryIdx) : Rests s (s.holdDone i) := by
  simp only [State.holdDone]
  split
  · exact (Rests.countMisses s i _).trans (Rests.setEntry (Entry.Rests.of_same rfl rfl ⟨rfl, rfl, rfl⟩))
  · exact Rests.refl s

theorem Rests.joinDone (s : State) (i : EntryIdx) : Rests s (s.joinDone i) := by
  simp only [State.joinDone]
  split
  · exact Rests.setEntry (Entry.Rests.of_same rfl rfl ⟨rfl, rfl, rfl⟩)
  · exact Rests.refl s

theorem Rests.ackDone (s : State) (i : EntryIdx) : Rests s (s.ackDone i) := by
  simp only [State.ackDone]
  split
  · next h =>
    refine (Rests.setCons s i _).trans (Rests.endEntry _ ?_)
    simp [h.2.2]
  · exact Rests.setCons s i _

theorem Rests.leaveDone (s : State) (i : EntryIdx) : Rests s (s.leaveDone i) := by
  simp only [State.leaveDone]
  split
  · next h => exact Rests.endEntry _ (by simp [h])
  · exact Rests.refl s

end Sys2Proof.Machine
end

section
/-! PROOFS. The station state in charge of the transmitter, the round, the quiet timer, the entries and the receiver, through
every step (O56). -/

namespace Sys2Proof.Machine

/- One after another: many theorems elaborated at once take a thread each. -/
set_option Elab.async false

open Sys2Proof.Safety

/-! ## The invariant -/

/-- What the station state says of the other blocks (R139, R140, R147, R165 to R167). -/
def State.inCharge (s : State) : Prop := onlineSafe s ∧ offlineSafe s ∧ receiverSafe s

/-- A step that keeps the station state in charge. -/
def Charged (s t : State) : Prop := s.inCharge → t.inCharge

theorem Charged.trans {s t u : State} (h : Charged s t) (h' : Charged t u) : Charged s u := h' ∘ h

theorem Rests.charged {s t : State} (h : Rests s t) : Charged s t := by
  rintro ⟨⟨htx, hround, hquiet⟩, hoff, hrxOff, hsusp⟩
  refine ⟨⟨fun ht => ?_, fun ht => ?_, fun ht => ?_⟩, fun ht i => ?_, ?_, ?_⟩
  · exact h.station.trans (htx (h.tx.1 ht))
  · exact h.station.trans ((h.round ht).elim hround id)
  · exact h.station.trans ((h.quiet ht).elim hquiet id)
  · exact Bool.eq_false_iff.mpr fun hl => nomatch (hoff (h.station.symm.trans ht) i).symm.trans ((h.entry i).1 hl)
  · rw [h.off, h.station]
    exact hrxOff
  · rw [h.suspended, State.txe_eq, h.tx.2, ← State.txe_eq]
    exact hsusp

theorem Charged.refl (s : State) : Charged s s := id

/-- Off ONLINE no frame is held and no round runs. -/
theorem State.inCharge.off_online {s : State} (h : s.inCharge) (hs : s.station ≠ .online) :
    s.tx = .free ∧ s.round = .contention := by
  obtain ⟨⟨htx, hround, _⟩, _⟩ := h
  exact ⟨by_contra fun hf => hs (htx hf), by_contra fun hf => hs (hround hf)⟩

/-! ## The line and the round -/

theorem Tx.rests_ungrant (x : Tx) : x.Rests x.ungrant := by
  cases x with
  | free => exact ⟨id, rfl⟩
  | chosen => exact ⟨fun _ => nofun, rfl⟩
  | sending => exact ⟨id, rfl⟩

theorem Tx.rests_grant {x : Tx} {f : TxFrame} {g : Bool} (g' : Bool) (h : x = .chosen f g) : x.Rests (.chosen f g') :=
  h ▸ ⟨fun _ => nofun, rfl⟩

/-- A change of the blocks of the line. -/
theorem Rests.of_line {s t : State} (hstation : t.station = s.station)
    (hround : t.round ≠ .contention → s.round ≠ .contention ∨ s.station = .online)
    (hquiet : t.quiet.isSome = true → s.quiet.isSome = true ∨ s.station = .listening) (hrx : t.rx.state = s.rx.state)
    (htx : s.tx.Rests t.tx) (hentries : t.entries = s.entries) : Rests s t :=
  ⟨hstation, hround, hquiet, by rw [hrx], by rw [hrx], htx, fun i => State.entry_congr hentries i ▸ Entry.Rests.refl _⟩

theorem Round.busied_ne {w : Round} {source : Option Station} (h : w.busied source ≠ .contention) : w ≠ .contention := by
  rintro rfl
  exact h rfl

theorem Rests.busyLine (s : State) (source : Option Station) : Rests s (s.busyLine source) := by
  unfold State.busyLine
  split
  · exact Rests.of_line rfl (fun h => .inl (Round.busied_ne h)) nofun rfl (Tx.rests_ungrant s.tx) rfl
  · exact Rests.refl s

theorem Rests.collide (s : State) : Rests s s.collide := by
  unfold State.collide
  split
  · next h => exact Rests.of_line rfl (fun _ => .inr h) .inl rfl (Tx.rests_ungrant s.tx) rfl
  · exact Rests.refl s

theorem Rests.startSlot {s : State} (o : Station) (r : Nat) (k : BitVec 5) (h : s.round ≠ .contention) :
    Rests s (s.startSlot o r k) := by
  refine Rests.of_line rfl (fun _ => .inl h) .inl rfl ?_ rfl
  unfold State.startSlot
  dsimp only
  split
  · next htx => exact Tx.rests_grant _ htx
  · exact ⟨id, rfl⟩

theorem Rests.nextSlot {s : State} (o : Station) (r : Nat) (k : BitVec 5) (h : s.round ≠ .contention) :
    Rests s (s.nextSlot o r k) := by
  unfold State.nextSlot
  split
  · exact Rests.of_line rfl (fun hc => absurd rfl hc) .inl rfl (Tx.rests_ungrant s.tx) rfl
  · exact Rests.startSlot o _ k h

theorem Rests.roundIdle (s : State) : Rests s s.roundIdle := by
  unfold State.roundIdle
  split
  · next h => exact Rests.startSlot _ _ _ (h ▸ nofun)
  · next h => exact Rests.nextSlot _ _ _ (h ▸ nofun)
  · exact Rests.refl s

theorem Rests.slotEnded (s : State) : Rests s s.slotEnded := by
  unfold State.slotEnded
  split
  · exact Rests.refl s
  · next h _ =>
    split
    · exact Rests.nextSlot _ _ _ (h ▸ nofun)
    · exact Rests.refl s
  · exact Rests.refl s

theorem Rests.lineIdled (s : State) : Rests s s.lineIdled := by
  simp only [State.lineIdled]
  split
  · exact Rests.refl s
  · split
    · split
      · next h => exact Rests.of_line rfl .inl (fun _ => .inr h) rfl ⟨id, rfl⟩ rfl
      · exact Rests.trans (Rests.of_rest (by rfl) (by rfl) (by rfl) (by rfl) (by rfl) (by rfl)) (Rests.roundIdle _)
    · exact Rests.refl s

/-- A change of the levels, of the line state and of what the receiver holds. -/
theorem Rests.of_levels {s : State} (rx : Receiver) (line : LineState) (gap : Option Nat) (csn low steady : Bool)
    (h : rx.state = s.rx.state) :
    Rests s { s with rx := rx, line := line, lineGap := gap, csnAsserted := csn, rxdLow := low, rxdSteady := steady } :=
  Rests.of_rest rfl rfl rfl h rfl rfl

theorem Rests.lineBusied (s : State) (cause : BusyCause) : Rests s (s.lineBusied cause) := by
  cases cause with
  | startBit =>
    refine (Rests.busyLine s none).trans (Rests.of_levels _ _ _ _ _ _ ?_)
    split
    · rfl
    · rfl
  | csn =>
    refine (Rests.busyLine s none).trans (Rests.of_levels _ _ _ _ _ _ ?_)
    simp
  | ownStart =>
    simp only [State.lineBusied]
    split
    · exact Rests.busyLine s _
    · exact Rests.refl s

/-! ## Characters -/

theorem Rests.characterEnds (s : State) (source : Option Station) : Rests s (s.characterEnds source) := by
  refine (Rests.busyLine s none).trans (Rests.of_line rfl (fun h => .inl fun hc => h ?_) .inl rfl ⟨id, rfl⟩ rfl)
  unfold State.characterEnds
  simp only [hc]

theorem Rests.goodCharacter (s : State) (source : Option Station) : Rests s (s.goodCharacter source) :=
  (Rests.characterEnds s source).trans (Rests.of_levels _ _ _ _ _ _ rfl)

theorem Rests.badCharacter (s : State) (cause : SeenCause) : Rests s (s.badCharacter cause) := by
  unfold State.badCharacter
  cases cause with
  | framingError => exact (Rests.characterEnds s none).trans (Rests.of_levels _ _ _ _ _ _ rfl)
  | csn => exact Rests.characterEnds s none

/-- The states in which the receiver takes characters or waits for the idle gap: ON and not driven by this station. -/
def RxState.listens (x : RxState) : Prop := x ≠ .off ∧ x ≠ .suspended

theorem Receiver.listens_of_taking {r : Receiver} (h : r.taking = true) : r.state.listens := by
  unfold Receiver.taking at h
  simp only [Bool.or_eq_true, beq_iff_eq] at h
  rcases h with (h | h) | h <;> exact ⟨by simp [h], by simp [h]⟩

/-- The receiver moves among the states in which it listens. -/
theorem Rests.moveRx {s : State} {rx : Receiver} (h : s.rx.state.listens) (h' : rx.state.listens) :
    Rests s { s with rx := rx } :=
  ⟨rfl, .inl, .inl, iff_of_false h'.1 h.1, iff_of_false h'.2 h.2, ⟨id, rfl⟩, fun _ => Entry.Rests.refl _⟩

theorem Rests.rxTo {s : State} {r : RxState} (h : s.rx.state.listens) (h' : r.listens) : Rests s (s.rxTo r) :=
  Rests.moveRx h h'

theorem Rests.listens {s t : State} (h : Rests s t) (hs : s.rx.state.listens) : t.rx.state.listens :=
  ⟨mt h.off.mp hs.1, mt h.suspended.mp hs.2⟩

theorem Rests.marked (s : State) (d : Byte) : Rests s (s.marked d) := by
  simp only [State.marked]
  split
  · next htaking =>
    have hframe := (Rests.flush s).trans (Rests.goodCharacter s.flush (some (srcOf d)))
    have hlistens := hframe.listens (Receiver.listens_of_taking htaking)
    split
    · exact hframe.trans (Rests.rxTo hlistens ⟨nofun, nofun⟩)
    · exact hframe.trans (Rests.moveRx hlistens ⟨nofun, nofun⟩)
  · split
    · exact Rests.goodCharacter s none
    · exact Rests.refl s

theorem Rests.store {s : State} (d : Byte) (h : s.rx.state.listens) : Rests s (s.store d) := by
  simp only [State.store]
  split
  · exact Rests.rxTo h ⟨nofun, nofun⟩
  · split
    · exact Rests.moveRx h ⟨nofun, nofun⟩
    · exact Rests.moveRx h h

theorem Rests.unmarked (s : State) (d : Byte) : Rests s (s.unmarked d) := by
  have hgood := Rests.goodCharacter s none
  simp only [State.unmarked]
  split
  · next h => exact hgood.trans (Rests.store d (hgood.listens (by rw [h]; exact ⟨nofun, nofun⟩)))
  · split
    · exact (Rests.flush s).trans (Rests.goodCharacter _ none)
    · split
      · exact hgood
      · exact Rests.refl s

theorem Rests.collisionSeen (s : State) (cause : SeenCause) : Rests s (s.collisionSeen cause) := by
  simp only [State.collisionSeen]
  split
  · exact Rests.refl s
  · split
    · next htaking =>
      have hbad := (Rests.flush s).trans (Rests.badCharacter s.flush cause)
      have hlistens := hbad.listens (Receiver.listens_of_taking htaking)
      have hhunt : Rests _ (State.rxTo _ .hunt) := Rests.rxTo hlistens ⟨nofun, nofun⟩
      exact (hbad.trans hhunt).trans (Rests.collide _)
    · split
      · exact Rests.badCharacter s cause
      · exact Rests.refl s

theorem Rests.receiverGap (s : State) : Rests s s.receiverGap := by
  have hhunt : ∀ x : RxState, s.rx.state = x → x.listens → Rests s (s.rxTo .hunt) :=
    fun x h hx => Rests.rxTo (h ▸ hx) ⟨nofun, nofun⟩
  simp only [State.receiverGap]
  split
  · split
    · next h => exact hhunt _ h ⟨nofun, nofun⟩
    · next h => exact hhunt _ h ⟨nofun, nofun⟩
    · next h => exact hhunt _ h ⟨nofun, nofun⟩
    · exact Rests.flush s
    · exact Rests.refl s
  · exact Rests.refl s

/-! ## The transmitter -/

/-- The receiver that takes up listening is on, and not suspended (R139). -/
theorem Receiver.resume_off (r : Receiver) : (r.resume.state = .off ↔ r.state = .off) ∧ r.resume.state ≠ .suspended := by
  unfold Receiver.resume
  split
  · next h => exact ⟨by simp [h], nofun⟩
  · next h => exact ⟨Iff.rfl, h⟩

/-- The transmitter stops driving (R139, R145). -/
theorem Charged.stopDriving {s t : State} (hstation : t.station = s.station) (hround : t.round = s.round)
    (hquiet : t.quiet = s.quiet) (hrx : t.rx = s.rx.resume) (htx : t.tx = .free) (hentries : t.entries = s.entries) :
    Charged s t := by
  rintro ⟨⟨_, hround', hquiet'⟩, hoff, hrxOff, _⟩
  obtain ⟨hresume, hnot⟩ := Receiver.resume_off s.rx
  refine ⟨⟨fun h => absurd htx h, ?_, ?_⟩, ?_, ?_, ?_⟩
  · rwa [hstation, hround]
  · rwa [hstation, hquiet]
  · rw [offlineSafe, hstation]
    exact fun h i => State.entry_congr hentries i ▸ hoff h i
  · rw [hrx, hresume, hstation]
    exact hrxOff
  · rw [hrx, State.txe_eq, htx]
    exact iff_of_false hnot nofun

theorem Charged.sent (s : State) (f : TxFrame) : Charged s (s.sent f) := by
  rw [State.sent_spec]
  exact Charged.stopDriving rfl rfl rfl rfl rfl rfl

theorem Charged.completed {s t : State} {f : TxFrame} {owned : Bool} (h : s.completed = some (f, owned, t)) :
    Charged s t := by
  rcases State.completed_cases h with ⟨_, _, rfl⟩ | ⟨_, _, rfl⟩
  · exact (Rests.of_rest (s := s) rfl rfl rfl rfl rfl rfl).charged
  · exact Charged.sent s f

theorem Charged.vacated (s : State) : Charged s s.vacated := by
  unfold State.vacated
  split
  · next d _ _ => exact (Charged.sent s d.1).trans (Rests.of_rest (s := s.sent d.1) rfl rfl rfl rfl rfl rfl).charged
  · exact Charged.refl s

/-- A choice, which only an ONLINE station makes (R154). -/
theorem Charged.choose (s : State) : Charged s s.choose := by
  simp only [State.choose]
  split
  · next f hf =>
    obtain ⟨htx, hst⟩ : s.vacated.tx = .free ∧ s.vacated.station = .online := by
      unfold State.choosable at hf
      split at hf
      · assumption
      · cases hf
    refine ((Charged.vacated s).trans (Rests.takeChoice s.vacated f).charged).trans ?_
    rintro ⟨⟨_, hround, hquiet⟩, hoff, hrxOff, hsusp⟩
    refine ⟨⟨fun _ => ?_, hround, hquiet⟩, hoff, hrxOff, ?_⟩
    · rw [State.takeChoice_station]
      exact hst
    · rw [State.txe_eq, State.takeChoice_tx, htx] at hsusp
      exact hsusp
  · exact Charged.refl s

/-- A frame starts, ONLINE: the receiver is SUSPENDED while it is sent (R139, R144). -/
theorem Charged.start {s : State} {f : TxFrame} (h : s.startable = some f) : Charged s (s.start f) := by
  have hst : s.station = .online := by
    unfold State.startable at h
    split at h
    · split at h
      · next hc => exact hc.1
      · cases h
    · cases h
  refine (Rests.busyLine s (some s.stationNo)).charged.trans ?_
  have hst' : (s.busyLine (some s.stationNo)).station = .online := by simpa using hst
  rintro ⟨⟨_, hround, hquiet⟩, hoff, _⟩
  exact ⟨⟨fun _ => hst', hround, hquiet⟩, hoff, iff_of_false nofun (fun hf => nomatch hst'.symm.trans hf),
    iff_of_true rfl rfl⟩

theorem Charged.transmitStart (s : State) : Charged s s.transmitStart := by
  simp only [State.transmitStart]
  split
  · exact Charged.refl s
  · split
    · exact (Rests.flush s).charged
    · next f hf => exact (Rests.flush s).charged.trans (Charged.start hf)

/-- The eighth failure takes an ONLINE station, which sends nothing any more, to LINE_FAULT (R152, R169). -/
theorem Charged.countFailure {s : State} (htx : s.tx = .free) (hst : s.station = .online) : Charged s s.countFailure := by
  simp only [State.countFailure]
  split
  · rintro ⟨⟨_, _, hquiet⟩, _, hrxOff, hsusp⟩
    refine ⟨⟨fun h => absurd htx h, fun h => absurd rfl h, fun h => ?_⟩, nofun, ?_, hsusp⟩
    · exact nomatch hst.symm.trans (hquiet h)
    · exact iff_of_false (fun h => nomatch hst.symm.trans (hrxOff.mp h)) nofun
  · exact (Rests.of_rest (s := s) rfl rfl rfl rfl rfl rfl).charged

theorem Charged.txCollision (s : State) (cause : DriveCause) (first : Bool) : Charged s (s.txCollision cause first) := by
  intro hs
  simp only [State.txCollision]
  split
  · next f cs bits inRound orphan htx =>
    have hst : s.station = .online := hs.1.1 (htx ▸ nofun)
    split
    · have hundo : Rests s (if orphan then s else s.undoChoice f) := by
        split
        · exact Rests.refl s
        · exact Rests.undoChoice s f
      generalize (if orphan then s else s.undoChoice f) = u at hundo ⊢
      have hstop : Charged s u.stopDriving := hundo.charged.trans (Charged.stopDriving rfl rfl rfl rfl rfl rfl)
      have hlevel := (hstop.trans (Rests.collide _).charged).trans (Rests.of_levels u.stopDriving.collide.rx u.stopDriving.collide.line
        u.stopDriving.collide.lineGap (u.stopDriving.collide.csnAsserted || cause == .csn) u.stopDriving.collide.rxdLow
        u.stopDriving.collide.rxdSteady rfl).charged
      split
      · refine (hlevel.trans (Charged.countFailure ?_ ?_)) hs
        · simp [State.collide, State.stopDriving, hundo.station, hst, Tx.ungrant]
        · simp [State.stopDriving, hundo.station, hst]
      · exact hlevel hs
    · exact hs
  · exact hs

/-! ## Station control -/

theorem Charged.quietExpired (s : State) : Charged s s.quietExpired := by
  simp only [State.quietExpired]
  split
  · next h =>
    rintro ⟨_, _, hrxOff, hsusp⟩
    have hnot : s.rx.state ≠ .off := fun ho => nomatch h.1.symm.trans (hrxOff.mp ho)
    exact ⟨⟨fun _ => rfl, fun hc => absurd rfl hc, nofun⟩, nofun, iff_of_false hnot nofun, hsusp⟩
  · exact Charged.refl s

theorem Charged.goOnline (s : State) : Charged s s.goOnline.2 := by
  intro hs
  have hoffOnline := hs.off_online
  obtain ⟨⟨htx, hround, hquiet⟩, _, hrxOff, hsusp⟩ := hs
  simp only [State.goOnline]
  split
  · next h =>
    obtain ⟨hfree, hcont⟩ := hoffOnline (by simp [h])
    exact ⟨⟨fun hf => absurd hfree hf, fun hc => absurd hcont hc, fun _ => rfl⟩, nofun, iff_of_false nofun nofun,
      iff_of_false nofun (by simp [State.txe_eq, hfree, Tx.driving])⟩
  · next h =>
    obtain ⟨hfree, hcont⟩ := hoffOnline (by simp [h])
    have hnot : s.rx.state ≠ .off := fun ho => nomatch h.symm.trans (hrxOff.mp ho)
    exact ⟨⟨fun hf => absurd hfree hf, fun hc => absurd hcont hc, fun _ => rfl⟩, nofun, iff_of_false hnot nofun, hsusp⟩
  · exact ⟨⟨htx, hround, hquiet⟩, ‹_›, hrxOff, hsusp⟩

/-- The entries after those of a list that are live have been ended, one after another. -/
theorem State.entry_foldl_endEntry (c : Cause) (l : List EntryIdx) (s : State) (i : EntryIdx) :
    (l.foldl (fun t j => if (t.entry j).live then t.endEntry j c else t) s).entry i
      = if i ∈ l ∧ (s.entry i).live then (s.entry i).ended c else s.entry i := by
  induction l generalizing s with
  | nil => simp
  | cons j l ih =>
    rw [List.foldl_cons, ih]
    have hended : ((s.entry i).ended c).live = false := rfl
    by_cases hij : i = j
    · subst hij
      cases hlive : (s.entry i).live with
      | true => simp [hended]
      | false => simp [hlive]
    · have hother : (if (s.entry j).live = true then s.endEntry j c else s).entry i = s.entry i := by
        split
        · exact State.entry_endEntry_of_ne _ _ hij
        · rfl
      rw [hother]
      simp [hij]

theorem State.entry_endAllLive (s : State) (i : EntryIdx) :
    s.endAllLive.entry i = if (s.entry i).live then (s.entry i).ended .offline else s.entry i := by
  rw [State.endAllLive, State.entry_foldl_endEntry]
  simp [mem_allEntries]

theorem Rests.endAllLive (s : State) : Rests s s.endAllLive := by
  unfold State.endAllLive
  generalize allEntries = l
  induction l generalizing s with
  | nil => exact Rests.refl s
  | cons i l ih =>
    refine Rests.trans ?_ (ih _)
    dsimp only
    split
    · next h => exact Rests.endEntry _ fun hf => by simp [Entry.live, hf] at h
    · exact Rests.refl s

theorem State.stopTransmitter_tx (s : State) : s.stopTransmitter.tx = .free := by
  unfold State.stopTransmitter
  split
  · assumption
  · rfl
  · rfl

theorem Charged.goOffline (s : State) : Charged s s.goOffline.2 := fun _ => by
  have hfree : s.stopTransmitter.endAllLive.tx = .free := by
    by_contra hf
    exact (Rests.endAllLive s.stopTransmitter).tx.1 hf s.stopTransmitter_tx
  simp only [State.goOffline]
  generalize hu : s.stopTransmitter.endAllLive = u at hfree ⊢
  refine ⟨⟨fun hf => absurd hfree hf, fun hc => absurd rfl hc, nofun⟩, fun _ i => ?_, iff_of_true rfl rfl,
    iff_of_false nofun ?_⟩
  · change (u.entry i).live = false
    rw [← hu, State.entry_endAllLive]
    split
    · rfl
    · exact Bool.eq_false_iff.mpr ‹_›
  · rw [State.txe_eq]
    change ¬u.tx.driving = true
    rw [hfree]
    nofun

/-- A state with the reset values of these blocks. -/
theorem Charged.resetTo (s : State) (mem : Memory) (sa : Station) (rs : RateCode) (low : Bool) :
    Charged s (s.resetTo mem sa rs low) := fun _ =>
  ⟨⟨fun h => absurd rfl h, fun h => absurd rfl h, nofun⟩, fun _ i => by rw [State.entry_resetTo]; rfl,
    iff_of_true rfl rfl, iff_of_false nofun nofun⟩

theorem Charged.setPower {s t : State} (p : Power) (h : Charged s t) : Charged s { t with power := p } :=
  h.trans (Rests.of_rest (s := t) rfl rfl rfl rfl rfl rfl).charged

/-! ## Pins and time -/

theorem Rests.ssnFall (s : State) : Rests s (s.pinEvent .ssnFall) := by
  simp only [State.pinEvent, State.heldSsnFalls]
  split
  · split
    · exact Rests.refl s
    · exact Rests.of_rest rfl rfl rfl rfl rfl rfl
  · rw [State.ssnFalls_frame]
    exact Rests.of_rest rfl rfl rfl rfl rfl rfl

theorem Rests.sckRise (s : State) (mosi : Bool) : Rests s (s.pinEvent (.sckRise mosi)) := by
  simp only [State.pinEvent, State.heldSckRises]
  split
  · split
    · exact Rests.of_rest rfl rfl rfl rfl rfl rfl
    · exact Rests.refl s
  · rw [State.sckRises_frame]
    exact Rests.of_rest rfl rfl rfl rfl rfl rfl

theorem Rests.sckFall (s : State) : Rests s (s.pinEvent .sckFall) := by
  simp only [State.pinEvent, State.heldSckFalls]
  split
  · split
    · rw [State.untakenFalls_frame]
      exact Rests.of_rest rfl rfl rfl rfl rfl rfl
    · exact Rests.refl s
  · rw [State.sckFalls_frame]
    exact Rests.of_rest rfl rfl rfl rfl rfl rfl

theorem Rests.ssnRise (s : State) (sa : Station) (rs : RateCode) : Rests s (s.pinEvent (.ssnRise sa rs)) := by
  simp only [State.pinEvent]
  split
  · exact Rests.of_rest rfl rfl rfl rfl rfl rfl
  · rw [State.ssnRises_frame]
    exact Rests.of_rest rfl rfl rfl rfl rfl rfl

theorem Rests.rxdFall (s : State) : Rests s (s.pinEvent .rxdFall) := by
  simp only [State.pinEvent, State.rxdFalls]
  split
  · exact Rests.refl s
  · exact Rests.of_levels _ _ _ _ _ _ rfl

theorem Charged.pinEvent (s : State) (e : PinEvent) : Charged s (s.pinEvent e) := by
  cases e with
  | ssnFall => exact (Rests.ssnFall s).charged
  | sckRise mosi => exact (Rests.sckRise s mosi).charged
  | sckFall => exact (Rests.sckFall s).charged
  | ssnRise sa rs => exact (Rests.ssnRise s sa rs).charged
  | rxdFall => exact (Rests.rxdFall s).charged
  | rxdReturn => exact (Rests.of_levels (s := s) _ _ _ _ _ _ rfl).charged
  | csnAssert =>
    rw [State.pinEvent, State.csnAsserts_frame]
    exact (Rests.of_rest (s := s) rfl rfl rfl rfl rfl rfl).charged
  | csnRelease => exact (Rests.of_levels (s := s) _ _ _ _ _ _ rfl).charged
  | supplyRise => exact (Charged.resetTo s _ _ _ _).setPower _
  | powerRelease sa rs =>
    simp only [State.pinEvent, State.powerReleased]
    split
    · exact (Charged.resetTo s _ _ _ _).setPower _
    · exact Charged.refl s
  | clearingEnd =>
    rw [State.pinEvent, State.clearingEnds_frame]
    exact (Rests.of_rest (s := s) rfl rfl rfl rfl rfl rfl).charged

theorem Tx.rests_tick (x : Tx) : x.Rests x.tick := by
  cases x with
  | free => exact ⟨id, rfl⟩
  | chosen => exact ⟨id, rfl⟩
  | sending => exact ⟨fun _ => nofun, rfl⟩

theorem Rests.advance (s : State) : Rests s s.advance where
  station := rfl
  round h := .inl fun hc => h (by simp [State.advance, hc, Round.tick])
  quiet h := .inl (by simpa [State.advance] using h)
  off := Iff.rfl
  suspended := Iff.rfl
  tx := Tx.rests_tick s.tx
  entry i := by
    rw [State.entry_advance]
    exact Entry.Rests.of_same rfl rfl ⟨rfl, rfl, rfl⟩

theorem Charged.setPending {s t : State} (q : List Instr) (h : Charged s t) : Charged s { t with pending := q } :=
  h.trans (Rests.of_rest (s := t) rfl rfl rfl rfl rfl rfl).charged

theorem Charged.idle (s : State) : Charged s s.idle := by
  unfold State.idle
  split
  · exact (Charged.refl s).setPending _
  · next e rest _ _ =>
    exact Charged.trans (t := { s with pins := rest }) (Rests.of_rest rfl rfl rfl rfl rfl rfl).charged (Charged.pinEvent _ e)
  · split
    · exact Charged.refl s
    · exact (Rests.advance s).charged.setPending _

/-! ## Commands -/

theorem Charged.setPort {s t : State} (p : Port) (h : Charged s t) : Charged s { t with port := p } :=
  h.trans (Rests.of_rest (s := t) rfl rfl rfl rfl rfl rfl).charged

theorem Charged.writeType {s : State} (exact : Bool) {act : State → ResultCode × State} (h : ∀ t, Charged t (act t).2) :
    Charged s (s.writeType exact act) := by
  cases exact with
  | false => exact (Charged.refl s).setPort _
  | true =>
    rw [State.writeType_true]
    exact (((Charged.refl s).setPort _).trans (h _)).setPort _

theorem Charged.entryCommand {s : State} (bytes : List Byte) (ragged : Bool) {act : EntryIdx → State → ResultCode × State}
    (h : ∀ i t, Charged t (act i t).2) : Charged s (s.entryCommand bytes ragged act) := by
  unfold State.entryCommand
  split
  · refine Charged.writeType _ fun t => ?_
    split
    · exact Charged.refl t
    · exact h _ t
  · exact Charged.writeType _ fun t => Charged.refl t

theorem Charged.countCommand {s : State} (bytes : List Byte) (ragged : Bool)
    {act : EntryIdx → Nat → State → ResultCode × State} (h : ∀ i n t, Charged t (act i n t).2) :
    Charged s (s.countCommand bytes ragged act) := by
  unfold State.countCommand
  split
  · refine Charged.writeType _ fun t => ?_
    split
    · exact Charged.refl t
    · exact h _ _ t
  · exact Charged.writeType _ fun t => Charged.refl t

/-- An entry is opened only by a station that is not OFFLINE (R13). -/
theorem Charged.openWith (s : State) (index : Byte) (a : OpenArgs) (e : Entry) : Charged s (s.openWith index a e).2 := by
  simp only [State.openWith]
  split
  · exact Charged.refl s
  · split
    · next hok =>
      obtain ⟨hst, _⟩ := State.openCheck_ok hok
      rintro ⟨honline, _, hrx⟩
      exact ⟨honline, fun hoff => absurd hoff hst, hrx⟩
    · exact Charged.refl s

/-- The commands of the host port that only answer. -/
theorem Charged.of_read {s : State} (hh : s.held = false) {c : Instr}
    (hc : c ∈ [Instr.readStatus, .statusRelatch, .readIdentity, .readNotice, .hostByteRead]
      ∨ (∃ b, c = .readEntry b ∨ c = .readSubscribers b ∨ c = .readSlot b) ∨ (∃ b b', c = .readBuffer b b')
      ∨ (∃ b, c = .unknownCommandCode b) ∨ ∃ b bs, c = .readCommandShortFraming b bs) :
    ∃ t, exec c s = .next t ∧ Charged s t := by
  have hrefl := Charged.refl s
  rcases hc with hc | ⟨b, rfl | rfl | rfl⟩ | ⟨b, b', rfl⟩ | ⟨b, rfl⟩ | ⟨b, bs, rfl⟩
  · simp only [List.mem_cons, List.not_mem_nil, or_false] at hc
    rcases hc with rfl | rfl | rfl | rfl | rfl
    · exact ⟨_, exec_readStatus hh, hrefl.setPort _⟩
    · refine ⟨_, exec_statusRelatch hh, ?_⟩
      split
      · exact hrefl.setPort _
      · exact hrefl
    · exact ⟨_, exec_readIdentity hh, hrefl.setPort _⟩
    · exact ⟨_, exec_readNotice hh, (Rests.popNotice s).charged⟩
    · refine ⟨_, exec_hostByteRead hh, ?_⟩
      split
      · exact hrefl
      · exact hrefl.setPort _
  · refine ⟨_, exec_readEntry hh b, ?_⟩
    split
    · exact hrefl.setPort _
    · exact hrefl.setPort _
  · refine ⟨_, exec_readSubscribers hh b, ?_⟩
    split
    · exact hrefl.setPort _
    · exact hrefl.setPort _
  · refine ⟨_, exec_readSlot hh b, ?_⟩
    split
    · exact hrefl.setPort _
    · dsimp only
      split
      · exact hrefl.setPort _
      · exact hrefl.setPort _
  · refine ⟨_, exec_readBuffer hh b b', ?_⟩
    split
    · exact hrefl.setPort _
    · exact hrefl.setPort _
  · refine ⟨_, exec_unknownCommandCode hh b, ?_⟩
    split
    · exact hrefl.setPort _
    · split
      · exact hrefl
      · exact hrefl.setPort _
  · refine ⟨_, exec_readCommandShortFraming hh b bs, ?_⟩
    split
    · exact hrefl.setPort _
    · exact hrefl

/-- A completion keeps the station state in charge, since its owner's part does. -/
theorem Charged.owned {s t : State} {f : TxFrame} {owned : Bool} {act : State → State}
    (h : s.completed = some (f, owned, t)) (hact : ∀ u, Rests u (act u)) : Charged s (if owned then act t else t) := by
  split
  · exact (Charged.completed h).trans (hact t).charged
  · exact Charged.completed h

theorem Charged.of_completion {s : State} (hh : s.held = false) {c : Instr}
    (hc : c ∈ [Instr.newFrameComplete, .resendComplete, .holdComplete, .joinComplete, .ackComplete, .leaveComplete,
      .replyComplete]) : ∃ t, exec c s = .next t ∧ Charged s t := by
  simp only [List.mem_cons, List.not_mem_nil, or_false] at hc
  rcases hc with rfl | rfl | rfl | rfl | rfl | rfl | rfl
  · refine ⟨_, exec_newFrameComplete hh, ?_⟩
    split
    · next h => exact Charged.owned (act := fun u => u.newDone _ _ _ _ _) h fun u => Rests.newDone u _ _ _ _ _
    · exact Charged.refl s
  · refine ⟨_, exec_resendComplete hh, ?_⟩
    split
    · next h => exact Charged.owned (act := fun u => u.resendDone _ _) h fun u => Rests.resendDone u _ _
    · exact Charged.refl s
  · refine ⟨_, exec_holdComplete hh, ?_⟩
    split
    · next h => exact Charged.owned (act := fun u => u.holdDone _) h fun u => Rests.holdDone u _
    · exact Charged.refl s
  · refine ⟨_, exec_joinComplete hh, ?_⟩
    split
    · next h => exact Charged.owned (act := fun u => u.joinDone _) h fun u => Rests.joinDone u _
    · exact Charged.refl s
  · refine ⟨_, exec_ackComplete hh, ?_⟩
    split
    · next h => exact Charged.owned (act := fun u => u.ackDone _) h fun u => Rests.ackDone u _
    · exact Charged.refl s
  · refine ⟨_, exec_leaveComplete hh, ?_⟩
    split
    · next h => exact Charged.owned (act := fun u => u.leaveDone _) h fun u => Rests.leaveDone u _
    · exact Charged.refl s
  · refine ⟨_, exec_replyComplete hh, ?_⟩
    split
    · next t h => exact (Charged.completed h).trans (Rests.of_rest (s := t) rfl rfl rfl rfl rfl rfl).charged
    · exact Charged.refl s

/-- Every command keeps the station state in charge. -/
theorem Charged.exec (c : Instr) (s : State) : ∃ t, exec c s = .next t ∧ Charged s t := by
  by_cases hheld : s.held = true ∧ isResetEvent c = false
  · exact ⟨s, exec_of_held hheld.1 hheld.2, Charged.refl s⟩
  have hh : isResetEvent c = false → s.held = false := fun hc => by simpa [hc] using hheld
  cases c with
  | powerOn sa rs => exact ⟨_, rfl, (Charged.resetTo s _ _ _ _).setPower _⟩
  | rstnLow => exact ⟨_, rfl, Charged.resetTo s _ _ _ _⟩
  | rstnRelease sa rs =>
    refine ⟨_, rfl, ?_⟩
    split
    · exact Charged.resetTo s _ _ _ _
    · exact Charged.refl s
  | readStatus | statusRelatch | readIdentity | readNotice | hostByteRead => exact Charged.of_read (hh rfl) (by simp)
  | readEntry | readSubscribers | readSlot | readBuffer | unknownCommandCode | readCommandShortFraming =>
    exact Charged.of_read (hh rfl) (by simp)
  | newFrameComplete | resendComplete | holdComplete | joinComplete | ackComplete | leaveComplete | replyComplete =>
    exact Charged.of_completion (hh rfl) (by simp)
  | writeBuffer bs g =>
    exact ⟨_, exec_writeBuffer (hh rfl) bs g, Charged.writeType _ fun t => (Rests.writeBuffer bs t).charged⟩
  | setParameters bs g =>
    refine ⟨_, exec_setParameters (hh rfl) bs g, ?_⟩
    split
    · exact Charged.writeType _ fun t => (Rests.setParameters _ _ _ t).charged
    · exact Charged.writeType _ fun t => Charged.refl t
  | goOnline bs g => exact ⟨_, exec_goOnline (hh rfl) bs g, Charged.writeType _ Charged.goOnline⟩
  | goOffline bs g => exact ⟨_, exec_goOffline (hh rfl) bs g, Charged.writeType _ Charged.goOffline⟩
  | reset bs g sa rs =>
    exact ⟨_, exec_reset (hh rfl) bs g sa rs, Charged.writeType _ fun t => Charged.resetTo t _ _ _ _⟩
  | openProduce bs g =>
    refine ⟨_, exec_openProduce (hh rfl) bs g, ?_⟩
    split
    · exact Charged.writeType _ fun t => Charged.openWith t _ _ _
    · exact Charged.writeType _ fun t => Charged.refl t
  | openConsume bs g =>
    refine ⟨_, exec_openConsume (hh rfl) bs g, ?_⟩
    split
    · exact Charged.writeType _ fun t => Charged.openWith t _ _ _
    · exact Charged.writeType _ fun t => Charged.refl t
  | post bs g => exact ⟨_, exec_post (hh rfl) bs g, Charged.countCommand _ _ fun i n t => (Rests.post i n t).charged⟩
  | release bs g =>
    exact ⟨_, exec_release (hh rfl) bs g, Charged.countCommand _ _ fun i n t => (Rests.release i n t).charged⟩
  | close bs g => exact ⟨_, exec_close (hh rfl) bs g, Charged.entryCommand _ _ fun i t => (Rests.close i t).charged⟩
  | abort bs g => exact ⟨_, exec_abort (hh rfl) bs g, Charged.entryCommand _ _ fun i t => (Rests.abort i t).charged⟩
  | free bs g => exact ⟨_, exec_free (hh rfl) bs g, Charged.entryCommand _ _ fun i t => (Rests.freeEntry i t).charged⟩
  | markedCharacter d => exact ⟨_, exec_markedCharacter (hh rfl) d, (Rests.marked s d).charged⟩
  | unmarkedCharacter d => exact ⟨_, exec_unmarkedCharacter (hh rfl) d, (Rests.unmarked s d).charged⟩
  | collisionSeen k => exact ⟨_, exec_collisionSeen (hh rfl) k, (Rests.collisionSeen s k).charged⟩
  | receiverIdleGap => exact ⟨_, exec_receiverIdleGap (hh rfl), (Rests.receiverGap s).charged⟩
  | lineBusy k => exact ⟨_, exec_lineBusy (hh rfl) k, (Rests.lineBusied s k).charged⟩
  | lineIdle => exact ⟨_, exec_lineIdle (hh rfl), (Rests.lineIdled s).charged⟩
  | slotEnd => exact ⟨_, exec_slotEnd (hh rfl), (Rests.slotEnded s).charged⟩
  | quietTimerExpiry => exact ⟨_, exec_quietTimerExpiry (hh rfl), Charged.quietExpired s⟩
  | ackTimerExpiry i => exact ⟨_, exec_ackTimerExpiry (hh rfl) i, (Rests.ackExpired s i).charged⟩
  | holdTimerExpiry i => exact ⟨_, exec_holdTimerExpiry (hh rfl) i, (Rests.holdExpired s i).charged⟩
  | joinTimerExpiry i => exact ⟨_, exec_joinTimerExpiry (hh rfl) i, (Rests.joinExpired s i).charged⟩
  | silenceTimerExpiry i => exact ⟨_, exec_silenceTimerExpiry (hh rfl) i, (Rests.silenceExpired s i).charged⟩
  | dataFrame n st q fin p => exact ⟨_, exec_dataFrame (hh rfl) n st q fin p, (Rests.frameEvent s _).charged⟩
  | holdFrame n st q => exact ⟨_, exec_holdFrame (hh rfl) n st q, (Rests.frameEvent s _).charged⟩
  | ackFrame n st d q k => exact ⟨_, exec_ackFrame (hh rfl) n st d q k, (Rests.frameEvent s _).charged⟩
  | joinFrame n st k z => exact ⟨_, exec_joinFrame (hh rfl) n st k z, (Rests.frameEvent s _).charged⟩
  | acceptFrame n st d q z => exact ⟨_, exec_acceptFrame (hh rfl) n st d q z, (Rests.frameEvent s _).charged⟩
  | refuseFrame n st d r => exact ⟨_, exec_refuseFrame (hh rfl) n st d r, (Rests.frameEvent s _).charged⟩
  | leaveFrame n st => exact ⟨_, exec_leaveFrame (hh rfl) n st, (Rests.frameEvent s _).charged⟩
  | schedulerChoice => exact ⟨_, exec_schedulerChoice (hh rfl), Charged.choose s⟩
  | transmitStart => exact ⟨_, exec_transmitStart (hh rfl), Charged.transmitStart s⟩
  | transmitCollision k first => exact ⟨_, exec_transmitCollision (hh rfl) k first, Charged.txCollision s k first⟩

/-- Every step keeps the station state in charge. -/
theorem Charged.step {s t : State} (h : step s = .next t) : Charged s t := by
  cases hp : s.pending with
  | nil =>
    rw [step_empty s hp] at h
    cases h
    exact Charged.idle s
  | cons c rest =>
    simp only [Machine.step, hp] at h
    obtain ⟨u, hu, hk⟩ := Charged.exec c { s with pending := rest }
    cases hu.symm.trans h
    exact ((Charged.refl s).setPending rest).trans hk

/-- Settles O56: `Charged.step`. -/
theorem stepKeepsTheStationStateInCharge : Obligations.StepKeepsTheStationStateInCharge :=
  fun _ _ honline hoffline hreceiver h => Charged.step h ⟨honline, hoffline, hreceiver⟩

/-- Settles O52: the state after reset has the values of a reset. -/
theorem resetStateIsSound : Obligations.ResetStateIsSound := by
  have hreset : State.reset.resetTo [] 0 0 false = State.reset := rfl
  obtain ⟨hpool, ⟨hnotice, hsets⟩, hreplies, ⟨htable, hslots⟩, hwindow, howed⟩ :=
    sound_of_resetValues (hreset ▸ State.reset.resetTo_spec [] 0 0 false)
  have hcharge : onlineSafe State.reset ∧ offlineSafe State.reset ∧ receiverSafe State.reset :=
    ⟨⟨fun h => absurd rfl h, fun h => absurd rfl h, nofun⟩, fun _ i => by rw [← hreset, State.entry_resetTo]; rfl,
      iff_of_true rfl rfl, iff_of_false nofun nofun⟩
  obtain ⟨honline, hoffline, hreceiver⟩ := hcharge
  exact ⟨rfl, hpool, hnotice, hsets, honline, hoffline, hreceiver, hreplies, htable, hslots, hwindow, howed⟩

end Sys2Proof.Machine
end

section
/-! PROOFS. The queue of commands: a step takes its front, and no command touches it (O1, O3); and the commands that leave buffer
memory (used for O60). -/

namespace Sys2Proof.Machine

/- One after another: many theorems elaborated at once take a thread each. -/
set_option Elab.async false

open Sys2Proof.Safety

/-- Settles O1: what a step is on a queue that is not empty. -/
theorem stepRunsFrontCommand : Obligations.StepRunsFrontCommand := by
  intro s c rest h
  rw [Machine.step, h]

/-! ## What the host's commands leave of the queue and of buffer memory -/

/-- The queue of waiting commands and buffer memory stand. -/
def Leaves (s t : State) : Prop := t.pending = s.pending ∧ t.mem = s.mem

theorem Leaves.refl (s : State) : Leaves s s := ⟨rfl, rfl⟩

theorem Leaves.trans {s t u : State} (h : Leaves s t) (h' : Leaves t u) : Leaves s u :=
  ⟨h'.1.trans h.1, h'.2.trans h.2⟩

theorem Leaves.endAllLive (s : State) : Leaves s s.endAllLive := by
  unfold State.endAllLive
  generalize allEntries = l
  induction l generalizing s with
  | nil => exact Leaves.refl s
  | cons i l ih =>
    refine Leaves.trans ?_ (ih _)
    dsimp only
    split
    · exact ⟨rfl, rfl⟩
    · exact ⟨rfl, rfl⟩

theorem Leaves.setParameters (a b c : Byte) (t : State) : Leaves t (t.setParameters a b c).2 := by
  simp only [State.setParameters]
  split
  · exact ⟨rfl, rfl⟩
  · split
    · exact ⟨rfl, rfl⟩
    · exact ⟨rfl, rfl⟩

theorem Leaves.goOnline (t : State) : Leaves t t.goOnline.2 := by
  simp only [State.goOnline]
  split
  · exact ⟨rfl, rfl⟩
  · exact ⟨rfl, rfl⟩
  · exact ⟨rfl, rfl⟩

theorem Leaves.goOffline (t : State) : Leaves t t.goOffline.2 := by
  have hstop : Leaves t t.stopTransmitter := ⟨State.stopTransmitter_pending t, State.stopTransmitter_mem t⟩
  have hended := hstop.trans (Leaves.endAllLive t.stopTransmitter)
  simp only [State.goOffline]
  generalize t.stopTransmitter.endAllLive = u at hended ⊢
  exact hended

theorem Leaves.openWith (index : Byte) (a : OpenArgs) (e : Entry) (t : State) : Leaves t (t.openWith index a e).2 := by
  simp only [State.openWith]
  split
  · exact ⟨rfl, rfl⟩
  · split
    · exact ⟨rfl, rfl⟩
    · exact ⟨rfl, rfl⟩

theorem Leaves.post (i : EntryIdx) (n : Nat) (t : State) : Leaves t (t.post i n).2 := by
  rw [State.post_frame]
  exact ⟨rfl, rfl⟩

theorem Leaves.release (i : EntryIdx) (n : Nat) (t : State) : Leaves t (t.release i n).2 := by
  rw [State.release_frame]
  exact ⟨rfl, rfl⟩

theorem Leaves.close (i : EntryIdx) (t : State) : Leaves t (t.close i).2 := by
  simp only [State.close]
  split
  · exact ⟨rfl, rfl⟩
  · exact ⟨rfl, rfl⟩
  · exact ⟨rfl, rfl⟩
  · exact ⟨rfl, rfl⟩

theorem Leaves.abort (i : EntryIdx) (t : State) : Leaves t (t.abort i).2 := by
  simp only [State.abort]
  split
  · exact ⟨rfl, rfl⟩
  · exact ⟨rfl, rfl⟩

theorem Leaves.freeEntry (i : EntryIdx) (t : State) : Leaves t (t.freeEntry i).2 := by
  simp only [State.freeEntry]
  split
  · exact ⟨rfl, rfl⟩
  · exact ⟨rfl, rfl⟩

theorem Leaves.writeType {s : State} (exact : Bool) {act : State → ResultCode × State} (h : ∀ t, Leaves t (act t).2) :
    Leaves s (s.writeType exact act) := by
  cases exact with
  | false => exact ⟨rfl, rfl⟩
  | true =>
    rw [State.writeType_true]
    exact h { s with port := s.port.begun }

theorem Leaves.entryCommand {s : State} (bytes : List Byte) (ragged : Bool)
    {act : EntryIdx → State → ResultCode × State} (h : ∀ i t, Leaves t (act i t).2) :
    Leaves s (s.entryCommand bytes ragged act) := by
  unfold State.entryCommand
  split
  · refine Leaves.writeType _ fun t => ?_
    split
    · exact Leaves.refl t
    · exact h _ t
  · exact Leaves.writeType _ fun t => Leaves.refl t

theorem Leaves.countCommand {s : State} (bytes : List Byte) (ragged : Bool)
    {act : EntryIdx → Nat → State → ResultCode × State} (h : ∀ i n t, Leaves t (act i n t).2) :
    Leaves s (s.countCommand bytes ragged act) := by
  unfold State.countCommand
  split
  · refine Leaves.writeType _ fun t => ?_
    split
    · exact Leaves.refl t
    · exact h _ _ t
  · exact Leaves.writeType _ fun t => Leaves.refl t

theorem Leaves.completed {s t : State} {f : TxFrame} {owned : Bool} (h : s.completed = some (f, owned, t)) :
    Leaves s t := by
  rcases State.completed_cases h with ⟨_, _, rfl⟩ | ⟨_, _, rfl⟩
  · exact ⟨rfl, rfl⟩
  · exact ⟨State.sent_pending s f, State.sent_mem s f⟩

/-- The commands that only answer. -/
theorem Leaves.of_read {s : State} (hh : s.held = false) {c : Instr}
    (hc : c ∈ [Instr.readStatus, .statusRelatch, .readIdentity, .readNotice, .hostByteRead]
      ∨ (∃ b, c = .readEntry b ∨ c = .readSubscribers b ∨ c = .readSlot b) ∨ (∃ b b', c = .readBuffer b b')
      ∨ (∃ b, c = .unknownCommandCode b) ∨ ∃ b bs, c = .readCommandShortFraming b bs) :
    ∃ t, exec c s = .next t ∧ Leaves s t := by
  rcases hc with hc | ⟨b, rfl | rfl | rfl⟩ | ⟨b, b', rfl⟩ | ⟨b, rfl⟩ | ⟨b, bs, rfl⟩
  · simp only [List.mem_cons, List.not_mem_nil, or_false] at hc
    rcases hc with rfl | rfl | rfl | rfl | rfl
    · exact ⟨_, exec_readStatus hh, rfl, rfl⟩
    · exact ⟨_, exec_statusRelatch hh, by split <;> exact ⟨rfl, rfl⟩⟩
    · exact ⟨_, exec_readIdentity hh, rfl, rfl⟩
    · exact ⟨_, exec_readNotice hh, State.popNotice_pending s, State.popNotice_mem s⟩
    · exact ⟨_, exec_hostByteRead hh, by split <;> exact ⟨rfl, rfl⟩⟩
  · exact ⟨_, exec_readEntry hh b, by split <;> exact ⟨rfl, rfl⟩⟩
  · exact ⟨_, exec_readSubscribers hh b, by split <;> exact ⟨rfl, rfl⟩⟩
  · refine ⟨_, exec_readSlot hh b, ?_⟩
    split
    · exact ⟨rfl, rfl⟩
    · dsimp only
      split
      · exact ⟨rfl, rfl⟩
      · exact ⟨rfl, rfl⟩
  · exact ⟨_, exec_readBuffer hh b b', by split <;> exact ⟨rfl, rfl⟩⟩
  · refine ⟨_, exec_unknownCommandCode hh b, ?_⟩
    split
    · exact ⟨rfl, rfl⟩
    · split
      · exact ⟨rfl, rfl⟩
      · exact ⟨rfl, rfl⟩
  · exact ⟨_, exec_readCommandShortFraming hh b bs, by split <;> exact ⟨rfl, rfl⟩⟩

/-- A completion with its owner's part. -/
theorem Leaves.owned {s t : State} {f : TxFrame} {owned : Bool} {act : State → State}
    (h : s.completed = some (f, owned, t)) (hact : ∀ u, Leaves u (act u)) : Leaves s (if owned then act t else t) := by
  split
  · exact (Leaves.completed h).trans (hact t)
  · exact Leaves.completed h

theorem Leaves.of_completion {s : State} (hh : s.held = false) {c : Instr}
    (hc : c ∈ [Instr.newFrameComplete, .resendComplete, .holdComplete, .joinComplete, .ackComplete, .leaveComplete,
      .replyComplete]) : ∃ t, exec c s = .next t ∧ Leaves s t := by
  simp only [List.mem_cons, List.not_mem_nil, or_false] at hc
  rcases hc with rfl | rfl | rfl | rfl | rfl | rfl | rfl
  · refine ⟨_, exec_newFrameComplete hh, ?_⟩
    split
    · next h =>
      exact Leaves.owned (act := fun u => u.newDone _ _ _ _ _) h
        fun u => ⟨State.newDone_pending u _ _ _ _ _, State.newDone_mem u _ _ _ _ _⟩
    · exact ⟨rfl, rfl⟩
  · refine ⟨_, exec_resendComplete hh, ?_⟩
    split
    · next h =>
      exact Leaves.owned (act := fun u => u.resendDone _ _) h
        fun u => ⟨State.resendDone_pending u _ _, State.resendDone_mem u _ _⟩
    · exact ⟨rfl, rfl⟩
  · refine ⟨_, exec_holdComplete hh, ?_⟩
    split
    · next h =>
      exact Leaves.owned (act := fun u => u.holdDone _) h
        fun u => ⟨State.holdDone_pending u _, State.holdDone_mem u _⟩
    · exact ⟨rfl, rfl⟩
  · refine ⟨_, exec_joinComplete hh, ?_⟩
    split
    · next h =>
      exact Leaves.owned (act := fun u => u.joinDone _) h
        fun u => ⟨State.joinDone_pending u _, State.joinDone_mem u _⟩
    · exact ⟨rfl, rfl⟩
  · refine ⟨_, exec_ackComplete hh, ?_⟩
    split
    · next h =>
      exact Leaves.owned (act := fun u => u.ackDone _) h
        fun u => ⟨State.ackDone_pending u _, State.ackDone_mem u _⟩
    · exact ⟨rfl, rfl⟩
  · refine ⟨_, exec_leaveComplete hh, ?_⟩
    split
    · next h =>
      exact Leaves.owned (act := fun u => u.leaveDone _) h
        fun u => ⟨State.leaveDone_pending u _, State.leaveDone_mem u _⟩
    · exact ⟨rfl, rfl⟩
  · refine ⟨_, exec_replyComplete hh, ?_⟩
    split
    · next t h => exact (Leaves.completed h : t.pending = s.pending ∧ t.mem = s.mem)
    · exact ⟨rfl, rfl⟩

/-- WRITE_BUFFER leaves the queue. -/
theorem State.writeBuffer_pending (s : State) (bytes : List Byte) (ragged : Bool) :
    (s.writeType (!ragged && decide (3 ≤ bytes.length ∧ bytes.length ≤ 66)) (State.writeBuffer bytes)).pending
      = s.pending := by
  unfold State.writeType State.writeBuffer
  split
  · dsimp only
    split
    · split
      · rfl
      · rfl
    · rfl
  · rfl

/-- The commands that can write buffer memory: those of the host and of the supply, and the events at which a frame is
dispatched. -/
def writesMemory : Instr → Bool
  | .writeBuffer _ _ => true
  | .powerOn _ _ => true
  | .markedCharacter _ => true
  | .unmarkedCharacter _ => true
  | .collisionSeen _ => true
  | .receiverIdleGap => true
  | .transmitStart => true
  | c => c.frame?.isSome

/-- Every other command leaves the queue and buffer memory. -/
theorem Leaves.exec {c : Instr} (hc : writesMemory c = false) (s : State) : ∃ t, exec c s = .next t ∧ Leaves s t := by
  by_cases hheld : s.held = true ∧ isResetEvent c = false
  · exact ⟨s, exec_of_held hheld.1 hheld.2, Leaves.refl s⟩
  have hh : isResetEvent c = false → s.held = false := fun hc => by simpa [hc] using hheld
  cases c with
  | powerOn => cases hc
  | rstnLow => exact ⟨_, rfl, rfl, rfl⟩
  | rstnRelease sa rs => exact ⟨_, rfl, by split <;> exact ⟨rfl, rfl⟩⟩
  | readStatus | statusRelatch | readIdentity | readNotice | hostByteRead => exact Leaves.of_read (hh rfl) (by simp)
  | readEntry | readSubscribers | readSlot | readBuffer | unknownCommandCode | readCommandShortFraming =>
    exact Leaves.of_read (hh rfl) (by simp)
  | newFrameComplete | resendComplete | holdComplete | joinComplete | ackComplete | leaveComplete | replyComplete =>
    exact Leaves.of_completion (hh rfl) (by simp)
  | writeBuffer => cases hc
  | setParameters bs g =>
    refine ⟨_, exec_setParameters (hh rfl) bs g, ?_⟩
    split
    · exact Leaves.writeType _ (Leaves.setParameters _ _ _)
    · exact Leaves.writeType _ fun t => Leaves.refl t
  | goOnline bs g => exact ⟨_, exec_goOnline (hh rfl) bs g, Leaves.writeType _ Leaves.goOnline⟩
  | goOffline bs g =>
    exact ⟨_, exec_goOffline (hh rfl) bs g, Leaves.writeType _ Leaves.goOffline⟩
  | reset bs g sa rs => exact ⟨_, exec_reset (hh rfl) bs g sa rs, Leaves.writeType _ fun _ => ⟨rfl, rfl⟩⟩
  | openProduce bs g =>
    refine ⟨_, exec_openProduce (hh rfl) bs g, ?_⟩
    split
    · exact Leaves.writeType _ fun t => Leaves.openWith _ _ _ t
    · exact Leaves.writeType _ fun t => Leaves.refl t
  | openConsume bs g =>
    refine ⟨_, exec_openConsume (hh rfl) bs g, ?_⟩
    split
    · exact Leaves.writeType _ fun t => Leaves.openWith _ _ _ t
    · exact Leaves.writeType _ fun t => Leaves.refl t
  | post bs g => exact ⟨_, exec_post (hh rfl) bs g, Leaves.countCommand _ _ Leaves.post⟩
  | release bs g => exact ⟨_, exec_release (hh rfl) bs g, Leaves.countCommand _ _ Leaves.release⟩
  | close bs g => exact ⟨_, exec_close (hh rfl) bs g, Leaves.entryCommand _ _ Leaves.close⟩
  | abort bs g => exact ⟨_, exec_abort (hh rfl) bs g, Leaves.entryCommand _ _ Leaves.abort⟩
  | free bs g => exact ⟨_, exec_free (hh rfl) bs g, Leaves.entryCommand _ _ Leaves.freeEntry⟩
  | markedCharacter => cases hc
  | unmarkedCharacter => cases hc
  | collisionSeen => cases hc
  | receiverIdleGap => cases hc
  | lineBusy k => exact ⟨_, exec_lineBusy (hh rfl) k, State.lineBusied_pending s k, State.lineBusied_mem s k⟩
  | lineIdle => exact ⟨_, exec_lineIdle (hh rfl), State.lineIdled_pending s, State.lineIdled_mem s⟩
  | slotEnd => exact ⟨_, exec_slotEnd (hh rfl), State.slotEnded_pending s, State.slotEnded_mem s⟩
  | quietTimerExpiry =>
    exact ⟨_, exec_quietTimerExpiry (hh rfl), State.quietExpired_pending s, State.quietExpired_mem s⟩
  | ackTimerExpiry i =>
    exact ⟨_, exec_ackTimerExpiry (hh rfl) i, State.ackExpired_pending s i, State.ackExpired_mem s i⟩
  | holdTimerExpiry i =>
    exact ⟨_, exec_holdTimerExpiry (hh rfl) i, State.holdExpired_pending s i, State.holdExpired_mem s i⟩
  | joinTimerExpiry i =>
    exact ⟨_, exec_joinTimerExpiry (hh rfl) i, State.joinExpired_pending s i, State.joinExpired_mem s i⟩
  | silenceTimerExpiry i =>
    exact ⟨_, exec_silenceTimerExpiry (hh rfl) i, State.silenceExpired_pending s i, State.silenceExpired_mem s i⟩
  | dataFrame => cases hc
  | holdFrame => cases hc
  | ackFrame => cases hc
  | joinFrame => cases hc
  | acceptFrame => cases hc
  | refuseFrame => cases hc
  | leaveFrame => cases hc
  | schedulerChoice => exact ⟨_, exec_schedulerChoice (hh rfl), State.choose_pending s, State.choose_mem s⟩
  | transmitStart => cases hc
  | transmitCollision k first =>
    exact ⟨_, exec_transmitCollision (hh rfl) k first, State.txCollision_pending s k first, State.txCollision_mem s k first⟩

/-- Settles O3: the commands that can write buffer memory, and the others by `Leaves.exec`. -/
theorem everyCommandAnswersNext : Obligations.EveryCommandAnswersNext := by
  intro c s
  cases hc : writesMemory c with
  | false =>
    obtain ⟨t, ht, hpending, _⟩ := Leaves.exec hc s
    exact ⟨t, ht, hpending⟩
  | true =>
    by_cases hheld : s.held = true ∧ isResetEvent c = false
    · exact ⟨s, exec_of_held hheld.1 hheld.2, rfl⟩
    have hh : isResetEvent c = false → s.held = false := fun hc => by simpa [hc] using hheld
    cases c with
    | powerOn => exact ⟨_, rfl, rfl⟩
    | writeBuffer bs g => exact ⟨_, exec_writeBuffer (hh rfl) bs g, State.writeBuffer_pending s bs g⟩
    | markedCharacter d => exact ⟨_, exec_markedCharacter (hh rfl) d, State.marked_pending s d⟩
    | unmarkedCharacter d => exact ⟨_, exec_unmarkedCharacter (hh rfl) d, State.unmarked_pending s d⟩
    | collisionSeen k => exact ⟨_, exec_collisionSeen (hh rfl) k, State.collisionSeen_pending s k⟩
    | receiverIdleGap => exact ⟨_, exec_receiverIdleGap (hh rfl), State.receiverGap_pending s⟩
    | transmitStart => exact ⟨_, exec_transmitStart (hh rfl), State.transmitStart_pending s⟩
    | dataFrame n st q fin p => exact ⟨_, exec_dataFrame (hh rfl) n st q fin p, State.frameEvent_pending s _⟩
    | holdFrame n st q => exact ⟨_, exec_holdFrame (hh rfl) n st q, State.frameEvent_pending s _⟩
    | ackFrame n st d q k => exact ⟨_, exec_ackFrame (hh rfl) n st d q k, State.frameEvent_pending s _⟩
    | joinFrame n st k z => exact ⟨_, exec_joinFrame (hh rfl) n st k z, State.frameEvent_pending s _⟩
    | acceptFrame n st d q z => exact ⟨_, exec_acceptFrame (hh rfl) n st d q z, State.frameEvent_pending s _⟩
    | refuseFrame n st d r => exact ⟨_, exec_refuseFrame (hh rfl) n st d r, State.frameEvent_pending s _⟩
    | leaveFrame n st => exact ⟨_, exec_leaveFrame (hh rfl) n st, State.frameEvent_pending s _⟩
    | _ => cases hc

end Sys2Proof.Machine
end

section
/-! PROOFS. The dispatch of frames (R136, R137), and the frames at a producer entry (R38 to R40, R62, R68, R158 to R160): O28,
O29, O35 to O38, O41. -/

namespace Sys2Proof.Machine

/- One after another: many theorems elaborated at once take a thread each. -/
set_option Elab.async false

open Sys2Proof.Safety

/-! ## Dispatch -/

theorem exec_frameRow_of_free {s : State} (h : s.held = false) (f : Frame) :
    exec (frameRow f) s = .next (s.frameEvent f) := by
  rw [exec_frameRow, State.unlessHeld_high h]

theorem State.frameEvent_of_deaf {s : State} (h : s.rx.taking = false) (f : Frame) : s.frameEvent f = s := by
  simp only [State.frameEvent, h, Bool.false_eq_true, if_false]

/-- With nothing waiting, a frame is dispatched if the receiver hands it on. -/
theorem State.frameEvent_of_empty {s : State} (htaking : s.rx.taking = true) (hready : s.rx.ready = none) (f : Frame) :
    s.frameEvent f = if s.hears f then s.dispatch f else s := by
  simp only [State.frameEvent, htaking, hready, State.flush_none hready, if_true, reduceCtorEq, if_false]

/-- The frame that waits is the one dispatched. -/
theorem State.frameEvent_of_waiting {s : State} {f : Frame} (h : s.rx.ready = some f) : s.frameEvent f = s.flush := by
  obtain ⟨_, htaking⟩ := Receiver.taking_of_ready h
  simp only [State.frameEvent, htaking, h, if_true]

theorem State.held_flush (s : State) : s.flush.held = s.held := by simp [State.held]

theorem State.taking_flush (s : State) : s.flush.rx.taking = s.rx.taking := by
  unfold State.flush
  split
  · rw [State.dispatch_rx]
    rfl
  · rfl

/-- Settles O28: each case of what waits in the receiver. -/
theorem framesAreDispatchedInOrder : Obligations.FramesAreDispatchedInOrder := by
  intro s f hheld
  simp only [exec_frameRow_of_free hheld]
  refine ⟨fun hdeaf => ?_, fun htaking hready hhears => ?_, fun hready hhears => ?_, fun g hready hne => ?_⟩
  · rw [State.frameEvent_of_deaf hdeaf]
  · rw [State.frameEvent_of_empty htaking hready, hhears, if_neg nofun]
  · obtain ⟨_, htaking⟩ := Receiver.taking_of_ready hready
    let t : State := { s with rx := { s.rx with hold := [] } }
    have hempty : t.frameEvent f = if t.hears f then t.dispatch f else t :=
      State.frameEvent_of_empty (s := t) htaking (Receiver.ready_empty _ _ _) f
    rw [exec_frameRow_of_free (s := t) hheld, hempty, State.frameEvent_of_waiting hready, State.flush_some hready]
    exact congrArg _ (if_pos hhears).symm
  · obtain ⟨_, htaking⟩ := Receiver.taking_of_ready hready
    refine ⟨_, rfl, ?_⟩
    rw [State.frameEvent_of_waiting hready, exec_frameRow_of_free (s.held_flush.trans hheld),
      State.frameEvent_of_empty (s.taking_flush.trans htaking) s.ready_flush]
    simp only [State.frameEvent, htaking, hready, if_true, Option.some.injEq, hne, if_false]

/-- A live producer is no ENDED one. -/
theorem Entry.liveProducer_of_ended {e : Entry} (h : e.state = .ended) : e.liveProducer = false := by
  simp [Entry.liveProducer, h]

/-- An ENDED producer takes no frame (R57). -/
theorem State.dispatchTo_of_ended_producer {s : State} {i : EntryIdx} (hrole : (s.entry i).role = some .producer)
    (hstate : (s.entry i).state = .ended) (f : Frame) : s.dispatchTo i f = s := by
  have hdead := Entry.liveProducer_of_ended hstate
  cases f with
  | data | hold | accept => simp only [State.dispatchTo, hrole, State.conflict, hdead, Bool.false_eq_true, if_false]
  | ack => simp only [State.dispatchTo, hrole, State.producerAck, hdead, Bool.false_eq_true, if_false]
  | join => simp only [State.dispatchTo, hrole, State.producerJoin, hdead, Bool.not_false, if_true]
  | leave => simp only [State.dispatchTo, hrole, State.producerLeave, hdead, Bool.false_and, Bool.false_eq_true, if_false]
  | refuse => simp only [State.dispatchTo, hrole]

/-- Settles O29: the lookup finds no entry, or the row of the entry's role has no action. -/
theorem framesWithoutAnOwnerAreDropped : Obligations.FramesWithoutAnOwnerAreDropped := by
  intro s f hheld hready
  refine ⟨fun hnone => ?_, fun i hreach => ⟨fun hrole hstate => ?_, fun hrole hkind => ?_, fun hrole hkind => ?_,
    fun hrole hkind => ?_, fun hrole hkind => ?_⟩⟩
  · have hdrop : s.dispatch f = s := by simp only [State.dispatch, State.entryOf_none.mpr hnone]
    rw [exec_frameRow_of_free hheld]
    cases htaking : s.rx.taking with
    | false => rw [State.frameEvent_of_deaf htaking]
    | true => rw [State.frameEvent_of_empty htaking hready, hdrop, ite_self]
  · rw [exec_frameRow_of_reaches hreach, State.dispatchTo_of_ended_producer hrole hstate]
  · obtain ⟨n, st, d, r, rfl⟩ := hkind
    rw [exec_frameRow_of_reaches hreach]
    simp only [State.dispatchTo, hrole]
  · obtain ⟨n, st, d, a, k, rfl⟩ := hkind
    rw [exec_frameRow_of_reaches hreach]
    simp only [State.dispatchTo, hrole]
  · obtain ⟨n, st, k, p, rfl⟩ := hkind
    rw [exec_frameRow_of_reaches hreach]
    simp only [State.dispatchTo, hrole]
  · obtain ⟨n, st, rfl⟩ := hkind
    rw [exec_frameRow_of_reaches hreach]
    simp only [State.dispatchTo, hrole]

/-- The entry that a frame reaches carries the frame's stream. -/
theorem stream_of_reaches {s : State} {f : Frame} {i : EntryIdx} (h : reaches s f i) : (s.entry i).stream = frameStream f := by
  obtain ⟨_, _, _, _, _, _, hst, _⟩ := h
  exact hst

/-! ## The reply queue (R158 to R160) -/

/-- Settles O38: whether a queued reply has the destination and the stream, and whether there is room. -/
theorem repliesReplaceJoinOrDrop : Obligations.RepliesReplaceJoinOrDrop := by
  intro q n st b
  have hany : q.any (fun r => r.dest == n && r.stream == st) = true ↔ ∃ r ∈ q, r.dest = n ∧ r.stream = st := by simp
  refine ⟨fun hfound => ?_, fun hnone hroom => ?_, fun hnone hfull => ?_⟩
  · have hplace : placeReply q n st b = q.map (fun r => if r.dest == n && r.stream == st then
        { r with body := b, inService := false } else r) := if_pos (hany.mpr hfound)
    refine ⟨by rw [hplace, List.length_map], fun j hj hj' => ?_⟩
    simp only [hplace, List.getElem_map, Bool.and_eq_true, beq_iff_eq]
    split
    · next h =>
      simp only [h.1, h.2]
    · rfl
  · have hnot : ¬q.any (fun r => r.dest == n && r.stream == st) = true := fun h => by
      obtain ⟨r, hr, hmatch⟩ := hany.mp h
      exact hnone r hr hmatch
    exact (if_neg hnot).trans (if_pos hroom)
  · have hnot : ¬q.any (fun r => r.dest == n && r.stream == st) = true := fun h => by
      obtain ⟨r, hr, hmatch⟩ := hany.mp h
      exact hnone r hr hmatch
    exact (if_neg hnot).trans (if_neg (Nat.not_lt.mpr hfull))

/-! ## Subscribers in a list (R59, R61) -/

theorem find?_station_none {subs : List SubRec} {n : Station} (h : ∀ r ∈ subs, r.station ≠ n) :
    subs.find? (fun r => r.station == n) = none :=
  List.find?_eq_none.mpr fun r hr => by simpa using h r hr

/-- In a list without repetition a station's record is the one that a search finds. -/
theorem find?_station_some {subs : List SubRec} {n : Station} {r : SubRec} (hr : r ∈ subs) (hn : r.station = n)
    (hnodup : (subs.map (fun r => r.station)).Nodup) : subs.find? (fun r => r.station == n) = some r := by
  induction subs with
  | nil => cases hr
  | cons q qs ih =>
    obtain ⟨hq, hqs⟩ := List.nodup_cons.mp hnodup
    rcases List.mem_cons.mp hr with rfl | hmem
    · exact List.find?_cons_of_pos (by simpa using hn)
    · have hne : q.station ≠ n := fun hqn => hq (List.mem_map.mpr ⟨r, hmem, hn.trans hqn.symm⟩)
      rw [List.find?_cons_of_neg (p := fun r : SubRec => r.station == n) (by simpa using hne)]
      exact ih hmem hqs

theorem updateSub_eq (subs : List SubRec) (n : Station) (f : SubRec → SubRec) :
    updateSub subs n f = subs.map (fun r => if r.station = n then f r else r) :=
  List.map_congr_left fun r _ => by simp only [beq_iff_eq]

theorem isSubscriber_false {subs : List SubRec} {n : Station} (h : ∀ r ∈ subs, r.station ≠ n) :
    isSubscriber subs n = false := by
  rw [Bool.eq_false_iff, ne_eq, isSubscriber_iff, List.mem_map]
  rintro ⟨r, hr, hn⟩
  exact h r hr hn

/-! ## ACK at a producer (R38 to R40) -/

theorem State.dispatchTo_producer_ack {s : State} {i : EntryIdx} (hrole : (s.entry i).role = some .producer) (n : Station)
    (st : StreamNo) (d : Station) (a : Seq) (k : Nat) : s.dispatchTo i (.ack n st d a k) = s.producerAck i n a k := by
  simp only [State.dispatchTo, hrole]

/-- An ACK that reaches a live producer, by the record of its source. -/
theorem exec_ackFrame_of_reaches {s : State} {i : EntryIdx} {n : Station} {st : StreamNo} {d : Station} {a : Seq} {k : Nat}
    (h : reaches s (.ack n st d a k) i) (hrole : (s.entry i).role = some .producer) :
    exec (.ackFrame n st d a k) s = .next (s.producerAck i n a k) := by
  rw [← State.dispatchTo_producer_ack hrole n st d a k]
  exact exec_frameRow_of_reaches h

theorem State.producerAck_of_stranger {s : State} {i : EntryIdx} {n : Station} (a : Seq) (k : Nat)
    (hlive : (s.entry i).liveProducer = true) (hnone : ∀ r ∈ (s.entry i).prod.subs, r.station ≠ n) :
    s.producerAck i n a k = s.reply n (s.entry i).stream (.refuse .notSubscribed) := by
  simp only [State.producerAck, hlive, if_true, find?_station_none hnone]

theorem State.producerAck_of_stale {s : State} {i : EntryIdx} {n : Station} {a : Seq} {r : SubRec} (k : Nat)
    (hlive : (s.entry i).liveProducer = true)
    (hfind : (s.entry i).prod.subs.find? (fun r => r.station == n) = some r)
    (hstale : ackIsStale (s.entry i).prod.nextSeq r.acked a = true) :
    s.producerAck i n a k = s.setProd i { (s.entry i).prod with
      subs := updateSub (s.entry i).prod.subs n SubRec.hearAck } := by
  simp only [State.producerAck, hlive, if_true, hfind, hstale]

theorem State.producerAck_of_valid {s : State} {i : EntryIdx} {n : Station} {a : Seq} {r : SubRec} (k : Nat)
    (hlive : (s.entry i).liveProducer = true)
    (hfind : (s.entry i).prod.subs.find? (fun r => r.station == n) = some r)
    (hvalid : ackIsStale (s.entry i).prod.nextSeq r.acked a = false) :
    s.producerAck i n a k = (s.setProd i { (s.entry i).prod with
      subs := updateSub (s.entry i).prod.subs n (fun r => r.takeAck a k)
      ring := ackRing (s.entry i).prod.ring n a }).retire i := by
  simp only [State.producerAck, hlive, if_true, hfind, hvalid, Bool.false_eq_true, if_false]

/-- Settles O35: the search for the source's record finds none, or one whose ACK is stale. -/
theorem strangeAndStaleAcks : Obligations.StrangeAndStaleAcks := by
  intro s i n st d a k hreach hrole hstate
  have hlive := (Entry.liveProducer_iff _).mpr hstate
  rw [exec_ackFrame_of_reaches hreach hrole]
  refine ⟨fun hnone => ?_, fun r hr hn hnodup hstale => ?_⟩
  · rw [State.producerAck_of_stranger a k hlive hnone, stream_of_reaches hreach]
    rfl
  · refine ⟨_, rfl, ?_⟩
    rw [State.producerAck_of_stale k hlive (find?_station_some hr hn hnodup) (decide_eq_true hstale), updateSub_eq]
    exact ⟨rfl, fun j hj => State.entry_setProd_of_ne _ _ hj, State.entry_setProd_self _ _ _⟩

/-- The records that an ACK takes its source out of, from the oldest through the acknowledged one (R40). -/
theorem ackRing_eq (ring : List FrameRec) (n : Station) (a : Seq) : ackRing ring n a = ring.map (fun r =>
    if (∃ q ∈ ring, q.seq = a)
      ∧ (r.seq - (ring.head?.map (fun r => r.seq)).getD 0#8).toNat ≤ (a - (ring.head?.map (fun r => r.seq)).getD 0#8).toNat
    then { r with owed := r.owed &&& ~~~stationBit n } else r) := by
  cases ring with
  | nil => rfl
  | cons o rest =>
    have hany : (o :: rest).any (fun r => r.seq == a) = true ↔ ∃ q ∈ o :: rest, q.seq = a := by
      simp only [List.any_eq_true, beq_iff_eq]
    simp only [ackRing, List.head?_cons, Option.map_some, Option.getD_some]
    by_cases hacked : ∃ q ∈ o :: rest, q.seq = a
    · rw [if_pos (hany.mpr hacked)]
      exact List.map_congr_left fun r _ => by simp only [hacked, true_and]
    · rw [if_neg (hany.not.mpr hacked)]
      simp only [hacked, false_and, if_false, List.map_id']

/-- Settles O36: the ACK is valid, so that its three steps are taken, the last the retirement run. -/
theorem validAckRunsRetirement : Obligations.ValidAckRunsRetirement := by
  intro s i n st d a k r hreach hrole hstate hr hn hnodup hvalid
  have hlive := (Entry.liveProducer_iff _).mpr hstate
  refine ⟨_, exec_ackFrame_of_reaches hreach hrole, ?_⟩
  rw [State.producerAck_of_valid k hlive (find?_station_some hr hn hnodup) (decide_eq_false (Nat.not_lt.mpr hvalid)),
    updateSub_eq, ackRing_eq]
  exact State.retire_spec _ _

/-! ## JOIN at a producer (R62) -/

section Join

variable {s : State} {i : EntryIdx} {n : Station} {k size : Nat}

theorem exec_joinFrame_of_reaches {st : StreamNo} (h : reaches s (.join n st k size) i)
    (hrole : (s.entry i).role = some .producer) :
    exec (.joinFrame n st k size) s = .next (s.producerJoin i n k size) := by
  have hrow : s.dispatchTo i (.join n st k size) = s.producerJoin i n k size := by simp only [State.dispatchTo, hrole]
  rw [← hrow]
  exact exec_frameRow_of_reaches h

theorem State.producerJoin_of_dead (h : (s.entry i).liveProducer = false) : s.producerJoin i n k size = s := by
  simp only [State.producerJoin, h, Bool.not_false, if_true]

theorem State.producerJoin_of_own (h : n = s.stationNo) : s.producerJoin i n k size = s := by
  simp only [State.producerJoin, h, if_true, ite_self]

section Answered

variable (hn : n ≠ s.stationNo)

include hn

theorem State.producerJoin_of_closing (hstate : (s.entry i).state = .closing) :
    s.producerJoin i n k size = s.reply n (s.entry i).stream (.refuse .closing) := by
  have hlive : (s.entry i).liveProducer = true := (Entry.liveProducer_iff _).mpr (.inr hstate)
  simp only [State.producerJoin, hlive, hn, hstate, Bool.not_true, Bool.false_eq_true, if_false, if_true]

variable (hstate : (s.entry i).state = .producing)

include hstate

theorem State.producerJoin_of_size (hsize : size ≠ (s.entry i).size) :
    s.producerJoin i n k size = s.reply n (s.entry i).stream (.refuse .size) := by
  have hlive : (s.entry i).liveProducer = true := (Entry.liveProducer_iff _).mpr (.inl hstate)
  simp only [State.producerJoin, hlive, hn, hstate, Bool.not_true, Bool.false_eq_true, if_false, reduceCtorEq]
  exact if_pos hsize

variable (hsize : size = (s.entry i).size)

include hsize

theorem State.producerJoin_of_subscriber {r : SubRec}
    (hfind : (s.entry i).prod.subs.find? (fun r => r.station == n) = some r) :
    s.producerJoin i n k size =
      (s.setProd i { (s.entry i).prod with
        subs := updateSub (s.entry i).prod.subs n (fun r => { r with credit := k, heard := true }) }).reply
        n (s.entry i).stream (.accept (r.acked + 1) (s.entry i).size) := by
  have hlive : (s.entry i).liveProducer = true := (Entry.liveProducer_iff _).mpr (.inl hstate)
  simp only [State.producerJoin, hlive, hn, hstate, hsize, hfind, Bool.not_true, Bool.false_eq_true, if_false, reduceCtorEq,
    ne_eq, not_true_eq_false]

theorem State.producerJoin_of_new (hfind : (s.entry i).prod.subs.find? (fun r => r.station == n) = none) :
    s.producerJoin i n k size =
      if s.poolFree = 0 then s.reply n (s.entry i).stream (.refuse .full)
      else
        (State.reply { s.setProd i { (s.entry i).prod with
          subs := (s.entry i).prod.subs ++ [newSub n (s.entry i).prod.nextSeq k] } with poolFree := s.poolFree - 1 }
          n (s.entry i).stream (.accept (s.entry i).prod.nextSeq (s.entry i).size)).raiseJoined i n := by
  have hlive : (s.entry i).liveProducer = true := (Entry.liveProducer_iff _).mpr (.inl hstate)
  simp only [State.producerJoin, hlive, hn, hstate, hsize, hfind, Bool.not_true, Bool.false_eq_true, if_false, reduceCtorEq,
    ne_eq, not_true_eq_false]

end Answered

end Join

/-- Settles O37: the rows in their order, each excluded by the rows before it. -/
theorem joinIsAnsweredByTheFirstRow : Obligations.JoinIsAnsweredByTheFirstRow := by
  intro s i n st k size hreach hrole hnodup
  dsimp only
  obtain rfl : (s.entry i).stream = st := stream_of_reaches hreach
  rw [exec_joinFrame_of_reaches hreach hrole]
  refine ⟨fun h => ?_, fun hstate hn => ?_, fun hstate hn hsize => ?_, fun r hr hrn hstate hn hsize => ?_,
    fun hstate hn hsize hnew hpool => ?_, fun hstate hn hsize hnew hpool => ?_⟩
  · rcases h with hended | hown
    · rw [State.producerJoin_of_dead (Entry.liveProducer_of_ended hended)]
    · rw [State.producerJoin_of_own hown]
  · rw [State.producerJoin_of_closing hn hstate]
    rfl
  · rw [State.producerJoin_of_size hn hstate hsize]
    rfl
  · refine ⟨_, rfl, ?_⟩
    rw [State.producerJoin_of_subscriber hn hstate hsize (find?_station_some hr hrn hnodup), updateSub_eq]
    refine ⟨rfl, fun j hj => ?_, ?_⟩
    · exact State.entry_setProd_of_ne s _ hj
    · exact State.entry_setProd_self s _ _
  · have hnone : ∀ r ∈ (s.entry i).prod.subs, r.station ≠ n := fun r hr hrn => hnew ⟨r, hr, hrn⟩
    rw [State.producerJoin_of_new hn hstate hsize (find?_station_none hnone), if_pos hpool]
    rfl
  · have hnone : ∀ r ∈ (s.entry i).prod.subs, r.station ≠ n := fun r hr hrn => hnew ⟨r, hr, hrn⟩
    refine ⟨_, rfl, ?_⟩
    rw [State.producerJoin_of_new hn hstate hsize (find?_station_none hnone), if_neg (Nat.pos_iff_ne_zero.mp hpool)]
    refine ⟨rfl, fun j hj => ?_, ?_, State.raise_spec _ (itemOf i) .joined _⟩
    · exact State.entry_setProd_of_ne s _ hj
    · exact State.entry_setProd_self s _ _

/-! ## LEAVE at a producer (R68, R69) -/

/-- Settles O41: a subscriber's LEAVE takes its steps up to the retirement run, any other's has none. -/
theorem leaveGivesTheRecordBack : Obligations.LeaveGivesTheRecordBack := by
  intro s i n st hreach hrole hstate
  dsimp only
  have hlive := (Entry.liveProducer_iff _).mpr hstate
  have hexec : exec (.leaveFrame n st) s = .next (s.producerLeave i n) := by
    have hrow : s.dispatchTo i (.leave n st) = s.producerLeave i n := by simp only [State.dispatchTo, hrole]
    rw [← hrow]
    exact exec_frameRow_of_reaches hreach
  rw [hexec]
  refine ⟨fun hsub => ?_, fun hnone => ?_⟩
  · obtain ⟨r, hr, hn⟩ := hsub
    have hmem : isSubscriber (s.entry i).prod.subs n = true := by
      rw [isSubscriber_iff, ← hn]
      exact List.mem_map_of_mem (f := fun r => r.station) hr
    have hsubs : (s.entry i).prod.subs.filter (fun r => r.station != n)
        = (s.entry i).prod.subs.filter (fun r => r.station ≠ n) := List.filter_congr fun r _ => by simp [bne, beq_eq_decide]
    simp only [State.producerLeave, hlive, hmem, Bool.and_self, if_true]
    refine ⟨_, _, rfl, rfl, fun j hj => ?_, ?_, State.raise_spec _ (itemOf i) .departed _, State.retire_spec _ _⟩
    · exact State.entry_setProd_of_ne s _ hj
    · rw [← hsubs]
      exact State.entry_setProd_self s _ _
  · simp only [State.producerLeave, hlive, isSubscriber_false hnone, Bool.true_and, Bool.false_eq_true, if_false]

end Sys2Proof.Machine
end

section
/-! PROOFS. DATA at a consumer entry (R87 to R92, R98, R101 to R107): O30, O31, O32. -/

namespace Sys2Proof.Machine

/- One after another: many theorems elaborated at once take a thread each. -/
set_option Elab.async false

open Sys2Proof.Safety

/-! ## What DATA does at an entry in RECEIVING, case by case -/

section Receiving

variable {s : State} {i : EntryIdx} {q : Seq} {fin : Bool} {payload : List Byte}

/-- The length that an entry takes: a full-size frame or a zero-length END (R87). -/
def Entry.fits (e : Entry) (fin : Bool) (payload : List Byte) : Prop :=
  payload.length = e.size ∨ payload.length = 0 ∧ fin = true

theorem Entry.not_fits_iff (e : Entry) (fin : Bool) (payload : List Byte) :
    (!(payload.length == e.size) && !(payload.isEmpty && fin)) = true ↔ ¬e.fits fin payload := by
  rw [Entry.fits, not_or, not_and]
  simp [imp_iff_not_or]

/-- An answer to DATA that is not accepted: the silence timer restarted and an ACK owed (R91, R94, R101). -/
def Entry.answered (e : Entry) (p : Params) : Entry :=
  { e with timer := .running p.tSil, cons := { e.cons with ack := owing e.cons.ack } }

theorem State.restartSilence_oweAck (s : State) (i : EntryIdx) :
    (s.restartSilence i).oweAck i = s.setEntry i ((s.entry i).answered s.params) := by
  simp only [State.restartSilence, State.oweAck, State.setCons, State.entry_setEntry_self, State.setEntry_setEntry,
    AckFlag.owe_eq, Entry.answered]

theorem State.receivingData_of_unfit (h : ¬(s.entry i).fits fin payload) : s.receivingData i q fin payload = s :=
  if_pos ((Entry.not_fits_iff _ _ _).mpr h)

theorem State.receivingData_of_stale (h : seqClass q (s.entry i).cons.expected = .stale) :
    s.receivingData i q fin payload = s := by
  simp only [State.receivingData, h, if_true, ite_self]

/-- A frame of a length that the entry takes and not stale. -/
theorem State.receivingData_of_taken (hfits : (s.entry i).fits fin payload)
    (hclass : seqClass q (s.entry i).cons.expected ≠ .stale) : s.receivingData i q fin payload =
      if (s.entry i).cons.endMark then
        if (s.entry i).cons.lastSeq = some q then (s.restartSilence i).oweAck i else s.restartSilence i
      else if seqClass q (s.entry i).cons.expected = .inOrder then
        if payload.length ≠ (s.entry i).size then s.setEntry i ((s.entry i).acceptedEnd s.params q)
        else if (s.entry i).mode = .advance ∧ (s.entry i).slots ≤ (s.entry i).cons.held then
          (s.restartSilence i).oweAck i
        else s.acceptFull i q fin payload
      else (s.restartSilence i).oweAck i := by
  have hlen : (!(payload.length == (s.entry i).size)) = true ↔ payload.length ≠ (s.entry i).size := by simp
  have hunfit := (Entry.not_fits_iff (s.entry i) fin payload).not.mpr (not_not_intro hfits)
  refine (if_neg hunfit).trans ((if_neg hclass).trans ?_)
  simp only [hlen]

/-- After END was accepted (R102). -/
theorem State.receivingData_of_marked (hfits : (s.entry i).fits fin payload)
    (hclass : seqClass q (s.entry i).cons.expected ≠ .stale) (hmark : (s.entry i).cons.endMark = true) :
    s.receivingData i q fin payload = s.setEntry i { s.entry i with
      timer := .running s.params.tSil
      cons := { (s.entry i).cons with
        ack := if (s.entry i).cons.lastSeq = some q then owing (s.entry i).cons.ack else (s.entry i).cons.ack } } := by
  rw [State.receivingData_of_taken hfits hclass, if_pos hmark, State.restartSilence_oweAck, Entry.answered,
    State.restartSilence]
  split
  · rfl
  · rfl

/-- A zero-length END in order (R90). -/
theorem State.receivingData_of_zeroEnd (hfull : payload.length ≠ (s.entry i).size) (hzero : payload.length = 0 ∧ fin = true)
    (hclass : seqClass q (s.entry i).cons.expected = .inOrder) (hmark : (s.entry i).cons.endMark = false) :
    s.receivingData i q fin payload = s.setEntry i ((s.entry i).acceptedEnd s.params q) := by
  rw [State.receivingData_of_taken (.inr hzero) (by rw [hclass]; nofun), hmark, if_neg nofun, if_pos hclass, if_pos hfull]

/-- In order and full, or behind or ahead: an ACK is owed (R89, R91, R92). -/
theorem State.receivingData_of_unaccepted (hmark : (s.entry i).cons.endMark = false)
    (h : seqClass q (s.entry i).cons.expected = .inOrder ∧ payload.length = (s.entry i).size
        ∧ (s.entry i).mode = .advance ∧ (s.entry i).slots ≤ (s.entry i).cons.held
      ∨ (s.entry i).fits fin payload
        ∧ (seqClass q (s.entry i).cons.expected = .ahead ∨ seqClass q (s.entry i).cons.expected = .behind)) :
    s.receivingData i q fin payload = s.setEntry i ((s.entry i).answered s.params) := by
  rw [← State.restartSilence_oweAck]
  rcases h with ⟨hclass, hfull, hroom⟩ | ⟨hfits, hclass⟩
  · rw [State.receivingData_of_taken (.inl hfull) (by rw [hclass]; nofun), hmark, if_neg nofun, if_pos hclass,
      if_neg (not_not_intro hfull), if_pos hroom]
  · have hstale : seqClass q (s.entry i).cons.expected ≠ .stale := by rcases hclass with h | h <;> rw [h] <;> nofun
    have horder : seqClass q (s.entry i).cons.expected ≠ .inOrder := by rcases hclass with h | h <;> rw [h] <;> nofun
    rw [State.receivingData_of_taken hfits hstale, hmark, if_neg nofun, if_neg horder]

/-- A full-size frame in order, with room for it (R88, R89). -/
theorem State.receivingData_of_accepted (hfull : payload.length = (s.entry i).size)
    (hclass : seqClass q (s.entry i).cons.expected = .inOrder) (hmark : (s.entry i).cons.endMark = false)
    (hroom : (s.entry i).mode = .advance → (s.entry i).cons.held < (s.entry i).slots) :
    s.receivingData i q fin payload = s.acceptFull i q fin payload := by
  rw [State.receivingData_of_taken (.inl hfull) (by rw [hclass]; nofun), hmark, if_neg nofun, if_pos hclass,
    if_neg (not_not_intro hfull), if_neg fun h => Nat.not_le.mpr (hroom h.1) h.2]

end Receiving

/-! ## DATA at a consumer entry, by its state -/

section Consumer

variable {s : State} {i : EntryIdx} {n : Station} {q : Seq} {fin : Bool} {payload : List Byte}

theorem exec_dataFrame_of_reaches {st : StreamNo} (h : reaches s (.data n st q fin payload) i)
    (hrole : (s.entry i).role = some .consumer) :
    exec (.dataFrame n st q fin payload) s = .next (s.consumerData i n q fin payload) := by
  have hrow : s.dispatchTo i (.data n st q fin payload) = s.consumerData i n q fin payload := by
    simp only [State.dispatchTo, hrole]
  rw [← hrow]
  exact exec_frameRow_of_reaches h

theorem State.consumerData_of_foreign (h : (s.entry i).cons.producer ≠ some n) : s.consumerData i n q fin payload = s :=
  if_pos h

theorem State.consumerData_of_receiving (hn : (s.entry i).cons.producer = some n) (h : (s.entry i).state = .receiving) :
    s.consumerData i n q fin payload = s.receivingData i q fin payload :=
  (if_neg (not_not_intro hn)).trans (if_pos h)

theorem State.consumerData_of_lingering (hn : (s.entry i).cons.producer = some n) (h : (s.entry i).state ≠ .receiving)
    (hlast : (s.entry i).lingers = true ∧ (s.entry i).cons.lastSeq = some q) :
    s.consumerData i n q fin payload = s.oweAck i :=
  (if_neg (not_not_intro hn)).trans ((if_neg h).trans (if_pos hlast))

theorem State.consumerData_of_other (h : (s.entry i).state ≠ .receiving)
    (hlast : ¬((s.entry i).lingers = true ∧ (s.entry i).cons.lastSeq = some q)) :
    s.consumerData i n q fin payload = s := by
  by_cases hn : (s.entry i).cons.producer = some n
  · exact (if_neg (not_not_intro hn)).trans ((if_neg h).trans (if_neg hlast))
  · exact State.consumerData_of_foreign hn

end Consumer

/-- Settles O31: by the sender, the state, the length and the class of the sequence. -/
theorem dataOutOfOrderIsAnsweredOrIgnored : Obligations.DataOutOfOrderIsAnsweredOrIgnored := by
  intro s i n st q fin payload hreach hrole
  dsimp only
  obtain ⟨hin, hahead, hbehind, hstale⟩ := seqClass_spec q (s.entry i).cons.expected
  rw [exec_dataFrame_of_reaches hreach hrole]
  refine ⟨fun h => ?_, fun hstate hn h => ?_, fun hstate hn hmark hfull hzero hd => ?_, fun hstate hn hmark h => ?_⟩
  · rcases h with hjoining | hforeign
    · rw [State.consumerData_of_other (by simp [hjoining]) (by simp [Entry.lingers, hjoining])]
    · rw [State.consumerData_of_foreign hforeign]
  · rw [State.consumerData_of_receiving hn hstate]
    rcases h with ⟨hfull, hzero⟩ | hd
    · rw [State.receivingData_of_unfit (not_or.mpr ⟨hfull, hzero⟩)]
    · rw [State.receivingData_of_stale (hstale.mpr hd)]
  · refine ⟨_, rfl, ?_⟩
    rw [State.consumerData_of_receiving hn hstate, State.receivingData_of_zeroEnd hfull hzero (hin.mpr hd) hmark]
    refine ⟨rfl, fun j hj => State.entry_setEntry_of_ne _ _ hj, ?_⟩
    rw [State.entry_setEntry_self, Entry.acceptedEnd, AckFlag.owe_eq]
    rfl
  · refine ⟨_, rfl, ?_⟩
    have hclass : seqClass q (s.entry i).cons.expected = .inOrder ∧ payload.length = (s.entry i).size
          ∧ (s.entry i).mode = .advance ∧ (s.entry i).slots ≤ (s.entry i).cons.held
        ∨ (s.entry i).fits fin payload
          ∧ (seqClass q (s.entry i).cons.expected = .ahead ∨ seqClass q (s.entry i).cons.expected = .behind) := by
      rw [hin, hahead, hbehind]
      exact h
    rw [State.consumerData_of_receiving hn hstate, State.receivingData_of_unaccepted hmark hclass]
    exact ⟨rfl, fun j hj => State.entry_setEntry_of_ne _ _ hj, State.entry_setEntry_self _ _ _⟩

theorem Entry.lingers_eq (e : Entry) : e.lingers = true ↔
    e.state = .leaving ∨ e.state = .ended ∧ (e.cause = some .byProducer ∨ e.cause = some .countDone) := by
  simp [Entry.lingers]

/-- Settles O32: with the END mark set in RECEIVING, and in LEAVING and ENDED by the lingering answer. -/
theorem dataAfterTheLastFrameLingers : Obligations.DataAfterTheLastFrameLingers := by
  intro s i n st q fin payload hreach hrole hn
  dsimp only
  rw [exec_dataFrame_of_reaches hreach hrole, ← Entry.lingers_eq]
  refine ⟨fun hstate hmark hfits hd => ?_, fun hlingers hlast => ?_, fun hstate hlast => ?_⟩
  · refine ⟨_, rfl, ?_⟩
    rw [State.consumerData_of_receiving hn hstate,
      State.receivingData_of_marked hfits ((seqClass_ne_stale_iff _ _).mpr hd) hmark]
    exact ⟨rfl, fun j hj => State.entry_setEntry_of_ne _ _ hj, State.entry_setEntry_self _ _ _⟩
  · refine ⟨_, rfl, ?_⟩
    have hstate : (s.entry i).state ≠ .receiving := by
      rcases (Entry.lingers_eq _).mp hlingers with h | ⟨h, _⟩ <;> rw [h] <;> nofun
    rw [State.consumerData_of_lingering hn hstate ⟨hlingers, hlast⟩]
    refine ⟨rfl, fun j hj => State.entry_setEntry_of_ne _ _ hj, ?_⟩
    rw [State.oweAck, State.setCons, State.entry_setEntry_self, AckFlag.owe_eq]
  · have hstate' : (s.entry i).state ≠ .receiving := by rcases hstate with h | h <;> rw [h] <;> nofun
    rw [State.consumerData_of_other hstate' hlast]

/-! ## A full-size frame accepted (R88, R89, R98, R103) -/

/-- The entry after an accepted full-size frame, field by field. -/
theorem Entry.accepted_eq {e : Entry} (p : Params) (q : Seq) (fin : Bool) (hstate : e.state = .receiving) :
    e.accepted p q fin =
      { e with
        state := if e.count ≠ 0 ∧ e.remainingAfter = 0 ∧ fin = false then .leaving else .receiving
        timer := if e.count ≠ 0 ∧ e.remainingAfter = 0 ∧ fin = false then .stopped else .running p.tSil
        remaining := e.remainingAfter
        cause := if e.count ≠ 0 ∧ e.remainingAfter = 0 ∧ fin = false then some .countDone else e.cause
        cons := { e.cons with
          writeIdx := if e.mode = .advance then (e.cons.writeIdx + 1) % e.slots else e.cons.writeIdx
          held := if e.mode = .advance then e.cons.held + 1 else e.cons.held
          expected := e.cons.expected + 1
          lastSeq := some q
          endMark := fin
          ack := owing e.cons.ack
          joinDue := if e.count ≠ 0 ∧ e.remainingAfter = 0 ∧ fin = false then false else e.cons.joinDue } } := by
  simp only [Entry.accepted, AckFlag.owe_eq]
  split
  · rfl
  · rw [← hstate]

theorem Entry.raisesDataReady_iff (e : Entry) :
    e.raisesDataReady = true ↔ e.mode = .fixed ∨ e.cons.held + 1 = e.threshold := by
  simp [Entry.raisesDataReady]

/-- The stored frame and the entry, before DATA_READY (R88). -/
def State.stored (s : State) (i : EntryIdx) (q : Seq) (fin : Bool) (payload : List Byte) : State :=
  { s.setEntry i ((s.entry i).accepted s.params q fin) with
    mem := Memory.writeRun s.mem ((s.entry i).slotAddr (s.entry i).fillSlot) payload }

theorem State.acceptFull_eq (s : State) (i : EntryIdx) (q : Seq) (fin : Bool) (payload : List Byte) :
    s.acceptFull i q fin payload = if (s.entry i).raisesDataReady
      then (s.stored i q fin payload).raiseKind (itemOf i) .dataReady else s.stored i q fin payload := rfl

/-- Settles O30: the frame stored, the entry moved on, and DATA_READY raised or not. -/
theorem dataInOrderIsAccepted : Obligations.DataInOrderIsAccepted := by
  intro s i n st q fin payload hreach hmem hrole hstate hn hmark hq hfull hroom
  have hlen : payload.length ≤ Config.memBytes := by
    obtain ⟨_, _, _, hwf, _⟩ := hreach
    exact (decide_eq_true_eq.mp hwf).trans (by decide)
  have hclass : seqClass q (s.entry i).cons.expected = .inOrder :=
    (seqClass_spec q (s.entry i).cons.expected).1.mpr (by simp [hq])
  have hexec : exec (.dataFrame n st q fin payload) s = .next (s.acceptFull i q fin payload) := by
    rw [exec_dataFrame_of_reaches hreach hrole, State.consumerData_of_receiving hn hstate,
      State.receivingData_of_accepted hfull hclass hmark hroom]
  have hself : (s.stored i q fin payload).entry i = (s.entry i).accepted s.params q fin :=
    State.entry_setEntry_self _ _ _
  have hothers : otherEntries s (s.stored i q fin payload) i := fun j hj => State.entry_setEntry_of_ne _ _ hj
  have hsame : (s.acceptFull i q fin payload).mem = (s.stored i q fin payload).mem
      ∧ (s.acceptFull i q fin payload).entries = (s.stored i q fin payload).entries := by
    rw [State.acceptFull_eq]
    split
    · exact ⟨rfl, rfl⟩
    · exact ⟨rfl, rfl⟩
  obtain ⟨hmemory, hentries⟩ := hsame
  refine ⟨_, hexec, ?_, fun j hj => ?_, fun a ha => ?_, fun j hj => ?_, ?_, fun hready => ?_, fun hnot => ?_⟩
  · rw [State.acceptFull_eq]
    split
    · rfl
    · rfl
  · rw [hmemory]
    exact Memory.read_writeRun hmem _ payload hlen j hj
  · rw [hmemory]
    exact Memory.read_writeRun_other hmem _ payload a ha
  · exact (State.entry_congr hentries j).trans (hothers j hj)
  · rw [State.entry_congr hentries, hself, Entry.accepted_eq _ _ _ hstate]
    rfl
  · rw [State.acceptFull_eq, if_pos ((Entry.raisesDataReady_iff _).mpr hready)]
    exact State.raise_spec _ (itemOf i) .dataReady id
  · rw [State.acceptFull_eq, if_neg ((Entry.raisesDataReady_iff _).not.mpr hnot)]
    exact ⟨rfl, rfl⟩

end Sys2Proof.Machine
end

section
/-! PROOFS. What the station writes of its own lies in the regions of its consumer entries (O60). -/

namespace Sys2Proof.Machine

/- One after another: many theorems elaborated at once take a thread each. -/
set_option Elab.async false

open Sys2Proof.Safety

/-- A state in which buffer memory, the regions and the slots are sound. -/
def State.placed (s : State) : Prop := memorySafe s ∧ tableSafe s ∧ slotsSafe s

theorem Keeps.placed {s t : State} (h : Keeps s t) (hs : s.placed) : t.placed :=
  ⟨h.memory hs.1, h.table hs.2⟩

/-- No byte outside the regions of the consumer entries changes. -/
def Spares (s t : State) : Prop := ∀ a, ¬inConsumerRegion s a → Memory.read t.mem a = Memory.read s.mem a

theorem Spares.of_mem {s t : State} (h : t.mem = s.mem) : Spares s t := fun a _ => by rw [h]

/-- No entry becomes a consumer with a region of its own. -/
theorem inConsumerRegion_of_rests {s t : State} (h : Rests s t) {a : Nat} (ht : inConsumerRegion t a) :
    inConsumerRegion s a := by
  obtain ⟨i, hrole, hfree, hlo, hhi⟩ := ht
  obtain ⟨_, hentry⟩ := h.entry i
  obtain ⟨hfree', hrole', hbase, hslots, hsize⟩ := hentry hfree
  refine ⟨i, hrole' ▸ hrole, hfree', hbase ▸ hlo, ?_⟩
  rwa [Entry.regionEnd, hbase, hslots, hsize] at hhi

theorem Spares.trans {s t u : State} (h : Spares s t) (hrests : Rests s t) (h' : Spares t u) : Spares s u :=
  fun a ha => (h' a fun hin => ha (inConsumerRegion_of_rests hrests hin)).trans (h a ha)

/-! ## A received frame is stored in its slot (R8, R88) -/

/-- The slot that a consumer entry fills is one of its slots. -/
theorem Entry.fillSlot_lt {e : Entry} (hslots : 1 ≤ e.slots)
    (hplace : e.mode = .advance → e.cons.writeIdx = (e.cons.readIdx + e.cons.held) % e.slots) : e.fillSlot < e.slots := by
  unfold Entry.fillSlot
  split
  · next hmode => exact hplace hmode ▸ Nat.mod_lt _ hslots
  · exact hslots

/-- An address in a slot of an entry lies in its region, which does not wrap (R15). -/
theorem Entry.slotAddr_in_region {e : Entry} (hregion : regionInside e) {slot j : Nat} (hslot : slot < e.slots)
    (hj : j < e.size) : addrAt (e.slotAddr slot) j = e.slotAddr slot + j ∧ e.base ≤ e.slotAddr slot + j
      ∧ e.slotAddr slot + j < e.regionEnd := by
  obtain ⟨_, _, _, hend, _⟩ := hregion
  have hrow : (slot + 1) * e.size ≤ e.slots * e.size := Nat.mul_le_mul_right _ hslot
  rw [Nat.add_mul, Nat.one_mul] at hrow
  have haddr : e.slotAddr slot = e.base + slot * e.size := rfl
  have hstop : e.regionEnd = e.base + e.slots * e.size := rfl
  refine ⟨Nat.mod_eq_of_lt (?_ : _ < 8192), ?_, ?_⟩
  · omega
  · omega
  · omega

theorem Spares.acceptFull {s : State} {i : EntryIdx} (hs : s.placed) (hrole : (s.entry i).role = some .consumer)
    (hstate : (s.entry i).state = .receiving) (q : Seq) (fin : Bool) {payload : List Byte}
    (hfull : payload.length = (s.entry i).size) : Spares s (s.acceptFull i q fin payload) := by
  obtain ⟨hmem, ⟨hregions, _⟩, hslots⟩ := hs
  have hfree : (s.entry i).state ≠ .free := by rw [hstate]; nofun
  have hregion := hregions i hfree
  have hplace : (s.entry i).fillSlot < (s.entry i).slots := by
    obtain ⟨hadvance, _⟩ := hslots i
    exact Entry.fillSlot_lt hregion.1 fun hmode => (hadvance hmode).2
  have hstored : Spares s (s.stored i q fin payload) := fun a ha => by
    refine Memory.read_writeRun_other hmem _ payload a fun j hj heq => ha ⟨i, hrole, hfree, ?_⟩
    obtain ⟨haddr, hlo, hhi⟩ := Entry.slotAddr_in_region hregion hplace (hfull ▸ hj)
    rw [heq, haddr]
    exact ⟨hlo, hhi⟩
  rw [State.acceptFull_eq]
  split
  · exact hstored
  · exact hstored

theorem Spares.receivingData {s : State} {i : EntryIdx} (hs : s.placed) (hrole : (s.entry i).role = some .consumer)
    (hstate : (s.entry i).state = .receiving) (q : Seq) (fin : Bool) (payload : List Byte) :
    Spares s (s.receivingData i q fin payload) := by
  by_cases hfits : (s.entry i).fits fin payload
  · by_cases hclass : seqClass q (s.entry i).cons.expected = .stale
    · rw [State.receivingData_of_stale hclass]
      exact Spares.of_mem rfl
    · rw [State.receivingData_of_taken hfits hclass]
      split
      · split
        · exact Spares.of_mem rfl
        · exact Spares.of_mem rfl
      · split
        · split
          · exact Spares.of_mem rfl
          · next hfull =>
            split
            · exact Spares.of_mem rfl
            · exact Spares.acceptFull hs hrole hstate q fin (not_not.mp hfull)
        · exact Spares.of_mem rfl
  · rw [State.receivingData_of_unfit hfits]
    exact Spares.of_mem rfl

theorem Spares.consumerData {s : State} {i : EntryIdx} (hs : s.placed) (hrole : (s.entry i).role = some .consumer)
    (n : Station) (q : Seq) (fin : Bool) (payload : List Byte) : Spares s (s.consumerData i n q fin payload) := by
  by_cases hn : (s.entry i).cons.producer = some n
  · by_cases hstate : (s.entry i).state = .receiving
    · rw [State.consumerData_of_receiving hn hstate]
      exact Spares.receivingData hs hrole hstate q fin payload
    · by_cases hlast : (s.entry i).lingers = true ∧ (s.entry i).cons.lastSeq = some q
      · rw [State.consumerData_of_lingering hn hstate hlast]
        exact Spares.of_mem rfl
      · rw [State.consumerData_of_other hstate hlast]
        exact Spares.of_mem rfl
  · rw [State.consumerData_of_foreign hn]
    exact Spares.of_mem rfl

theorem Spares.dispatchTo {s : State} (hs : s.placed) (i : EntryIdx) (f : Frame) : Spares s (s.dispatchTo i f) := by
  unfold State.dispatchTo
  split
  · exact Spares.of_mem (State.conflict_mem s i)
  · exact Spares.of_mem (State.conflict_mem s i)
  · exact Spares.of_mem (State.conflict_mem s i)
  · exact Spares.of_mem (State.producerAck_mem s i _ _ _)
  · exact Spares.of_mem (State.producerJoin_mem s i _ _ _)
  · exact Spares.of_mem (State.producerLeave_mem s i _)
  · next hrole => exact Spares.consumerData hs hrole _ _ _ _
  · exact Spares.of_mem (State.consumerHold_mem s i _ _)
  · exact Spares.of_mem (State.consumerAccept_mem s i _ _ _)
  · exact Spares.of_mem (State.consumerRefuse_mem s i _ _)
  · exact Spares.of_mem rfl

theorem Spares.dispatch {s : State} (hs : s.placed) (f : Frame) : Spares s (s.dispatch f) := by
  unfold State.dispatch
  split
  · exact Spares.dispatchTo hs _ f
  · exact Spares.of_mem rfl

theorem Spares.flush {s : State} (hs : s.placed) : Spares s s.flush := by
  unfold State.flush
  split
  · exact Spares.dispatch (s := { s with rx := { s.rx with hold := [] } }) hs _
  · exact Spares.of_mem rfl

theorem Spares.frameEvent {s : State} (hs : s.placed) (f : Frame) : Spares s (s.frameEvent f) := by
  have hflush := Spares.flush hs
  simp only [State.frameEvent]
  split
  · split
    · exact hflush
    · split
      · exact hflush.trans (Rests.flush s) (Spares.dispatch ((Keeps.flush s).placed hs) f)
      · exact hflush
  · exact Spares.of_mem rfl

/-! ## The events at which a waiting frame is dispatched first -/

/-- What follows a dispatch of the waiting frame without writing buffer memory. -/
theorem Spares.of_flush {s t : State} (hs : s.placed) (h : t.mem = s.flush.mem ∨ t.mem = s.mem) : Spares s t :=
  fun a ha => by
    rcases h with h | h
    · rw [h, Spares.flush hs a ha]
    · rw [h]

theorem State.mem_marked (s : State) (d : Byte) : (s.marked d).mem = s.flush.mem ∨ (s.marked d).mem = s.mem := by
  simp only [State.marked]
  split
  · split
    · exact .inl (by simp)
    · exact .inl (by simp)
  · split
    · exact .inr (by simp)
    · exact .inr rfl

theorem State.mem_unmarked (s : State) (d : Byte) : (s.unmarked d).mem = s.flush.mem ∨ (s.unmarked d).mem = s.mem := by
  simp only [State.unmarked]
  split
  · exact .inr (by simp)
  · split
    · exact .inl (by simp)
    · split
      · exact .inr (by simp)
      · exact .inr rfl

theorem State.mem_collisionSeen (s : State) (cause : SeenCause) :
    (s.collisionSeen cause).mem = s.flush.mem ∨ (s.collisionSeen cause).mem = s.mem := by
  simp only [State.collisionSeen]
  split
  · exact .inr rfl
  · split
    · exact .inl (by simp)
    · split
      · exact .inr (by simp)
      · exact .inr rfl

theorem State.mem_receiverGap (s : State) : s.receiverGap.mem = s.flush.mem ∨ s.receiverGap.mem = s.mem := by
  simp only [State.receiverGap]
  split
  · split
    · exact .inr (by simp)
    · exact .inr (by simp)
    · exact .inr (by simp)
    · exact .inl rfl
    · exact .inr rfl
  · exact .inr rfl

theorem State.mem_transmitStart (s : State) : s.transmitStart.mem = s.flush.mem ∨ s.transmitStart.mem = s.mem := by
  simp only [State.transmitStart]
  split
  · exact .inr rfl
  · split
    · exact .inl rfl
    · exact .inl (by simp)

/-- Settles O60: the commands that can write buffer memory do so by the dispatch of a frame, but for the two left out. -/
theorem onlyConsumerRegionsAreWritten : Obligations.OnlyConsumerRegionsAreWritten := by
  intro c s t a hmem htable hslots hwrite hpower hexec
  have hs : s.placed := ⟨hmem, htable, hslots⟩
  suffices h : Spares s t from h a
  cases hc : writesMemory c with
  | false =>
    obtain ⟨u, hu, _, hsame⟩ := Leaves.exec hc s
    cases hu.symm.trans hexec
    exact Spares.of_mem hsame
  | true =>
    by_cases hheld : s.held = true ∧ isResetEvent c = false
    · cases (exec_of_held hheld.1 hheld.2).symm.trans hexec
      exact Spares.of_mem rfl
    have hh : isResetEvent c = false → s.held = false := fun hc => by simpa [hc] using hheld
    cases c with
    | writeBuffer bs g => exact absurd rfl (hwrite bs g)
    | powerOn sa rs => exact absurd rfl (hpower sa rs)
    | markedCharacter d =>
      cases (exec_markedCharacter (hh rfl) d).symm.trans hexec
      exact Spares.of_flush hs (State.mem_marked s d)
    | unmarkedCharacter d =>
      cases (exec_unmarkedCharacter (hh rfl) d).symm.trans hexec
      exact Spares.of_flush hs (State.mem_unmarked s d)
    | collisionSeen k =>
      cases (exec_collisionSeen (hh rfl) k).symm.trans hexec
      exact Spares.of_flush hs (State.mem_collisionSeen s k)
    | receiverIdleGap =>
      cases (exec_receiverIdleGap (hh rfl)).symm.trans hexec
      exact Spares.of_flush hs (State.mem_receiverGap s)
    | transmitStart =>
      cases (exec_transmitStart (hh rfl)).symm.trans hexec
      exact Spares.of_flush hs (State.mem_transmitStart s)
    | dataFrame n st q fin p =>
      cases (exec_frameRow_of_free (hh rfl) (.data n st q fin p)).symm.trans hexec
      exact Spares.frameEvent hs _
    | holdFrame n st q =>
      cases (exec_frameRow_of_free (hh rfl) (.hold n st q)).symm.trans hexec
      exact Spares.frameEvent hs _
    | ackFrame n st d q k =>
      cases (exec_frameRow_of_free (hh rfl) (.ack n st d q k)).symm.trans hexec
      exact Spares.frameEvent hs _
    | joinFrame n st k z =>
      cases (exec_frameRow_of_free (hh rfl) (.join n st k z)).symm.trans hexec
      exact Spares.frameEvent hs _
    | acceptFrame n st d q z =>
      cases (exec_frameRow_of_free (hh rfl) (.accept n st d q z)).symm.trans hexec
      exact Spares.frameEvent hs _
    | refuseFrame n st d r =>
      cases (exec_frameRow_of_free (hh rfl) (.refuse n st d r)).symm.trans hexec
      exact Spares.frameEvent hs _
    | leaveFrame n st =>
      cases (exec_frameRow_of_free (hh rfl) (.leave n st)).symm.trans hexec
      exact Spares.frameEvent hs _
    | _ => cases hc

end Sys2Proof.Machine
end

section
/-! PROOFS. The expiries of the timers (R25, R45, R48, R83, R101, R168): O24 to O27. -/

namespace Sys2Proof.Machine

/- One after another: many theorems elaborated at once take a thread each. -/
set_option Elab.async false

open Sys2Proof.Safety

section Expiry

variable {s : State} {i : EntryIdx}

theorem State.timerDone_iff (s : State) (i : EntryIdx) :
    s.timerDone i = true ↔ s.station = .online ∧ (s.entry i).timer = .running 0 := by
  simp [State.timerDone]

/-- A timer that does not stand at 0, or is frozen, has no expiry of any meaning (R25). -/
theorem exec_expiries_of_not_done (hheld : s.held = false) (h : s.timerDone i = false) :
    exec (.ackTimerExpiry i) s = .next s ∧ exec (.holdTimerExpiry i) s = .next s
      ∧ exec (.joinTimerExpiry i) s = .next s ∧ exec (.silenceTimerExpiry i) s = .next s := by
  rw [exec_ackTimerExpiry hheld, exec_holdTimerExpiry hheld, exec_joinTimerExpiry hheld, exec_silenceTimerExpiry hheld]
  simp only [State.ackExpired, State.holdExpired, State.joinExpired, State.silenceExpired, h, Bool.false_and,
    Bool.false_eq_true, if_false, and_self]

variable (hdone : s.timerDone i = true)

include hdone

theorem State.holdExpired_of_done (hlive : (s.entry i).liveProducer = true) (hring : (s.entry i).prod.ring = []) :
    s.holdExpired i =
      s.setEntry i { s.entry i with timer := .stopped, prod := { (s.entry i).prod with holdDue := true } } := by
  simp only [State.holdExpired, hdone, hlive, hring, List.isEmpty_nil, Bool.and_self, if_true]

theorem State.silenceExpired_of_done (hstate : (s.entry i).state = .receiving) :
    s.silenceExpired i = s.endEntry i .producerLost := by
  simp only [State.silenceExpired, hdone, hstate, beq_self_eq_true, Bool.and_self, if_true]

theorem State.joinExpired_of_done (hstate : (s.entry i).state = .joining) : s.joinExpired i =
    if s.params.n ≤ (s.entry i).cons.joinAttempts then s.endEntry i .noProducer
    else s.setEntry i { s.entry i with timer := .stopped, cons := { (s.entry i).cons with joinDue := true } } := by
  simp only [State.joinExpired, hdone, hstate, beq_self_eq_true, Bool.and_self, if_true]

theorem State.ackExpired_of_done {oldest : FrameRec} {rest : List FrameRec} (hlive : (s.entry i).liveProducer = true)
    (hring : (s.entry i).prod.ring = oldest :: rest) (hqueued : ∀ r ∈ (s.entry i).prod.ring, r.queued = false) :
    s.ackExpired i = ((s.countMisses i (fun r => inSet r.station oldest.owed)).retire i).goBack i := by
  have hnone : anyQueued (oldest :: rest) = false := by
    rw [← hring]
    simpa [anyQueued] using hqueued
  simp only [State.ackExpired, hdone, hlive, hnone, hring, Bool.not_false, Bool.and_self, if_true]

end Expiry

/-- Settles O25: an expiry is taken exactly where the timer is done, by the state of its entry. -/
theorem holdAndSilenceTimersExpire : Obligations.HoldAndSilenceTimersExpire := by
  intro s i hheld
  dsimp only
  rw [← State.timerDone_iff]
  refine ⟨fun hdone hstate hring => ?_, fun hdone hstate => ?_, fun hnot => ?_⟩
  · refine ⟨_, exec_holdTimerExpiry hheld i, ?_⟩
    rw [State.holdExpired_of_done hdone ((Entry.liveProducer_iff _).mpr hstate) hring]
    exact ⟨rfl, fun j hj => s.entry_setEntry_of_ne _ hj, s.entry_setEntry_self i _⟩
  · refine ⟨_, exec_silenceTimerExpiry hheld i, ?_⟩
    rw [State.silenceExpired_of_done hdone hstate]
    exact s.endEntry_spec i .producerLost
  · exact exec_expiries_of_not_done hheld (Bool.eq_false_iff.mpr hnot)

/-- Settles O26: the attempts have reached N or not. -/
theorem joinExpiryRetriesUpToN : Obligations.JoinExpiryRetriesUpToN := by
  intro s i hheld hstate htimer
  have hdone : s.station = .online → s.timerDone i = true := fun h => (State.timerDone_iff s i).mpr ⟨h, htimer⟩
  refine ⟨fun honline hn => ?_, fun honline hn => ?_, fun hoff => ?_⟩
  · refine ⟨_, exec_joinTimerExpiry hheld i, ?_⟩
    rw [State.joinExpired_of_done (hdone honline) hstate, if_pos hn.ge]
    exact s.endEntry_spec i .noProducer
  · refine ⟨_, exec_joinTimerExpiry hheld i, ?_⟩
    rw [State.joinExpired_of_done (hdone honline) hstate, if_neg (Nat.not_le.mpr hn)]
    exact ⟨rfl, fun j hj => s.entry_setEntry_of_ne _ hj, s.entry_setEntry_self i _⟩
  · have hnot : s.timerDone i = false := Bool.eq_false_iff.mpr fun h => hoff ((State.timerDone_iff s i).mp h).1
    obtain ⟨_, _, hjoin, _⟩ := exec_expiries_of_not_done hheld hnot
    exact hjoin

/-- Settles O27: the quiet timer stands at 0 or not. -/
theorem quietExpiryGoesOnline : Obligations.QuietExpiryGoesOnline := by
  intro s hheld
  rw [exec_quietTimerExpiry hheld]
  refine ⟨fun hstation hquiet => ⟨_, rfl, ?_⟩, fun hquiet => ?_⟩
  · simp only [State.quietExpired, hstation, hquiet, and_self, if_true]
    exact ⟨rfl, State.raise_spec { s with station := .online, quiet := none, round := .contention } stationItem .online id⟩
  · rw [State.quietExpired, if_neg fun h => hquiet h.2]

/-! ## The ack timer (R45) -/

theorem State.goBack_of_dead {m : State} {i : EntryIdx} (h : (m.entry i).liveProducer = false) : m.goBack i = m := by
  simp only [State.goBack, h, Bool.not_false, if_true]

/-- The last two steps of R45 at an entry that is still live. -/
theorem State.goBack_of_live {m : State} {i : EntryIdx} (h : (m.entry i).liveProducer = true) : m.goBack i =
    m.setEntry i (if (m.entry i).prod.ring = [] then { m.entry i with timer := .running m.params.tHold }
      else { m.entry i with
        timer := .stopped
        prod := { (m.entry i).prod with ring := (m.entry i).prod.ring.map (fun r => { r with queued := true }) } }) := by
  simp only [State.goBack, h, Bool.not_true, Bool.false_eq_true, if_false, List.isEmpty_iff]
  split_ifs <;> rfl

/-- A miss count leaves the entry's state. -/
theorem State.state_countMisses (s : State) (i : EntryIdx) (counted : SubRec → Bool) :
    ((s.countMisses i counted).entry i).state = (s.entry i).state := by
  obtain ⟨hentry, _⟩ := s.countMisses_spec i counted
  rw [hentry]

/-- After a retirement run an entry is in ENDED or in its state before. -/
theorem State.state_retire (s : State) (i : EntryIdx) :
    ((s.retire i).entry i).state = .ended ∨ ((s.retire i).entry i).state = (s.entry i).state := by
  obtain ⟨hnone, hend, hrun⟩ := s.retire_spec i
  by_cases hgone : (s.entry i).prod.ring.takeWhile (fun r => r.owed == 0#32) = []
  · rw [hnone hgone]
    exact .inr rfl
  · by_cases hlast : ∃ r ∈ (s.entry i).prod.ring.takeWhile (fun r => r.owed == 0#32), r.endFlag = true
    · obtain ⟨⟨c, ⟨hentry, _⟩, _⟩, _⟩ := hend hlast
      exact .inl (congrArg Entry.state hentry)
    · have hmid : ∀ r ∈ (s.entry i).prod.ring.takeWhile (fun r => r.owed == 0#32), r.endFlag = false := fun r hr =>
        Bool.eq_false_iff.mpr fun h => hlast ⟨r, hr, h⟩
      obtain ⟨hentry, _⟩ := hrun hgone hmid
      exact .inr (by rw [hentry])

/-- Settles O24: the steps of R45 in their order, the last two by what the retirement run leaves. -/
theorem ackExpiryCountsRetiresAndGoesBack : Obligations.AckExpiryCountsRetiresAndGoesBack := by
  intro s i oldest rest hheld honline htimer hstate hring hqueued
  have hdone := (State.timerDone_iff s i).mpr ⟨honline, htimer⟩
  have hlive := (Entry.liveProducer_iff _).mpr hstate
  have hexec := exec_ackTimerExpiry hheld i
  rw [State.ackExpired_of_done hdone hlive hring hqueued] at hexec
  have hmisses := s.countMisses_spec i (fun r => inSet r.station oldest.owed)
  have hkept := s.state_countMisses i (fun r => inSet r.station oldest.owed)
  have hparams : (s.countMisses i (fun r => inSet r.station oldest.owed)).params = s.params := by simp
  generalize s.countMisses i (fun r => inSet r.station oldest.owed) = m1 at hexec hmisses hkept hparams
  have hrun := m1.retire_spec i
  have hafter := m1.state_retire i
  rw [← State.retire_params m1 i] at hparams
  generalize m1.retire i = m2 at hexec hrun hafter hparams
  refine ⟨m1, m2, _, hexec, hmisses, hrun, fun hended => ?_, fun hne => ?_⟩
  · exact State.goBack_of_dead (Entry.liveProducer_of_ended hended)
  · have hlive2 : (m2.entry i).liveProducer = true := by
      rw [Entry.liveProducer_iff, hafter.resolve_left hne, hkept]
      exact hstate
    rw [State.goBack_of_live hlive2]
    refine ⟨rfl, fun j hj => m2.entry_setEntry_of_ne _ hj, fun hnil => ?_, fun hcons => ?_⟩
    · rw [State.entry_setEntry_self, if_pos hnil, hparams]
    · rw [State.entry_setEntry_self, if_neg hcons]

end Sys2Proof.Machine
end

section
/-! PROOFS. Commands of the station and of an entry: WRITE_BUFFER (R187), GO_ONLINE (R166), CLOSE (R51, R105), ABORT and FREE
(R21, R22): O14, O16, O22, O23. -/

namespace Sys2Proof.Machine

/- One after another: many theorems elaborated at once take a thread each. -/
set_option Elab.async false

open Sys2Proof.Safety

/-! ## WRITE_BUFFER -/

section WriteBuffer

variable {s : State} {high low : Byte} {data : List Byte}

theorem State.writeBuffer_of_low (h : word16 high low ≤ 8191) :
    State.writeBuffer (high :: low :: data) s = (.ok, s.hostWrite (word16 high low) data) :=
  if_neg (Nat.not_le.mpr (Nat.lt_succ_of_le h))

theorem State.writeBuffer_of_high (h : 8191 < word16 high low) :
    State.writeBuffer (high :: low :: data) s = (.badParameter, s) :=
  if_pos h

end WriteBuffer

/-- The holding area takes at most 64 bytes whole. -/
theorem State.hostWrite_mem {s : State} {a : Nat} {data : List Byte} (h : data.length ≤ 64) :
    (s.hostWrite a data).mem = Memory.writeRun s.mem a data := by
  change Memory.writeRun s.mem a (data.take Config.portArea) = _
  rw [List.take_of_length_le (h.trans (by decide : 64 ≤ Config.portArea))]

/-- Settles O14: the address is in range or not; the rest are the laws of a claim that writes. -/
theorem writeBufferStoresItsBytes : Obligations.WriteBufferStoresItsBytes := by
  intro s high low data hheld hmem hone h64
  have hlength : (!false && decide (3 ≤ (high :: low :: data).length ∧ (high :: low :: data).length ≤ 66)) = true := by
    simp only [List.length_cons, Bool.not_false, Bool.true_and, decide_eq_true_eq]
    omega
  refine ⟨_, exec_writeBuffer hheld _ _, ?_⟩
  rw [hlength]
  by_cases haddr : word16 high low ≤ 8191
  · rw [State.writeType_of_act (State.writeBuffer_of_low haddr)]
    have hwritten : (State.hostWrite { s with port := s.port.begun } (word16 high low) data).mem
        = Memory.writeRun s.mem (word16 high low) data := State.hostWrite_mem h64
    have h8192 : data.length ≤ Config.memBytes := h64.trans (by decide)
    refine ⟨rfl, ?_, rfl, fun _ => ⟨rfl, fun j hj => ?_, fun a ha => ?_⟩, fun hnot => absurd haddr (Nat.not_le.mpr hnot)⟩
    · exact (congrArg (fun m => Memory.wf m = true) hwritten).mpr (Memory.wf_writeRun hmem _ _)
    · exact (congrArg (fun m => Memory.read m _) hwritten).trans (Memory.read_writeRun hmem _ _ h8192 j hj)
    · exact (congrArg (fun m => Memory.read m _) hwritten).trans (Memory.read_writeRun_other hmem _ _ _ ha)
  · rw [State.writeType_of_act (State.writeBuffer_of_high (Nat.not_le.mp haddr))]
    exact ⟨rfl, hmem, rfl, fun hle => absurd hle haddr, fun _ => ⟨rfl, rfl⟩⟩

/-! ## GO_ONLINE -/

section GoOnline

variable {s : State}

theorem State.goOnline_of_offline (h : s.station = .offline) : s.goOnline =
    (.ok, { s with
      station := .listening, rx := { state := .sync, hold := [], gap := some 0 }, line := .busy, lineGap := some 0,
      failCount := 0 }) := by
  simp only [State.goOnline, h]

theorem State.goOnline_of_lineFault (h : s.station = .lineFault) : s.goOnline =
    (.ok, { s with
      station := .listening, failCount := 0, quiet := if s.line = .idle then some 704 else none }) := by
  simp only [State.goOnline, h, Config.quietBits]

theorem State.goOnline_of_up (h : s.station = .listening ∨ s.station = .online) : s.goOnline = (.refusedState, s) := by
  rcases h with h | h
  · simp only [State.goOnline, h]
  · simp only [State.goOnline, h]

end GoOnline

/-- Settles O16: one case for each column of 8.2. -/
theorem goOnlineEntersListening : Obligations.GoOnlineEntersListening := by
  intro s hheld
  have hexec : exec (.goOnline [] false) s = .next (s.writeType true State.goOnline) := exec_goOnline hheld _ _
  refine ⟨_, hexec, fun h => ?_, fun h => ?_, fun h => ?_⟩
  · rw [State.writeType_of_act (State.goOnline_of_offline h)]
    exact ⟨rfl, rfl⟩
  · rw [State.writeType_of_act (State.goOnline_of_lineFault h)]
    exact ⟨rfl, rfl⟩
  · rw [State.writeType_of_act (State.goOnline_of_up h)]
    exact ⟨rfl, rfl⟩

/-! ## CLOSE -/

section Close

variable {s : State} {i : EntryIdx}

theorem State.close_of_producing (h : (s.entry i).state = .producing) :
    State.close i s = (.ok, s.setEntry i (s.entry i).closedProducer) := by
  simp only [State.close, h]

theorem State.close_of_consuming (h : (s.entry i).state = .joining ∨ (s.entry i).state = .receiving) :
    State.close i s = (.ok, { s.setEntry i ((s.entry i).leavingWith .closed) with tx := s.tx.withdrawJoin i }) := by
  rcases h with h | h
  · simp only [State.close, h]
  · simp only [State.close, h]

theorem State.close_of_other (hp : (s.entry i).state ≠ .producing) (hj : (s.entry i).state ≠ .joining)
    (hr : (s.entry i).state ≠ .receiving) : State.close i s = (.refusedState, s) := by
  unfold State.close
  dsimp only
  split
  · contradiction
  · contradiction
  · contradiction
  · rfl

/-- CLOSE changes no more than the entry and the transmitter. -/
theorem State.close_frame (i : EntryIdx) (s : State) :
    (State.close i s).2 = { s with entries := (State.close i s).2.entries, tx := (State.close i s).2.tx } := by
  unfold State.close
  dsimp only
  split <;> rfl

end Close

theorem State.entryCommand_close_frame (s : State) (index : Byte) :
    s.entryCommand [index] false State.close = { s with
      entries := (s.entryCommand [index] false State.close).entries
      tx := (s.entryCommand [index] false State.close).tx
      port := (s.entryCommand [index] false State.close).port } := by
  rcases index_cases index with hgt | ⟨i, hi⟩
  · rw [State.entryCommand_gt s hgt]
  · rw [State.entryCommand_eq s hi, State.writeType_true, State.close_frame]

/-- Settles O22: by what the index names, and by the state of its entry. -/
theorem closeMovesToClosingOrLeaving : Obligations.CloseMovesToClosingOrLeaving := by
  intro s index hheld
  refine ⟨_, exec_close hheld _ _, s.entryCommand_close_frame index, fun hgt => ?_, fun i hi => ?_⟩
  · rw [State.entryCommand_gt s hgt]
    exact ⟨rfl, rfl⟩
  · dsimp only
    rw [State.entryCommand_eq s hi]
    refine ⟨fun h => ?_, fun h => ?_, fun hp hj hr => ?_⟩
    · rw [State.writeType_of_act (State.close_of_producing h)]
      exact ⟨rfl, rfl, fun j hj => s.entry_setEntry_of_ne _ hj, s.entry_setEntry_self i _⟩
    · rw [State.writeType_of_act (State.close_of_consuming h)]
      obtain ⟨hwithdrawn, hkept⟩ := s.tx.withdrawJoin_spec i
      exact ⟨rfl, fun j hj => s.entry_setEntry_of_ne _ hj, s.entry_setEntry_self i _, hwithdrawn, hkept⟩
    · rw [State.writeType_of_act (State.close_of_other hp hj hr)]
      exact ⟨rfl, rfl⟩

/-! ## ABORT and FREE -/

section AbortFree

variable {s : State} {i : EntryIdx}

theorem Entry.live_iff (e : Entry) : e.live = true ↔ e.state ≠ .free ∧ e.state ≠ .ended := by
  simp [Entry.live]

theorem State.abort_of_live (h : (s.entry i).live = true) : State.abort i s = (.ok, s.endEntry i .aborted) :=
  if_pos h

theorem State.abort_of_dead (h : ¬(s.entry i).live = true) : State.abort i s = (.refusedState, s) :=
  if_neg h

theorem State.freeEntry_of_ended (h : (s.entry i).state = .ended) : State.freeEntry i s =
    (.ok, State.withdrawItem { s.setEntry i {} with
      tx := s.tx.disown i, handover := disownDone s.handover i } (itemOf i)) :=
  if_pos h

theorem State.freeEntry_of_other (h : (s.entry i).state ≠ .ended) : State.freeEntry i s = (.refusedState, s) :=
  if_neg h

end AbortFree

/-- The fields that ABORT and FREE may change: the entries, the pool, the transmitter's owner and the notices. -/
theorem State.abort_frame (i : EntryIdx) (s : State) : (State.abort i s).2 = { s with
    entries := (State.abort i s).2.entries, poolFree := (State.abort i s).2.poolFree, tx := (State.abort i s).2.tx
    handover := (State.abort i s).2.handover, items := (State.abort i s).2.items
    noticeQueue := (State.abort i s).2.noticeQueue } := by
  unfold State.abort
  split <;> rfl

theorem State.freeEntry_frame (i : EntryIdx) (s : State) : (State.freeEntry i s).2 = { s with
    entries := (State.freeEntry i s).2.entries, tx := (State.freeEntry i s).2.tx
    handover := (State.freeEntry i s).2.handover, items := (State.freeEntry i s).2.items
    noticeQueue := (State.freeEntry i s).2.noticeQueue } := by
  unfold State.freeEntry
  split <;> rfl

theorem State.entryCommand_abort_frame (s : State) (index : Byte) :
    s.entryCommand [index] false State.abort = { s with
      entries := (s.entryCommand [index] false State.abort).entries
      poolFree := (s.entryCommand [index] false State.abort).poolFree
      tx := (s.entryCommand [index] false State.abort).tx
      handover := (s.entryCommand [index] false State.abort).handover
      items := (s.entryCommand [index] false State.abort).items
      noticeQueue := (s.entryCommand [index] false State.abort).noticeQueue
      port := (s.entryCommand [index] false State.abort).port } := by
  rcases index_cases index with hgt | ⟨i, hi⟩
  · rw [State.entryCommand_gt s hgt]
  · rw [State.entryCommand_eq s hi, State.writeType_true, State.abort_frame]

theorem State.entryCommand_free_frame (s : State) (index : Byte) :
    s.entryCommand [index] false State.freeEntry = { s with
      entries := (s.entryCommand [index] false State.freeEntry).entries
      tx := (s.entryCommand [index] false State.freeEntry).tx
      handover := (s.entryCommand [index] false State.freeEntry).handover
      items := (s.entryCommand [index] false State.freeEntry).items
      noticeQueue := (s.entryCommand [index] false State.freeEntry).noticeQueue
      port := (s.entryCommand [index] false State.freeEntry).port } := by
  rcases index_cases index with hgt | ⟨i, hi⟩
  · rw [State.entryCommand_gt s hgt]
  · rw [State.entryCommand_eq s hi, State.writeType_true, State.freeEntry_frame]

/-- Settles O23: ABORT is the ending of R5, FREE the withdrawal of the entry's item and frame. -/
theorem abortEndsAndFreeReturnsAnEntry : Obligations.AbortEndsAndFreeReturnsAnEntry := by
  intro s index hheld
  refine ⟨⟨_, exec_abort hheld _ _, s.entryCommand_abort_frame index, fun hgt => ?_, fun i hi => ?_⟩,
    _, exec_free hheld _ _, s.entryCommand_free_frame index, fun hgt => ?_, fun i hi => ?_⟩
  · rw [State.entryCommand_gt s hgt]
    exact ⟨rfl, rfl⟩
  · rw [State.entryCommand_eq s hi]
    refine ⟨fun hfree hended => ?_, fun hdead => ?_⟩
    · rw [State.writeType_of_act (State.abort_of_live ((Entry.live_iff _).mpr ⟨hfree, hended⟩))]
      obtain ⟨hends, _⟩ := s.endEntry_spec i .aborted
      exact ⟨rfl, hends⟩
    · have hnot : ¬(s.entry i).live = true := fun h => by
        obtain ⟨hfree, hended⟩ := (Entry.live_iff _).mp h
        exact hdead.elim hfree hended
      rw [State.writeType_of_act (State.abort_of_dead hnot)]
      exact ⟨rfl, rfl⟩
  · rw [State.entryCommand_gt s hgt]
    exact ⟨rfl, rfl⟩
  · rw [State.entryCommand_eq s hi]
    refine ⟨fun hended => ?_, fun hnot => ?_⟩
    · rw [State.writeType_of_act (State.freeEntry_of_ended hended)]
      refine ⟨rfl, fun j hj => s.entry_setEntry_of_ne _ hj, s.entry_setEntry_self i _, ?_, fun k hk => ?_, ?_,
        Tx.disown_eq _ _, ?_⟩
      · exact s.item_setItem_self (itemOf i) {} s.noticeQueue
      · exact s.item_setItem_of_ne {} s.noticeQueue hk
      · exact List.filter_congr fun k _ => by simp [bne, beq_eq_decide]
      · simp only [← TxFrame.entry?_eq]
        exact disownDone_eq _ _
    · rw [State.writeType_of_act (State.freeEntry_of_other hnot)]
      exact ⟨rfl, rfl⟩

end Sys2Proof.Machine
end

section
/-! PROOFS. GO_OFFLINE (R171) and the open commands (R13 to R19): O17, O18, O19. -/

namespace Sys2Proof.Machine

/- One after another: many theorems elaborated at once take a thread each. -/
set_option Elab.async false

open Sys2Proof.Safety

/-! ## The transmitter stopped (R163) -/

/-- The entry after the ACK that the transmitter has on hand is returned to owed, if it is this entry's (R94). -/
def Entry.ackReturned (e : Entry) (x : Tx) (i : EntryIdx) : Entry :=
  { e with cons := { e.cons with ack := if ackOnHand x = some i then undone e.cons.ack else e.cons.ack } }

theorem Entry.ackReturned_of_ne {x : Tx} {i : EntryIdx} (h : ackOnHand x ≠ some i) (e : Entry) : e.ackReturned x i = e := by
  simp only [Entry.ackReturned, h, if_false]

/-- An undone choice returns the ACK that it chose, and no other entry's. -/
theorem State.entry_undoChoice (s : State) (f : TxFrame) (g : Bool) (i : EntryIdx) :
    (s.undoChoice f).entry i = (s.entry i).ackReturned (.chosen f g) i := by
  cases f with
  | ack j st d a k =>
    by_cases h : i = j
    · subst h
      simp only [State.undoChoice, State.entry_setCons_self, Entry.ackReturned, ackOnHand, if_true, AckFlag.undone_eq]
    · rw [Entry.ackReturned_of_ne (by simpa [ackOnHand] using Ne.symm h)]
      exact State.entry_setCons_of_ne _ _ h
  | _ => exact (Entry.ackReturned_of_ne (by simp [ackOnHand]) _).symm

/-- The choice undone, if the frame still has its owner. -/
def State.chosenBack (s : State) (f : TxFrame) (orphan : Bool) : State := if orphan then s else s.undoChoice f

/-- The ACK that was being sent is owed again, if it still has its owner (R94). -/
theorem State.entry_chosenBack (s : State) (f : TxFrame) (cs : List Byte) (b : Nat) (inRound orphan : Bool) (i : EntryIdx) :
    (s.chosenBack f orphan).entry i = (s.entry i).ackReturned (.sending f cs b inRound orphan) i := by
  cases orphan with
  | true => exact (Entry.ackReturned_of_ne (by cases f <;> simp [ackOnHand]) _).symm
  | false =>
    have hsame : ackOnHand (.sending f cs b inRound false) = ackOnHand (.chosen f true) := by cases f <;> rfl
    rw [Entry.ackReturned, hsame]
    exact s.entry_undoChoice f true i

theorem State.entry_stopTransmitter (s : State) (i : EntryIdx) :
    s.stopTransmitter.entry i = (s.entry i).ackReturned s.tx i := by
  unfold State.stopTransmitter
  split
  · next h => exact (Entry.ackReturned_of_ne (by simp [h, ackOnHand]) _).symm
  · next f g h =>
    rw [h]
    exact s.entry_undoChoice f g i
  · next f cs b r orphan h =>
    rw [h]
    exact s.entry_chosenBack f cs b r orphan i

theorem Entry.live_ackReturned (e : Entry) (x : Tx) (i : EntryIdx) : (e.ackReturned x i).live = e.live := rfl

/-! ## The live entries ended, one after another (R171, R117) -/

/-- One entry's turn: it ends if it is live. -/
def State.endLive (s : State) (i : EntryIdx) : State := if (s.entry i).live then s.endEntry i .offline else s

theorem State.endAllLive_eq (s : State) : s.endAllLive = allEntries.foldl State.endLive s := rfl

theorem State.endLive_frame (s : State) (i : EntryIdx) : s.endLive i = { s with
    entries := (s.endLive i).entries, poolFree := (s.endLive i).poolFree, items := (s.endLive i).items
    noticeQueue := (s.endLive i).noticeQueue, tx := (s.endLive i).tx, handover := (s.endLive i).handover } := by
  unfold State.endLive
  split <;> rfl

theorem State.foldl_endLive_frame (l : List EntryIdx) (s : State) : l.foldl State.endLive s = { s with
    entries := (l.foldl State.endLive s).entries, poolFree := (l.foldl State.endLive s).poolFree
    items := (l.foldl State.endLive s).items, noticeQueue := (l.foldl State.endLive s).noticeQueue
    tx := (l.foldl State.endLive s).tx, handover := (l.foldl State.endLive s).handover } := by
  induction l generalizing s with
  | nil => rfl
  | cons i l ih =>
    rw [List.foldl_cons]
    refine (ih (s.endLive i)).trans ?_
    generalize l.foldl State.endLive (s.endLive i) = t
    rw [s.endLive_frame i]

theorem State.entry_endLive_of_ne (s : State) {i j : EntryIdx} (h : j ≠ i) : (s.endLive i).entry j = s.entry j := by
  unfold State.endLive
  split
  · exact State.entry_endEntry_of_ne _ _ h
  · rfl

theorem State.item_endLive_of_ne (s : State) {i : EntryIdx} {k : ItemIdx} (h : k ≠ itemOf i) :
    (s.endLive i).item k = s.item k := by
  unfold State.endLive
  split
  · obtain ⟨⟨_, _, _, _, _, _, hother, _⟩, _⟩ := s.endEntry_spec i .offline
    exact hother k h
  · rfl

theorem itemOf_ne {i j : EntryIdx} (h : j ≠ i) : itemOf j ≠ itemOf i := fun he => h (Fin.castSucc_injective 12 he)

/-- The item of an entry after the turn of that entry. -/
def State.itemEnded (s : State) (i : EntryIdx) : Item :=
  if (s.entry i).live then { s.item (itemOf i) with kinds := (s.item (itemOf i)).kinds ||| 0x20#8, cause := some .offline }
  else s.item (itemOf i)

theorem State.item_endLive_self (s : State) (i : EntryIdx) : (s.endLive i).item (itemOf i) = s.itemEnded i := by
  unfold State.endLive State.itemEnded
  split
  · obtain ⟨⟨_, _, _, _, _, hitem, _⟩, _⟩ := s.endEntry_spec i .offline
    exact hitem
  · rfl

/-- An entry that joins the notice queue in its turn: it is live, and nothing is pending in its item. -/
def State.joinsQueue (s : State) (i : EntryIdx) : Bool := (s.entry i).live && (s.item (itemOf i)).kinds == 0#8

theorem State.noticeQueue_endLive (s : State) (i : EntryIdx) :
    (s.endLive i).noticeQueue = s.noticeQueue ++ if s.joinsQueue i then [itemOf i] else [] := by
  unfold State.endLive State.joinsQueue
  cases (s.entry i).live with
  | false => simp
  | true =>
    obtain ⟨⟨_, _, _, _, _, _, _, hqueue⟩, _⟩ := s.endEntry_spec i .offline
    rw [if_pos rfl, hqueue, Bool.true_and]
    by_cases hkinds : (s.item (itemOf i)).kinds = 0#8
    · simp [hkinds]
    · simp [hkinds]

theorem State.poolFree_endLive (s : State) (i : EntryIdx) :
    (s.endLive i).poolFree = s.poolFree + if (s.entry i).live then (s.entry i).prod.subs.length else 0 := by
  unfold State.endLive
  split
  · rfl
  · rfl

theorem State.handover_endLive (s : State) (i : EntryIdx) :
    (s.endLive i).handover = if (s.entry i).live then disownDone s.handover i else s.handover := by
  unfold State.endLive
  split
  · rfl
  · rfl

section Turns

variable {i j : EntryIdx} {l : List EntryIdx}

theorem State.item_foldl_endLive_of_not_mem {k : ItemIdx} (s : State) (h : ∀ i ∈ l, k ≠ itemOf i) :
    (l.foldl State.endLive s).item k = s.item k := by
  induction l generalizing s with
  | nil => rfl
  | cons i l ih =>
    rw [List.foldl_cons, ih _ fun j hj => h j (List.mem_cons_of_mem i hj),
      State.item_endLive_of_ne s (h i List.mem_cons_self)]

theorem State.itemEnded_endLive_of_ne (s : State) (h : j ≠ i) : (s.endLive i).itemEnded j = s.itemEnded j := by
  rw [State.itemEnded, State.itemEnded, s.entry_endLive_of_ne h, s.item_endLive_of_ne (itemOf_ne h)]

theorem State.item_foldl_endLive (s : State) (hnodup : l.Nodup) (hi : i ∈ l) :
    (l.foldl State.endLive s).item (itemOf i) = s.itemEnded i := by
  induction l generalizing s with
  | nil => cases hi
  | cons j l ih =>
    obtain ⟨hj, hl⟩ := List.nodup_cons.mp hnodup
    rw [List.foldl_cons]
    rcases List.mem_cons.mp hi with rfl | hmem
    · have hne : ∀ k ∈ l, itemOf i ≠ itemOf k := fun k hk => itemOf_ne fun h => hj (h ▸ hk)
      rw [State.item_foldl_endLive_of_not_mem _ hne, State.item_endLive_self]
    · rw [ih _ hl hmem, State.itemEnded_endLive_of_ne s fun h : i = j => hj (h ▸ hmem)]

theorem State.joinsQueue_endLive_of_ne (s : State) (h : j ≠ i) : (s.endLive i).joinsQueue j = s.joinsQueue j := by
  rw [State.joinsQueue, State.joinsQueue, s.entry_endLive_of_ne h, s.item_endLive_of_ne (itemOf_ne h)]

theorem State.noticeQueue_foldl_endLive (s : State) (hnodup : l.Nodup) :
    (l.foldl State.endLive s).noticeQueue = s.noticeQueue ++ (l.filter s.joinsQueue).map itemOf := by
  induction l generalizing s with
  | nil => simp
  | cons i l ih =>
    obtain ⟨hi, hl⟩ := List.nodup_cons.mp hnodup
    have hsame : l.filter (s.endLive i).joinsQueue = l.filter s.joinsQueue :=
      List.filter_congr fun j hj => s.joinsQueue_endLive_of_ne fun h => hi (h ▸ hj)
    rw [List.foldl_cons, ih _ hl, hsame, State.noticeQueue_endLive, List.append_assoc, List.filter_cons]
    cases s.joinsQueue i with
    | true => rfl
    | false => rfl

theorem State.poolFree_foldl_endLive (s : State) (hnodup : l.Nodup) : (l.foldl State.endLive s).poolFree
    = s.poolFree + ((l.filter (fun i => (s.entry i).live)).map (fun i => (s.entry i).prod.subs.length)).sum := by
  induction l generalizing s with
  | nil => simp
  | cons i l ih =>
    obtain ⟨hi, hl⟩ := List.nodup_cons.mp hnodup
    have hentry : ∀ j ∈ l, (s.endLive i).entry j = s.entry j := fun j hj => s.entry_endLive_of_ne fun h => hi (h ▸ hj)
    have hlive : l.filter (fun j => ((s.endLive i).entry j).live) = l.filter (fun j => (s.entry j).live) :=
      List.filter_congr fun j hj => by rw [hentry j hj]
    have hsubs : (l.filter (fun j => (s.entry j).live)).map (fun j => ((s.endLive i).entry j).prod.subs.length)
        = (l.filter (fun j => (s.entry j).live)).map (fun j => (s.entry j).prod.subs.length) :=
      List.map_congr_left fun j hj => by rw [hentry j (List.mem_of_mem_filter hj)]
    rw [List.foldl_cons, ih _ hl, hlive, hsubs, State.poolFree_endLive, List.filter_cons, Nat.add_assoc]
    cases (s.entry i).live with
    | true => rfl
    | false => simp

theorem disownDone_of_owner {f : TxFrame} (h : ownerOf f = some i) : disownDone (some f) i = none := by
  simp [disownDone, TxFrame.entry?_eq, h, Option.filter]

theorem disownDone_of_other {f : TxFrame} (h : ownerOf f ≠ some i) : disownDone (some f) i = some f := by
  simp [disownDone, TxFrame.entry?_eq, h, Option.filter]

theorem State.handover_foldl_of_none (s : State) (h : s.handover = none) : (l.foldl State.endLive s).handover = none := by
  induction l generalizing s with
  | nil => exact h
  | cons i l ih =>
    refine ih _ ?_
    rw [State.handover_endLive, h]
    exact ite_self none

theorem State.handover_foldl_of_live {f : TxFrame} (s : State) (hnodup : l.Nodup) (h : s.handover = some f)
    (howner : ownerOf f = some i) (hi : i ∈ l) (hlive : (s.entry i).live = true) :
    (l.foldl State.endLive s).handover = none := by
  induction l generalizing s with
  | nil => cases hi
  | cons j l ih =>
    obtain ⟨hj, hl⟩ := List.nodup_cons.mp hnodup
    rw [List.foldl_cons]
    rcases List.mem_cons.mp hi with rfl | hmem
    · refine State.handover_foldl_of_none _ ?_
      rw [State.handover_endLive, if_pos hlive, h, disownDone_of_owner howner]
    · have hne : i ≠ j := fun he => hj (he ▸ hmem)
      refine ih _ hl ?_ hmem ((congrArg Entry.live (s.entry_endLive_of_ne hne)).trans hlive)
      rw [State.handover_endLive, h, disownDone_of_other (by simpa [howner] using hne)]
      exact ite_self _

theorem State.handover_foldl_of_dead {f : TxFrame} (s : State) (h : s.handover = some f)
    (hdead : ∀ i, ownerOf f = some i → (s.entry i).live = false) : (l.foldl State.endLive s).handover = some f := by
  induction l generalizing s with
  | nil => exact h
  | cons j l ih =>
    by_cases howner : ownerOf f = some j
    · have hskip : s.endLive j = s := by
        rw [State.endLive, hdead j howner]
        exact if_neg nofun
      rw [List.foldl_cons, hskip]
      exact ih s h hdead
    · refine ih _ ?_ fun i hi => ?_
      · rw [State.handover_endLive, h, disownDone_of_other howner]
        exact ite_self _
      · rw [s.entry_endLive_of_ne fun he : i = j => howner (he ▸ hi)]
        exact hdead i hi

end Turns

/-! ## GO_OFFLINE -/

theorem nodup_allEntries : allEntries.Nodup := List.nodup_finRange 12

/-- The state in which GO_OFFLINE has stopped the transmitter and ended every live entry. -/
def State.allEnded (s : State) : State := s.stopTransmitter.endAllLive

section AllEnded

variable (s : State) (i : EntryIdx)

theorem State.live_stopTransmitter : (s.stopTransmitter.entry i).live = (s.entry i).live := by
  rw [State.entry_stopTransmitter, Entry.live_ackReturned]

theorem State.item_stopTransmitter (k : ItemIdx) : s.stopTransmitter.item k = s.item k :=
  State.item_congr s.stopTransmitter_items k

theorem State.allEnded_frame : s.allEnded = { s with
    entries := s.allEnded.entries, poolFree := s.allEnded.poolFree, items := s.allEnded.items
    noticeQueue := s.allEnded.noticeQueue, tx := s.allEnded.tx, handover := s.allEnded.handover
    replies := s.allEnded.replies } := by
  have hframe : s.allEnded = { s.stopTransmitter with
      entries := s.allEnded.entries, poolFree := s.allEnded.poolFree, items := s.allEnded.items
      noticeQueue := s.allEnded.noticeQueue, tx := s.allEnded.tx, handover := s.allEnded.handover } :=
    State.foldl_endLive_frame allEntries s.stopTransmitter
  generalize s.allEnded = u at hframe
  rw [s.stopTransmitter_frame] at hframe
  generalize s.stopTransmitter = m at hframe
  rw [hframe]

theorem State.entry_allEnded_of_live (h : (s.entry i).live = true) : s.allEnded.entry i = (s.entry i).ended .offline := by
  rw [State.allEnded, State.entry_endAllLive, State.live_stopTransmitter, if_pos h, State.entry_stopTransmitter]
  rfl

theorem State.entry_allEnded_of_dead (h : (s.entry i).live = false) :
    s.allEnded.entry i = (s.entry i).ackReturned s.tx i := by
  rw [State.allEnded, State.entry_endAllLive, State.live_stopTransmitter, h, if_neg nofun, State.entry_stopTransmitter]

theorem State.item_allEnded : s.allEnded.item (itemOf i) = s.itemEnded i := by
  rw [State.allEnded, State.endAllLive_eq, State.item_foldl_endLive _ nodup_allEntries (mem_allEntries i), State.itemEnded,
    State.live_stopTransmitter, State.item_stopTransmitter]
  rfl

theorem State.item_allEnded_station : s.allEnded.item stationItem = s.item stationItem := by
  rw [State.allEnded, State.endAllLive_eq,
    State.item_foldl_endLive_of_not_mem (k := stationItem) _ fun j _ => (Fin.castSucc_lt_last j).ne', State.item_stopTransmitter]

theorem State.noticeQueue_allEnded : s.allEnded.noticeQueue
    = s.noticeQueue ++ (allEntries.filter s.joinsQueue).map itemOf := by
  have hsame : allEntries.filter s.stopTransmitter.joinsQueue = allEntries.filter s.joinsQueue :=
    List.filter_congr fun j _ => by
      rw [State.joinsQueue, State.joinsQueue, State.live_stopTransmitter, State.item_stopTransmitter]
  rw [State.allEnded, State.endAllLive_eq, State.noticeQueue_foldl_endLive _ nodup_allEntries, hsame,
    State.stopTransmitter_noticeQueue]

theorem State.poolFree_allEnded : s.allEnded.poolFree
    = s.poolFree + ((allEntries.filter (fun i => (s.entry i).live)).map (fun i => (s.entry i).prod.subs.length)).sum := by
  have hsubs : ∀ j, (s.stopTransmitter.entry j).prod.subs.length = (s.entry j).prod.subs.length := fun j => by
    rw [State.entry_stopTransmitter]
    rfl
  simp only [State.allEnded, State.endAllLive_eq, State.poolFree_foldl_endLive _ nodup_allEntries,
    State.live_stopTransmitter, State.stopTransmitter_poolFree, hsubs]

/-- A live entry loses a completion that it has still to take (R5). -/
theorem State.handover_allEnded_of_live
    (h : ∃ f i, s.handover = some f ∧ ownerOf f = some i ∧ (s.entry i).live = true) : s.allEnded.handover = none := by
  obtain ⟨f, j, hf, howner, hlive⟩ := h
  rw [State.allEnded, State.endAllLive_eq]
  exact State.handover_foldl_of_live _ nodup_allEntries (s.stopTransmitter_handover.trans hf) howner (mem_allEntries j)
    ((s.live_stopTransmitter j).trans hlive)

theorem State.handover_allEnded_of_dead
    (h : ¬∃ f i, s.handover = some f ∧ ownerOf f = some i ∧ (s.entry i).live = true) :
    s.allEnded.handover = s.handover := by
  rw [State.allEnded, State.endAllLive_eq]
  cases hf : s.handover with
  | none => exact State.handover_foldl_of_none _ (s.stopTransmitter_handover.trans hf)
  | some f =>
    refine State.handover_foldl_of_dead _ (s.stopTransmitter_handover.trans hf) fun j hj => ?_
    rw [State.live_stopTransmitter]
    exact Bool.eq_false_iff.mpr fun hlive => h ⟨f, j, hf, hj, hlive⟩

theorem State.tx_allEnded : s.allEnded.tx = .free := by
  by_contra hf
  exact (Rests.endAllLive s.stopTransmitter).tx.1 hf s.stopTransmitter_tx

end AllEnded

/-- Settles O17: GO_OFFLINE's state is the one in which every live entry has ended, with the line blocks at their OFFLINE
values. -/
theorem goOfflineEndsEveryLiveEntry : Obligations.GoOfflineEndsEveryLiveEntry := by
  intro s hheld
  have hexec : exec (.goOffline [] false) s = .next (s.writeType true State.goOffline) := exec_goOffline hheld _ _
  refine ⟨_, hexec, ?_⟩
  let s0 : State := { s with port := s.port.begun }
  have hact : State.goOffline s0 = (.ok, { s0.allEnded with
      station := .offline, replies := [], rx := { state := .off, hold := [], gap := none }
      line := .busy, lineGap := none, round := .contention, failCount := 0, quiet := none }) := rfl
  rw [State.writeType_of_act hact]
  have hframe := s0.allEnded_frame
  have hlive := s0.entry_allEnded_of_live
  have hdead := s0.entry_allEnded_of_dead
  have hitem := s0.item_allEnded
  have hstation := s0.item_allEnded_station
  have hqueue := s0.noticeQueue_allEnded
  have hpool := s0.poolFree_allEnded
  have hlost := s0.handover_allEnded_of_live
  have hkept := s0.handover_allEnded_of_dead
  have htx := s0.tx_allEnded
  generalize s0.allEnded = u at *
  refine ⟨?_, rfl, fun i h => ⟨hlive i h, (hitem i).trans (if_pos h)⟩, fun i h =>
    ⟨hdead i h, (hitem i).trans (if_neg (Bool.eq_false_iff.mp h))⟩, hlost, hkept, hstation, hqueue, hpool⟩
  rw [hframe, ← htx]

/-! ## The open commands -/

/-- The parameters of an open command, with the mode byte of OPEN_CONSUME and mode 0 of OPEN_PRODUCE. -/
def openArgs (mode : Option Byte) (st bh bl sl p fh fl th : Byte) : OpenArgs :=
  { produceArgs st bh bl sl p fh fl th with modeCode := (mode.map BitVec.toNat).getD 0 }

/-- The entry that an open command opens. -/
def OpenArgs.opened (a : OpenArgs) (mode : Option Byte) (p : Params) : Entry :=
  match mode with
  | none => a.producer p
  | some _ => a.consumer

section Open

variable {s : State} {i : EntryIdx} {a : OpenArgs}

theorem exec_openCommand (h : s.held = false) (mode : Option Byte) (e st bh bl sl p fh fl th : Byte) :
    exec (openCommand mode e st bh bl sl p fh fl th) s =
      .next (s.writeType true (fun t => t.openWith e (openArgs mode st bh bl sl p fh fl th)
        ((openArgs mode st bh bl sl p fh fl th).opened mode t.params))) := by
  cases mode with
  | none => exact exec_openProduce h _ _
  | some m => exact exec_openConsume h _ _

theorem State.openWith_of_gt {e : Byte} (h : 11 < e.toNat) (x : Entry) : s.openWith e a x = (.badEntry, s) := by
  simp only [State.openWith, entryIdx?_of_gt h]

/-- An open command whose checks pass opens the entry. -/
theorem State.writeType_openWith_ok {e : Byte} (hi : e.toNat = i.val) (h : s.openCheck i a = .ok) (x : Params → Entry) :
    s.writeType true (fun t => t.openWith e a (x t.params)) =
      { s.setEntry i (x s.params) with port := { s.port.begun with result := .ok } } := by
  have hcheck : State.openCheck { s with port := s.port.begun } i a = .ok := h
  simp only [State.writeType_true, State.openWith, entryIdx?_of_eq hi, hcheck, if_true]
  rfl

/-- An open command that a check refuses changes nothing but the port. -/
theorem State.writeType_openWith_bad {e : Byte} {rc : ResultCode} (hi : e.toNat = i.val) (h : s.openCheck i a = rc)
    (hrc : rc ≠ .ok) (x : Params → Entry) : s.writeType true (fun t => t.openWith e a (x t.params)) =
      { s with port := { s.port.begun with result := rc } } := by
  have hcheck : State.openCheck { s with port := s.port.begun } i a = rc := h
  simp only [State.writeType_true, State.openWith, entryIdx?_of_eq hi, hcheck, hrc, if_false, Port.begun_begun]

theorem State.openWith_frame (s : State) (e : Byte) (a : OpenArgs) (x : Entry) :
    (s.openWith e a x).2 = { s with entries := (s.openWith e a x).2.entries } := by
  unfold State.openWith
  split
  · rfl
  · dsimp only
    split <;> rfl

/-! ### The checks of R13, in their order -/

theorem State.openCheck_of_shut (h : s.station = .offline ∨ (s.entry i).state ≠ .free) :
    s.openCheck i a = .refusedState :=
  if_pos h

variable (hopen : ¬(s.station = .offline ∨ (s.entry i).state ≠ .free))

include hopen

theorem State.openCheck_of_unfit (h : a.bad = true) : s.openCheck i a = .badParameter :=
  (if_neg hopen).trans (if_pos h)

variable (hfits : a.bad = false)

include hfits

theorem State.openCheck_of_fit : s.openCheck i a =
    if allEntries.any (fun j => (s.entry j).state != .free && (s.entry j).stream.toNat == a.stream) then .streamInUse
    else if allEntries.any (fun j => (s.entry j).state != .free && a.overlaps (s.entry j)) then .overlap
    else .ok :=
  (if_neg hopen).trans (if_neg (Bool.eq_false_iff.mp hfits))

end Open

theorem streamTaken_iff (s : State) (st : Nat) :
    allEntries.any (fun j => (s.entry j).state != .free && (s.entry j).stream.toNat == st) = true ↔ streamTaken s st := by
  simp [streamTaken, mem_allEntries]

/-- Two runs of bytes that are not empty share one exactly when each starts before the other's end. -/
theorem runs_meet_iff {b n b' n' : Nat} (hn : 0 < n) (hn' : 0 < n') :
    (b < b' + n' ∧ b' < b + n) ↔ ∃ x, b' ≤ x ∧ x < b' + n' ∧ b ≤ x ∧ x < b + n := by
  refine ⟨fun ⟨h, h'⟩ => ⟨max b b', ?_⟩, fun ⟨x, h⟩ => ?_⟩
  · omega
  · omega

theorem bytesTaken_iff {s : State} {a : OpenArgs} (hs : tableSafe s) (hgood : a.bad = false) :
    allEntries.any (fun j => (s.entry j).state != .free && a.overlaps (s.entry j)) = true
      ↔ bytesTaken s a.base (a.slots * a.size) := by
  obtain ⟨hregions, _⟩ := hs
  obtain ⟨_, hsize, _, hslots, _⟩ := (OpenArgs.good_iff a).mp hgood
  have hmeet : ∀ j, (s.entry j).state ≠ .free → (a.overlaps (s.entry j) = true ↔
      ∃ x, (s.entry j).base ≤ x ∧ x < (s.entry j).base + (s.entry j).slots * (s.entry j).size
        ∧ a.base ≤ x ∧ x < a.base + a.slots * a.size) := fun j hj => by
    obtain ⟨hj1, hj2, _⟩ := hregions j hj
    rw [← runs_meet_iff (Nat.mul_pos hslots hsize) (Nat.mul_pos hj1 hj2)]
    rw [OpenArgs.overlaps, Bool.and_eq_true, decide_eq_true_eq, decide_eq_true_eq]
    rfl
  simp only [List.any_eq_true, Bool.and_eq_true, bne_iff_ne, ne_eq, mem_allEntries, true_and, bytesTaken]
  refine ⟨fun ⟨j, hj, hover⟩ => ?_, fun ⟨j, x, hj, hx⟩ => ⟨j, hj, (hmeet j hj).mpr ⟨x, hx⟩⟩⟩
  obtain ⟨x, hx⟩ := (hmeet j hj).mp hover
  exact ⟨j, x, hj, hx⟩

theorem openArgs_good_iff (mode : Option Byte) (st bh bl sl p fh fl th : Byte) :
    (openArgs mode st bh bl sl p fh fl th).bad = false ↔
      paramsInRange mode st.toNat (word16 bh bl) sl.toNat p.toNat th.toNat := by
  have hmode : ((mode.map BitVec.toNat).getD 0 ≤ 1 ∧ ((mode.map BitVec.toNat).getD 0 = 1 → sl.toNat = 1))
      ↔ ∀ m, mode = some m → m.toNat ≤ 1 ∧ (m.toNat = 1 → sl.toNat = 1) := by
    cases mode <;> simp
  rw [OpenArgs.good_iff, paramsInRange, ← hmode]
  simp only [openArgs, produceArgs]
  generalize sl.toNat * p.toNat = n
  omega

/-- Settles O18: the checks are read off in their order, each in the words of the statement. -/
theorem openCommandsAreCheckedInOrder : Obligations.OpenCommandsAreCheckedInOrder := by
  intro s mode e st bh bl sl p fh fl th hheld hsafe
  refine ⟨_, exec_openCommand hheld mode e st bh bl sl p fh fl th, State.writeType_frame_entries fun t =>
    State.openWith_frame _ _ _ _, fun hgt => ?_, fun i hi => ?_⟩
  · rw [State.writeType_of_act (State.openWith_of_gt hgt _)]
    exact ⟨rfl, rfl⟩
  · dsimp only
    rw [← openArgs_good_iff mode st bh bl sl p fh fl th, ← streamTaken_iff]
    have hbytes := bytesTaken_iff (a := openArgs mode st bh bl sl p fh fl th) hsafe
    refine ⟨fun hshut => ?_, fun hopen hunfit => ?_, fun hopen hfits hused => ?_, fun hopen hfits hunused hover => ?_,
      fun hopen hfits hunused hclear => ?_⟩
    · rw [State.writeType_openWith_bad hi (State.openCheck_of_shut hshut) nofun]
      exact ⟨rfl, rfl⟩
    · rw [State.writeType_openWith_bad hi (State.openCheck_of_unfit hopen (Bool.eq_true_of_not_eq_false hunfit)) nofun]
      exact ⟨rfl, rfl⟩
    · have hcheck := (State.openCheck_of_fit hopen hfits).trans (if_pos hused)
      rw [State.writeType_openWith_bad hi hcheck nofun]
      exact ⟨rfl, rfl⟩
    · have hcheck := ((State.openCheck_of_fit hopen hfits).trans (if_neg hunused)).trans
        (if_pos ((hbytes hfits).mpr hover))
      rw [State.writeType_openWith_bad hi hcheck nofun]
      exact ⟨rfl, rfl⟩
    · have hcheck := ((State.openCheck_of_fit hopen hfits).trans (if_neg hunused)).trans
        (if_neg ((hbytes hfits).not.mpr hclear))
      rw [State.writeType_openWith_ok hi hcheck ((openArgs mode st bh bl sl p fh fl th).opened mode)]
      refine ⟨rfl, ?_, fun j hj => s.entry_setEntry_of_ne _ hj⟩
      refine (congrArg Entry.state (s.entry_setEntry_self i _)).trans ?_
      cases mode <;> rfl

/-- An open command whose checks pass leaves the opened entry, and every other as it was. -/
theorem exec_openCommand_of_ok {s : State} {i : EntryIdx} {mode : Option Byte} {e st bh bl sl p fh fl th : Byte}
    (hheld : s.held = false) (hi : e.toNat = i.val) (h : s.openCheck i (openArgs mode st bh bl sl p fh fl th) = .ok) :
    ∃ t, exec (openCommand mode e st bh bl sl p fh fl th) s = .next t ∧ t = { s with entries := t.entries, port := t.port }
      ∧ t.port.result = .ok ∧ otherEntries s t i
      ∧ t.entry i = (openArgs mode st bh bl sl p fh fl th).opened mode s.params := by
  refine ⟨_, exec_openCommand hheld mode e st bh bl sl p fh fl th, ?_⟩
  rw [State.writeType_openWith_ok hi h ((openArgs mode st bh bl sl p fh fl th).opened mode)]
  exact ⟨rfl, rfl, fun j hj => s.entry_setEntry_of_ne _ hj, s.entry_setEntry_self i _⟩

/-- Settles O19: the checks pass, so the entry is the one that the command opens. -/
theorem openedEntriesHoldTheirOpeningValues : Obligations.OpenedEntriesHoldTheirOpeningValues := by
  intro s i e st bh bl sl p fh fl th mode hheld hsafe hi honline hfree hrange hunused hclear
  have hgood := (openArgs_good_iff mode st bh bl sl p fh fl th).mpr hrange
  have hopen : ¬(s.station = .offline ∨ (s.entry i).state ≠ .free) := fun h => h.elim honline fun hne => hne hfree
  have hbytes := bytesTaken_iff (a := openArgs mode st bh bl sl p fh fl th) hsafe hgood
  have hcheck := ((State.openCheck_of_fit hopen hgood).trans (if_neg ((streamTaken_iff s st.toNat).not.mpr hunused))).trans
    (if_neg (hbytes.not.mpr hclear))
  obtain ⟨t, hexec, hframe, hok, hothers, hentry⟩ := exec_openCommand_of_ok hheld hi hcheck
  have hstream : BitVec.ofNat 6 st.toNat = st.setWidth 6 := BitVec.ofNat_toNat 6 st
  refine ⟨t, hexec, hframe, hok, hothers, ?_⟩
  rw [hentry, ← hstream]
  cases mode with
  | none => exact ⟨rfl, rfl, rfl, rfl, rfl, rfl, rfl, rfl, fun _ => ⟨rfl, rfl, rfl, rfl, rfl, rfl, rfl⟩, nofun⟩
  | some m =>
    refine ⟨rfl, rfl, rfl, rfl, rfl, rfl, rfl, rfl, nofun, fun m' hm => ?_⟩
    obtain rfl := Option.some.inj hm
    exact ⟨rfl, rfl, rfl, rfl, rfl⟩

end Sys2Proof.Machine
end

section
/-! PROOFS. The reads of the host port (R78, R183 to R191): O6, O9 to O12. -/

namespace Sys2Proof.Machine

/- One after another: many theorems elaborated at once take a thread each. -/
set_option Elab.async false

open Sys2Proof.Safety

/-! ## The status word (R186) -/

theorem State.statusBytes_eq (s : State) : s.statusBytes =
    [BitVec.ofNat 8 ((if s.noticeQueue = [] then 0 else 128) + s.station.code), BitVec.ofNat 8 s.port.result.code] := by
  have hflag : (!s.noticeQueue.isEmpty).toNat * 128 = if s.noticeQueue = [] then 0 else 128 := by
    cases s.noticeQueue <;> rfl
  rw [State.statusBytes, statusWord, hflag]

/-- Settles O6: both rows latch the status word; ATN is its flag. -/
theorem statusWordIsLatched : Obligations.StatusWordIsLatched := by
  intro s hheld word
  have hword : s.statusBytes = word := by
    rw [State.statusBytes_eq]
    simp only [word]
    cases s.station <;> rfl
  rw [exec_readStatus hheld, exec_statusRelatch hheld, ← hword]
  refine ⟨⟨_, rfl, rfl, rfl, rfl, rfl⟩, fun h => by rw [if_pos h], fun h => by rw [if_neg h], ?_⟩
  simp [State.atnLow]

/-! ## READ_ENTRY (R190) -/

theorem flagByte_five (a b c d e : Bool) : flagByte [a, b, c, d, e]
    = BitVec.ofNat 8 (a.toNat + 2 * b.toNat + 4 * c.toNat + 8 * d.toNat + 16 * e.toNat) := by
  simp only [flagByte, List.foldr_cons, List.foldr_nil]
  congr 1
  omega

theorem entrySnapshot_of_free {e : Entry} (h : e.state = .free) : entrySnapshot e = List.replicate 28 0#8 := if_pos h

section Snapshot

variable {e : Entry} (hstate : e.state ≠ .free)

include hstate

/-- The snapshot of an entry that is not FREE: the part that both roles share, and the part of its role (10.6). -/
theorem entrySnapshot_of_open {role : Role} (hrole : e.role = some role) : entrySnapshot e =
    [BitVec.ofNat 8 e.state.code, BitVec.ofNat 8 (roleCode (some role) + 4 * e.mode.code), e.stream.setWidth 8,
     BitVec.ofNat 8 (e.base / 256), BitVec.ofNat 8 e.base, BitVec.ofNat 8 e.slots, BitVec.ofNat 8 e.size,
     BitVec.ofNat 8 (e.count / 256), BitVec.ofNat 8 e.count,
     BitVec.ofNat 8 (e.remaining / 256), BitVec.ofNat 8 e.remaining,
     BitVec.ofNat 8 e.threshold, BitVec.ofNat 8 (causeCode e.cause), snapshotFlags e,
     BitVec.ofNat 8 (e.timer.ms / 256), BitVec.ofNat 8 e.timer.ms]
    ++ (if role = .producer then producerPart e else consumerPart e) := by
  rw [entrySnapshot, if_neg hstate, hrole]
  cases role <;> rfl

end Snapshot

theorem snapshotFlags_producer {e : Entry} (h : e.role = some .producer) : snapshotFlags e =
    BitVec.ofNat 8 (e.timer.isRunning.toNat + 2 * e.cause.isSome.toNat + 4 * (!e.prod.ring.isEmpty).toNat
      + 16 * (e.prod.ring.any (fun r => r.endFlag)).toNat) := by
  simp only [snapshotFlags, h, flagByte_five, Bool.toNat_false, Nat.mul_zero, Nat.add_zero]

theorem snapshotFlags_consumer {e : Entry} (h : e.role = some .consumer) : snapshotFlags e =
    BitVec.ofNat 8 (e.timer.isRunning.toNat + 2 * e.cause.isSome.toNat + 4 * e.cons.producer.isSome.toNat
      + 8 * e.cons.lastSeq.isSome.toNat + 16 * e.cons.endMark.toNat) := by
  simp only [snapshotFlags, h, flagByte_five]

theorem producerPart_eq (e : Entry) : producerPart e =
    [e.prod.nextSeq, BitVec.ofNat 8 ((e.prod.sendIdx + e.prod.filled) % e.slots),
     BitVec.ofNat 8 e.prod.sendIdx, BitVec.ofNat 8 e.prod.filled, BitVec.ofNat 8 (freeSlotsOf e),
     BitVec.ofNat 8 e.prod.ring.length, (e.prod.ring.head?.map (fun r => r.seq)).getD 0#8,
     BitVec.ofNat 8 (e.prod.ring.filter (fun r => r.queued)).length,
     BitVec.ofNat 8 e.prod.endPending.code, BitVec.ofNat 8 e.prod.subs.length, 0#8, 0#8] := by
  rw [producerPart, freeSlotsOf_eq, List.countP_eq_length_filter]
  cases e.prod.ring <;> rfl

/-- Settles O9: the snapshot of each role, field by field. -/
theorem entrySnapshotHasTheLayout : Obligations.EntrySnapshotHasTheLayout := by
  intro s index hheld
  refine ⟨_, exec_readEntry hheld index, ?_, fun hgt => ?_, fun i hi => ?_⟩
  · split <;> rfl
  · simp only [entryIdx?_of_gt hgt]
    exact ⟨rfl, rfl⟩
  · simp only [entryIdx?_of_eq hi]
    refine ⟨rfl, fun hfree => entrySnapshot_of_free hfree, fun hopen =>
      ⟨fun hrole => (entrySnapshot_of_open hopen hrole).trans ?_,
        fun hrole => (entrySnapshot_of_open hopen hrole).trans ?_⟩⟩
    · rw [snapshotFlags_producer hrole, producerPart_eq]
      cases (s.entry i).timer <;> rfl
    · rw [snapshotFlags_consumer hrole]
      cases (s.entry i).timer <;> rfl

/-! ## READ_SUBSCRIBERS (R78) -/

theorem Entry.shownSubs_of_live {e : Entry} (h : e.state = .producing ∨ e.state = .closing) : e.shownSubs = e.prod.subs :=
  if_pos ((Entry.liveProducer_iff e).mpr h)

theorem Entry.shownSubs_of_dead {e : Entry} (hp : e.state ≠ .producing) (hc : e.state ≠ .closing) : e.shownSubs = [] :=
  if_neg fun h => ((Entry.liveProducer_iff e).mp h).elim hp hc

/-- Settles O10: the list that is shown is the entry's or empty. -/
theorem subscriberListIsShown : Obligations.SubscriberListIsShown := by
  intro s index hheld
  refine ⟨_, exec_readSubscribers hheld index, ?_, fun hgt => ?_, fun i hi => ?_⟩
  · split <;> rfl
  · simp only [entryIdx?_of_gt hgt]
    exact ⟨rfl, rfl⟩
  · simp only [entryIdx?_of_eq hi]
    refine ⟨rfl, fun hlive => ?_, fun hp hc => ?_⟩
    · rw [Entry.shownSubs_of_live hlive]
      rfl
    · rw [Entry.shownSubs_of_dead hp hc]
      rfl

/-! ## READ_BUFFER (R188) -/

/-- The state after a byte has been claimed at an address: that byte is the answer, and the address moves on. -/
def State.claimed (s : State) (a : Nat) : State :=
  { s with port := { s.port with answer := [Memory.read s.mem (a % 8192)], readAddr := some ((a + 1) % 8192) } }

theorem exec_hostByteRead_of_addr {s : State} {a : Nat} (hheld : s.held = false) (h : s.port.readAddr = some a) :
    exec .hostByteRead s = .next (s.claimed a) := by
  rw [exec_hostByteRead hheld, h]
  rfl

theorem exec_hostByteRead_of_none {s : State} (hheld : s.held = false) (h : s.port.readAddr = none) :
    exec .hostByteRead s = .next s := by
  rw [exec_hostByteRead hheld, h]

theorem after_cons_of_next {c : Instr} {cs : List Instr} {s t : State} (h : exec c s = .next t) :
    after (c :: cs) s = after cs t := by
  simp only [after, h]

/-- The claims that follow one another walk through buffer memory, with wrap. -/
theorem after_hostByteReads (n : Nat) {s : State} {a : Nat} (hheld : s.held = false) (h : s.port.readAddr = some a) :
    after (List.replicate (n + 1) .hostByteRead) s = some (s.claimed (a + n)) := by
  induction n generalizing s a with
  | zero => exact after_cons_of_next (exec_hostByteRead_of_addr hheld h)
  | succ n ih =>
    rw [List.replicate_succ, after_cons_of_next (exec_hostByteRead_of_addr hheld h), ih (s := s.claimed a) hheld rfl]
    simp only [State.claimed, Nat.mod_add_mod, Option.some.injEq, State.mk.injEq, Port.mk.injEq, true_and, and_true]
    rw [show a + 1 + n = a + (n + 1) by omega, show (a + 1) % 8192 + n + 1 = (a + 1) % 8192 + (n + 1) by omega,
      Nat.mod_add_mod, show a + 1 + (n + 1) = a + (n + 1) + 1 by omega]
    exact ⟨rfl, rfl⟩

theorem exec_readBuffer_of_low {s : State} {high low : Byte} (hheld : s.held = false) (h : word16 high low ≤ 8191) :
    exec (.readBuffer high low) s = .next { s.answer .buffer .ok [] with
      port := { (s.answer .buffer .ok []).port with readAddr := some (word16 high low) } } := by
  rw [exec_readBuffer hheld]
  exact congrArg _ (if_neg (Nat.not_le.mpr (Nat.lt_succ_of_le h)))

theorem exec_readBuffer_of_high {s : State} {high low : Byte} (hheld : s.held = false) (h : 8191 < word16 high low) :
    exec (.readBuffer high low) s = .next (s.answer .buffer .badParameter []) := by
  rw [exec_readBuffer hheld]
  exact congrArg _ (if_pos h)

/-- Settles O11: the claims after READ_BUFFER, one by one; a refused address leaves none to claim at. -/
theorem readBufferWalksBufferMemory : Obligations.ReadBufferWalksBufferMemory := by
  intro s high low hheld
  refine ⟨fun hlow n => ?_, fun a ha => exec_hostByteRead_of_addr hheld ha, fun hhigh => ?_⟩
  · rw [after_cons_of_next (exec_readBuffer_of_low hheld hlow),
      after_hostByteReads n (a := word16 high low) (by exact hheld) rfl]
    exact ⟨_, rfl, rfl, rfl, rfl, rfl⟩
  · refine ⟨_, exec_readBuffer_of_high hheld hhigh, rfl, rfl, fun n => State.misoByte_of_length_le (Nat.zero_le n), ?_⟩
    exact exec_hostByteRead_of_none (s := s.answer .buffer .badParameter []) hheld rfl

/-! ## READ_SLOT (R189) -/

theorem Memory.getElem?_readRun {m : Memory} {a n j : Nat} (h : j < n) :
    (Memory.readRun m a n)[j]? = some (Memory.read m ((a + j) % 8192)) := by
  simp only [Memory.readRun, List.getElem?_map, List.getElem?_range h, Option.map_some]
  rfl

theorem Memory.length_readRun (m : Memory) (a n : Nat) : (Memory.readRun m a n).length = n := by
  simp [Memory.readRun]

section Slot

variable {s t : State} {e : Entry}

theorem State.misoByte_of_slot (hanswer : t.port.answer = Memory.readRun s.mem (e.slotAddr 0) e.size) {n : Nat}
    (h : n < e.size) : t.misoByte n = Memory.read s.mem ((e.base + n) % 8192) := by
  have haddr : e.slotAddr 0 = e.base := by rw [Entry.slotAddr, Nat.zero_mul, Nat.add_zero]
  rw [State.misoByte, hanswer, haddr, Memory.getElem?_readRun h, Option.getD_some]

theorem State.misoByte_past_slot (hanswer : t.port.answer = Memory.readRun s.mem (e.slotAddr 0) e.size) {n : Nat}
    (h : e.size ≤ n) : t.misoByte n = 0#8 :=
  State.misoByte_of_length_le (by rw [hanswer, Memory.length_readRun]; exact h)

/-- The slot latch holds the answer and 00h after it, if the slot fits. -/
theorem State.latchSlot_eq (hanswer : t.port.answer = Memory.readRun s.mem (e.slotAddr 0) e.size) (hsize : e.size ≤ 64) :
    s.latchSlot e = (List.range 64).map t.misoByte := by
  have hlen : (Memory.readRun s.mem (e.slotAddr 0) e.size).length = e.size := Memory.length_readRun _ _ _
  refine List.ext_getElem ?_ fun j hj _ => ?_
  · simp only [State.latchSlot, List.length_append, hlen, List.length_replicate, List.length_map, List.length_range,
      Config.portArea]
    omega
  · rw [List.getElem_map, List.getElem_range]
    rcases Nat.lt_or_ge j e.size with hlt | hge
    · have hj' : j < (Memory.readRun s.mem (e.slotAddr 0) e.size).length := hlen.symm ▸ hlt
      rw [State.misoByte, hanswer, List.getElem?_eq_getElem hj', Option.getD_some]
      exact List.getElem_append_left hj'
    · rw [State.misoByte_past_slot hanswer hge]
      refine (List.getElem_append_right (hlen.trans_le hge)).trans ?_
      exact List.getElem_replicate _

end Slot

/-- Settles O12: the index names no entry, a FIXED consumer, or another entry. -/
theorem readSlotLatchesTheFixedSlot : Obligations.ReadSlotLatchesTheFixedSlot := by
  intro s index hheld
  refine ⟨_, exec_readSlot hheld index, ?_, fun hgt => ?_, fun i hi => ?_⟩
  · split
    · rfl
    · dsimp only
      split <;> rfl
  · simp only [entryIdx?_of_gt hgt]
    exact ⟨rfl, rfl, fun n => State.misoByte_of_length_le (Nat.zero_le n)⟩
  · simp only [entryIdx?_of_eq hi]
    refine ⟨fun hfixed => ?_, fun hother => ?_⟩
    · rw [if_pos hfixed]
      exact ⟨rfl, fun n hn => State.misoByte_of_slot rfl hn, fun n hn => State.misoByte_past_slot rfl hn,
        fun hsize => State.latchSlot_eq rfl hsize⟩
    · rw [if_neg hother]
      exact ⟨rfl, rfl, fun n => State.misoByte_of_length_le (Nat.zero_le n)⟩

end Sys2Proof.Machine
end

section
/-! PROOFS. The completions at their owners (R34, R46, R50, R82, R94, R102, R106, R160, R161): O50, O51. -/

namespace Sys2Proof.Machine

/- One after another: many theorems elaborated at once take a thread each. -/
set_option Elab.async false

open Sys2Proof.Safety

/-! ## A completion and its owner -/

/-- The owner takes a completion (R161). -/
def State.ownerDone (m : State) (f : TxFrame) : State :=
  match f with
  | .data i false _ seq e slot len => m.newDone i seq e slot len
  | .data i true _ seq _ _ _ => m.resendDone i seq
  | .hold i _ _ => m.holdDone i
  | .join i _ _ _ => m.joinDone i
  | .ack i _ _ _ _ => m.ackDone i
  | .leave i _ => m.leaveDone i
  | .reply _ _ _ => { m with replies := replySent m.replies }

section Completion

variable {s m : State} {f : TxFrame} (hheld : s.held = false)

include hheld

theorem exec_completion_of_none (h : s.completed = none) : exec f.completion s = .next s := by
  cases f with
  | data i again =>
    cases again with
    | true => exact (exec_resendComplete hheld).trans (by rw [h])
    | false => exact (exec_newFrameComplete hheld).trans (by rw [h])
  | hold => exact (exec_holdComplete hheld).trans (by rw [h])
  | join => exact (exec_joinComplete hheld).trans (by rw [h])
  | ack => exact (exec_ackComplete hheld).trans (by rw [h])
  | leave => exact (exec_leaveComplete hheld).trans (by rw [h])
  | reply => exact (exec_replyComplete hheld).trans (by rw [h])

/-- A completion with its owner there. -/
theorem exec_completion_of_owned (h : s.completed = some (f, true, m)) :
    exec f.completion s = .next (m.ownerDone f) := by
  cases f with
  | data i again =>
    cases again with
    | true => exact (exec_resendComplete hheld).trans (by rw [h]; rfl)
    | false => exact (exec_newFrameComplete hheld).trans (by rw [h]; rfl)
  | hold => exact (exec_holdComplete hheld).trans (by rw [h]; rfl)
  | join => exact (exec_joinComplete hheld).trans (by rw [h]; rfl)
  | ack => exact (exec_ackComplete hheld).trans (by rw [h]; rfl)
  | leave => exact (exec_leaveComplete hheld).trans (by rw [h]; rfl)
  | reply => exact (exec_replyComplete hheld).trans (by rw [h]; rfl)

/-- Of a disowned frame only the other blocks take the completion (R5, R21). -/
theorem exec_completion_of_orphan (h : s.completed = some (f, false, m)) (hno : ∀ d st body, f ≠ TxFrame.reply d st body) :
    exec f.completion s = .next m := by
  cases f with
  | data i again =>
    cases again with
    | true => exact (exec_resendComplete hheld).trans (by rw [h]; rfl)
    | false => exact (exec_newFrameComplete hheld).trans (by rw [h]; rfl)
  | hold => exact (exec_holdComplete hheld).trans (by rw [h]; rfl)
  | join => exact (exec_joinComplete hheld).trans (by rw [h]; rfl)
  | ack => exact (exec_ackComplete hheld).trans (by rw [h]; rfl)
  | leave => exact (exec_leaveComplete hheld).trans (by rw [h]; rfl)
  | reply => exact absurd rfl (hno _ _ _)

end Completion

/-- The blocks that take a completion before its owner leave the entries, the parameters and the replies. -/
theorem kept_of_completes {s m : State} {f : TxFrame} (h : completes s m f) :
    (∀ j, m.entry j = s.entry j) ∧ m.params = s.params ∧ m.replies = s.replies := by
  rcases h with ⟨_, _, rfl⟩ | ⟨_, rfl⟩
  · exact ⟨fun _ => rfl, rfl, rfl⟩
  · exact ⟨fun _ => rfl, rfl, rfl⟩

theorem otherEntries_trans {s t u : State} {i : EntryIdx} (h : ∀ j, t.entry j = s.entry j) (h' : otherEntries t u i) :
    otherEntries s u i := fun j hj => (h' j hj).trans (h j)

theorem State.otherEntries_setEntry (s : State) (i : EntryIdx) (e : Entry) : otherEntries s (s.setEntry i e) i :=
  fun _ hj => s.entry_setEntry_of_ne e hj

/-! ## A new frame (R34) -/

section New

variable {m : State} {i : EntryIdx} {q : Seq} {e : Bool} {slot : Option Nat} {len : Nat}

theorem State.newDone_of_dead (h : (m.entry i).liveProducer = false) : m.newDone i q e slot len = m := by
  simp only [State.newDone, h, Bool.false_eq_true, if_false]

theorem State.newDone_of_live (h : (m.entry i).liveProducer = true) : m.newDone i q e slot len =
    if (m.entry i).prod.subs = [] then (m.setEntry i ((m.entry i).afterNew m.params q e slot len)).retire i
    else m.setEntry i ((m.entry i).afterNew m.params q e slot len) := by
  simp only [State.newDone, h, if_true, List.isEmpty_iff]

theorem Entry.afterNew_eq {x : Entry} (h : x.state = .producing ∨ x.state = .closing) (p : Params) :
    x.afterNew p q e slot len = { x with
      state := if e = true then .closing else x.state
      timer := if x.prod.ring = [] then .running p.tAck else x.timer
      prod := { x.prod with
        ring := x.prod.ring ++ [{ seq := q, slot := slot, len := len, endFlag := e,
                                  owed := stationsOf (x.prod.subs.map (fun r => r.station)), queued := false }]
        nextSeq := x.prod.nextSeq + 1
        sendIdx := if slot.isSome = true then (x.prod.sendIdx + 1) % x.slots else x.prod.sendIdx
        filled := if slot.isSome = true then x.prod.filled - 1 else x.prod.filled
        holdDue := if x.prod.ring = [] then false else x.prod.holdDue } } := by
  have hstate : (if e = true ∧ x.state = .producing then EntryState.closing else x.state)
      = if e = true then .closing else x.state := by
    rcases h with h | h
    · simp only [h, and_true]
    · simp only [h, reduceCtorEq, and_false, ite_self]
  simp only [Entry.afterNew, newRecord, hstate, List.isEmpty_iff]

end New

/-- Settles O50: the entry is live or not, and with no subscriber the run follows at once. -/
theorem newFrameCompletionAddsItsRecord : Obligations.NewFrameCompletionAddsItsRecord := by
  intro s m i st q e slot len hheld hcompletes
  have hexec := exec_completion_of_owned hheld (State.completed_of_completes hcompletes)
  obtain ⟨hentry, hparams, _⟩ := kept_of_completes hcompletes
  rw [← hparams]
  simp only [← hentry]
  by_cases hlive : (m.entry i).liveProducer = true
  · have hstate := (Entry.liveProducer_iff _).mp hlive
    have hnotEnded : (m.entry i).state ≠ .ended := fun h => by simp [h] at hstate
    let n := m.setEntry i ((m.entry i).afterNew m.params q e slot len)
    refine ⟨n, _, hexec, rfl, otherEntries_trans hentry (m.otherEntries_setEntry i _), fun h => absurd h hnotEnded,
      fun _ => ⟨?_, fun hsubs => ?_, fun hsubs => ?_⟩⟩
    · exact (m.entry_setEntry_self i _).trans (Entry.afterNew_eq hstate _)
    · exact (State.newDone_of_live hlive).trans (if_neg hsubs)
    · have hretire : m.newDone i q e slot len = n.retire i := (State.newDone_of_live hlive).trans (if_pos hsubs)
      rw [State.ownerDone, hretire]
      exact n.retire_spec i
  · have hdead : m.newDone i q e slot len = m := State.newDone_of_dead (Bool.eq_false_iff.mpr hlive)
    refine ⟨m, _, hexec, rfl, fun j _ => hentry j, fun _ => ⟨rfl, hdead⟩, fun h => ?_⟩
    exact absurd ((Entry.liveProducer_iff _).mpr h) hlive

/-! ## The other completions -/

section Owners

variable {m : State} {i : EntryIdx}

theorem State.resendDone_of_queued {q : Seq} (hlive : (m.entry i).liveProducer = true)
    (h : ∃ r ∈ (m.entry i).prod.ring, r.seq = q ∧ r.queued = true) :
    let cleared := (m.entry i).prod.ring.map (fun r => if r.seq = q then { r with queued := false } else r)
    m.resendDone i q = m.setEntry i { m.entry i with
      timer := if ∃ r ∈ cleared, r.queued = true then (m.entry i).timer else .running m.params.tAck
      prod := { (m.entry i).prod with ring := cleared } } := by
  have hany : (m.entry i).prod.ring.any (fun r => r.seq == q && r.queued) = true := by simpa using h
  simp only [State.resendDone, hlive, hany, Bool.and_self, if_true, beq_iff_eq, anyQueued, List.any_eq_true]

theorem State.resendDone_of_none {q : Seq} (h : ∀ r ∈ (m.entry i).prod.ring, ¬(r.seq = q ∧ r.queued = true)) :
    m.resendDone i q = m := by
  have hany : (m.entry i).prod.ring.any (fun r => r.seq == q && r.queued) = false := by
    rw [List.any_eq_false]
    simpa using h
  simp only [State.resendDone, hany, Bool.and_false, Bool.false_eq_true, if_false]

theorem State.joinDone_of_joining (h : (m.entry i).state = .joining) : m.joinDone i = m.setEntry i { m.entry i with
    timer := .running m.params.tAck
    cons := { (m.entry i).cons with joinAttempts := (m.entry i).cons.joinAttempts + 1, joinDue := false } } :=
  if_pos h

theorem State.joinDone_of_other (h : (m.entry i).state ≠ .joining) : m.joinDone i = m := if_neg h

theorem State.leaveDone_of_leaving {c : Cause} (h : (m.entry i).state = .leaving) (hc : (m.entry i).cause = some c) :
    m.leaveDone i = m.endEntry i c := by
  refine (if_pos h).trans ?_
  rw [hc]
  rfl

theorem State.leaveDone_of_other (h : (m.entry i).state ≠ .leaving) : m.leaveDone i = m := if_neg h

/-- The entry as a completed ACK leaves it, if that does not end it (R94). -/
def Entry.ackSent (e : Entry) : Entry := { e with cons := { e.cons with ack := e.cons.ack.completed } }

/-- An ACK that completes from in flight with the END mark set in RECEIVING (R102). -/
def Entry.endsByAck (e : Entry) : Prop := e.cons.ack = .inFlight ∧ e.cons.endMark = true ∧ e.state = .receiving

theorem State.ackDone_of_ends (h : (m.entry i).endsByAck) :
    m.ackDone i = (m.setEntry i (m.entry i).ackSent).endEntry i .byProducer := if_pos h

theorem State.ackDone_of_goes_on (h : ¬(m.entry i).endsByAck) : m.ackDone i = m.setEntry i (m.entry i).ackSent := if_neg h

/-- An ending of an entry that was first replaced by one with the same fields but for its ack owed flag. -/
theorem State.endEntry_ackSent (m : State) (i : EntryIdx) (c : Cause) :
    (m.setEntry i (m.entry i).ackSent).endEntry i c = m.endEntry i c := by
  have hended : (m.entry i).ackSent.ended c = (m.entry i).ended c := rfl
  have hsubs : (m.entry i).ackSent.prod = (m.entry i).prod := rfl
  have hboth := m.setEntry_setEntry i (m.entry i).ackSent ((m.entry i).ended c)
  simp only [State.endEntry, State.entry_setEntry_self, hboth, hended, hsubs]
  rfl

end Owners

/-- Settles O51: each kind of frame at its owner, by the lemma of that owner. -/
theorem completionsReachTheirOwners : Obligations.CompletionsReachTheirOwners := by
  intro s m f hheld
  refine ⟨fun cs b rd o hhand htx hb => ?_, fun cs b rd hhand htx hb hno => ?_, fun hcompletes => ?_⟩
  · exact exec_completion_of_none hheld (State.completed_none hhand htx hb)
  · exact exec_completion_of_orphan hheld (State.completed_of_orphan hhand htx hb) hno
  · have hexec := exec_completion_of_owned hheld (State.completed_of_completes hcompletes)
    obtain ⟨hentry, hparams, hreplies⟩ := kept_of_completes hcompletes
    refine ⟨_, hexec, ?_⟩
    clear hexec hcompletes
    rw [← hparams, ← hreplies]
    simp only [← hentry]
    cases f with
    | data i again st q fin slot len =>
      cases again with
      | false => trivial
      | true =>
        refine ⟨fun hstate hqueued => ?_, fun hnone => State.resendDone_of_none hnone⟩
        dsimp only [State.ownerDone]
        rw [State.resendDone_of_queued ((Entry.liveProducer_iff _).mpr hstate) hqueued]
        exact ⟨rfl, otherEntries_trans hentry (m.otherEntries_setEntry i _), m.entry_setEntry_self i _⟩
    | hold i st next =>
      intro hstate
      have hdone : m.holdDone i = _ := if_pos ((Entry.liveProducer_iff _).mpr hstate)
      dsimp only [State.ownerDone]
      refine ⟨_, m.countMisses_spec i _, ?_⟩
      rw [hdone]
      generalize m.countMisses i (fun r => !r.heard) = m1
      exact ⟨rfl, m1.otherEntries_setEntry i _, m1.entry_setEntry_self i _⟩
    | join i st k p =>
      refine ⟨fun hstate => ?_, fun hnot => State.joinDone_of_other hnot⟩
      dsimp only [State.ownerDone]
      rw [State.joinDone_of_joining hstate]
      exact ⟨rfl, otherEntries_trans hentry (m.otherEntries_setEntry i _), m.entry_setEntry_self i _⟩
    | ack i st d a k =>
      refine ⟨fun hends => ?_, fun hnot => ?_⟩
      · dsimp only [State.ownerDone]
        rw [State.ackDone_of_ends hends, State.endEntry_ackSent]
        exact m.endEntry_spec i .byProducer
      · dsimp only [State.ownerDone]
        rw [State.ackDone_of_goes_on hnot]
        refine ⟨rfl, otherEntries_trans hentry (m.otherEntries_setEntry i _), (m.entry_setEntry_self i _).trans ?_⟩
        rw [Entry.ackSent]
        cases (m.entry i).cons.ack <;> rfl
    | leave i st =>
      refine ⟨fun c hstate hcause => ?_, fun hnot => State.leaveDone_of_other hnot⟩
      dsimp only [State.ownerDone]
      rw [State.leaveDone_of_leaving hstate hcause]
      exact m.endEntry_spec i c
    | reply d st body =>
      intro r rs hr
      dsimp only [State.ownerDone]
      rw [hr]
      rfl

end Sys2Proof.Machine
end

section
/-! PROOFS. The choice (R154, R155, R161), the start (R144, R156, 10.1) and a collision while sending (R145, R148, R152):
O46, O48, O49. -/

namespace Sys2Proof.Machine

/- One after another: many theorems elaborated at once take a thread each. -/
set_option Elab.async false

open Sys2Proof.Safety

/-! ## The round-robin order (R155) -/

/-- The entry that a class examines after a number of turns. -/
def turnAt (position : EntryIdx) (j : Nat) : EntryIdx := Fin.ofNat 12 (position.val + 1 + j)

theorem turnOrder_eq (position : EntryIdx) : turnOrder position = (List.range 12).map (turnAt position) := rfl

theorem turnsBefore_turnAt (position : EntryIdx) {j : Nat} (h : j < 12) : turnsBefore position (turnAt position j) = j := by
  have hp : position.val < 12 := position.isLt
  change ((position.val + 1 + j) % 12 + 11 - position.val) % 12 = j
  omega

theorem turnAt_turnsBefore (position i : EntryIdx) : turnAt position (turnsBefore position i) = i := by
  have hp : position.val < 12 := position.isLt
  have hi : i.val < 12 := i.isLt
  apply Fin.ext
  change (position.val + 1 + (i.val + 11 - position.val) % 12) % 12 = i.val
  omega

/-- A class's search ends at the first entry with a candidate. -/
theorem findSome?_turnOrder {α : Type} {position i : EntryIdx} {p : EntryIdx → Option α} {f : α} (hi : p i = some f)
    (hbefore : ∀ j, turnsBefore position j < turnsBefore position i → p j = none) :
    (turnOrder position).findSome? p = some f := by
  have hk : turnsBefore position i < 12 := Nat.mod_lt _ (by decide)
  have hlen : turnsBefore position i < (turnOrder position).length := by simpa [turnOrder_eq] using hk
  have hat : (turnOrder position)[turnsBefore position i] = i := by
    simp only [turnOrder_eq, List.getElem_map, List.getElem_range, turnAt_turnsBefore]
  rw [List.findSome?_eq_some_iff]
  have hsplit : (turnOrder position).take (turnsBefore position i)
      ++ i :: (turnOrder position).drop (turnsBefore position i + 1) = turnOrder position := by
    have hdrop := List.drop_eq_getElem_cons hlen
    rw [hat] at hdrop
    rw [← hdrop, List.take_append_drop]
  refine ⟨_, i, _, hsplit.symm, hi, fun x hx => ?_⟩
  obtain ⟨j, hj, rfl⟩ := List.mem_take_iff_getElem.mp hx
  have hj' : j < turnsBefore position i := lt_of_lt_of_le hj (Nat.min_le_left _ _)
  refine hbefore _ ?_
  simp only [turnOrder_eq, List.getElem_map, List.getElem_range]
  rwa [turnsBefore_turnAt position (hj'.trans hk)]

theorem findSome?_turnOrder_none {α : Type} {position : EntryIdx} {p : EntryIdx → Option α} (h : ∀ j, p j = none) :
    (turnOrder position).findSome? p = none := List.findSome?_eq_none_iff.mpr fun j _ => h j

/-! ## The candidate of a choice (R154) -/

section Candidate

variable {s : State} {f : TxFrame}

/-- No reply is offered: none is queued, or a reply's completion is still to be taken. -/
def State.noReply (s : State) : Prop := s.replies = [] ∨ ∃ d st b, s.handover = some (.reply d st b)

theorem TxFrame.entry?_none_iff (f : TxFrame) : f.entry? = none ↔ ∃ d st b, f = .reply d st b := by
  cases f <;> simp [TxFrame.entry?]

theorem State.handsReply_iff (s : State) :
    s.handover.any (fun f => f.entry?.isNone) = true ↔ ∃ d st b, s.handover = some (.reply d st b) := by
  cases s.handover with
  | none => simp
  | some f => simp [TxFrame.entry?_none_iff]

theorem State.replyCandidate_of_none (h : s.noReply) : s.replyCandidate = none := by
  unfold State.replyCandidate
  split
  · rfl
  · next hnot =>
    rw [h.resolve_right (s.handsReply_iff.not.mp hnot)]
    rfl

theorem State.replyCandidate_of_some {r : Reply} {rs : List Reply} (hr : s.replies = r :: rs) (h : ¬s.noReply) :
    s.replyCandidate = some (.reply r.dest r.stream r.body) := by
  have hnot := s.handsReply_iff.not.mpr fun hh => h (.inr hh)
  refine (if_neg hnot).trans ?_
  rw [hr]
  rfl

theorem State.candidate_of_reply {r : Reply} {rs : List Reply} (hr : s.replies = r :: rs) (h : ¬s.noReply) :
    s.candidate = some (.reply r.dest r.stream r.body) := by
  simp only [State.candidate, State.replyCandidate_of_some hr h]

theorem State.candidate_of_consumer {i : EntryIdx} (hno : s.noReply) (hi : s.consumerCandidate i = some f)
    (hbefore : ∀ j, turnsBefore s.rrConsumer j < turnsBefore s.rrConsumer i → s.consumerCandidate j = none) :
    s.candidate = some f := by
  simp only [State.candidate, State.replyCandidate_of_none hno, findSome?_turnOrder hi hbefore]

theorem State.candidate_of_producer {i : EntryIdx} (hno : s.noReply) (hcons : ∀ j, s.consumerCandidate j = none)
    (hi : s.producerCandidate i = some f)
    (hbefore : ∀ j, turnsBefore s.rrProducer j < turnsBefore s.rrProducer i → s.producerCandidate j = none) :
    s.candidate = some f := by
  simp only [State.candidate, State.replyCandidate_of_none hno, findSome?_turnOrder_none hcons,
    findSome?_turnOrder hi hbefore]

theorem State.candidate_of_none (hno : s.noReply) (hcons : ∀ j, s.consumerCandidate j = none)
    (hprod : ∀ j, s.producerCandidate j = none) : s.candidate = none := by
  simp only [State.candidate, State.replyCandidate_of_none hno, findSome?_turnOrder_none hcons,
    findSome?_turnOrder_none hprod]

end Candidate

/-! ## The choice -/

section Choice

variable {s : State} {f : TxFrame}

theorem State.choose_of_some (h : s.vacated.choosable = some f) :
    s.choose = { s.vacated.takeChoice f with tx := .chosen f false } := by
  simp only [State.choose, h]

theorem State.choose_of_none (h : s.vacated.choosable = none) : s.choose = s := by
  simp only [State.choose, h]

theorem State.choosable_of_free (htx : s.tx = .free) (honline : s.station = .online) : s.choosable = s.candidate :=
  if_pos ⟨htx, honline⟩

theorem State.choosable_of_busy (htx : s.tx ≠ .free) : s.choosable = none := if_neg fun h => htx h.1

/-- A choice at a FREE transmitter takes the candidate. -/
theorem State.choose_of_candidate (htx : s.tx = .free) (honline : s.station = .online) (h : s.candidate = some f) :
    s.choose = { s.takeChoice f with tx := .chosen f false } := by
  have hvacated := State.vacated_of_free htx
  have hchoosable : s.vacated.choosable = some f := by rw [hvacated, State.choosable_of_free htx honline, h]
  rw [State.choose_of_some hchoosable, hvacated]

theorem State.choose_of_no_candidate (htx : s.tx = .free) (honline : s.station = .online) (h : s.candidate = none) :
    s.choose = s := by
  refine State.choose_of_none ?_
  rw [State.vacated_of_free htx, State.choosable_of_free htx honline, h]

/-- With no frame driven to its end no completion goes before the choice. -/
theorem State.vacated_of_not_driven (h : s.driven = none) : s.vacated = s := by
  unfold State.vacated
  rw [h]
  cases s.handover <;> rfl

theorem State.choose_of_not_driven (h : s.driven = none) (htx : s.tx ≠ .free) : s.choose = s := by
  refine State.choose_of_none ?_
  rw [State.vacated_of_not_driven h, State.choosable_of_busy htx]

/-- With a frame driven to its end the choice is made once every block but its owner has the completion (R161). -/
theorem State.vacated_of_driven {cs : List Byte} {b : Nat} {rd orphan : Bool} (hhand : s.handover = none)
    (htx : s.tx = .sending f cs b rd orphan) (hend : 11 * cs.length ≤ b) :
    s.vacated = { sentOff s f with handover := if orphan = true then none else some f } := by
  have hdriven : s.driven = some (f, orphan) := by simp [State.driven, htx, Config.charBits, hend]
  simp only [State.vacated, hhand, hdriven, State.sent_spec]

section Vacated

variable {m : State} (hvacated : s.vacated = m) (hfree : m.tx = .free)

include hvacated hfree

/-- A choice that the vacated state would make is made. -/
theorem State.choose_of_vacated (hchoice : m.choose ≠ m) : s.choose = m.choose := by
  have hm := State.vacated_of_free hfree
  cases hc : m.choosable with
  | none => exact absurd (State.choose_of_none (hm.symm ▸ hc)) hchoice
  | some g => rw [State.choose_of_some (hvacated.symm ▸ hc), State.choose_of_some (hm.symm ▸ hc), hvacated, hm]

/-- With no choice to make there the completion waits too. -/
theorem State.choose_of_no_choice (hchoice : m.choose = m) : s.choose = s := by
  have hm := State.vacated_of_free hfree
  cases hc : m.choosable with
  | none => exact State.choose_of_none (hvacated.symm ▸ hc)
  | some g =>
    have htx := congrArg State.tx hchoice
    rw [State.choose_of_some (hm.symm ▸ hc), hfree] at htx
    cases htx

end Vacated

/-- A producer's frame leaves its entry when it is chosen. -/
theorem State.takeChoice_of_ofProducer (s : State) (h : f.ofProducer) : s.takeChoice f = s := by
  cases f with
  | data | hold => rfl
  | _ => exact h.elim

theorem State.setEntry_entry (s : State) (i : EntryIdx) : s.setEntry i (s.entry i) = s := by
  simp [State.setEntry, State.entry]

/-- The consumer entry whose frame is chosen: an owed ACK is in flight (R94). -/
def Entry.afterChoice (e : Entry) : Entry :=
  { e with cons := { e.cons with
      ack := if e.cons.ack = .owed ∧ e.state ≠ .joining then .inFlight else e.cons.ack } }

theorem State.takeChoice_of_consumer {i : EntryIdx} (h : s.consumerCandidate i = some f) :
    s.takeChoice f = s.setEntry i (s.entry i).afterChoice := by
  have hkeep : ¬((s.entry i).cons.ack = .owed ∧ (s.entry i).state ≠ .joining) →
      s.setEntry i (s.entry i).afterChoice = s := fun hnot => by
    rw [Entry.afterChoice, if_neg hnot]
    exact s.setEntry_entry i
  obtain ⟨_, ⟨hstate, _, rfl⟩ | ⟨hstate, hack, hframe⟩ | ⟨hstate, hack, rfl⟩⟩ := (s.consumerCandidate_iff i f).mp h
  · exact (hkeep fun hh => hh.2 hstate).symm
  · obtain ⟨n, _, rfl⟩ := (Entry.ackFrame_some_iff _ i f).mp hframe
    have hnot : (s.entry i).state ≠ .joining := fun hj => by simp [hj, Entry.lingers] at hstate
    rw [Entry.afterChoice, if_pos ⟨hack, hnot⟩]
    simp only [State.takeChoice, State.setCons, hack, AckFlag.chosen]
  · exact (hkeep fun hh => by simp [hack] at hh).symm

end Choice

/-- Settles O46: the class that has a candidate first; a choice ahead of a completion is the choice of the state in which the
other blocks have taken it. -/
theorem choiceTakesTheFirstClass : Obligations.ChoiceTakesTheFirstClass := by
  intro s hheld honline noReply
  rw [exec_schedulerChoice hheld]
  refine ⟨fun r rs htx hr hno => ?_, fun i f htx hno hi hbefore => ?_, fun i f htx hno hcons hi hbefore => ?_,
    fun htx hno hcons hprod => ?_, fun f g htx => ?_, fun f cs b rd orphan htx hhand => ?_⟩
  · rw [State.choose_of_candidate htx honline (State.candidate_of_reply hr hno)]
    simp only [State.takeChoice, hr]
  · refine ⟨_, rfl, ?_⟩
    rw [State.choose_of_candidate htx honline (State.candidate_of_consumer hno hi hbefore),
      State.takeChoice_of_consumer hi]
    exact ⟨rfl, fun j hj => s.entry_setEntry_of_ne _ hj, s.entry_setEntry_self i _⟩
  · obtain ⟨_, hof⟩ := (s.producerCandidate_iff_offered i f).mp hi
    rw [State.choose_of_candidate htx honline (State.candidate_of_producer hno hcons hi hbefore),
      State.takeChoice_of_ofProducer s hof]
  · rw [State.choose_of_no_candidate htx honline (State.candidate_of_none hno hcons hprod)]
  · rw [State.choose_of_not_driven (by simp [State.driven, htx]) (by simp [htx])]
  · intro m
    have hexec : exec .schedulerChoice m = .next m.choose := exec_schedulerChoice (s := m) hheld
    rw [hexec]
    refine ⟨fun hend hne => ?_, fun hend hsame => ?_, fun hshort => ?_⟩
    · have hvacated : s.vacated = m := State.vacated_of_driven hhand htx hend
      rw [State.choose_of_vacated hvacated rfl fun h => hne (congrArg _ h)]
    · have hvacated : s.vacated = m := State.vacated_of_driven hhand htx hend
      rw [State.choose_of_no_choice hvacated rfl (Host.Outcome.next.inj hsame)]
    · have hdriven : s.driven = none := by simp [State.driven, htx, Config.charBits, Nat.not_le.mpr hshort]
      rw [State.choose_of_not_driven hdriven (by simp [htx])]

/-! ## The line of the transmitter (10.1, R143) -/

theorem State.txe_iff (s : State) : s.txe = true ↔ ∃ f cs b rd o, s.tx = .sending f cs b rd o := by
  rcases h : s.tx with _ | ⟨f, g⟩ | ⟨f, cs, b, rd, o⟩
  · simp [State.txe, h]
  · simp [State.txe, h]
  · simp [State.txe, h]

/-- The eleven bit times of a character, by their number. -/
theorem charLevel_eq (mark : Bool) (d : Byte) {k : Nat} (h : k < 11) :
    charLevel mark d k = ([false] ++ (List.range 8).map (fun k => d.getLsbD k) ++ [mark, true])[k]! := by
  interval_cases k <;> rfl

theorem State.txd_of_character {s : State} {f : TxFrame} {cs : List Byte} {b : Nat} {rd o : Bool} {d : Byte}
    (htx : s.tx = .sending f cs b rd o) (hd : cs[b / 11]? = some d) :
    s.txd = ([false] ++ (List.range 8).map (fun k => d.getLsbD k) ++ [decide (b / 11 = 0), true])[b % 11]! := by
  simp only [State.txd, htx, Config.charBits, hd]
  rw [charLevel_eq _ d (Nat.mod_lt b (by decide)), beq_eq_decide]

theorem State.txd_of_silent {s : State} (h : s.txe = false) : s.txd = true := by
  rcases htx : s.tx with _ | ⟨f, g⟩ | ⟨f, cs, b, rd, o⟩
  · simp only [State.txd, htx]
  · simp only [State.txd, htx]
  · simp [State.txe, htx] at h

/-! ## The start (R144, R156) -/

section Start

variable {s : State} {f : TxFrame} {g : Bool}

/-- The grant of a chosen frame's start (R144). -/
def State.granted (s : State) (g : Bool) : Prop :=
  s.station = .online ∧ s.line = .idle ∧ (s.round = .contention ∨ g = true) ∧ s.handover = none

theorem State.startable_of_granted (htx : s.tx = .chosen f g) (h : s.granted g) : s.startable = some f := by
  unfold State.startable
  rw [htx]
  exact if_pos h

theorem State.startable_of_not_granted (htx : s.tx = .chosen f g) (h : ¬s.granted g) : s.startable = none := by
  unfold State.startable
  rw [htx]
  exact if_neg h

theorem State.transmitStart_of_none (h : s.startable = none) : s.transmitStart = s := by
  simp only [State.transmitStart, h]

/-- With nothing waiting the frame starts at once. -/
theorem State.transmitStart_of_empty (h : s.startable = some f) (hready : s.rx.ready = none) :
    s.transmitStart = s.start f := by
  simp only [State.transmitStart, h, State.flush_none hready]

/-- A frame that waits is dispatched first; the start is then that of the state it leaves. -/
theorem State.transmitStart_flush (h : s.startable = some f) : s.transmitStart = s.flush.transmitStart := by
  cases hs : s.flush.startable with
  | none => simp only [State.transmitStart, h, hs]
  | some f' =>
    rw [State.transmitStart_of_empty hs s.ready_flush]
    simp only [State.transmitStart, h, hs]

theorem State.start_eq (h : s.station = .online) (f : TxFrame) : s.start f = { s with
    tx := .sending f (frameChars (s.onLine f)) 0 (decide (s.round ≠ .contention)) false
    rx := { state := .suspended, hold := [], gap := none }
    line := .busy, lineGap := none, quiet := none, round := s.round.busied (some s.stationNo) } := by
  have hup : s.watching = true := by simp [State.watching, h]
  simp only [State.start, State.busyLine, hup, if_true]

end Start

/-- Settles O48: the levels of the transmitter, bit by bit; a start with its grant, without it, and after a dispatch. -/
theorem grantedFramesGoOnTheLine : Obligations.GrantedFramesGoOnTheLine := by
  refine ⟨fun s => ⟨s.txe_iff, fun f cs b rd o d htx hd => State.txd_of_character htx hd, State.txd_of_silent⟩,
    fun s f g hheld htx => ?_⟩
  intro granted frame
  rw [exec_transmitStart hheld]
  refine ⟨fun hgrant hready => ?_, fun hnot => ?_, fun w hgrant hw => ?_⟩
  · have ⟨honline, _⟩ := hgrant
    have hframe : s.onLine f = frame := by
      cases f with
      | data i again st q e slot len => cases slot <;> rfl
      | reply d st body => cases body <;> rfl
      | _ => rfl
    rw [State.transmitStart_of_empty (State.startable_of_granted htx hgrant) hready, State.start_eq honline, hframe]
    cases s.round <;> rfl
  · rw [State.transmitStart_of_none (State.startable_of_not_granted htx hnot)]
  · refine ⟨s.flush, ?_, ?_⟩
    · rw [exec_frameRow_of_free hheld, State.frameEvent_of_waiting hw]
    · rw [exec_transmitStart (s.held_flush.trans hheld),
        State.transmitStart_flush (State.startable_of_granted htx hgrant)]

/-! ## A collision while sending (R145, R148, R152) -/

section Collision

variable {s : State} {cause : DriveCause} {first : Bool} {f : TxFrame} {cs : List Byte} {b : Nat} {inRound orphan : Bool}

theorem positionAgrees_iff : positionAgrees first b = true ↔ (first = true → b ≤ 11) ∧ (first = false → 11 ≤ b) := by
  cases first with
  | true =>
    simp only [positionAgrees, if_true, decide_eq_true_eq, forall_const, Bool.true_eq_false, false_implies, and_true]
    rfl
  | false =>
    simp only [positionAgrees, Bool.false_eq_true, if_false, decide_eq_true_eq, forall_const, false_implies, true_and]
    rfl

theorem State.txCollision_of_misplaced (htx : s.tx = .sending f cs b inRound orphan)
    (h : ¬((first = true → b ≤ 11) ∧ (first = false → 11 ≤ b))) : s.txCollision cause first = s := by
  simp only [State.txCollision, htx, positionAgrees_iff.not.mpr h, Bool.false_eq_true, if_false]

theorem State.chosenBack_frame (s : State) (f : TxFrame) (orphan : Bool) : s.chosenBack f orphan = { s with
    entries := (s.chosenBack f orphan).entries, replies := (s.chosenBack f orphan).replies } := by
  cases orphan with
  | true => rfl
  | false => exact s.undoChoice_frame f

/-- The state after a collision, before any failure is counted. -/
def State.collided (s : State) (cause : DriveCause) (f : TxFrame) (orphan : Bool) : State :=
  { s with
    entries := (s.chosenBack f orphan).entries, replies := (s.chosenBack f orphan).replies, tx := .free
    rx := { state := .hunt, hold := [], gap := some 0 }, lineGap := some 0
    csnAsserted := s.csnAsserted || decide (cause = .csn), round := roundAfterCollision s.round }

theorem State.txCollision_eq (honline : s.station = .online) (htx : s.tx = .sending f cs b inRound orphan)
    (hrx : s.rx.state = .suspended) (h : (first = true → b ≤ 11) ∧ (first = false → 11 ≤ b)) :
    s.txCollision cause first =
      if inRound = true ∨ first = false then (s.collided cause f orphan).countFailure else s.collided cause f orphan := by
  have hback := s.chosenBack_frame f orphan
  have hstopped : (s.chosenBack f orphan).stopDriving = { s with
      entries := (s.chosenBack f orphan).entries, replies := (s.chosenBack f orphan).replies, tx := .free
      rx := { state := .hunt, hold := [], gap := some 0 }, lineGap := some 0 } := by
    have hrx' : (s.chosenBack f orphan).rx.resume = { state := .hunt, hold := [], gap := some 0 } := by
      rw [hback]
      exact if_pos hrx
    rw [State.stopDriving, hrx']
    generalize s.chosenBack f orphan = u at hback
    rw [hback]
  have hcollided : (s.chosenBack f orphan).stopDriving.collide = { s with
      entries := (s.chosenBack f orphan).entries, replies := (s.chosenBack f orphan).replies, tx := .free
      rx := { state := .hunt, hold := [], gap := some 0 }, lineGap := some 0
      round := roundAfterCollision s.round } := by
    rw [hstopped]
    exact (State.collide_spec _).1 honline
  have hcount : (inRound || !first) = true ↔ inRound = true ∨ first = false := by simp
  have hfold : (if orphan = true then s else s.undoChoice f) = s.chosenBack f orphan := rfl
  simp only [State.txCollision, htx, positionAgrees_iff.mpr h, if_true, hcount, hfold, hcollided, beq_eq_decide]
  rfl

theorem State.replies_chosenBack_of_other (h : ∀ d st body, f ≠ TxFrame.reply d st body) :
    (s.chosenBack f orphan).replies = s.replies := by
  cases orphan with
  | true => rfl
  | false =>
    cases f with
    | reply d st body => exact absurd rfl (h d st body)
    | _ => rfl

theorem State.replies_chosenBack_of_reply {d : Station} {st : StreamNo} {body : ReplyBody} {r : Reply} {rs : List Reply}
    (hr : s.replies = r :: rs) : (s.chosenBack (.reply d st body) false).replies = { r with inService := false } :: rs := by
  simp only [State.chosenBack, State.undoChoice, hr, Bool.false_eq_true, if_false]

end Collision

/-- Settles O49: what every collision does, and then the failure, if it is one, and the eighth. -/
theorem transmitCollisionUndoesAndCounts : Obligations.TransmitCollisionUndoesAndCounts := by
  intro s cause first f cs b inRound orphan hheld honline htx hrx failure agrees
  rw [exec_transmitCollision hheld]
  refine ⟨fun hnot => by rw [State.txCollision_of_misplaced htx hnot], fun hagrees => ⟨_, rfl, ?_⟩⟩
  rw [State.txCollision_eq honline htx hrx hagrees]
  have hentries : ∀ i, (s.chosenBack f orphan).entry i = (s.entry i).ackReturned s.tx i := fun i => by
    rw [htx]
    exact s.entry_chosenBack f cs b inRound orphan i
  have hother := State.replies_chosenBack_of_other (s := s) (f := f) (orphan := orphan)
  have hreply : ∀ d st body r rs, f = .reply d st body → orphan = false → s.replies = r :: rs →
      (s.chosenBack f orphan).replies = { r with inService := false } :: rs := by
    rintro d st body r rs rfl rfl hr
    exact State.replies_chosenBack_of_reply hr
  by_cases hfail : inRound = true ∨ first = false
  · rw [if_pos hfail]
    obtain ⟨hfew, hmany⟩ := (s.collided cause f orphan).countFailure_spec
    by_cases h7 : s.failCount < 7
    · rw [hfew h7]
      refine ⟨rfl, hentries, hother, hreply, fun h => absurd hfail h, fun _ _ => ⟨rfl, honline, rfl, rfl, rfl⟩,
        fun _ h => absurd h h7.ne⟩
    · rw [hmany (Nat.not_lt.mp h7)]
      refine ⟨rfl, hentries, hother, hreply, fun h => absurd hfail h, fun _ h => absurd h h7, fun _ h => ⟨?_, rfl, rfl, ?_⟩⟩
      · exact congrArg (· + 1) h
      · exact State.raise_spec _ stationItem .lineFault id
  · rw [if_neg hfail]
    exact ⟨rfl, hentries, hother, hreply, fun _ => ⟨rfl, honline, rfl, rfl, rfl⟩, fun h => absurd h hfail,
      fun h => absurd h hfail⟩

end Sys2Proof.Machine
end

section
/-! PROOFS. The line: its events, the slots of a round and the pins of RXD and CSN (R124, R142 to R151, R167): O45. -/

namespace Sys2Proof.Machine

/- One after another: many theorems elaborated at once take a thread each. -/
set_option Elab.async false

open Sys2Proof.Safety

/-! ## Pins -/

/-- A change on a pin, taken with nothing else to do and nothing queued, leads where its operation leads. -/
theorem onPin_of_free {s t : State} {e : PinEvent} (hnow : s.held = true ∨ s.atOnce = none) (hqueue : s.pending = [])
    (hp : ∀ rest, State.pinEvent { s with pins := rest } e = { t with pins := rest }) : onPin s t e :=
  onPin_of s t e hnow fun rest => by
    rw [← hp rest, ← hqueue]

/-! ## LINE_BUSY (R142, R149, R167) -/

section Busy

variable {s : State}

theorem State.watching_iff (s : State) : s.watching = true ↔ s.station ≠ .offline := by simp [State.watching]

/-- The line made BUSY where it is watched. -/
theorem State.busyLine_of_up (h : s.station ≠ .offline) (source : Option Station) : s.busyLine source = { s with
    line := .busy, lineGap := none, quiet := none, tx := grantLost s.tx, round := s.round.busied source } := by
  simp only [State.busyLine, (State.watching_iff s).mpr h, if_true, Tx.ungrant_eq]

theorem State.busyLine_of_offline (h : s.station = .offline) (source : Option Station) : s.busyLine source = s :=
  (s.busyLine_spec source).2 h

/-- CSN asserted makes a character in progress a collision seen (R125). -/
def Receiver.csnInCharacter (r : Receiver) : Receiver :=
  { r with char := { r.char with csn := r.char.csn || decide (r.char.bits ≠ none) } }

theorem Receiver.csnInCharacter_of_idle {r : Receiver} (h : r.char.bits = none) : r.csnInCharacter = r := by
  rw [Receiver.csnInCharacter, decide_eq_false (not_not_intro h), Bool.or_false]

theorem Receiver.csnInCharacter_eq (r : Receiver) :
    { r with char := { r.char with csn := r.char.csn || r.char.bits.isSome } } = r.csnInCharacter := by
  rw [Receiver.csnInCharacter]
  cases r.char.bits <;> rfl

theorem State.lineBusied_csn_of_up (h : s.station ≠ .offline) : s.lineBusied .csn = { s with
    line := .busy, quiet := none, tx := grantLost s.tx, round := s.round.busied none, csnAsserted := true
    rx := s.rx.csnInCharacter
    lineGap := if s.line = .idle then some 0 else if s.lineGap = none then none else some 0 } := by
  have hgap : (if s.watching = true ∧ (s.line = .idle ∨ s.lineGap.isSome = true) then some 0 else s.lineGap)
      = if s.line = .idle then some 0 else if s.lineGap = none then none else some 0 := by
    have hup := (State.watching_iff s).mpr h
    by_cases hidle : s.line = .idle
    · simp [hup, hidle]
    · cases s.lineGap <;> simp [hup, hidle]
  simp only [State.lineBusied, State.busyLine_of_up h, hgap, Receiver.csnInCharacter_eq]

theorem State.lineBusied_csn_of_offline (h : s.station = .offline) : s.lineBusied .csn =
    { s with csnAsserted := true, rx := s.rx.csnInCharacter } := by
  have hgap : (if s.watching = true ∧ (s.line = .idle ∨ s.lineGap.isSome = true) then some 0 else s.lineGap)
      = s.lineGap := if_neg fun hh => (State.watching_iff s).mp hh.1 h
  simp only [State.lineBusied, State.busyLine_of_offline h, hgap, Receiver.csnInCharacter_eq]

theorem State.lineBusied_ownStart_of_sending {f : TxFrame} {cs : List Byte} {b : Nat} {rd o : Bool}
    (htx : s.tx = .sending f cs b rd o) : s.lineBusied .ownStart = s.busyLine (some s.stationNo) := by
  simp only [State.lineBusied, htx]

theorem State.lineBusied_ownStart_of_offline (h : s.station = .offline) : s.lineBusied .ownStart = s := by
  simp only [State.lineBusied, State.busyLine_of_offline h]
  split <;> rfl

end Busy

/-! ## The slots of a round (R144, R149 to R151) -/

/-- A slot with r of them to go starts, and grants a chosen frame if it is this station's; with none to go the round ends. -/
def SlotFrom (s t : State) (o : Station) (r : Nat) (k : BitVec 5) : Prop :=
  (r = 0 → t.round = .contention ∧ t.tx = grantLost s.tx)
  ∧ (0 < r → t.round = .slot o r k 0 ∧ (∀ f g, s.tx = .chosen f g → t.tx = .chosen f (o + k == s.stationNo))
      ∧ ((∀ f g, s.tx ≠ Tx.chosen f g) → t.tx = s.tx))

section Slots

variable {s : State}

theorem slotFrom_startSlot (s : State) (o : Station) {r : Nat} (k : BitVec 5) (h : 0 < r) :
    SlotFrom s (s.startSlot o r k) o r k := by
  obtain ⟨hchosen, hother⟩ := s.startSlot_spec o r k
  refine ⟨fun h0 => absurd h0 h.ne', fun _ => ⟨rfl, fun f g htx => ?_, fun hno => ?_⟩⟩
  · rw [hchosen f g htx]
  · rw [hother hno]

theorem slotFrom_nextSlot (s : State) (o : Station) (r : Nat) (k : BitVec 5) :
    SlotFrom s (s.nextSlot o r k) o (r - 1) k := by
  obtain ⟨hlast, hmore⟩ := s.nextSlot_spec o r k
  by_cases h : 1 < r
  · rw [hmore h]
    exact slotFrom_startSlot s o k (Nat.sub_pos_of_lt h)
  · rw [hlast (Nat.not_lt.mp h)]
    exact ⟨fun _ => ⟨rfl, Tx.ungrant_eq _⟩, fun hpos => absurd (Nat.lt_of_sub_pos hpos) h⟩

theorem State.startSlot_frame (s : State) (o : Station) (r : Nat) (k : BitVec 5) :
    s.startSlot o r k = { s with round := (s.startSlot o r k).round, tx := (s.startSlot o r k).tx } := rfl

theorem State.roundIdle_of_contention (h : s.round = .contention) : s.roundIdle = s := by
  simp only [State.roundIdle, h]

theorem State.roundIdle_of_gap {o : Station} {r : Nat} (h : s.round = .gap o r) : s.roundIdle = s.startSlot o r 0 := by
  simp only [State.roundIdle, h]

theorem State.roundIdle_of_busy {o : Station} {r : Nat} {k : BitVec 5} {source : Option Station}
    (h : s.round = .busy o r k source) : s.roundIdle = s.nextSlot o r (resumeAt o k source) := by
  simp only [State.roundIdle, h]

theorem State.slotEnded_of_done {o : Station} {r el : Nat} {k : BitVec 5} (h : s.round = .slot o r k el) (hel : 22 ≤ el)
    (htx : ∀ f, s.tx ≠ Tx.chosen f true) : s.slotEnded = s.nextSlot o r (k + 1) := by
  unfold State.slotEnded
  split
  · next f _ hf => exact absurd hf (htx f)
  · next hround _ =>
    cases h.symm.trans hround
    exact if_pos hel
  · next hno _ => exact absurd h (hno o r k el)

theorem State.slotEnded_of_running {o : Station} {r el : Nat} {k : BitVec 5} (h : s.round = .slot o r k el) (hel : el < 22) :
    s.slotEnded = s := by
  unfold State.slotEnded
  split
  · rfl
  · next hround _ =>
    cases h.symm.trans hround
    exact if_neg (Nat.not_le.mpr hel)
  · rfl

theorem State.slotEnded_of_none (h : ∀ o r k el, s.round ≠ .slot o r k el) : s.slotEnded = s := by
  unfold State.slotEnded
  split
  · rfl
  · next hround _ => exact absurd hround (h _ _ _ _)
  · rfl

/-- What the idle gap does to the round (R144, R150). -/
theorem roundIdle_cases (s : State) :
    (s.round = .contention → s.roundIdle.round = .contention ∧ s.roundIdle.tx = s.tx)
    ∧ (∀ o r, s.round = .gap o r → 0 < r → SlotFrom s s.roundIdle o r 0)
    ∧ (∀ o r k, s.round = .busy o r k none → SlotFrom s s.roundIdle o (r - 1) (k + 1))
    ∧ (∀ o r k n, s.round = .busy o r k (some n) → SlotFrom s s.roundIdle o (r - 1) (n + 1 - o)) := by
  refine ⟨fun hr => ?_, fun o r hr hpos => ?_, fun o r k hr => ?_, fun o r k n hr => ?_⟩
  · rw [State.roundIdle_of_contention hr]
    exact ⟨hr, rfl⟩
  · rw [State.roundIdle_of_gap hr]
    exact slotFrom_startSlot s o 0 hpos
  · rw [State.roundIdle_of_busy hr]
    exact slotFrom_nextSlot s o r _
  · rw [State.roundIdle_of_busy hr]
    exact slotFrom_nextSlot s o r _

end Slots

/-! ## LINE_IDLE (R142, R167) -/

section Idle

variable {s : State}

theorem State.gapPassed_iff (s : State) :
    s.gapPassed = true ↔ s.lineGap = some 33 ∧ s.csnAsserted = false ∧ s.rxdLow = false := by
  simp [State.gapPassed, Config.idleGapBits, and_assoc]

theorem State.lineIdled_of_not (h : ¬(s.watching = true ∧ s.line = .busy ∧ s.gapPassed = true)) : s.lineIdled = s := by
  unfold State.lineIdled
  split
  · rfl
  · exact if_neg h

theorem State.lineIdled_of_passed (hno : ¬∃ f cs b rd o, s.tx = .sending f cs b rd o) (h : s.station ≠ .offline)
    (hbusy : s.line = .busy) (hgap : s.gapPassed = true) : s.lineIdled =
      if s.station = .listening then { s with line := .idle, lineGap := none, quiet := some 704 }
      else State.roundIdle { s with line := .idle, lineGap := none } := by
  unfold State.lineIdled
  split
  · next htx => exact absurd ⟨_, _, _, _, _, htx⟩ hno
  · exact if_pos ⟨(State.watching_iff s).mpr h, hbusy, hgap⟩

end Idle

/-! ## The pins of the line -/

section Pins

variable {s : State}

theorem State.csnRow_of_sending {f : TxFrame} {cs : List Byte} {b : Nat} {rd o : Bool} (htx : s.tx = .sending f cs b rd o) :
    s.csnRow = .transmitCollision .csn (decide (b < 11)) := by
  simp only [State.csnRow, htx]
  rfl

theorem State.csnRow_of_silent (h : ¬∃ f cs b rd o, s.tx = .sending f cs b rd o) : s.csnRow = .lineBusy .csn := by
  unfold State.csnRow
  split
  · next htx => exact absurd ⟨_, _, _, _, _, htx⟩ h
  · rfl

theorem State.csnAsserts_of_high (hcsn : s.csnAsserted = false) (hheld : s.held = false) (hqueue : s.pending = []) :
    s.csnAsserts = { s with csnAsserted := true, pending := [s.csnRow] } := by
  simp only [State.csnAsserts, hcsn, hheld, Bool.false_eq_true, if_false, State.enqueue, hqueue, List.nil_append]

/-- When a fall of RXD is taken as a start bit (R124). -/
def State.startsCharacter (s : State) : Prop :=
  s.rxdSteady = true ∧ s.rx.state ≠ .off ∧ s.rx.state ≠ .suspended ∧ s.rx.char.bits = none

theorem State.starts_eq (s : State) :
    (s.rxdSteady && s.rx.char.bits.isNone && s.rx.state != .off && s.rx.state != .suspended) = true
      ↔ s.startsCharacter := by
  simp only [Bool.and_eq_true, Option.isNone_iff_eq_none, bne_iff_ne, State.startsCharacter]
  tauto

theorem State.rxdFalls_of_start (h : s.rxdLow = false) (hstart : s.startsCharacter) : s.rxdFalls = { s with
    rxdLow := true, rxdSteady := false, rx := { s.rx with char := { s.rx.char with start := true } } } := by
  simp only [State.rxdFalls, h, Bool.false_eq_true, if_false, s.starts_eq.mpr hstart, Bool.or_true]

theorem State.rxdFalls_of_no_start (h : s.rxdLow = false) (hno : ¬s.startsCharacter) :
    s.rxdFalls = { s with rxdLow := true, rxdSteady := false } := by
  simp only [State.rxdFalls, h, Bool.false_eq_true, if_false, Bool.eq_false_iff.mpr (mt s.starts_eq.mp hno), Bool.or_false]

end Pins

/-- Settles O45: the pins, the events of a watched line, those of an OFFLINE station, and the end of a slot. -/
theorem lineEventsDriveSlotsAndQuietTimer : Obligations.LineEventsDriveSlotsAndQuietTimer := by
  intro s hheld busied slotFrom sending passed anew inCharacter
  rw [exec_lineBusy hheld, exec_lineBusy hheld, exec_lineBusy hheld, exec_lineIdle hheld, exec_slotEnd hheld]
  refine ⟨fun hnow hqueue => ?_, fun hup => ?_, fun hoff => ?_, fun o r k el hround hel htx => ?_,
    fun o r k el hround hel => ?_, fun hno => ?_⟩
  · intro free
    have hp {t : State} {e : PinEvent} := onPin_of_free (s := s) (t := t) (e := e) (.inr hnow) hqueue
    refine ⟨hp fun rest => rfl, fun hcsn => hp fun rest => ?_, fun hcsn hsilent => hp fun rest => ?_,
      fun f cs b rd o hcsn htx => hp fun rest => ?_, hp fun rest => rfl, fun hlow => hp fun rest => ?_,
      fun hhigh hsteady hfree => hp fun rest => ?_, fun hhigh hnot => hp fun rest => ?_⟩
    · exact if_pos hcsn
    · have hrow := State.csnRow_of_silent hsilent
      rw [← hrow]
      exact State.csnAsserts_of_high (s := { s with pins := rest }) hcsn hheld hqueue
    · have hrow := State.csnRow_of_sending htx
      rw [← hrow]
      exact State.csnAsserts_of_high (s := { s with pins := rest }) hcsn hheld hqueue
    · exact if_pos hlow
    · exact State.rxdFalls_of_start (s := { s with pins := rest }) hhigh ⟨hsteady, hfree⟩
    · exact State.rxdFalls_of_no_start (s := { s with pins := rest }) hhigh hnot
  · have hbusied source : busied source = s.busyLine source := by
      rw [State.busyLine_of_up hup]
      simp only [busied]
      cases s.round <;> rfl
    refine ⟨⟨_, rfl, ?_⟩, ?_, fun hsending => ?_, fun hsilent hbusy hpassed hlistening => ?_,
      fun hsilent hbusy hpassed hnot => ?_, fun hnot => ?_⟩
    · rw [hbusied]
      simp only [State.lineBusied, State.busyLine_of_up hup]
    · rw [hbusied, State.busyLine_of_up hup, State.lineBusied_csn_of_up hup]
      rfl
    · obtain ⟨f, cs, b, rd, o, htx⟩ := hsending
      rw [State.lineBusied_ownStart_of_sending htx, hbusied]
    · rw [State.lineIdled_of_passed hsilent hup hbusy ((State.gapPassed_iff s).mpr hpassed), if_pos hlistening]
    · rw [State.lineIdled_of_passed hsilent hup hbusy ((State.gapPassed_iff s).mpr hpassed), if_neg hnot]
      exact ⟨_, rfl, State.roundIdle_frame _, roundIdle_cases { s with line := .idle, lineGap := none }⟩
    · rw [State.lineIdled_of_not fun h => hnot ((State.gapPassed_iff s).mp h.2.2)]
  · refine ⟨fun hrx => ?_, ?_, fun hbits => ?_, ?_, ?_⟩
    · simp only [State.lineBusied, State.busyLine_of_offline hoff, hrx, true_or, if_true]
    · rw [State.lineBusied_csn_of_offline hoff]
      rfl
    · rw [State.lineBusied_csn_of_offline hoff, Receiver.csnInCharacter_of_idle hbits]
    · rw [State.lineBusied_ownStart_of_offline hoff]
    · rw [State.lineIdled_of_not fun h => (State.watching_iff s).mp h.1 hoff]
  · refine ⟨_, rfl, ?_⟩
    rw [State.slotEnded_of_done hround hel htx]
    exact ⟨s.nextSlot_frame _ _ _, slotFrom_nextSlot s o r (k + 1)⟩
  · rw [State.slotEnded_of_running hround hel]
  · rw [State.slotEnded_of_none hno]

end Sys2Proof.Machine
end

section
/-! PROOFS. Characters, collisions seen and the idle gap at the receiver (R124 to R137, R148): O42, O44. -/

namespace Sys2Proof.Machine

/- One after another: many theorems elaborated at once take a thread each. -/
set_option Elab.async false

open Sys2Proof.Safety

/-! ## The line effects of a character -/

/-- Line activity in a round whose source is told at the end of the activity's first character (R149, R150). -/
def Round.heard (source : Option Station) : Round → Round
  | .slot o r k _ => .busy o r k source
  | .busy o r k none => .busy o r k source
  | w => w

theorem Round.heard_contention (source : Option Station) : Round.contention.heard source = .contention := rfl

theorem roundAfterCollision_heard (w : Round) : roundAfterCollision (w.heard none) = roundAfterCollision w := by
  rcases w with _ | _ | _ | ⟨o, r, k, _ | n⟩ <;> rfl

section Line

variable {s : State}

/-- A character ended on a watched line. -/
theorem State.characterEnds_of_up (h : s.station ≠ .offline) (source : Option Station) : s.characterEnds source = { s with
    rx := { s.rx with gap := some 0, char := {} }, line := .busy, lineGap := some 0, quiet := none
    tx := grantLost s.tx, round := s.round.heard source } := by
  obtain ⟨⟨hline, hgap, hquiet, htx, hround⟩, hrx⟩ := s.characterEnds_spec source h
  have hheard : (s.characterEnds source).round = s.round.heard source := by
    rw [hround]
    rcases s.round with _ | _ | _ | ⟨o, r, k, _ | n⟩ <;> rfl
  rw [s.characterEnds_frame source, hline, hgap, hquiet, htx, hheard, hrx]

/-- A good character heard: what becomes of the line, and what stays. -/
def Heard (s t : State) (source : Option Station) : Prop :=
  lineHeard s t source
  ∧ t = { s with rx := t.rx, line := t.line, lineGap := t.lineGap, csnAsserted := false, rxdLow := false,
                 quiet := t.quiet, round := t.round, tx := t.tx }

theorem heard_goodCharacter (h : s.station ≠ .offline) (source : Option Station) (r : Receiver) :
    Heard s { s.goodCharacter source with rx := r } source := by
  refine ⟨(s.characterEnds_spec source h).1, ?_⟩
  rw [State.goodCharacter, State.characterEnds_of_up h]

theorem State.goodCharacter_rx (h : s.station ≠ .offline) (source : Option Station) :
    (s.goodCharacter source).rx = { s.rx with gap := some 0, char := {} } := (s.characterEnds_spec source h).2

/-- The levels of RXD and the assembly of a character, as a collision seen from a cause leaves them (R124, R125, R142). -/
def levelsAfter (s : State) (cause : SeenCause) (low steady : Bool) (c : Assembler) : Prop :=
  (cause = .framingError → low = true ∧ steady = false
    ∧ c = { start := false, bits := none, csn := false, awaitStop := true })
  ∧ (cause = .csn → low = s.rxdLow ∧ steady = s.rxdSteady ∧ c = {})

theorem State.badCharacter_of_up (h : s.station ≠ .offline) (cause : SeenCause) : ∃ c low steady,
    s.badCharacter cause = { s with
      rx := { s.rx with gap := some 0, char := c }, line := .busy, lineGap := some 0, rxdLow := low, rxdSteady := steady
      quiet := none, tx := grantLost s.tx, round := s.round.heard none }
    ∧ levelsAfter s cause low steady c := by
  simp only [State.badCharacter, State.characterEnds_of_up h]
  cases cause with
  | framingError => exact ⟨_, true, false, rfl, fun _ => ⟨rfl, rfl, rfl⟩, nofun⟩
  | csn => exact ⟨_, _, _, rfl, nofun, fun _ => ⟨rfl, rfl, rfl⟩⟩

end Line

/-! ## A frame that waits is dispatched first -/

section Waiting

variable {s : State}

theorem State.flush_rx (s : State) : s.flush.rx = { s.rx with hold := s.flush.rx.hold } := by
  unfold State.flush
  split
  · rw [State.dispatch_rx]
  · rfl

theorem State.awaitStop_flush (s : State) : s.flush.rx.char.awaitStop = s.rx.char.awaitStop := by rw [State.flush_rx]

theorem State.flush_flush (s : State) : s.flush.flush = s.flush := State.flush_none s.ready_flush

theorem State.marked_of_taking (h : s.rx.taking = true) (d : Byte) : s.marked d =
    if charMalformed (kindOf d) 0 d then (s.flush.goodCharacter (some (srcOf d))).rxTo .skipping
    else { s.flush.goodCharacter (some (srcOf d)) with
      rx := { (s.flush.goodCharacter (some (srcOf d))).rx with state := .assembling, hold := [d] } } := if_pos h

theorem State.unmarked_of_assembling (h : s.rx.state = .assembling) (d : Byte) :
    s.unmarked d = (s.goodCharacter none).store d := if_pos h

theorem State.unmarked_of_taking (h : s.rx.taking = true) (hno : s.rx.state ≠ .assembling) (d : Byte) :
    s.unmarked d = s.flush.goodCharacter none := by
  rw [State.unmarked, if_neg hno, if_pos h]

/-- The receiver's state does not move with a dispatch. -/
theorem State.state_flush (s : State) : s.flush.rx.state = s.rx.state := by rw [State.flush_rx]

theorem State.marked_flush (h : s.rx.taking = true) (d : Byte) : s.flush.marked d = s.marked d := by
  rw [State.marked_of_taking h, State.marked_of_taking (s.taking_flush.trans h), State.flush_flush]

theorem State.unmarked_flush (h : s.rx.taking = true) (hno : s.rx.state ≠ .assembling) (d : Byte) :
    s.flush.unmarked d = s.unmarked d := by
  rw [State.unmarked_of_taking h hno, State.unmarked_of_taking (s.taking_flush.trans h) (s.state_flush ▸ hno),
    State.flush_flush]

theorem State.not_taking_of (h : s.rx.state = .sync ∨ s.rx.state = .off ∨ s.rx.state = .suspended) :
    s.rx.taking = false := by
  rcases h with h | h | h <;> simp [Receiver.taking, h]

theorem State.collisionSeen_again {cause : SeenCause} (h : s.rx.char.awaitStop = true ∧ cause = .framingError) :
    s.collisionSeen cause = s := if_pos h

theorem State.collisionSeen_of_taking {cause : SeenCause} (h : s.rx.taking = true)
    (hnew : ¬(s.rx.char.awaitStop = true ∧ cause = .framingError)) :
    s.collisionSeen cause = ((s.flush.badCharacter cause).rxTo .hunt).collide := by
  rw [State.collisionSeen, if_neg hnew, if_pos h]

theorem State.collisionSeen_flush {cause : SeenCause} (h : s.rx.taking = true)
    (hnew : ¬(s.rx.char.awaitStop = true ∧ cause = .framingError)) :
    s.flush.collisionSeen cause = s.collisionSeen cause := by
  rw [State.collisionSeen_of_taking h hnew, State.collisionSeen_of_taking (s.taking_flush.trans h)
    (s.awaitStop_flush ▸ hnew), State.flush_flush]

theorem State.collisionSeen_of_sync {cause : SeenCause} (h : s.rx.state = .sync)
    (hnew : ¬(s.rx.char.awaitStop = true ∧ cause = .framingError)) : s.collisionSeen cause = s.badCharacter cause := by
  rw [State.collisionSeen, if_neg hnew, if_neg (by rw [State.not_taking_of (.inl h)]; decide), if_pos h]

theorem State.collisionSeen_of_deaf {cause : SeenCause} (h : s.rx.state = .off ∨ s.rx.state = .suspended) :
    s.collisionSeen cause = s := by
  rw [State.collisionSeen, State.not_taking_of (.inr h)]
  rcases h with h | h <;> simp [h]

end Waiting

/-! ## O44 -/

/-- A collision taken by the line access controller, as the round stands after it (R148). -/
theorem State.collide_eq (s : State) : s.collide =
    { s with round := if s.station = .online then roundAfterCollision s.round else s.round
             tx := if s.station = .online then s.tx.ungrant else s.tx } := by
  by_cases h : s.station = .online
  · simp only [s.collide_spec.1 h, h, if_true]
  · simp only [s.collide_spec.2 h, h, if_false]

theorem grantLost_grantLost (t : Tx) : grantLost (grantLost t) = grantLost t := by cases t <;> rfl

/-- Settles O44: a second framing error, a frame that waits, a receiver that takes characters, SYNC, and a deaf receiver. -/
theorem collisionSeenMovesTheRound : Obligations.CollisionSeenMovesTheRound := by
  intro s cause hheld again levels
  have hrow {t : State} (ht : t.held = false) := exec_collisionSeen ht cause
  rw [hrow hheld]
  refine ⟨fun hagain => ?_, fun w hready hnew => ?_, fun hup hready htaking hnew => ?_, fun hup hsync hround hnew => ?_,
    fun hdeaf => ?_⟩
  · rw [State.collisionSeen_again hagain]
  · obtain ⟨_, htaking⟩ := Receiver.taking_of_ready hready
    refine ⟨s.flush, ?_, ?_⟩
    · rw [exec_frameRow_of_free hheld, State.frameEvent_of_waiting hready]
    · rw [hrow (s.held_flush.trans hheld), State.collisionSeen_flush htaking hnew]
  · refine ⟨_, rfl, ?_⟩
    rw [State.collisionSeen_of_taking htaking hnew, State.flush_none hready]
    obtain ⟨c, low, steady, hbad, hlevels⟩ := State.badCharacter_of_up hup cause
    rw [hbad, State.collide_eq]
    refine ⟨?_, hlevels, rfl, fun hon => ?_, fun hoff hround => ?_⟩
    · simp only [State.rxTo, Tx.ungrant_eq, grantLost_grantLost, ite_self]
    · exact (if_pos hon).trans (roundAfterCollision_heard _)
    · refine (if_neg hoff).trans ?_
      simp only [State.rxTo, hround, Round.heard_contention]
  · refine ⟨_, rfl, ?_⟩
    rw [State.collisionSeen_of_sync hsync hnew]
    obtain ⟨c, low, steady, hbad, hlevels⟩ := State.badCharacter_of_up hup cause
    rw [hbad, hround]
    exact ⟨rfl, hlevels⟩
  · rw [State.collisionSeen_of_deaf hdeaf]

end Sys2Proof.Machine
end

section
/-! PROOFS. The checks on a frame's characters (R129 to R135) and the characters at the receiver: O42. -/

namespace Sys2Proof.Machine

/- One after another: many theorems elaborated at once take a thread each. -/
set_option Elab.async false

open Sys2Proof.Safety

/-! ## The fields of a character -/

theorem kindOf_toNat (d : Byte) : (kindOf d).toNat = d.toNat / 32 := by
  have hbound := d.isLt
  simp only [kindOf, BitVec.extractLsb'_toNat, Nat.shiftRight_eq_div_pow]
  omega

theorem srcOf_eq (d : Byte) : srcOf d = d.setWidth 5 := rfl

theorem streamOf_toNat (d : Byte) : (streamOf d).toNat = d.toNat % 64 := by
  simp only [streamOf, BitVec.toNat_setWidth]

theorem destChar_toNat (n : Station) : (destChar n).toNat = n.toNat := by
  have hbound := n.isLt
  simp only [destChar, BitVec.toNat_setWidth]
  omega

theorem reserved_iff (d : Byte) : d.getLsbD 7 = true ↔ 128 ≤ d.toNat := by
  have hbound := d.isLt
  rw [BitVec.getLsbD, Nat.testBit_eq_decide_div_mod_eq, decide_eq_true_eq]
  omega

theorem endFlag_iff (d : Byte) (h : d.toNat < 128) : d.getLsbD 6 = true ↔ 64 ≤ d.toNat := by
  rw [BitVec.getLsbD, Nat.testBit_eq_decide_div_mod_eq, decide_eq_true_eq]
  omega

theorem reasonOf_none_iff (d : Byte) : reasonOf d = none ↔ d.toNat = 0 ∨ 4 < d.toNat := by
  unfold reasonOf
  split_ifs <;> simp only [false_iff, true_iff] <;> bv_omega

/-! ## R131 to R135 -/

theorem charMalformed_first (d : Byte) : charMalformed (kindOf d) 0 d = decide (d.toNat / 32 = 0) := by
  rw [charMalformed, kindOf_toNat]
  rfl

/-- R131, position by position; past the fifth character nothing is checked. -/
theorem charMalformed_iff (kind : BitVec 3) {pos : Nat} (hpos : pos ≠ 0) (d : Byte) :
    charMalformed kind pos d = true ↔ malformedAt kind.toNat pos d := by
  have hkind := kind.isLt
  unfold charMalformed malformedAt
  generalize kind.toNat = k at hkind
  match pos, hpos with
  | 1, _ =>
    simp only [Bool.or_eq_true, Bool.and_eq_true, bne_iff_ne, reserved_iff]
    by_cases hbig : 128 ≤ d.toNat
    · simp [hbig]
    · simp only [endFlag_iff d (Nat.not_le.mp hbig)]
      simp
  | 2, _ => interval_cases k <;> simp
  | 3, _ => interval_cases k <;> simp [reasonOf_none_iff]
  | 4, _ => interval_cases k <;> simp
  | n + 5, _ => simp

/-- R132 and R133, position by position. -/
theorem charOfNoInterest_iff (s : State) (kind : BitVec 3) {pos : Nat} (hpos : pos ≠ 0) (d : Byte) :
    charOfNoInterest s.holdsStream s.stationNo kind pos d = true ↔ foreignAt s kind.toNat pos d := by
  have hheld : (!s.holdsStream (streamOf d)) = true
      ↔ ∀ j, (s.entry j).state = .free ∨ (s.entry j).stream.toNat ≠ d.toNat % 64 := by
    simp only [State.holdsStream, Bool.not_eq_true', Option.isSome_eq_false_iff, Option.isNone_iff_eq_none,
      State.entryOf_none, ← streamOf_toNat, ne_eq, BitVec.toNat_inj]
  have hdest : (d != destChar s.stationNo) = true ↔ d.toNat ≠ s.stationNo.toNat := by
    rw [bne_iff_ne, ne_eq, ← BitVec.toNat_inj, destChar_toNat]
  have hkind := kind.isLt
  unfold charOfNoInterest foreignAt
  generalize kind.toNat = k at hkind
  match pos, hpos with
  | 1, _ =>
    by_cases hk : k = 1
    · subst hk
      simp only [hheld]
      simp
    · interval_cases k <;> simp at hk ⊢
  | 2, _ => interval_cases k <;> simp [hdest]
  | n + 3, _ => simp

/-- R129 and R127: a frame's length, and whether it is all there. -/
theorem frameLength_iff (first : Byte) (more : List Byte) :
    frameLength (first :: more) = some (first :: more).length ↔ frameWhole (first.toNat / 32) (first :: more) := by
  have hkind : first.toNat / 32 < 8 := Nat.div_lt_of_lt_mul first.isLt
  simp only [frameLength, frameWhole, kindOf_toNat]
  generalize first.toNat / 32 = k at hkind
  generalize (first :: more)[3]? = len
  generalize (first :: more).length = l
  interval_cases k <;> simp [eq_comm]

/-- R134: the two characters of a CRC, high character first. -/
theorem crc_halves (v : BitVec 16) (high low : Byte) :
    high ++ low = v ↔ high = v.extractLsb' 8 8 ∧ low = v.extractLsb' 0 8 := by
  constructor
  · rintro rfl
    exact ⟨(BitVec.extractLsb'_append_eq_left ..).symm, (BitVec.extractLsb'_append_eq_right ..).symm⟩
  · rintro ⟨rfl, rfl⟩
    exact (BitVec.extractLsb'_append_extractLsb'_eq_extractLsb' rfl).trans BitVec.extractLsb'_eq_self

theorem crcPasses_iff (chars : List Byte) : crcPasses chars = true ↔ crcAgrees chars := by
  simp only [crcPasses, beq_iff_eq, withCrc, crcAgrees]
  constructor
  · intro h
    exact ⟨_, _, _, h, (crc_halves _ _ _).mpr ⟨rfl, rfl⟩⟩
  · rintro ⟨body, high, low, rfl, hcrc⟩
    obtain ⟨rfl, rfl⟩ := (crc_halves _ _ _).mp hcrc
    simp

/-! ## A character in ASSEMBLING -/

section Store

variable {s : State} {first : Byte} {more : List Byte}

/-- A character that makes a frame malformed or of no interest drops it. -/
def Dropped (s : State) (kind pos : Nat) (d : Byte) : Prop := malformedAt kind pos d ∨ foreignAt s kind pos d

theorem dropped_iff (h : s.rx.hold = first :: more) (d : Byte) :
    (charMalformed (kindOf first) s.rx.hold.length d
      || charOfNoInterest s.holdsStream s.stationNo (kindOf first) s.rx.hold.length d) = true
    ↔ Dropped s (first.toNat / 32) s.rx.hold.length d := by
  have hpos : s.rx.hold.length ≠ 0 := by simp [h]
  rw [Bool.or_eq_true, charMalformed_iff _ hpos, charOfNoInterest_iff _ _ hpos, kindOf_toNat, Dropped]

theorem State.store_of_dropped (h : s.rx.hold = first :: more) {d : Byte}
    (hd : Dropped s (first.toNat / 32) s.rx.hold.length d) : s.store d = s.rxTo .skipping := by
  have hdrop := (dropped_iff h d).mpr hd
  simp only [State.store]
  rw [h] at hdrop ⊢
  exact if_pos hdrop

theorem State.store_of_kept (h : s.rx.hold = first :: more) {d : Byte}
    (hd : ¬Dropped s (first.toNat / 32) s.rx.hold.length d) : s.store d =
      if frameLength (s.rx.hold ++ [d]) = some (s.rx.hold ++ [d]).length then
        { s with rx := { s.rx with state := .hunt, hold := if crcPasses (s.rx.hold ++ [d]) then s.rx.hold ++ [d] else [] } }
      else { s with rx := { s.rx with hold := s.rx.hold ++ [d] } } := by
  have hkept := mt (dropped_iff h d).mp hd
  simp only [State.store]
  refine if_neg ?_
  rw [h] at hkept ⊢
  exact hkept

theorem whole_iff (h : s.rx.hold = first :: more) (d : Byte) :
    frameLength (s.rx.hold ++ [d]) = some (s.rx.hold ++ [d]).length
      ↔ frameWhole (first.toNat / 32) (s.rx.hold ++ [d]) := by
  rw [h]
  exact frameLength_iff first (more ++ [d])

end Store

theorem dropped_goodCharacter {s : State} (h : s.station ≠ .offline) (kind pos : Nat) (d : Byte) :
    Dropped (s.goodCharacter none) kind pos d = Dropped s kind pos d := by
  rw [State.goodCharacter, State.characterEnds_of_up h]
  rfl

/-- What the receiver holds after a character in ASSEMBLING, by R127, R131 to R133 and R135. -/
theorem State.store_spec {s : State} {first : Byte} {more : List Byte} (h : s.rx.hold = first :: more) (d : Byte) :
    let chars := s.rx.hold ++ [d]
    let dropped := Dropped s (first.toNat / 32) s.rx.hold.length d
    (dropped → (s.store d).rx = { s.rx with state := .skipping, hold := [] })
    ∧ (¬dropped → ¬frameWhole (first.toNat / 32) chars → (s.store d).rx = { s.rx with hold := chars })
    ∧ (¬dropped → frameWhole (first.toNat / 32) chars → crcAgrees chars →
        (s.store d).rx = { s.rx with state := .hunt, hold := chars })
    ∧ (¬dropped → frameWhole (first.toNat / 32) chars → ¬crcAgrees chars →
        (s.store d).rx = { s.rx with state := .hunt, hold := [] }) := by
  refine ⟨fun hd => ?_, fun hd hw => ?_, fun hd hw hcrc => ?_, fun hd hw hcrc => ?_⟩
  · rw [State.store_of_dropped h hd, State.rxTo]
  · rw [State.store_of_kept h hd, if_neg (mt (whole_iff h d).mp hw)]
  · rw [State.store_of_kept h hd, if_pos ((whole_iff h d).mpr hw), if_pos ((crcPasses_iff _).mpr hcrc)]
  · rw [State.store_of_kept h hd, if_pos ((whole_iff h d).mpr hw), if_neg (mt (crcPasses_iff _).mp hcrc)]

/-- A character stored: the line effects of a good character, and the receiver by `State.store_spec`. -/
theorem heard_unmarked_of_assembling {s : State} (hup : s.station ≠ .offline) (hst : s.rx.state = .assembling) (d : Byte) :
    Heard s (s.unmarked d) none := by
  rw [State.unmarked_of_assembling hst, State.store_frame]
  exact heard_goodCharacter hup none _

/-- The receiver after a character in ASSEMBLING. -/
theorem State.unmarked_spec {s : State} {first : Byte} {more : List Byte} (hup : s.station ≠ .offline)
    (hst : s.rx.state = .assembling) (hhold : s.rx.hold = first :: more) (d : Byte) :
    let chars := s.rx.hold ++ [d]
    let dropped := Dropped s (first.toNat / 32) s.rx.hold.length d
    (dropped → (s.unmarked d).rx = { state := .skipping, hold := [], gap := some 0 })
    ∧ (¬dropped → ¬frameWhole (first.toNat / 32) chars →
        (s.unmarked d).rx = { state := .assembling, hold := chars, gap := some 0 })
    ∧ (¬dropped → frameWhole (first.toNat / 32) chars → crcAgrees chars →
        (s.unmarked d).rx = { state := .hunt, hold := chars, gap := some 0 })
    ∧ (¬dropped → frameWhole (first.toNat / 32) chars → ¬crcAgrees chars →
        (s.unmarked d).rx = { state := .hunt, hold := [], gap := some 0 }) := by
  have hrx := State.goodCharacter_rx hup none
  have hspec := State.store_spec (s := s.goodCharacter none) (by rw [hrx]; exact hhold) d
  rw [State.unmarked_of_assembling hst]
  simp only [hrx, dropped_goodCharacter hup, hst] at hspec
  exact hspec

/-! ## The idle gap at the receiver -/

section Gap

variable {s : State}

theorem State.receiverGap_of_early (h : s.rx.gap ≠ some 33) : s.receiverGap = s := if_neg h

theorem State.receiverGap_of_frame (h : s.rx.gap = some 33)
    (hst : s.rx.state = .assembling ∨ s.rx.state = .skipping ∨ s.rx.state = .sync) : s.receiverGap = s.rxTo .hunt := by
  refine (if_pos h).trans ?_
  rcases hst with hst | hst | hst <;> rw [hst]

theorem State.receiverGap_of_hunt (h : s.rx.gap = some 33) (hst : s.rx.state = .hunt) : s.receiverGap = s.flush := by
  refine (if_pos h).trans ?_
  rw [hst]

theorem State.receiverGap_of_deaf (hst : s.rx.state = .off ∨ s.rx.state = .suspended) : s.receiverGap = s := by
  unfold State.receiverGap
  rcases hst with hst | hst <;> simp [hst]

end Gap

/-! ## O42 -/

section Marked

variable {s : State}

theorem State.marked_of_sync (h : s.rx.state = .sync) (d : Byte) : s.marked d = s.goodCharacter none := by
  rw [State.marked, if_neg (by rw [State.not_taking_of (.inl h)]; decide), if_pos h]

theorem State.unmarked_of_sync (h : s.rx.state = .sync) (d : Byte) : s.unmarked d = s.goodCharacter none := by
  rw [State.unmarked, if_neg (by rw [h]; decide), if_neg (by rw [State.not_taking_of (.inl h)]; decide), if_pos h]

theorem State.marked_of_deaf (h : s.rx.state = .off ∨ s.rx.state = .suspended) (d : Byte) : s.marked d = s := by
  rw [State.marked, State.not_taking_of (.inr h)]
  rcases h with h | h <;> simp [h]

theorem State.unmarked_of_deaf (h : s.rx.state = .off ∨ s.rx.state = .suspended) (d : Byte) : s.unmarked d = s := by
  rw [State.unmarked, State.not_taking_of (.inr h)]
  rcases h with h | h <;> simp [h]

/-- A marked character begins a frame, or a skip for kind 0 (R127, R131). -/
theorem State.marked_spec (hup : s.station ≠ .offline) (hready : s.rx.ready = none) (htaking : s.rx.taking = true)
    (d : Byte) : Heard s (s.marked d) (some (d.setWidth 5))
    ∧ (s.marked d).rx = if d.toNat / 32 = 0 then { state := .skipping, hold := [], gap := some 0, char := {} }
        else { state := .assembling, hold := [d], gap := some 0, char := {} } := by
  rw [State.marked_of_taking htaking, State.flush_none hready, charMalformed_first, srcOf_eq]
  by_cases hkind : d.toNat / 32 = 0
  · simp only [hkind, decide_true, if_true, State.rxTo, State.goodCharacter_rx hup]
    exact ⟨heard_goodCharacter hup _ _, trivial⟩
  · simp only [hkind, decide_false, Bool.false_eq_true, if_false, State.goodCharacter_rx hup]
    exact ⟨heard_goodCharacter hup _ _, trivial⟩

theorem heard_goodCharacter_none (hup : s.station ≠ .offline) : Heard s (s.goodCharacter none) none :=
  heard_goodCharacter hup none (s.goodCharacter none).rx

end Marked

/-- Settles O42: the frame that waits, a marked character, an unmarked one by the receiver's state, and the idle gap. -/
theorem charactersMoveTheReceiver : Obligations.CharactersMoveTheReceiver := by
  intro s d hheld heard
  rw [exec_markedCharacter hheld, exec_unmarkedCharacter hheld, exec_receiverIdleGap hheld]
  refine ⟨fun w hready => ?_, fun hup hready htaking => ⟨_, rfl, State.marked_spec hup hready htaking d⟩,
    fun hup hready hst => ?_, fun first more hup hst hhold => ?_, fun hup hst => ?_, fun hdeaf => ?_, fun hgap hst => ?_,
    fun hready hst => ?_, fun hgap => ?_⟩
  · obtain ⟨hhunt, htaking⟩ := Receiver.taking_of_ready hready
    have hfree := s.held_flush.trans hheld
    refine ⟨s.flush, ?_, ?_, ?_, fun hgap => ?_⟩
    · rw [exec_frameRow_of_free hheld, State.frameEvent_of_waiting hready]
    · rw [exec_markedCharacter hfree, State.marked_flush htaking]
    · rw [exec_unmarkedCharacter hfree, State.unmarked_flush htaking (by rw [hhunt]; decide)]
    · rw [State.receiverGap_of_hunt hgap hhunt]
  · refine ⟨_, rfl, ?_⟩
    have htaking : s.rx.taking = true := by rcases hst with h | h <;> simp [Receiver.taking, h]
    have hno : s.rx.state ≠ .assembling := by rcases hst with h | h <;> simp [h]
    rw [State.unmarked_of_taking htaking hno, State.flush_none hready]
    exact ⟨heard_goodCharacter_none hup, State.goodCharacter_rx hup none⟩
  · intro chars kind dropped
    exact ⟨_, rfl, heard_unmarked_of_assembling hup hst d, State.unmarked_spec hup hst hhold d⟩
  · have hsync := State.goodCharacter_rx hup none
    exact ⟨_, rfl, by rw [State.marked_of_sync hst, State.unmarked_of_sync hst], 
      State.marked_of_sync hst d ▸ heard_goodCharacter_none hup, by rw [State.marked_of_sync hst, hsync]⟩
  · rw [State.marked_of_deaf hdeaf, State.unmarked_of_deaf hdeaf]
    exact ⟨rfl, rfl⟩
  · rw [State.receiverGap_of_frame hgap hst, State.rxTo]
  · rcases hst with hst | hst
    · by_cases hgap : s.rx.gap = some 33
      · rw [State.receiverGap_of_hunt hgap hst, State.flush_none hready]
      · rw [State.receiverGap_of_early hgap]
    · rw [State.receiverGap_of_deaf hst]
  · rw [State.receiverGap_of_early hgap]

end Sys2Proof.Machine
end

section
/-! PROOFS. A whole frame on the line is read back as it was sent (R127 to R135, 10.2): O43. -/

namespace Sys2Proof.Machine

/- One after another: many theorems elaborated at once take a thread each. -/
set_option Elab.async false

open Sys2Proof.Safety

/-! ## The fields of a frame's characters -/

theorem kindOf_firstChar (k : BitVec 3) (src : Station) : kindOf (firstChar k src) = k := by
  revert k src
  decide

theorem srcOf_firstChar (k : BitVec 3) (src : Station) : srcOf (firstChar k src) = src := by
  revert k src
  decide

theorem streamOf_streamChar (e : Bool) (st : StreamNo) : streamOf (streamChar e st) = st := by
  revert e st
  decide

theorem streamChar_endFlag (e : Bool) (st : StreamNo) : (streamChar e st).getLsbD 6 = e := by
  revert e st
  decide

theorem streamChar_toNat (e : Bool) (st : StreamNo) : (streamChar e st).toNat = e.toNat * 64 + st.toNat := by
  revert e st
  decide

theorem destOf_destChar (d : Station) : (destChar d).setWidth 5 = d := by
  revert d
  decide

theorem reasonOf_reasonCode (r : Reason) : reasonOf (reasonCode r) = some r := by cases r <;> rfl

theorem reasonCode_toNat (r : Reason) : 1 ≤ (reasonCode r).toNat ∧ (reasonCode r).toNat ≤ 4 := by cases r <;> decide

theorem byte_toNat {n : Nat} (h : n ≤ 64) : (BitVec.ofNat 8 n).toNat = n := by
  rw [BitVec.toNat_ofNat, Nat.mod_eq_of_lt (by omega)]

/-! ## The ranges of a frame's fields (R131) -/

section Ranges

variable {src d : Station} {st : StreamNo} {q : Seq} {e : Bool} {payload : List Byte} {k p : Nat}

theorem wf_data (h : (Frame.data src st q e payload).wf = true) : payload.length ≤ 64 := of_decide_eq_true h

theorem wf_ack (h : (Frame.ack src st d q k).wf = true) : k ≤ 4 := of_decide_eq_true h

theorem wf_join (h : (Frame.join src st k p).wf = true) : k ≤ 4 ∧ 1 ≤ p ∧ p ≤ 64 := by
  obtain ⟨hk, hp⟩ := Bool.and_eq_true_iff.mp h
  exact ⟨of_decide_eq_true hk, of_decide_eq_true hp⟩

theorem wf_accept (h : (Frame.accept src st d q p).wf = true) : 1 ≤ p ∧ p ≤ 64 := of_decide_eq_true h

end Ranges

/-- The kind code of a frame (10.2). -/
def frameKind : Frame → BitVec 3
  | .data .. => 1
  | .hold .. => 2
  | .ack .. => 3
  | .join .. => 4
  | .accept .. => 5
  | .refuse .. => 6
  | .leave .. => 7

theorem frameKind_ne_zero (f : Frame) : (frameKind f).toNat ≠ 0 := by cases f <;> exact nofun

theorem frameBody_eq_cons (f : Frame) : ∃ src rest, frameBody f = firstChar (frameKind f) src :: rest := by
  cases f <;> exact ⟨_, _, rfl⟩

/-! ## Reading a frame back -/

/-- The fields are read from where R129 and R130 place them. -/
theorem parseFrame_frameBody {f : Frame} (h : f.wf = true) (crc : List Byte) : parseFrame (frameBody f ++ crc) = some f := by
  cases f with
  | data src st q e payload =>
    have hlen : payload.length ≤ 64 := wf_data h
    have hend := streamChar_endFlag e st
    simp [parseFrame, frameBody, kindOf_firstChar, srcOf_firstChar, streamOf_streamChar, 
      Nat.mod_eq_of_lt (show payload.length < 256 by omega)]
    exact hend
  | hold src st next => simp [parseFrame, frameBody, kindOf_firstChar, srcOf_firstChar, streamOf_streamChar]
  | ack src st d a k =>
    have hk : k ≤ 4 := wf_ack h
    simp [parseFrame, frameBody, kindOf_firstChar, srcOf_firstChar, streamOf_streamChar, destOf_destChar]
    omega
  | join src st k p =>
    have hk : k ≤ 4 ∧ 1 ≤ p ∧ p ≤ 64 := wf_join h
    simp [parseFrame, frameBody, kindOf_firstChar, srcOf_firstChar, streamOf_streamChar]
    omega
  | accept src st d a p =>
    have hp : 1 ≤ p ∧ p ≤ 64 := wf_accept h
    simp [parseFrame, frameBody, kindOf_firstChar, srcOf_firstChar, streamOf_streamChar, destOf_destChar]
    omega
  | refuse src st d r =>
    simp [parseFrame, frameBody, kindOf_firstChar, srcOf_firstChar, streamOf_streamChar, destOf_destChar,
      reasonOf_reasonCode]
  | leave src st => simp [parseFrame, frameBody, kindOf_firstChar, srcOf_firstChar, streamOf_streamChar]

/-! ## No character of it drops it -/

/-- A frame that concerns the station: addressed here, or DATA of a stream that some entry holds (R132, R133). -/
def concerns (s : State) (f : Frame) : Prop :=
  (∀ d, frameDest? f = some d → d = s.stationNo)
  ∧ (∀ n st q fin payload, f = .data n st q fin payload → ∃ j, (s.entry j).state ≠ .free ∧ (s.entry j).stream = frameStream f)

theorem plain_streamChar {st : StreamNo} (h : 128 ≤ (streamChar false st).toNat ∨ 64 ≤ (streamChar false st).toNat) :
    False := by
  have hst := st.isLt
  rw [streamChar_toNat, Bool.toNat_false] at h
  omega

theorem destChar_lt {d : Station} (h : 31 < (destChar d).toNat) : False := by
  have hd := d.isLt
  rw [destChar_toNat] at h
  omega

theorem streamChar_lt (e : Bool) (st : StreamNo) : (streamChar e st).toNat < 128 := by
  have hst := st.isLt
  have he := e.toNat_le
  rw [streamChar_toNat]
  omega

theorem not_dropped {s : State} {f : Frame} (hwf : f.wf = true) (hf : concerns s f) (high low : Byte) {pos : Nat} {c : Byte}
    (hc : (frameBody f ++ [high, low])[pos]? = some c) : ¬Dropped s (frameKind f).toNat pos c := by
  intro hdrop
  obtain ⟨hdest, hstream⟩ := hf
  cases f with
  | data src st q e payload =>
    have hlen := wf_data hwf
    simp [Dropped, malformedAt, foreignAt, frameKind] at hdrop
    rcases hdrop with (⟨rfl, hbig⟩ | ⟨rfl, hbig⟩) | ⟨rfl, hfree⟩
    · obtain rfl : streamChar e st = c := Option.some.inj hc
      exact absurd (streamChar_lt e st) (Nat.not_lt.mpr hbig)
    · obtain rfl : BitVec.ofNat 8 payload.length = c := Option.some.inj hc
      rw [byte_toNat hlen] at hbig
      exact absurd hlen (Nat.not_le.mpr hbig)
    · obtain rfl : streamChar e st = c := Option.some.inj hc
      obtain ⟨j, hlive, hj⟩ := hstream _ _ _ _ _ rfl
      refine (hfree j).elim hlive fun hne => hne ?_
      rw [hj, ← streamOf_toNat, streamOf_streamChar]
      rfl
  | hold src st next =>
    simp [Dropped, malformedAt, foreignAt, frameKind] at hdrop
    obtain ⟨rfl, hbig⟩ := hdrop
    obtain rfl : streamChar false st = c := Option.some.inj hc
    exact plain_streamChar hbig
  | ack src st d a k =>
    have hk := wf_ack hwf
    simp [Dropped, malformedAt, foreignAt, frameKind] at hdrop
    rcases hdrop with (⟨rfl, hbig⟩ | ⟨rfl, hbig⟩ | ⟨rfl, hbig⟩) | ⟨rfl, hne⟩
    · obtain rfl : streamChar false st = c := Option.some.inj hc
      exact plain_streamChar hbig
    · obtain rfl : destChar d = c := Option.some.inj hc
      exact destChar_lt hbig
    · obtain rfl : BitVec.ofNat 8 k = c := Option.some.inj hc
      rw [byte_toNat (hk.trans (by decide))] at hbig
      omega
    · obtain rfl : destChar d = c := Option.some.inj hc
      exact hne (by rw [destChar_toNat, hdest d rfl])
  | join src st k p =>
    obtain ⟨hk, hp⟩ := wf_join hwf
    simp [Dropped, malformedAt, foreignAt, frameKind] at hdrop
    rcases hdrop with ⟨rfl, hbig⟩ | ⟨rfl, hbig⟩ | ⟨rfl, hbig⟩
    · obtain rfl : streamChar false st = c := Option.some.inj hc
      exact plain_streamChar hbig
    · obtain rfl : BitVec.ofNat 8 k = c := Option.some.inj hc
      rw [byte_toNat (hk.trans (by decide))] at hbig
      omega
    · obtain rfl : BitVec.ofNat 8 p = c := Option.some.inj hc
      rw [byte_toNat hp.2] at hbig
      omega
  | accept src st d a p =>
    obtain ⟨hp, hp'⟩ := wf_accept hwf
    simp [Dropped, malformedAt, foreignAt, frameKind] at hdrop
    rcases hdrop with (⟨rfl, hbig⟩ | ⟨rfl, hbig⟩ | ⟨rfl, hbig⟩) | ⟨rfl, hne⟩
    · obtain rfl : streamChar false st = c := Option.some.inj hc
      exact plain_streamChar hbig
    · obtain rfl : destChar d = c := Option.some.inj hc
      exact destChar_lt hbig
    · obtain rfl : BitVec.ofNat 8 p = c := Option.some.inj hc
      rw [byte_toNat hp'] at hbig
      omega
    · obtain rfl : destChar d = c := Option.some.inj hc
      exact hne (by rw [destChar_toNat, hdest d rfl])
  | refuse src st d r =>
    obtain ⟨hr, hr'⟩ := reasonCode_toNat r
    simp [Dropped, malformedAt, foreignAt, frameKind] at hdrop
    rcases hdrop with (⟨rfl, hbig⟩ | ⟨rfl, hbig⟩ | ⟨rfl, hbig⟩) | ⟨rfl, hne⟩
    · obtain rfl : streamChar false st = c := Option.some.inj hc
      exact plain_streamChar hbig
    · obtain rfl : destChar d = c := Option.some.inj hc
      exact destChar_lt hbig
    · obtain rfl : reasonCode r = c := Option.some.inj hc
      omega
    · obtain rfl : destChar d = c := Option.some.inj hc
      exact hne (by rw [destChar_toNat, hdest d rfl])
  | leave src st =>
    simp [Dropped, malformedAt, foreignAt, frameKind] at hdrop
    obtain ⟨rfl, hbig⟩ := hdrop
    obtain rfl : streamChar false st = c := Option.some.inj hc
    exact plain_streamChar hbig

/-! ## It is whole with its last character and not before -/

theorem frameWhole_take {f : Frame} (hwf : f.wf = true) (high low : Byte) {n : Nat}
    (hn : n ≤ (frameBody f ++ [high, low]).length) :
    frameWhole (frameKind f).toNat ((frameBody f ++ [high, low]).take n) ↔ n = (frameBody f ++ [high, low]).length := by
  have htake := List.length_take_of_le hn
  generalize hpre : (frameBody f ++ [high, low]).take n = pre at htake
  cases f with
  | data src st q e payload =>
    have hlen := wf_data hwf
    have htotal : (frameBody (.data src st q e payload) ++ [high, low]).length = 6 + payload.length := by
      simp [frameBody]
      omega
    have hwhole : frameWhole (frameKind (.data src st q e payload)).toNat pre
        ↔ ∃ len, pre[3]? = some len ∧ pre.length = 6 + len.toNat := by
      simp [frameWhole, frameKind]
    rw [hwhole, htake, htotal]
    by_cases hshort : n ≤ 3
    · rw [List.getElem?_eq_none (by omega)]
      exact ⟨nofun, fun h => by omega⟩
    · have hchar : pre[3]? = some (BitVec.ofNat 8 payload.length) := by
        rw [← hpre, List.getElem?_take_of_lt (by omega)]
        rfl
      simp only [hchar, Option.some.injEq, exists_eq_left', byte_toNat hlen]
  | hold => simp [frameBody] at hn ⊢; simp [frameWhole, frameKind, htake]
  | ack => simp [frameBody] at hn ⊢; simp [frameWhole, frameKind, htake]
  | join => simp [frameBody] at hn ⊢; simp [frameWhole, frameKind, htake]
  | accept => simp [frameBody] at hn ⊢; simp [frameWhole, frameKind, htake]
  | refuse => simp [frameBody] at hn ⊢; simp [frameWhole, frameKind, htake]
  | leave => simp [frameBody] at hn ⊢; simp [frameWhole, frameKind, htake]

/-! ## Its CRC -/

theorem crcAgrees_frameBody (f : Frame) (high low : Byte) :
    crcAgrees (frameBody f ++ [high, low]) ↔ frameBody f ++ [high, low] = frameChars f := by
  rw [← crcPasses_iff]
  simp [crcPasses, frameChars]

/-! ## The run of its characters -/

/-- Nothing but the receiver and the line has changed, and the line stands at its stop levels. -/
def Received (s t : State) : Prop :=
  t = { s with rx := t.rx, line := t.line, lineGap := t.lineGap, csnAsserted := false, rxdLow := false,
               quiet := t.quiet, round := t.round, tx := t.tx }

section Received

variable {s t u : State}

theorem Received.trans (h : Received s t) (h' : Received t u) : Received s u := by
  unfold Received at h'
  rw [h] at h'
  exact h'

theorem Received.held (h : Received s t) : t.held = s.held := by
  rw [h]
  rfl

theorem Received.station (h : Received s t) : t.station = s.station := by rw [h]

theorem Received.dropped (h : Received s t) (kind pos : Nat) (d : Byte) : Dropped t kind pos d = Dropped s kind pos d := by
  rw [h]
  rfl

end Received

/-- The rest of a frame, none of whose characters drops it and which is whole with its last character alone: the CRC decides
what the receiver holds at its end. -/
theorem after_rest {first : Byte} {chars : List Byte}
    (hwhole : ∀ n, n ≠ 0 → n ≤ chars.length → (frameWhole (first.toNat / 32) (chars.take n) ↔ n = chars.length)) :
    ∀ (post : List Byte) {s : State} {more : List Byte}, chars = first :: more ++ post → post ≠ [] →
    s.held = false → s.station ≠ .offline →
    (∀ pos c, chars[pos]? = some c → ¬Dropped s (first.toNat / 32) pos c) →
    s.rx = { state := .assembling, hold := first :: more, gap := some 0 } →
    ∃ t, after (post.map Instr.unmarkedCharacter) s = some t ∧ Received s t
      ∧ (crcAgrees chars → t.rx = { state := .hunt, hold := chars, gap := some 0 })
      ∧ (¬crcAgrees chars → t.rx = { state := .hunt, hold := [], gap := some 0 })
  | [], _, _, _, hne, _, _, _, _ => absurd rfl hne
  | d :: post, s, more, hchars, _, hheld, hup, hkept, hrx => by
    have hst : s.rx.state = .assembling := by rw [hrx]
    have hhold : s.rx.hold = first :: more := by rw [hrx]
    have hlength : chars.length = more.length + 1 + (post.length + 1) := by simp [hchars]; omega
    have htake : chars.take (more.length + 2) = first :: more ++ [d] := by simp [hchars, List.take_append]
    have hd : chars[(first :: more).length]? = some d := by simp [hchars]
    have hheard : Received s (s.unmarked d) := (heard_unmarked_of_assembling hup hst d).2
    obtain ⟨_, hgoesOn, hagrees, hdiffers⟩ := State.unmarked_spec hup hst hhold d
    have hnot := hkept _ _ hd
    have hlast := hwhole (more.length + 2) (by omega) (by omega)
    rw [hhold] at hgoesOn hagrees hdiffers
    rw [htake] at hlast
    rw [List.map_cons, after_cons_of_next (exec_unmarkedCharacter hheld d)]
    cases post with
    | nil =>
      have hall : first :: more ++ [d] = chars := hchars.symm
      have hw := hlast.mpr (by simp [hlength])
      rw [hall] at hagrees hdiffers hw
      exact ⟨_, rfl, hheard, hagrees hnot hw, hdiffers hnot hw⟩
    | cons e post =>
      have hrx' := hgoesOn hnot (mt hlast.mp (by rw [hlength, List.length_cons]; omega))
      obtain ⟨t, hafter, ht, hend⟩ := after_rest hwhole (e :: post) (more := more ++ [d])
        (by simp [hchars]) (by simp) (hheard.held.trans hheld) (hheard.station ▸ hup)
        (fun pos c hc => hheard.dropped _ _ _ ▸ hkept pos c hc) hrx'
      exact ⟨t, hafter, hheard.trans ht, hend⟩

/-- Every frame that concerns the station, with any last two characters: the CRC decides. -/
theorem after_characters {s : State} {f : Frame} (hheld : s.held = false) (hup : s.station ≠ .offline)
    (htaking : s.rx.taking = true) (hready : s.rx.ready = none) (hwf : f.wf = true) (hf : concerns s f) (high low : Byte) :
    ∃ t, after (charactersOf (frameBody f ++ [high, low])) s = some t ∧ Received s t
      ∧ (frameBody f ++ [high, low] = frameChars f → t.rx = { state := .hunt, hold := frameChars f, gap := some 0 })
      ∧ (frameBody f ++ [high, low] ≠ frameChars f → t.rx = { state := .hunt, hold := [], gap := some 0 }) := by
  obtain ⟨src, rest, hbody⟩ := frameBody_eq_cons f
  have hkind : (firstChar (frameKind f) src).toNat / 32 = (frameKind f).toNat := by rw [← kindOf_toNat, kindOf_firstChar]
  obtain ⟨⟨_, hmarked⟩, hrx⟩ := State.marked_spec hup hready htaking (firstChar (frameKind f) src)
  have hreceived : Received s (s.marked (firstChar (frameKind f) src)) := hmarked
  rw [hkind, if_neg (frameKind_ne_zero f)] at hrx
  have hrun := after_rest (first := firstChar (frameKind f) src) (chars := frameBody f ++ [high, low])
    (fun n _ hn => hkind ▸ frameWhole_take hwf high low hn) (rest ++ [high, low]) (more := [])
    (by rw [hbody]; rfl) (by simp) (hreceived.held.trans hheld) (hreceived.station ▸ hup)
    (fun pos c hc => by rw [hreceived.dropped, hkind]; exact not_dropped hwf hf high low hc) hrx
  obtain ⟨t, hafter, ht, hagrees, hdiffers⟩ := hrun
  refine ⟨t, ?_, hreceived.trans ht, fun hcrc => ?_, fun hcrc => ?_⟩
  · rw [hbody, List.cons_append, charactersOf, after_cons_of_next (exec_markedCharacter hheld _)]
    exact hafter
  · rw [hagrees ((crcAgrees_frameBody f high low).mpr hcrc), hcrc]
  · exact hdiffers (mt (crcAgrees_frameBody f high low).mp hcrc)

/-- Settles O43, by induction over the frame's characters. -/
theorem wholeFramesAreReadBackAsSent : Obligations.WholeFramesAreReadBackAsSent := by
  intro s f hheld hup htaking hready hwf hdest hstream
  have hrun := after_characters hheld hup htaking hready hwf ⟨hdest, hstream⟩
  refine ⟨?_, fun high low hne => ?_⟩
  · obtain ⟨t, hafter, ht, hagrees, _⟩ := hrun ((crc (frameBody f)).extractLsb' 8 8) ((crc (frameBody f)).extractLsb' 0 8)
    have hrx := hagrees rfl
    refine ⟨t, hafter, hrx, ?_, ht⟩
    rw [hrx, Receiver.ready, if_pos rfl]
    exact parseFrame_frameBody hwf _
  · obtain ⟨t, hafter, ht, _, hdiffers⟩ := hrun high low
    have hrx := hdiffers hne
    exact ⟨t, hafter, hrx, hrx ▸ Receiver.ready_empty _ _ _, ht⟩

end Sys2Proof.Machine
end

section
/-! PROOFS. The station held in reset, and every kind of reset (R174, R177 to R181): O4, O5. -/

namespace Sys2Proof.Machine

/- One after another: many theorems elaborated at once take a thread each. -/
set_option Elab.async false

open Sys2Proof.Safety

/-! ## Held in reset -/

theorem State.held_iff_power (s : State) : s.held = true ↔ s.rstnLow = true ∨ s.power = .held ∨ s.power = .clearing := by
  rw [State.held_iff]
  cases s.power <;> simp

section Miso

variable {s : State}

theorem State.miso_of_highZ (h : s.rstnLow = true ∨ s.power = .held ∨ s.port.ssnLow = false) : s.miso = none := by
  refine if_pos ?_
  rcases h with h | h | h <;> simp [State.misoHighZ, h]

theorem State.misoHighZ_of_driven (hrstn : s.rstnLow = false) (hpower : s.power ≠ .held) (hssn : s.port.ssnLow = true) :
    s.misoHighZ = false := by
  simp [State.misoHighZ, hrstn, hpower, hssn]

/-- MISO in a framing that is not taken (R180, R181). -/
theorem State.miso_of_idle (hrstn : s.rstnLow = false) (hpower : s.power ≠ .held) (hssn : s.port.ssnLow = true)
    (hphase : s.port.phase = .idle) : s.miso = some (s.port.untaken.miso s.misoDraws) := by
  simp only [State.miso, State.misoHighZ_of_driven hrstn hpower hssn, hphase, Bool.false_eq_true, if_false]

theorem Untaken.miso_of_not_shifting {u : Untaken} (h : u ≠ .answer true) (draws : Nat) : u.miso draws = false := by
  unfold Untaken.miso
  split
  · exact absurd rfl h
  · rfl

end Miso

section HeldPins

variable {s : State}

theorem State.heldSckFalls_of_answer {shifting : Bool} (hssn : s.port.ssnLow = true) (h : s.port.untaken = .answer shifting) :
    s.heldSckFalls = { s with port := { s.port with untaken := .answer true }, misoDraws := s.misoDraws + 1 } := by
  simp only [State.heldSckFalls, hssn, if_true, State.untakenFalls, h]

theorem State.untakenFalls_of_no_answer (h : ∀ shifting, s.port.untaken ≠ .answer shifting) : s.untakenFalls = s := by
  unfold State.untakenFalls
  split
  · next hu => exact absurd hu (h _)
  · rfl

theorem State.csnAsserts_of_held (hheld : s.held = true) : s.csnAsserts = { s with csnAsserted := true } := by
  unfold State.csnAsserts
  split
  · next hcsn => rw [← hcsn]
  · rfl

end HeldPins

/-- Settles O4: what holds the station, MISO, and each event and pin while it is held. -/
theorem nothingTakenWhileHeldInReset : Obligations.NothingTakenWhileHeldInReset := by
  intro s
  refine ⟨s.held_iff_power, fun h => State.miso_of_highZ (h.imp_right .inl), fun hrstn hpower hssn hphase hno => ?_,
    fun hheld => ⟨fun c hc => exec_of_held hheld hc, fun hqueue => ?_⟩⟩
  · rw [State.miso_of_idle hrstn (by rw [hpower]; decide) hssn hphase, Untaken.miso_of_not_shifting hno]
  · have hp {t : State} {e : PinEvent} := onPin_of_free (s := s) (t := t) (e := e) (.inl hheld) hqueue
    refine ⟨fun hhigh => ⟨hp fun rest => ?_, fun mosi => hp fun rest => ?_, hp fun rest => ?_⟩, fun hlow =>
      ⟨hp fun rest => ?_, fun mosi v hv => hp fun rest => ?_, fun shifting hu => hp fun rest => ?_,
        fun hno => hp fun rest => ?_⟩, fun sa rs => hp fun rest => ?_, hp fun rest => ?_⟩
    · exact (if_pos hheld).trans (if_neg (by rw [hhigh]; decide))
    · exact (if_pos hheld).trans (if_neg (by rw [hhigh]; decide))
    · exact (if_pos hheld).trans (if_neg (by rw [hhigh]; decide))
    · exact (if_pos hheld).trans (if_pos hlow)
    · rw [← Untaken.clocked_of_next hv]
      exact (if_pos hheld).trans (if_pos hlow)
    · exact (if_pos hheld).trans (State.heldSckFalls_of_answer (s := { s with pins := rest }) hlow hu)
    · exact (if_pos hheld).trans ((if_pos hlow).trans (State.untakenFalls_of_no_answer (s := { s with pins := rest }) hno))
    · exact if_pos hheld
    · exact State.csnAsserts_of_held (s := { s with pins := rest }) hheld

/-! ## The resets -/

/-- The reset values speak of the port, whose level on SSN and whose untaken framing they leave open, and not of the supply. -/
theorem resetValues_port {t : State} (h : resetValues t) {p : Port} (hp : p = { ssnLow := p.ssnLow, untaken := p.untaken })
    (supply : Power) : resetValues { t with port := p, power := supply } := by
  obtain ⟨entries, pool, items, notices, rx, line, round, fails, tx, handover, replies, consumer, producer, station, params,
    quiet, _⟩ := h
  exact ⟨entries, pool, items, notices, rx, line, round, fails, tx, handover, replies, consumer, producer, station, params,
    quiet, hp⟩

/-- RESET, whose SSN rise has ended its framing. -/
theorem exec_reset_of_right {s : State} (h : s.held = false) (sa : Station) (rs : RateCode) :
    exec (.reset [] false sa rs) s = .next { s.resetTo s.mem sa rs false with port := {} } := exec_reset h [] false sa rs

theorem exec_rstnRelease_of_low {s : State} (h : s.rstnLow = true) (sa : Station) (rs : RateCode) :
    exec (.rstnRelease sa rs) s = .next (s.resetTo s.mem sa rs false) := congrArg Host.Outcome.next (if_pos h)

theorem exec_rstnRelease_of_high {s : State} (h : s.rstnLow = false) (sa : Station) (rs : RateCode) :
    exec (.rstnRelease sa rs) s = .next s := congrArg Host.Outcome.next (if_neg (by rw [h]; decide))

/-- Settles O5: each kind of reset is `State.resetTo` with its memory, straps and levels. -/
theorem resetsLeaveTheResetValues : Obligations.ResetsLeaveTheResetValues := by
  intro s sa rs stands framing sampled cleared
  have hframing mem n r low : framing (s.resetTo mem n r low) := ⟨rfl, s.port.asUntaken_spec⟩
  have hstands mem n r low : stands (s.resetTo mem n r low) := ⟨rfl, rfl, rfl, rfl, rfl, rfl⟩
  have hvalues mem n r low supply : resetValues { s.resetTo mem n r low with power := supply } :=
    resetValues_port (s.resetTo_spec mem n r low) rfl supply
  refine ⟨⟨{ s.resetTo [] sa rs s.rstnLow with power := .on }, rfl, ?_⟩, fun hheld =>
    ⟨_, exec_reset_of_right hheld sa rs, ?_⟩, ⟨s.resetTo s.mem s.stationNo s.rate true, rfl, ?_⟩, fun hlow =>
    ⟨_, exec_rstnRelease_of_low hlow sa rs, ?_⟩, fun hhigh => exec_rstnRelease_of_high hhigh sa rs, fun hnow hqueue => ?_⟩
  · exact ⟨hvalues [] sa rs _ _, hstands [] sa rs s.rstnLow, ⟨rfl, rfl⟩, fun _ => rfl, rfl, rfl, hframing [] sa rs s.rstnLow⟩
  · obtain ⟨_, hpower⟩ := s.free_iff.mp hheld
    exact ⟨resetValues_port (s.resetTo_spec s.mem sa rs false) (p := {}) rfl s.power, hstands s.mem sa rs false, ⟨rfl, rfl⟩,
      rfl, rfl, hpower, rfl, rfl⟩
  · exact ⟨s.resetTo_spec _ _ _ _, hstands _ _ _ _, rfl, rfl, rfl, hframing _ _ _ _⟩
  · exact ⟨s.resetTo_spec _ _ _ _, hstands _ _ _ _, ⟨rfl, rfl⟩, rfl, rfl, rfl, hframing _ _ _ _⟩
  · have hp {t : State} {e : PinEvent} := onPin_of_free (s := s) (t := t) (e := e) hnow hqueue
    refine ⟨⟨{ s.resetTo s.mem s.stationNo s.rate s.rstnLow with power := .held }, hp fun rest => rfl, ?_⟩, fun hpower =>
      ⟨{ s.resetTo [] sa rs s.rstnLow with power := .clearing }, hp fun rest => if_pos hpower, ?_⟩, fun hpower =>
      hp fun rest => if_pos hpower, fun hpower => hp fun rest => if_neg hpower, fun hpower => hp fun rest => if_neg hpower⟩
    · exact ⟨hvalues s.mem s.stationNo s.rate s.rstnLow _, hstands s.mem s.stationNo s.rate s.rstnLow, rfl, rfl, rfl,
        hframing s.mem s.stationNo s.rate s.rstnLow, rfl, rfl, State.miso_of_highZ (.inr (.inl rfl)), rfl⟩
    · exact ⟨hvalues [] sa rs s.rstnLow _, hstands [] sa rs s.rstnLow, ⟨rfl, rfl⟩, fun _ => rfl, rfl, rfl,
        hframing [] sa rs s.rstnLow⟩

end Sys2Proof.Machine
end

section
/-! PROOFS. The host port edge by edge (R180 to R188), and the framings that carry no command or the wrong length
(R182 to R184): O13. -/

namespace Sys2Proof.Machine

/- One after another: many theorems elaborated at once take a thread each. -/
set_option Elab.async false

open Sys2Proof.Safety

/-! ## The command codes -/

/-- The read-type codes with parameters (10.3). -/
theorem readRow_of_parameters {b : Byte} (h : b ∈ [0x13#8, 0x14#8, 0x15#8, 0x16#8]) :
    readRow b [] = none ∧ (readParameterBytes b).isSome = true := by
  simp only [List.mem_cons, List.not_mem_nil, or_false] at h
  rcases h with rfl | rfl | rfl | rfl <;> exact ⟨rfl, rfl⟩

/-- A code that is none of the read-type ones without parameters takes no row by its code byte. -/
theorem readRow_of_ne {b : Byte} (hstatus : b ≠ 0x10#8) (hidentity : b ≠ 0x11#8) (hnotice : b ≠ 0x12#8) :
    readRow b [] = none := by
  unfold readRow
  split
  · next h _ => exact absurd (BitVec.eq_of_toNat_eq h) hstatus
  · next h _ => exact absurd (BitVec.eq_of_toNat_eq h) hidentity
  · next h _ => exact absurd (BitVec.eq_of_toNat_eq h) hnotice
  · next h => cases h
  · next h => cases h
  · next h => cases h
  · next h => cases h
  · rfl

/-- The write-type codes (10.3). -/
theorem readRow_of_writeType {b : Byte}
    (h : b ∈ [0x20#8, 0x30#8, 0x31#8, 0x32#8, 0x3C#8, 0x40#8, 0x41#8, 0x42#8, 0x43#8, 0x44#8, 0x45#8, 0x46#8]) :
    readRow b [] = none ∧ (readParameterBytes b).isSome = false ∧ commandCodes.contains b = true := by
  simp only [List.mem_cons, List.not_mem_nil, or_false] at h
  rcases h with rfl | rfl | rfl | rfl | rfl | rfl | rfl | rfl | rfl | rfl | rfl | rfl <;> exact ⟨rfl, rfl, rfl⟩

theorem readRow_of_unknown {b : Byte} (h : b ∉ commandCodes) :
    readRow b [] = none ∧ (readParameterBytes b).isSome = false ∧ commandCodes.contains b = false := by
  have hcontains : commandCodes.contains b = false := by
    rw [List.contains_eq_mem]
    exact decide_eq_false h
  simp only [commandCodes, List.mem_cons, not_or] at h
  obtain ⟨hstatus, hidentity, hnotice, hentry, hsubscribers, hbuffer, hslot, _⟩ := h
  have hparameters : readParameterBytes b = none := by
    simp only [readParameterBytes, hentry, hsubscribers, hbuffer, hslot, or_self, if_false]
  exact ⟨readRow_of_ne hstatus hidentity hnotice, by rw [hparameters]; rfl, hcontains⟩

theorem isShortRead_of {c : Byte} {bytes : List Byte}
    (h : (c = 0x13#8 ∨ c = 0x14#8 ∨ c = 0x16#8) ∧ bytes.length < 1 ∨ c = 0x15#8 ∧ bytes.length < 2) :
    isShortRead c bytes = true := by
  obtain ⟨hc, hlen⟩ | ⟨rfl, hlen⟩ := h
  · have : readParameterBytes c = some 1 := if_pos hc
    simp only [isShortRead, this, hlen, decide_true]
  · exact decide_eq_true hlen

section Edges

variable {s : State}

theorem State.enqueue_of_empty (h : s.pending = []) (c : Instr) : s.enqueue c = { s with pending := [c] } := by
  rw [State.enqueue, h, List.nil_append]

/-! ## SCK rises -/

theorem State.sckRises_of_high (h : s.port.ssnLow = false) (mosi : Bool) : s.sckRises mosi = s :=
  if_neg (by rw [h]; decide)

theorem State.sckRises_of_deaf (h : s.port.ssnLow = true) (hphase : s.port.phase = .discarding ∨ ∃ cmd, s.port.phase = .answering cmd)
    (mosi : Bool) : s.sckRises mosi = s := by
  refine (if_pos h).trans ?_
  obtain hp | ⟨cmd, hp⟩ := hphase <;> rw [hp]

theorem State.sckRises_of_idle (h : s.port.ssnLow = true) (hphase : s.port.phase = .idle) (mosi : Bool) :
    s.sckRises mosi = s.untakenRises mosi := by
  refine (if_pos h).trans ?_
  rw [hphase]

theorem State.sckRises_of_partial (h : s.port.ssnLow = true)
    (hphase : s.port.phase = .code ∨ s.port.phase = .writing ∨ s.port.phase = .parameters) (hbits : s.port.bits.length < 7)
    (mosi : Bool) : s.sckRises mosi = { s with port := { s.port with bits := s.port.bits ++ [mosi] } } := by
  have hshort : (s.port.bits ++ [mosi]).length < 8 := by
    rw [List.length_append, List.length_singleton]
    omega
  refine (if_pos h).trans ?_
  obtain hp | hp | hp := hphase <;> rw [hp] <;> exact if_pos hshort

theorem not_short_of_portBits {bits : List Bool} {b : Byte} (h : bits = portBits b) : ¬bits.length < 8 := by
  rw [h]
  simp [portBits]

variable {mosi : Bool} {b : Byte}

theorem State.sckRises_of_code (h : s.port.ssnLow = true) (hphase : s.port.phase = .code)
    (hbits : s.port.bits ++ [mosi] = portBits b) : s.sckRises mosi = s.codeArrived b := by
  refine (if_pos h).trans ?_
  rw [hphase]
  exact (if_neg (not_short_of_portBits hbits)).trans (by rw [hbits, byteOfBits_portBits])

theorem State.sckRises_of_parameters (h : s.port.ssnLow = true) (hphase : s.port.phase = .parameters)
    (hbits : s.port.bits ++ [mosi] = portBits b) : s.sckRises mosi = s.parameterArrived b := by
  refine (if_pos h).trans ?_
  rw [hphase]
  exact (if_neg (not_short_of_portBits hbits)).trans (by rw [hbits, byteOfBits_portBits])

theorem State.sckRises_of_writing (h : s.port.ssnLow = true) (hphase : s.port.phase = .writing)
    (hbits : s.port.bits ++ [mosi] = portBits b) : s.sckRises mosi = s.writeArrived b := by
  refine (if_pos h).trans ?_
  rw [hphase]
  exact (if_neg (not_short_of_portBits hbits)).trans (by rw [hbits, byteOfBits_portBits])

/-! ## A byte arrives -/

theorem State.codeArrived_of_row (hqueue : s.pending = []) (hphase : s.port.phase = .code) {row : Instr}
    (hrow : readRow b [] = some row) :
    s.codeArrived b = { s with port := { s.port with bits := [], code := b }, pending := [row] } := by
  simp only [State.codeArrived, hrow, State.enqueue, hqueue, List.nil_append, hphase]

theorem State.codeArrived_of_parameters (hb : b ∈ [0x13#8, 0x14#8, 0x15#8, 0x16#8]) :
    s.codeArrived b = { s with port := { s.port with bits := [], code := b, phase := .parameters } } := by
  obtain ⟨hrow, hparameters⟩ := readRow_of_parameters hb
  simp only [State.codeArrived, hrow, hparameters, if_true]

theorem State.codeArrived_of_writeType
    (hb : b ∈ [0x20#8, 0x30#8, 0x31#8, 0x32#8, 0x3C#8, 0x40#8, 0x41#8, 0x42#8, 0x43#8, 0x44#8, 0x45#8, 0x46#8]) :
    s.codeArrived b = { s with port := { s.port with bits := [], code := b, phase := .writing } } := by
  obtain ⟨hrow, hparameters, hcode⟩ := readRow_of_writeType hb
  simp only [State.codeArrived, hrow, hparameters, hcode, if_true, Bool.false_eq_true, if_false]

theorem State.codeArrived_of_unknown (hqueue : s.pending = []) (hphase : s.port.phase = .code) (hb : b ∉ commandCodes) :
    s.codeArrived b = { s with port := { s.port with bits := [], code := b }, pending := [.unknownCommandCode (some b)] } := by
  obtain ⟨hrow, hparameters, hcode⟩ := readRow_of_unknown hb
  simp only [State.codeArrived, hrow, hparameters, hcode, Bool.false_eq_true, if_false, State.enqueue, hqueue,
    List.nil_append, hphase]

theorem State.parameterArrived_of_row (hqueue : s.pending = []) {row : Instr}
    (hrow : readRow s.port.code (s.port.bytes ++ [b]) = some row) : s.parameterArrived b =
      { s with port := { s.port with bits := [], bytes := s.port.bytes ++ [b] }, pending := [row] } := by
  simp only [State.parameterArrived, hrow, State.enqueue, hqueue, List.nil_append]

theorem State.parameterArrived_of_none (hrow : readRow s.port.code (s.port.bytes ++ [b]) = none) :
    s.parameterArrived b = { s with port := { s.port with bits := [], bytes := s.port.bytes ++ [b] } } := by
  simp only [State.parameterArrived, hrow]

/-! ## SCK falls -/

theorem State.sckFalls_of_high (h : s.port.ssnLow = false) : s.sckFalls = s := if_neg (by rw [h]; decide)

theorem State.sckFalls_of_idle (h : s.port.ssnLow = true) (hphase : s.port.phase = .idle) : s.sckFalls = s.untakenFalls := by
  refine (if_pos h).trans ?_
  rw [hphase]

theorem State.sckFalls_of_answering (h : s.port.ssnLow = true) {cmd : ReadCmd} (hphase : s.port.phase = .answering cmd) :
    s.sckFalls = s.nextAnswerBit cmd := by
  refine (if_pos h).trans ?_
  rw [hphase]

theorem State.sckFalls_of_silent (h : s.port.ssnLow = true)
    (hphase : s.port.phase = .code ∨ s.port.phase = .parameters ∨ s.port.phase = .writing ∨ s.port.phase = .discarding) :
    s.sckFalls = s := by
  refine (if_pos h).trans ?_
  obtain hp | hp | hp | hp := hphase <;> rw [hp]

theorem State.untakenFalls_of_answer {shifting : Bool} (h : s.port.untaken = .answer shifting) : s.untakenFalls =
    { s with port := { s.port with untaken := .answer true }, misoDraws := s.misoDraws + 1 } := by
  simp only [State.untakenFalls, h]

/-- The next bit of an answer that goes on without a claim or a fresh copy. -/
theorem State.nextAnswerBit_of_plain {cmd : ReadCmd} {n : Nat} (hn : s.port.nextOut cmd = n)
    (hstatus : ¬(cmd = .status ∧ n = 0 ∧ s.port.out.isSome = true)) (hbuffer : ¬(cmd = .buffer ∧ n = 0)) :
    s.nextAnswerBit cmd = { s with port := { s.port with out := some n } } := by
  simp only [State.nextAnswerBit, hn, hstatus, hbuffer, if_false]

theorem State.nextAnswerBit_of_relatch (hqueue : s.pending = []) (hn : s.port.nextOut .status = 0)
    (hout : s.port.out.isSome = true) :
    s.nextAnswerBit .status = { s with port := { s.port with out := some 0 }, pending := [.statusRelatch] } := by
  simp only [State.nextAnswerBit, hn, hout, and_self, if_true, State.enqueue, hqueue, List.nil_append]

theorem State.nextAnswerBit_of_claim (hqueue : s.pending = []) (hn : s.port.nextOut .buffer = 0) :
    s.nextAnswerBit .buffer = { s with port := { s.port with out := some 0 }, pending := [.hostByteRead] } := by
  simp only [State.nextAnswerBit, hn, reduceCtorEq, false_and, if_false, and_self, if_true, State.enqueue, hqueue,
    List.nil_append]

/-! ## SSN -/

theorem State.ssnFalls_of_low (h : s.port.ssnLow = true) : s.ssnFalls = s := if_pos h

theorem State.ssnFalls_of_high (h : s.port.ssnLow = false) :
    s.ssnFalls = { s with port := { s.port.begun with ssnLow := true, phase := .code } } := if_neg (by rw [h]; decide)

theorem State.ssnRises_of_high (h : s.port.ssnLow = false) (sa : Station) (rs : RateCode) : s.ssnRises sa rs = s :=
  if_neg (by rw [h]; decide)

theorem State.ssnRises_of_low (h : s.port.ssnLow = true) (sa : Station) (rs : RateCode) :
    s.ssnRises sa rs = (s.withSsn false).framingEnds sa rs := if_pos h

theorem State.framingEnds_of_idle (h : s.port.phase = .idle) (sa : Station) (rs : RateCode) : s.framingEnds sa rs = s := by
  simp only [State.framingEnds, h]

theorem State.framingEnds_of_answered (h : s.port.phase = .discarding ∨ ∃ cmd, s.port.phase = .answering cmd) (sa : Station)
    (rs : RateCode) : s.framingEnds sa rs = { s with port := s.port.begun } := by
  obtain hp | ⟨cmd, hp⟩ := h <;> simp only [State.framingEnds, hp]

theorem State.framingEnds_of_code (hqueue : s.pending = []) (h : s.port.phase = .code) (sa : Station) (rs : RateCode) :
    s.framingEnds sa rs = { s with pending := [.unknownCommandCode none] } := by
  simp only [State.framingEnds, h, State.enqueue_of_empty hqueue]

theorem State.framingEnds_of_parameters (hqueue : s.pending = []) (h : s.port.phase = .parameters) (sa : Station) (rs : RateCode) :
    s.framingEnds sa rs = { s with pending := [.readCommandShortFraming s.port.code s.port.bytes] } := by
  simp only [State.framingEnds, h, State.enqueue_of_empty hqueue]

theorem State.framingEnds_of_row (hqueue : s.pending = []) (h : s.port.phase = .writing) {sa : Station} {rs : RateCode}
    {row : Instr}
    (hrow : writeRow s.port.code s.port.bytes (!s.port.bits.isEmpty) sa rs = some row) :
    s.framingEnds sa rs = { s with pending := [row] } := by
  simp only [State.framingEnds, h, hrow, State.enqueue_of_empty hqueue]

end Edges

end Sys2Proof.Machine
end

section
/-! PROOFS. Write-type framings of a wrong length (R182), MISO (R180, R183, R184), and the framings of the host port: O13. -/

namespace Sys2Proof.Machine

/- One after another: many theorems elaborated at once take a thread each. -/
set_option Elab.async false

open Sys2Proof.Safety

/-! ## A wrong length (R182) -/

/-- A write-type framing refused for its length: the framing has ended, and nothing but the port has changed. -/
def State.lengthRefused (s : State) : State := { s with port := { s.port.begun with result := .badLength } }

section Length

variable {s : State} {bytes : List Byte} {ragged : Bool}

theorem State.writeType_of_not {exact : Bool} (h : exact = false) (act : State → ResultCode × State) :
    s.writeType exact act = s.lengthRefused := by
  rw [h]
  exact s.writeType_false act

theorem State.entryCommand_of_wrong (h : (ragged || decide (bytes.length ≠ 1)) = true)
    (act : EntryIdx → State → ResultCode × State) : s.entryCommand bytes ragged act = s.lengthRefused := by
  unfold State.entryCommand
  split
  · exact State.writeType_of_not (by simpa using h) _
  · exact State.writeType_of_not rfl _

theorem State.countCommand_of_wrong (h : (ragged || decide (bytes.length ≠ 2)) = true)
    (act : EntryIdx → Nat → State → ResultCode × State) : s.countCommand bytes ragged act = s.lengthRefused := by
  unfold State.countCommand
  split
  · exact State.writeType_of_not (by simpa using h) _
  · exact State.writeType_of_not rfl _

/-- The count of a command without bytes. -/
theorem bare_of_wrong (h : (ragged || decide (bytes.length ≠ 0)) = true) : (bytes.isEmpty && !ragged) = false := by
  cases ragged with
  | true => exact Bool.and_false _
  | false =>
    cases bytes with
    | nil => cases h
    | cons _ _ => rfl

/-- The count of WRITE_BUFFER. -/
theorem range_of_wrong (h : (ragged || decide (bytes.length < 3) || decide (66 < bytes.length)) = true) :
    (!ragged && decide (3 ≤ bytes.length ∧ bytes.length ≤ 66)) = false := by
  cases ragged with
  | true => rfl
  | false =>
    rw [Bool.false_or, Bool.or_eq_true, decide_eq_true_eq, decide_eq_true_eq] at h
    exact decide_eq_false fun hrange => by omega

/-- A write-type framing of a wrong length is refused for it, whatever its command (R182). -/
theorem exec_of_wrongLength (hheld : s.held = false) {c : Instr} (h : wrongLength c = true) :
    exec c s = .next s.lengthRefused := by
  cases c with
  | writeBuffer b r =>
    rw [exec_writeBuffer hheld, State.writeType_of_not (range_of_wrong h)]
  | setParameters b r =>
    rw [exec_setParameters hheld]
    refine congrArg Host.Outcome.next ?_
    split
    · exact State.writeType_of_not (by simpa [wrongLength] using h) _
    · exact State.writeType_of_not rfl _
  | goOnline b r => rw [exec_goOnline hheld, State.writeType_of_not (bare_of_wrong h)]
  | goOffline b r => rw [exec_goOffline hheld, State.writeType_of_not (bare_of_wrong h)]
  | reset b r sa rs => rw [exec_reset hheld, State.writeType_of_not (bare_of_wrong h)]
  | openProduce b r =>
    rw [exec_openProduce hheld]
    refine congrArg Host.Outcome.next ?_
    split
    · exact State.writeType_of_not (by simpa [wrongLength] using h) _
    · exact State.writeType_of_not rfl _
  | openConsume b r =>
    rw [exec_openConsume hheld]
    refine congrArg Host.Outcome.next ?_
    split
    · exact State.writeType_of_not (by simpa [wrongLength] using h) _
    · exact State.writeType_of_not rfl _
  | post b r => rw [exec_post hheld, State.countCommand_of_wrong h]
  | release b r => rw [exec_release hheld, State.countCommand_of_wrong h]
  | close b r => rw [exec_close hheld, State.entryCommand_of_wrong h]
  | abort b r => rw [exec_abort hheld, State.entryCommand_of_wrong h]
  | free b r => rw [exec_free hheld, State.entryCommand_of_wrong h]
  | _ => cases h

end Length

/-! ## Framings that carry no command -/

theorem exec_unknownCommandCode_of_unknown {s : State} (h : s.held = false) {c : Byte} (hc : c ∉ commandCodes) :
    exec (.unknownCommandCode (some c)) s = .next
      { s with port := { s.port.begun with ssnLow := true, phase := .discarding, result := .badCommand } } := by
  rw [exec_unknownCommandCode h]
  exact congrArg Host.Outcome.next (if_neg (by simpa using hc))

theorem exec_unknownCommandCode_of_none {s : State} (h : s.held = false) :
    exec (.unknownCommandCode none) s = .next { s with port := s.port.begun } := exec_unknownCommandCode h none

theorem exec_readCommandShortFraming_of_short {s : State} (h : s.held = false) {c : Byte} {bytes : List Byte}
    (hshort : isShortRead c bytes = true) : exec (.readCommandShortFraming c bytes) s = .next s.lengthRefused :=
  (exec_readCommandShortFraming h c bytes).trans (congrArg Host.Outcome.next (if_pos hshort))

/-! ## MISO -/

section Miso

variable {s : State}

theorem State.misoHighZ_of_free (hheld : s.held = false) : s.misoHighZ = !s.port.ssnLow := by
  obtain ⟨hrstn, hpower⟩ := s.free_iff.mp hheld
  simp [State.misoHighZ, hrstn, hpower]

theorem State.miso_none_iff (hheld : s.held = false) : s.miso = none ↔ s.port.ssnLow = false := by
  unfold State.miso
  rw [State.misoHighZ_of_free hheld]
  cases s.port.ssnLow
  · simp
  · simp only [Bool.not_true, Bool.false_eq_true, if_false]
    split <;> simp

theorem State.miso_of_no_answer (hheld : s.held = false) (hssn : s.port.ssnLow = true) (hidle : s.port.phase ≠ .idle)
    (hno : (∀ cmd, s.port.phase ≠ .answering cmd) ∨ s.port.out = none) : s.miso = some false := by
  unfold State.miso
  rw [State.misoHighZ_of_free hheld, hssn]
  refine (if_neg (by decide)).trans ?_
  split
  · next hp ho => exact hno.elim (fun h => absurd hp (h _)) (fun h => by cases h.symm.trans ho)
  · next hp => exact absurd hp hidle
  · rfl

theorem State.miso_of_answer (hheld : s.held = false) (hssn : s.port.ssnLow = true) {cmd : ReadCmd} {n : Nat}
    (hphase : s.port.phase = .answering cmd) (hout : s.port.out = some n) : s.miso = some (s.misoBit n) := by
  unfold State.miso
  rw [State.misoHighZ_of_free hheld, hssn, hphase, hout]
  rfl

theorem portBits_getElem? (b : Byte) {k : Nat} (h : k < 8) : (portBits b)[k]? = some (b.getLsbD (7 - k)) := by
  interval_cases k <;> rfl

theorem State.misoBit_of_byte {n : Nat} {b : Byte} (h : s.port.answer[n / 8]? = some b) :
    some (s.misoBit n) = (portBits b)[n % 8]? := by
  rw [portBits_getElem? b (Nat.mod_lt _ (by decide)), State.misoBit, State.misoByte, h]
  rfl

theorem State.misoBit_past {n : Nat} (h : 8 * s.port.answer.length ≤ n) : s.misoBit n = false := by
  have hend : s.port.answer.length ≤ n / 8 := by omega
  rw [State.misoBit, State.misoByte_of_length_le hend]
  exact BitVec.getLsbD_zero

end Miso

/-! ## The pins of the host port -/

section Pins

variable {s t : State}

theorem onPin_sckRise (hheld : s.held = false) (hnow : s.atOnce = none) (hqueue : s.pending = []) {mosi : Bool}
    (h : ∀ rest, State.sckRises { s with pins := rest } mosi = { t with pins := rest }) : onPin s t (.sckRise mosi) :=
  onPin_of_free (.inr hnow) hqueue fun rest => (if_neg (Bool.eq_false_iff.mp hheld)).trans (h rest)

theorem onPin_sckFall (hheld : s.held = false) (hnow : s.atOnce = none) (hqueue : s.pending = [])
    (h : ∀ rest, State.sckFalls { s with pins := rest } = { t with pins := rest }) : onPin s t .sckFall :=
  onPin_of_free (.inr hnow) hqueue fun rest => (if_neg (Bool.eq_false_iff.mp hheld)).trans (h rest)

theorem onPin_ssnFall (hheld : s.held = false) (hnow : s.atOnce = none) (hqueue : s.pending = [])
    (h : ∀ rest, State.ssnFalls { s with pins := rest } = { t with pins := rest }) : onPin s t .ssnFall :=
  onPin_of_free (.inr hnow) hqueue fun rest => (if_neg (Bool.eq_false_iff.mp hheld)).trans (h rest)

theorem onPin_ssnRise (hheld : s.held = false) (hnow : s.atOnce = none) (hqueue : s.pending = []) {sa : Station}
    {rs : RateCode} (h : ∀ rest, State.ssnRises { s with pins := rest } sa rs = { t with pins := rest }) :
    onPin s t (.ssnRise sa rs) :=
  onPin_of_free (.inr hnow) hqueue fun rest => (if_neg (Bool.eq_false_iff.mp hheld)).trans (h rest)

/-! With SSN low: the eighth bit of a byte, a fall of SCK in an answer, and the end of a framing. -/

variable (hheld : s.held = false) (hnow : s.atOnce = none) (hqueue : s.pending = []) (hlow : s.port.ssnLow = true)
include hheld hnow hqueue hlow

theorem onPin_codeArrived {mosi : Bool} {b : Byte} (hphase : s.port.phase = .code) (hbits : s.port.bits ++ [mosi] = portBits b)
    (h : ∀ rest, State.codeArrived { s with pins := rest } b = { t with pins := rest }) : onPin s t (.sckRise mosi) :=
  onPin_sckRise hheld hnow hqueue fun rest =>
    (State.sckRises_of_code (s := { s with pins := rest }) hlow hphase hbits).trans (h rest)

theorem onPin_codeArrived_row {mosi : Bool} {b : Byte} (hphase : s.port.phase = .code)
    (hbits : s.port.bits ++ [mosi] = portBits b) {row : Instr} (hrow : readRow b [] = some row) :
    onPin s { s with port := { s.port with bits := [], code := b }, pending := [row] } (.sckRise mosi) :=
  onPin_codeArrived hheld hnow hqueue hlow hphase hbits fun rest =>
    State.codeArrived_of_row (s := { s with pins := rest }) hqueue hphase hrow

theorem onPin_parameterArrived {mosi : Bool} {b : Byte} (hphase : s.port.phase = .parameters)
    (hbits : s.port.bits ++ [mosi] = portBits b)
    (h : ∀ rest, State.parameterArrived { s with pins := rest } b = { t with pins := rest }) : onPin s t (.sckRise mosi) :=
  onPin_sckRise hheld hnow hqueue fun rest =>
    (State.sckRises_of_parameters (s := { s with pins := rest }) hlow hphase hbits).trans (h rest)

theorem onPin_parameterArrived_row {mosi : Bool} {b : Byte} (hphase : s.port.phase = .parameters)
    (hbits : s.port.bits ++ [mosi] = portBits b) {row : Instr}
    (hrow : readRow s.port.code (s.port.bytes ++ [b]) = some row) :
    onPin s { s with port := { s.port with bits := [], bytes := s.port.bytes ++ [b] }, pending := [row] } (.sckRise mosi) :=
  onPin_parameterArrived hheld hnow hqueue hlow hphase hbits fun rest =>
    State.parameterArrived_of_row (s := { s with pins := rest }) hqueue hrow

theorem onPin_answerBit {cmd : ReadCmd} (hphase : s.port.phase = .answering cmd)
    (h : ∀ rest, State.nextAnswerBit { s with pins := rest } cmd = { t with pins := rest }) : onPin s t .sckFall :=
  onPin_sckFall hheld hnow hqueue fun rest =>
    (State.sckFalls_of_answering (s := { s with pins := rest }) hlow hphase).trans (h rest)

theorem onPin_framingEnds {sa : Station} {rs : RateCode}
    (h : ∀ rest, State.framingEnds (State.withSsn { s with pins := rest } false) sa rs = { t with pins := rest }) :
    onPin s t (.ssnRise sa rs) :=
  onPin_ssnRise hheld hnow hqueue fun rest =>
    (State.ssnRises_of_low (s := { s with pins := rest }) hlow sa rs).trans (h rest)

end Pins

/-- The row of a write-type command, by its code (10.3). -/
theorem writeRow_of_mem {code : Byte} {bytes : List Byte} {bits : List Bool} {sa : Station} {rs : RateCode} {row : Instr}
    (h : let ragged := decide (bits ≠ [])
      (code, row) ∈ [(0x20#8, Instr.writeBuffer bytes ragged), (0x30#8, .setParameters bytes ragged),
        (0x31#8, .goOnline bytes ragged), (0x32#8, .goOffline bytes ragged), (0x3C#8, .reset bytes ragged sa rs),
        (0x40#8, .openProduce bytes ragged), (0x41#8, .openConsume bytes ragged), (0x42#8, .post bytes ragged),
        (0x43#8, .release bytes ragged), (0x44#8, .close bytes ragged), (0x45#8, .abort bytes ragged),
        (0x46#8, .free bytes ragged)]) :
    writeRow code bytes (!bits.isEmpty) sa rs = some row := by
  have hragged : (!bits.isEmpty) = decide (bits ≠ []) := by cases bits <;> rfl
  rw [hragged]
  simp only [List.mem_cons, Prod.mk.injEq, List.not_mem_nil, or_false] at h
  rcases h with ⟨rfl, rfl⟩ | ⟨rfl, rfl⟩ | ⟨rfl, rfl⟩ | ⟨rfl, rfl⟩ | ⟨rfl, rfl⟩ | ⟨rfl, rfl⟩ | ⟨rfl, rfl⟩ | ⟨rfl, rfl⟩
    | ⟨rfl, rfl⟩ | ⟨rfl, rfl⟩ | ⟨rfl, rfl⟩ | ⟨rfl, rfl⟩ <;> rfl

section NextOut

variable {p : Port} {n : Nat}

theorem Port.nextOut_of_none (h : p.out = none) (cmd : ReadCmd) : p.nextOut cmd = 0 := by simp only [Port.nextOut, h]

theorem Port.nextOut_status (h : p.out = some n) : p.nextOut .status = (n + 1) % 16 := by simp only [Port.nextOut, h]

theorem Port.nextOut_buffer (h : p.out = some n) : p.nextOut .buffer = (n + 1) % 8 := by simp only [Port.nextOut, h]

theorem Port.nextOut_other (h : p.out = some n) {cmd : ReadCmd} (hs : cmd ≠ .status) (hb : cmd ≠ .buffer) :
    p.nextOut cmd = min (n + 1) (8 * p.answer.length) := by
  cases cmd <;> simp only [Port.nextOut, h] <;> contradiction

end NextOut

/-! ## O13 -/

/-- Settles O13: the framings without a command, a wrong length, each edge at each phase of the port, and MISO. -/
theorem framingsFollowThePortStates : Obligations.FramingsFollowThePortStates := by
  intro s hheld
  refine ⟨fun c hc hc' => ?_, ?_, fun c bytes hshort => ?_, fun c hwrong => ?_, fun hnow hqueue => ?_,
    State.miso_none_iff hheld, State.miso_of_no_answer hheld, fun hssn hphase => ?_,
    fun cmd n b hssn hphase hout hb => ?_, fun cmd n hssn hphase hout hend => ?_⟩
  · have hunknown : c ∉ commandCodes := by
      have hall : commandCodes = [0x10#8, 0x11#8, 0x12#8, 0x13#8, 0x14#8, 0x15#8, 0x16#8, 0x20#8, 0x30#8, 0x31#8]
        ++ [0x32#8, 0x3C#8, 0x40#8, 0x41#8, 0x42#8, 0x43#8, 0x44#8, 0x45#8, 0x46#8] := rfl
      rw [hall, List.mem_append]
      exact not_or.mpr ⟨hc, hc'⟩
    refine ⟨_, exec_unknownCommandCode_of_unknown hheld hunknown, rfl, rfl, rfl, ?_, fun n => rfl⟩
    exact State.miso_of_no_answer hheld rfl nofun (.inr rfl)
  · exact ⟨_, exec_unknownCommandCode_of_none hheld, rfl, rfl, rfl, State.miso_of_highZ (.inr (.inr rfl))⟩
  · exact ⟨_, exec_readCommandShortFraming_of_short hheld (isShortRead_of hshort), rfl, rfl, rfl⟩
  · exact ⟨_, exec_of_wrongLength hheld hwrong, rfl, rfl, rfl⟩
  · intro p ported idle
    have hported q : ported q [] = { s with port := q } := by simp only [ported, ← hqueue]
    have hrise {t mosi} h := onPin_sckRise (t := t) (mosi := mosi) hheld hnow hqueue h
    have hfall {t} h := onPin_sckFall (t := t) hheld hnow hqueue h
    have hrelease {t sa rs} h := onPin_ssnRise (t := t) (sa := sa) (rs := rs) hheld hnow hqueue h
    simp only [hported]
    refine ⟨fun hhigh => ⟨?_, fun mosi => ?_, ?_, fun sa rs => ?_⟩, fun hlow => ?_, fun hlow => ⟨fun mosi hphase => ?_,
      fun hphase => ⟨fun mosi v hv => ?_, fun shifting hu => ?_, fun hno => ?_⟩, fun mosi hphase hbits => ?_,
      fun mosi b hbits hphase => ?_, fun mosi b hbits hphase => ?_, fun mosi b hbits hphase => ?_, fun sa rs => ?_,
      fun cmd hphase => ⟨fun hout hcmd => ?_, fun hout hcmd => ?_, fun n hout => ?_⟩, fun hphase => ?_⟩⟩
    · exact onPin_ssnFall hheld hnow hqueue fun rest => State.ssnFalls_of_high (s := { s with pins := rest }) hhigh
    · exact hrise fun rest => State.sckRises_of_high (s := { s with pins := rest }) hhigh mosi
    · exact hfall fun rest => State.sckFalls_of_high (s := { s with pins := rest }) hhigh
    · exact hrelease fun rest => State.ssnRises_of_high (s := { s with pins := rest }) hhigh sa rs
    · exact onPin_ssnFall hheld hnow hqueue fun rest => State.ssnFalls_of_low (s := { s with pins := rest }) hlow
    · exact hrise fun rest => State.sckRises_of_deaf (s := { s with pins := rest }) hlow hphase mosi
    · refine hrise fun rest => (State.sckRises_of_idle (s := { s with pins := rest }) hlow hphase mosi).trans ?_
      rw [← Untaken.clocked_of_next hv]
      rfl
    · exact hfall fun rest => (State.sckFalls_of_idle (s := { s with pins := rest }) hlow hphase).trans
        (State.untakenFalls_of_answer (s := { s with pins := rest }) hu)
    · exact hfall fun rest => (State.sckFalls_of_idle (s := { s with pins := rest }) hlow hphase).trans
        (State.untakenFalls_of_no_answer (s := { s with pins := rest }) hno)
    · exact hrise fun rest => State.sckRises_of_partial (s := { s with pins := rest }) hlow hphase hbits mosi
    · have hcode {t} h := onPin_codeArrived (t := t) hheld hnow hqueue hlow hphase hbits h
      have hrow {row} h := onPin_codeArrived_row (row := row) hheld hnow hqueue hlow hphase hbits h
      refine ⟨fun hb => hrow (hb ▸ rfl), fun hb => hrow (hb ▸ rfl), fun hb => hrow (hb ▸ rfl), fun hb => hcode fun rest =>
        State.codeArrived_of_parameters (s := { s with pins := rest }) hb, fun hb => hcode fun rest =>
        State.codeArrived_of_writeType (s := { s with pins := rest }) hb, fun hb => hcode fun rest =>
        State.codeArrived_of_unknown (s := { s with pins := rest }) hqueue hphase hb⟩
    · have hrow {row} h := onPin_parameterArrived_row (row := row) hheld hnow hqueue hlow hphase hbits h
      refine ⟨fun hc hb => hrow ?_, fun hc hb => hrow ?_, fun hc hb => hrow ?_, fun hc hb =>
        onPin_parameterArrived hheld hnow hqueue hlow hphase hbits fun rest =>
          State.parameterArrived_of_none (s := { s with pins := rest }) ?_, fun high hc hb => hrow ?_⟩
      · rw [hc, hb]; rfl
      · rw [hc, hb]; rfl
      · rw [hc, hb]; rfl
      · exact (congrArg₂ (fun c bs => readRow c (bs ++ [b])) hc hb).trans rfl
      · rw [hc, hb]; rfl
    · exact hrise fun rest => State.sckRises_of_writing (s := { s with pins := rest }) hlow hphase hbits
    · have hend {t} h := onPin_framingEnds (t := t) (sa := sa) (rs := rs) hheld hnow hqueue hlow h
      refine ⟨fun hphase => hend fun rest => ?_, fun hphase => hend fun rest => ?_, fun hphase => hend fun rest => ?_,
        fun hphase => hend fun rest => ?_, fun row hphase hrow => hend fun rest => ?_⟩
      · exact State.framingEnds_of_idle (s := State.withSsn { s with pins := rest } false) hphase sa rs
      · exact State.framingEnds_of_answered (s := State.withSsn { s with pins := rest } false) hphase sa rs
      · exact State.framingEnds_of_code (s := State.withSsn { s with pins := rest } false) hqueue hphase sa rs
      · exact State.framingEnds_of_parameters (s := State.withSsn { s with pins := rest } false) hqueue hphase sa rs
      · exact State.framingEnds_of_row (s := State.withSsn { s with pins := rest } false) hqueue hphase (writeRow_of_mem hrow)
    · exact onPin_answerBit hheld hnow hqueue hlow hphase fun rest =>
        State.nextAnswerBit_of_plain (s := { s with pins := rest }) (Port.nextOut_of_none hout cmd)
          (fun ⟨_, _, hsome⟩ => by rw [hout] at hsome; cases hsome) (fun ⟨hbuffer, _⟩ => hcmd hbuffer)
    · subst hcmd
      exact onPin_answerBit hheld hnow hqueue hlow hphase fun rest =>
        State.nextAnswerBit_of_claim (s := { s with pins := rest }) hqueue (Port.nextOut_of_none hout .buffer)
    · have hbit {t} h := onPin_answerBit (t := t) hheld hnow hqueue hlow hphase h
      have hplain (hn : p.nextOut cmd = n + 1) : onPin s { s with port := { p with out := some (n + 1) } } .sckFall :=
        hbit fun rest => State.nextAnswerBit_of_plain (s := { s with pins := rest }) hn nofun nofun
      refine ⟨fun hcmd hn => hplain ?_, fun hcmd hn => ?_, fun hcmd hn => hplain ?_, fun hcmd hn => ?_,
        fun hs hb hn => hplain ?_⟩
      · rw [hcmd, Port.nextOut_status hout, Nat.mod_eq_of_lt (by omega)]
      · subst hcmd hn
        exact hbit fun rest => State.nextAnswerBit_of_relatch (s := { s with pins := rest }) hqueue
          (Port.nextOut_status hout) (hout ▸ rfl)
      · rw [hcmd, Port.nextOut_buffer hout, Nat.mod_eq_of_lt (by omega)]
      · subst hcmd hn
        exact hbit fun rest => State.nextAnswerBit_of_claim (s := { s with pins := rest }) hqueue (Port.nextOut_buffer hout)
      · rw [Port.nextOut_other hout hs hb, Nat.min_eq_left hn]
    · exact hfall fun rest => State.sckFalls_of_silent (s := { s with pins := rest }) hlow hphase
  · obtain ⟨hrstn, hpower⟩ := s.free_iff.mp hheld
    rw [State.miso_of_idle hrstn (by rw [hpower]; decide) hssn hphase]
    exact ⟨fun hno => by rw [Untaken.miso_of_not_shifting hno], fun hyes => by rw [hyes]; rfl⟩
  · rw [State.miso_of_answer hheld hssn hphase hout, State.misoBit_of_byte hb]
  · rw [State.miso_of_answer hheld hssn hphase hout, State.misoBit_past hend]

end Sys2Proof.Machine
end

section
/-! PROOFS. A step on an empty queue: the events that come at once, and one bit time with the events due (R25, R124, R144, R145,
R154, R173): O2. -/

namespace Sys2Proof.Machine

/- One after another: many theorems elaborated at once take a thread each. -/
set_option Elab.async false

open Sys2Proof.Safety

/-! ## What comes at once -/

/-- A choice can be made (R154). -/
def State.hasChoice (s : State) : Prop := s.tx = .free ∧ s.station = .online ∧ s.candidate ≠ none

/-- A chosen frame can start (R144). -/
def State.hasGrant (s : State) : Prop :=
  s.station = .online ∧ s.line = .idle ∧ ∃ f g, s.tx = .chosen f g ∧ (s.round = .contention ∨ g = true)

section AtOnce

variable {s : State}

theorem State.choosable_isSome_iff (s : State) : s.choosable.isSome = true ↔ s.hasChoice := by
  unfold State.choosable State.hasChoice
  split
  · next h => simp only [h, true_and, Option.isSome_iff_ne_none]
  · next h => simp only [Option.isSome_none, Bool.false_eq_true, false_iff]; exact fun ⟨htx, hon, _⟩ => h ⟨htx, hon⟩

theorem State.startable_isSome_iff (h : s.handover = none) : s.startable.isSome = true ↔ s.hasGrant := by
  unfold State.startable State.hasGrant
  split
  · next f g htx =>
    split
    · next hg =>
      obtain ⟨hon, hidle, hround, _⟩ := hg
      exact iff_of_true rfl ⟨hon, hidle, f, g, htx, hround⟩
    · next hg =>
      refine iff_of_false nofun ?_
      rintro ⟨hon, hidle, f', g', htx', hround⟩
      cases htx.symm.trans htx'
      exact hg ⟨hon, hidle, hround, h⟩
  · next hno => exact iff_of_false nofun fun ⟨_, _, f, g, htx, _⟩ => hno f g htx

theorem State.atOnce_of_handover {f : TxFrame} (h : s.handover = some f) : s.atOnce = some f.completion := by
  simp only [State.atOnce, h]

theorem State.atOnce_of_ready (hhand : s.handover = none) {f : Frame} (h : s.rx.ready = some f) :
    s.atOnce = some (frameRow f) := by
  simp only [State.atOnce, hhand, h]

theorem State.atOnce_of_none (hhand : s.handover = none) (hready : s.rx.ready = none) : s.atOnce =
    if s.choosable.isSome then some .schedulerChoice else if s.startable.isSome then some .transmitStart else none := by
  simp only [State.atOnce, hhand, hready]

theorem State.atOnce_of_choice (hhand : s.handover = none) (hready : s.rx.ready = none) (h : s.hasChoice) :
    s.atOnce = some .schedulerChoice := by
  rw [State.atOnce_of_none hhand hready, if_pos (s.choosable_isSome_iff.mpr h)]

theorem State.atOnce_of_grant (hhand : s.handover = none) (hready : s.rx.ready = none) (h : s.hasGrant) :
    s.atOnce = some .transmitStart := by
  have hno : ¬s.hasChoice := fun ⟨hfree, _⟩ => by
    obtain ⟨_, _, f, g, htx, _⟩ := h
    cases htx.symm.trans hfree
  rw [State.atOnce_of_none hhand hready, if_neg (mt s.choosable_isSome_iff.mp hno),
    if_pos ((State.startable_isSome_iff hhand).mpr h)]

theorem State.atOnce_of_nothing (hhand : s.handover = none) (hready : s.rx.ready = none) (hchoice : ¬s.hasChoice)
    (hgrant : ¬s.hasGrant) : s.atOnce = none := by
  rw [State.atOnce_of_none hhand hready, if_neg (mt s.choosable_isSome_iff.mp hchoice),
    if_neg (mt (State.startable_isSome_iff hhand).mp hgrant)]

/-- What comes at once is queued, and no time passes. -/
theorem step_of_atOnce (hqueue : s.pending = []) (hheld : s.held = false) {c : Instr} (h : s.atOnce = some c) :
    step s = .next { s with pending := [c] } := by
  rw [step_empty s hqueue, State.idle_atOnce s c hheld h]

end AtOnce

/-! ## The events due -/

section Due

variable {s : State} {c : Instr}

theorem State.mem_completionDue (s : State) (c : Instr) : c ∈ s.completionDue ↔
    ∃ f cs bits rd o, s.tx = .sending f cs bits rd o ∧ 11 * cs.length ≤ bits ∧ c = f.completion := by
  unfold State.completionDue State.driven
  rcases s.tx with _ | ⟨f, g⟩ | ⟨f, cs, b, rd, o⟩
  · simp
  · simp
  · by_cases hb : 11 * cs.length ≤ b
    · simp [Config.charBits, hb]
    · simp [Config.charBits, hb]

theorem Entry.expiry_iff (e : Entry) (i : EntryIdx) (c : Instr) : e.expiry i = some c ↔
    (e.state = .producing ∨ e.state = .closing) ∧ (if e.prod.ring = [] then c = .holdTimerExpiry i else c = .ackTimerExpiry i)
    ∨ e.state = .joining ∧ c = .joinTimerExpiry i
    ∨ e.state = .receiving ∧ c = .silenceTimerExpiry i := by
  unfold Entry.expiry
  cases e.state <;> cases e.prod.ring <;> simp [eq_comm]

theorem State.mem_expiriesDue (s : State) (c : Instr) : c ∈ s.expiriesDue ↔
    ∃ i, s.station = .online ∧ (s.entry i).timer = .running 0
      ∧ (((s.entry i).state = .producing ∨ (s.entry i).state = .closing)
          ∧ (if (s.entry i).prod.ring = [] then c = .holdTimerExpiry i else c = .ackTimerExpiry i)
        ∨ (s.entry i).state = .joining ∧ c = .joinTimerExpiry i
        ∨ (s.entry i).state = .receiving ∧ c = .silenceTimerExpiry i) := by
  simp only [State.expiriesDue, List.mem_filterMap, Option.ite_none_right_eq_some, State.timerDone_iff, Entry.expiry_iff]
  exact ⟨fun ⟨i, _, ⟨hon, hzero⟩, h⟩ => ⟨i, hon, hzero, h⟩, fun ⟨i, hon, hzero, h⟩ => ⟨i, List.mem_finRange i, ⟨hon, hzero⟩, h⟩⟩

theorem mem_if_singleton {p : Prop} [Decidable p] {c d : Instr} : c ∈ (if p then [d] else []) ↔ p ∧ c = d := by
  by_cases h : p <;> simp [h]

theorem State.receiverGapDue_iff (s : State) : s.receiverGapDue = true ↔
    s.rx.gap = some 33 ∧ (s.rx.state = .assembling ∨ s.rx.state = .skipping ∨ s.rx.state = .sync) := by
  simp [State.receiverGapDue, Config.idleGapBits, or_assoc]

theorem State.slotDue_iff (s : State) : s.slotDue = true ↔ ∃ o r k elapsed, s.round = .slot o r k elapsed ∧ 22 ≤ elapsed := by
  unfold State.slotDue
  cases s.round with
  | slot o r k elapsed =>
    exact decide_eq_true_iff.trans ⟨fun h => ⟨o, r, k, elapsed, rfl, h⟩, fun ⟨_, _, _, _, hr, h⟩ => by cases hr; exact h⟩
  | _ => simp

/-- The events due, by what makes each due. -/
theorem State.mem_dueEvents (s : State) (c : Instr) : c ∈ s.dueEvents ↔
    c ∈ s.completionDue ∨ characterTaken s.rx.char c ∨ c ∈ s.expiriesDue
    ∨ (s.rx.gap = some 33 ∧ (s.rx.state = .assembling ∨ s.rx.state = .skipping ∨ s.rx.state = .sync) ∧ c = .receiverIdleGap)
    ∨ (s.lineGap = some 33 ∧ s.csnAsserted = false ∧ s.rxdLow = false ∧ c = .lineIdle)
    ∨ (∃ o r k elapsed, s.round = .slot o r k elapsed ∧ 22 ≤ elapsed ∧ c = .slotEnd)
    ∨ (s.quiet = some 0 ∧ c = .quietTimerExpiry) := by
  have hslot : (∃ o r k elapsed, s.round = .slot o r k elapsed ∧ 22 ≤ elapsed ∧ c = .slotEnd)
      ↔ (∃ o r k elapsed, s.round = .slot o r k elapsed ∧ 22 ≤ elapsed) ∧ c = .slotEnd := by
    constructor
    · rintro ⟨o, r, k, el, hr, hel, hc⟩
      exact ⟨⟨o, r, k, el, hr, hel⟩, hc⟩
    · rintro ⟨⟨o, r, k, el, hr, hel⟩, hc⟩
      exact ⟨o, r, k, el, hr, hel, hc⟩
  simp only [State.dueEvents, List.mem_append, Assembler.mem_due, mem_if_singleton, State.receiverGapDue_iff,
    State.gapPassed_iff, State.slotDue_iff, beq_iff_eq, hslot, or_assoc, and_assoc]

/-! ## Each once -/

/-- The kind of an event due, in the order in which the model queues them. -/
def dueKind : Instr → Nat
  | .transmitCollision _ _ => 0
  | .lineBusy _ => 2
  | .collisionSeen _ => 2
  | .markedCharacter _ => 2
  | .unmarkedCharacter _ => 2
  | .ackTimerExpiry _ => 3
  | .holdTimerExpiry _ => 3
  | .joinTimerExpiry _ => 3
  | .silenceTimerExpiry _ => 3
  | .receiverIdleGap => 4
  | .lineIdle => 5
  | .slotEnd => 6
  | .quietTimerExpiry => 7
  | _ => 1

/-- Events queued each once, none of a kind as late as n. -/
def OnceBefore (n : Nat) (l : List Instr) : Prop := l.Nodup ∧ ∀ c ∈ l, dueKind c < n

theorem OnceBefore.append {n : Nat} {l l' : List Instr} (h : OnceBefore n l) (hnodup : l'.Nodup)
    (hkind : ∀ c ∈ l', dueKind c = n) : OnceBefore (n + 1) (l ++ l') := by
  obtain ⟨hl, hbefore⟩ := h
  refine ⟨List.nodup_append.mpr ⟨hl, hnodup, fun c hc d hd heq => ?_⟩, fun c hc => ?_⟩
  · have hlt := hbefore c hc
    rw [heq, hkind d hd] at hlt
    exact absurd hlt (Nat.lt_irrefl n)
  · rcases List.mem_append.mp hc with hc | hc
    · exact Nat.lt_succ_of_lt (hbefore c hc)
    · exact Nat.lt_succ_of_le (hkind c hc).le

theorem OnceBefore.append_if {n : Nat} {l : List Instr} (h : OnceBefore n l) {p : Prop} [Decidable p] {d : Instr}
    (hkind : dueKind d = n) : OnceBefore (n + 1) (l ++ if p then [d] else []) := by
  refine h.append ?_ fun c hc => ?_
  · split
    · exact List.nodup_singleton d
    · exact List.nodup_nil
  · rw [(mem_if_singleton.mp hc).2, hkind]

theorem State.nodup_readbackDue (s : State) : s.readbackDue.Nodup := by
  unfold State.readbackDue
  split
  · split
    · exact List.nodup_singleton _
    · exact List.nodup_nil
  · exact List.nodup_nil

theorem State.nodup_completionDue (s : State) : s.completionDue.Nodup := by
  unfold State.completionDue
  split
  · exact List.nodup_singleton _
  · exact List.nodup_nil

theorem Assembler.nodup_due (a : Assembler) : a.due.Nodup := by
  unfold Assembler.due
  split
  · exact List.nodup_nil
  · exact List.nodup_singleton _
  · split_ifs <;> simp

theorem dueKind_completion (f : TxFrame) : dueKind f.completion = 1 := by
  rcases f with ⟨_, _ | _, _, _, _, _, _⟩ | _ | _ | _ | _ | _ <;> rfl

theorem dueKind_of_characterTaken {a : Assembler} (h : characterTaken a c) : dueKind c = 2 := by
  rcases h with ⟨_, rfl⟩ | ⟨d, mark, stop, _, rfl⟩
  · rfl
  · split_ifs <;> rfl

/-- The entry whose timer an expiry is of. -/
def expiryOf : Instr → Option EntryIdx
  | .ackTimerExpiry i => some i
  | .holdTimerExpiry i => some i
  | .joinTimerExpiry i => some i
  | .silenceTimerExpiry i => some i
  | _ => none

theorem Entry.kind_of_expiry {e : Entry} {i : EntryIdx} (h : e.expiry i = some c) : dueKind c = 3 ∧ expiryOf c = some i := by
  rcases (e.expiry_iff i c).mp h with ⟨_, hc⟩ | ⟨_, rfl⟩ | ⟨_, rfl⟩
  · split_ifs at hc <;> exact hc ▸ ⟨rfl, rfl⟩
  · exact ⟨rfl, rfl⟩
  · exact ⟨rfl, rfl⟩

theorem State.expiry_of_due {i : EntryIdx} (h : c ∈ if s.timerDone i then (s.entry i).expiry i else none) :
    (s.entry i).expiry i = some c := (Option.ite_none_right_eq_some.mp h).2

theorem State.nodup_expiriesDue (s : State) : s.expiriesDue.Nodup := by
  refine (List.nodup_finRange 12).filterMap fun i j c hi hj => ?_
  obtain ⟨_, hi⟩ := Entry.kind_of_expiry (State.expiry_of_due hi)
  obtain ⟨_, hj⟩ := Entry.kind_of_expiry (State.expiry_of_due hj)
  exact Option.some.inj (hi.symm.trans hj)

theorem State.kind_of_expiriesDue (h : c ∈ s.expiriesDue) : dueKind c = 3 := by
  obtain ⟨i, _, hi⟩ := List.mem_filterMap.mp h
  exact (Entry.kind_of_expiry (State.expiry_of_due hi)).1

/-- The events due at the end of a bit time are queued each once. -/
theorem nodup_due (s t : State) : (s.readbackDue ++ t.dueEvents).Nodup := by
  have hreadback : OnceBefore 1 s.readbackDue := by
    refine ⟨s.nodup_readbackDue, fun c hc => ?_⟩
    obtain ⟨_, _, _, _, _, _, _, _, _, rfl⟩ := (s.mem_readbackDue c).mp hc
    exact Nat.zero_lt_one
  have hcompletion := hreadback.append t.nodup_completionDue fun c hc => by
    obtain ⟨f, _, _, _, _, _, _, rfl⟩ := (t.mem_completionDue c).mp hc
    exact dueKind_completion f
  have hcharacter := hcompletion.append t.rx.char.nodup_due fun c hc =>
    dueKind_of_characterTaken ((t.rx.char.mem_due c).mp hc)
  have hexpiries := hcharacter.append t.nodup_expiriesDue fun c hc => State.kind_of_expiriesDue hc
  have hgap := hexpiries.append_if (p := t.receiverGapDue = true) (d := .receiverIdleGap) rfl
  have hidle := hgap.append_if (p := t.gapPassed = true) (d := .lineIdle) rfl
  have hslot := hidle.append_if (p := t.slotDue = true) (d := .slotEnd) rfl
  have hquiet := hslot.append_if (p := (t.quiet == some 0) = true) (d := .quietTimerExpiry) rfl
  simpa only [State.dueEvents, List.append_assoc] using hquiet.1

end Due

/-! ## One bit time -/

/-- The counters after one bit time, as the statements name them. -/
theorem State.advance_eq (s : State) : s.advance = { s with
    msPhase := if 125 * 2 ^ s.rate.toNat ≤ s.msPhase + 1 then 0 else s.msPhase + 1
    entries := s.advance.entries
    quiet := s.quiet.map (fun n => n - 1)
    lineGap := s.gapAdvance
    rxdSteady := !s.rxdLow && s.txd
    rx := { s.rx with
      gap := s.rx.gap.map (countUp 33)
      char := if s.rx.state = .off ∨ s.rx.state = .suspended then s.rx.char
        else bitTaken s.rx.char s.rxdLow s.csnAsserted }
    round := s.round.tick
    tx := s.tx.tick } := by
  have hmark : (if s.atMark then 0 else s.msPhase + 1)
      = if 125 * 2 ^ s.rate.toNat ≤ s.msPhase + 1 then 0 else s.msPhase + 1 := by
    simp only [State.atMark, decide_eq_true_eq]
    rfl
  have hrx : s.rx.advance s.rxdLow s.csnAsserted = { s.rx with
      gap := s.rx.gap.map (countUp 33)
      char := if s.rx.state = .off ∨ s.rx.state = .suspended then s.rx.char
        else bitTaken s.rx.char s.rxdLow s.csnAsserted } := by
    rw [Receiver.advance, Assembler.sample_eq]
    rfl
  rw [← hmark, ← hrx]
  rfl

theorem State.timer_advance (s : State) (i : EntryIdx) : s.advance.entry i = { s.entry i with
    timer := if s.station = .online ∧ 125 * 2 ^ s.rate.toNat ≤ s.msPhase + 1 then (s.entry i).timer.tick
      else (s.entry i).timer } := by
  have hmark : (s.atMark && s.station == .online) = true
      ↔ s.station = .online ∧ 125 * 2 ^ s.rate.toNat ≤ s.msPhase + 1 := by
    rw [Bool.and_eq_true, beq_iff_eq, and_comm]
    exact and_congr_right fun _ => decide_eq_true_iff
  simp only [State.entry_advance, hmark]

/-- Settles O2: held, what comes at once, and one bit time with what is due at its end. -/
theorem emptyQueueLetsTimePass : Obligations.EmptyQueueLetsTimePass := by
  intro s hqueue choice grant mark further
  refine ⟨fun hheld hpins => ?_, fun hheld f hhand => ?_, fun hheld hhand f hready => ?_, fun hheld hhand hready hchoice => ?_,
    fun hheld hhand hready hgrant => ?_, fun hheld hhand hready hchoice hgrant hpins => ?_⟩
  · rw [step_empty s hqueue, s.idle_held hheld hpins]
  · exact step_of_atOnce hqueue hheld (State.atOnce_of_handover hhand)
  · exact step_of_atOnce hqueue hheld (State.atOnce_of_ready hhand hready)
  · exact step_of_atOnce hqueue hheld (State.atOnce_of_choice hhand hready hchoice)
  · exact step_of_atOnce hqueue hheld (State.atOnce_of_grant hhand hready hgrant)
  · have hnothing := State.atOnce_of_nothing hhand hready hchoice hgrant
    refine ⟨_, (step_empty s hqueue).trans (congrArg _ (s.idle_bitTime hheld hnothing hpins)), ?_, fun i => ?_, nodup_due _ _,
      fun c => ?_⟩
    · refine (congrArg (fun u : State => { u with pending := s.readbackDue ++ s.advance.dueEvents }) s.advance_eq).trans ?_
      simp only [State.gapAdvance, Bool.or_eq_true]
      cases s.lineGap <;> cases s.round <;> cases s.tx <;> rfl
    · refine (s.timer_advance i).trans ?_
      cases (s.entry i).timer with
      | stopped => exact congrArg (fun x => { s.entry i with timer := x }) (ite_self _)
      | running ms => rfl
    · rw [List.mem_append, s.mem_readbackDue, State.mem_dueEvents, State.mem_completionDue, State.mem_expiriesDue]
      exact or_left_comm

end Sys2Proof.Machine
end
